-- ==== Sys2Proof/Word.lean ====
section
/-! DEFINITION. The plain words of the model: bytes, the numbered instances the manual names, bit-field reading. -/

namespace Sys2Proof

abbrev Byte := BitVec 8
abbrev Word32 := BitVec 32
abbrev Word64 := BitVec 64
abbrev Word128 := BitVec 128
/-- A ply, a job, a descriptor, a flit: 64 bytes. -/
abbrev Line := BitVec 512
/-- What one frame puts on the eight lanes of a link: 136 symbols of 10 bits each, symbol k of a lane at bits [10k+9:10k] (R279). -/
abbrev Lanes := Vector (BitVec 1360) 8
/-- What four of the lanes carry. -/
abbrev HalfLanes := Vector (BitVec 1360) 4
/-- A V register or a rail position, at the wider of the two register widths (R2, 1 KiB). -/
abbrev VReg := BitVec 8192

/-- Square index 0 to 63 (R11). -/
abbrev SqId := Fin 64
/-- Partition PART_0 to PART_15 (R365). -/
abbrev PartId := Fin 16
/-- PCI Express function; function n serves PART_n (R367). -/
abbrev FnId := Fin 16
/-- Copy engine CE_0 to CE_31. -/
abbrev CeId := Fin 32
/-- LINK_0 to LINK_11. -/
abbrev LinkId := Fin 12
/-- HBM_0 to HBM_5. -/
abbrev StackId := Fin 6
/-- Power domain number (R428). -/
abbrev DomId := Fin 28

/-- Bits [hi:lo] of a number. -/
def field (v lo width : Nat) : Nat := (v >>> lo) % 2 ^ width

/-- Bit n of a number. -/
def bitOf (v n : Nat) : Bool := v.testBit n

/-- Bits [hi:lo] of a bit vector as a number. -/
def bits {w : Nat} (v : BitVec w) (hi lo : Nat) : Nat := (v.toNat >>> lo) % 2 ^ (hi + 1 - lo)

/-- Bit n of a bit vector. -/
def bit {w : Nat} (v : BitVec w) (n : Nat) : Bool := v.getLsbD n

/-- Put the low `width` bits of `x` at bits [lo + width - 1 : lo]; the other bits stay. -/
def setBits {w : Nat} (v : BitVec w) (lo width x : Nat) : BitVec w :=
  let m := (2 ^ width - 1) <<< lo
  let old := v.toNat
  BitVec.ofNat w ((old - (old &&& m)) ||| ((x % 2 ^ width) <<< lo))

/-- Signed value of the low `width` bits. -/
def signedOf (width x : Nat) : Int :=
  let y := x % 2 ^ width
  if 2 * y < 2 ^ width then (y : Int) else (y : Int) - (2 ^ width : Nat)

/-- Two's-complement encoding of an integer in `width` bits (wraps). -/
def wrapInt (width : Nat) (x : Int) : Nat := (x % (2 ^ width : Nat)).toNat

/-- Quotient rounded up. -/
def ceilDiv (a b : Nat) : Nat := (a + b - 1) / b

def bool2nat (b : Bool) : Nat := if b then 1 else 0

end Sys2Proof
end

