-- ==== Sys2Proof/Syntax.lean ====
section
/-! DEFINITION. The commands of the chip: one constructor of Instr for each row of spec/opcode_table.json, with the row's operands.
An operand is either an instance the row names (a square, a partition, a link) or an input from outside the chip (a host access,
a temperature, a received frame, the outcome of a protected read). -/

namespace Sys2Proof

/-- Variant of the part (R1, `CHIP_ID`). -/
inductive Variant where
  | m | v
deriving DecidableEq, Repr

/-- Grade of the part (R1, `CHIP_ID`). -/
inductive Grade where
  | a | b
deriving DecidableEq, Repr

/-- The protected stores of R460. -/
inductive Store where
  | scratchpad | plyStore | recipeStore | mcMemory | registerFile | handleTable | endpointRegs
  | hbm (s : StackId) | flagPool | meshRouter | slotTable | copyEngine
deriving DecidableEq, Repr

/-- What the protected reads of a step found (R68, R460): an input, since errors come from outside the logic.
`loc` is the bank of a scratchpad read, otherwise the word. -/
inductive Ecc where
  | clean
  | corrected (st : Store) (loc : BitVec 32)
  | uncorrected (st : Store) (loc : BitVec 32)
deriving DecidableEq, Repr

/-- The bytes of one register that a host write enables: byte i of the register is bits [8i+7:8i] of `data`, written when bit i of `be` is 1 (R401, R404). -/
structure RegWr where
  fn : FnId
  be : BitVec 8
  data : Word64
deriving DecidableEq, Repr

/-- The bytes of one register that a host read covers (R403). -/
structure RegRd where
  fn : FnId
  be : BitVec 8
deriving DecidableEq, Repr

/-- Which BAR a host access addresses (R397). -/
inductive Bar where
  | bar0 | bar4
deriving DecidableEq, Repr

/-- The strap pins as the board holds them (R433). -/
structure StrapPins where
  boot : BitVec 2
  timing : Bool
  result : Bool
  pos : BitVec 8
  linkRate : Bool
  pcieWidth : Bool
  test : Bool
deriving DecidableEq, Repr

/-- The host's answer to a job fetch that goes wrong (R416). -/
inductive FetchErr where
  | timeout | error | poisoned
deriving DecidableEq, Repr

/-- A handle as a scoresheet lays it out (R82). -/
structure SheetHandle where
  n : Fin 256
  /-- `HDL_BASE[n]` as a register value. -/
  base : Word32
  /-- `HDL_LEN[n]` as a register value. -/
  len : Word32
  /-- Permission bits [8:4] of `HDL_CTL[n]`. -/
  ctl : Word32
deriving DecidableEq, Repr

/-- What a scoresheet holds for one placed square (02 Scoresheet loading, 07): each table entry is a register value in its register's layout. -/
structure SheetSquare where
  sq : SqId
  /-- The ply image, from ply 0. -/
  image : List Line
  /-- The entry ply. -/
  entry : Nat
  /-- Recipe steps: step number and the 128 bits RCP_K : RCP_CTL. -/
  recipes : List (Nat × Word128)
  handles : List SheetHandle
  /-- Outbound endpoint, `CHN_ROUTE`, `CHN_OUT`. -/
  outs : List (Fin 32 × Word64 × Word32)
  /-- Inbound endpoint, `CHN_IN`. -/
  ins : List (Fin 32 × Word32)
  /-- `HND_TABLE`. -/
  handlers : List (Fin 64 × Word32)
  /-- `FLG_WATCH`. -/
  watches : List (Fin 16 × Word32)
  /-- `MSH_SLOT[d][s]`. -/
  slots : List (Fin 6 × Fin 16 × Word32)
  /-- Message-core private memory: byte address and bytes from there on. -/
  mcMem : List (Nat × List Byte)
deriving DecidableEq, Repr

/-- What a scoresheet holds for one link (R282, R284). -/
structure SheetLink where
  link : LinkId
  /-- `LNK_SLOT[l][k]`. -/
  slots : List (Fin 19 × Word32)
  /-- `LNK_CH[l][c]`. -/
  chans : List (Fin 32 × Word64)
  /-- `LNK_IRT[l][c]`, `LNK_IRS[l][c]`. -/
  ingress : List (Fin 32 × Word64 × Word32)
  /-- Slots per frame of the partner's sheet that carry inbound channel c (R285). -/
  rxSlots : List (Fin 32 × Nat)
deriving DecidableEq, Repr

/-- A scoresheet as the loader reads it (02 Scoresheet loading). The spec gives no byte layout, so a command carries its contents (log 7). -/
structure Sheet where
  variant : Variant
  grade : Grade
  /-- Matrix latency class: 22 cc when true, 14 cc when false. -/
  class22 : Bool
  fixedLandings : Bool
  tag : Word64
  squares : List SheetSquare
  links : List SheetLink
  /-- Flags named by the sheet outside its plies (handlers, watches): flag and whether it is written. -/
  flags : List (Fin 8192 × Bool)
  /-- Logical HBM segments the sheet names. -/
  segments : List (Fin 64)
  /-- HBM address of the copy table and its entry count. -/
  copyTable : Word64
  copyCount : Nat
deriving DecidableEq, Repr

/-- Networks of the mesh (R202 NET). -/
inductive Net where
  | stream | request | reply
deriving DecidableEq, Repr

/-- Where a remote part lands (R308): at its sender, as a part of engine n, or at this chip, a destination, with the count LD that the descriptor gives it
(log 55). -/
inductive RemoteEnd where
  | sender (n : CeId)
  | destination (ld : Nat)
deriving DecidableEq, Repr

/-- Outcome of the protected reads of a step that may read several squares: an error of a scratchpad lies in square `sq`. -/
structure EccAt where
  ecc : Ecc
  sq : SqId
deriving DecidableEq, Repr

/-- The pause of partition `part` ends, its captures' reads having gone as `reads` says (R352, R356). -/
structure PauseEnd where
  part : PartId
  reads : EccAt
deriving DecidableEq, Repr

/-- A FETCH request as the second gets it (R363, log 56): the reserve's position, the failed chip's former position, the partition and GEN_NO. -/
structure FetchReq where
  reserve : BitVec 8
  fpos : BitVec 8
  part : PartId
  genNo : BitVec 32
deriving DecidableEq, Repr

/-- A turn of the snapshot engine on the links: the next beat of partition p's stream (R358); at a second, a FETCH request, or the next beat of the hold image
that it sends for partition p (R363; log 56). -/
inductive BuddyTurn where
  | stream (p : PartId) | fetch (r : FetchReq) | image (p : PartId)
deriving DecidableEq, Repr

/-- A memory write as the bus brings it (R411): poisoned, or sound. -/
inductive BusWrite where
  | poison
  | sound
deriving DecidableEq, Repr

/-- Requests of the BMC (R440, R436, R437): discovery and identity, a reset request, anything else, a malformed packet; and its reading of the messages that
await it (R482; log 106). -/
inductive MctpReq where
  | discovery | identity | resetRequest | firmwareUpdate | other | malformed | collect
deriving DecidableEq, Repr

/-- How a domain's training or self-test ends (R428): passed, failed, or passed but for the serving engines in it (R444; log 37). -/
inductive DomainTest where
  | passed | failed | withoutServing
deriving DecidableEq, Repr

/-- A voltage read back on AVSBus (R446, R453): its rail and mV. -/
structure RailRead where
  rail : Fin 2
  mv : Nat
deriving DecidableEq, Repr

/-- Where a firmware image that passed its check came from (R443): the flash at byte 0, the flash at 32 MiB, host push, SMBus. -/
inductive ImageSource where
  | flashLow | flashHigh | hostPush | smbus
deriving DecidableEq, Repr

/-- What causes a chip reset (R437). -/
inductive ChipRstCause where
  | kngCtl (w : RegWr) | mctp | pcieHotReset | pcieLinkDown
deriving DecidableEq, Repr

/-- What causes a power-on reset (R437, R488): `PWR_OK` rises or falls. -/
inductive PwrEdge where
  | rises | falls
deriving DecidableEq, Repr

/-- One of the three verdicts of a regulator alert report (R453). -/
inductive AlertEdge where
  | raised | cleared
deriving DecidableEq, Repr

/-- A grant as the King writes it (R188), in the layout of `FLG_GRANT[n]`. -/
structure GrantWr where
  n : Fin 64
  value : Word64
deriving DecidableEq, Repr

/-- Time stamps of a delay exchange in eighths of a ct (R302). -/
structure TimeStamps where
  t1 : Int
  t2 : Int
  t3 : Int
  t4 : Int
deriving DecidableEq, Repr

/-- THE COMMANDS: one constructor for each row of spec/opcode_table.json, in the table's order. -/
inductive Instr where
  /-- PLY_ISSUE (R36): square `sq` has an issue cycle. -/
  | plyIssue (sq : SqId) (ecc : Ecc)
  /-- OPERATION_LANDING (R36). -/
  | operationLanding (sq : SqId)
  /-- STORE_COMMIT (R73). -/
  | storeCommit (sq : SqId)
  /-- THROTTLE_FROZEN_CYCLE (R49). -/
  | throttleFrozenCycle (sq : SqId)
  /-- WAIT_TIMEOUT (R195). -/
  | waitTimeout (sq : SqId) (ecc : Ecc)
  /-- SQUARE_HALT (R43). -/
  | squareHalt (sq : SqId)
  /-- ENTER_DONE (R44). -/
  | enterDone (sq : SqId)
  /-- MC_INSTRUCTION_ISSUE (R216). -/
  | mcInstructionIssue (sq : SqId) (ecc : Ecc)
  /-- HANDLER_DISPATCH (R218). -/
  | handlerDispatch (sq : SqId)
  /-- HANDLER_ABORT (R220). -/
  | handlerAbort (sq : SqId)
  /-- MESH_LINE_READ (R206). -/
  | meshLineRead (sq : SqId) (ecc : Ecc)
  /-- FLIT_DEPART (R201): the next flit of the route of endpoint `ep` of square `sq` on network `net`. -/
  | flitDepart (sq : SqId) (ep : Fin 32) (net : Net) (ecc : Ecc)
  /-- MESH_FLIT_COMMIT (R206): at square `sq`. -/
  | meshFlitCommit (sq : SqId)
  /-- CREDIT_RETURN (R208): to outbound endpoint `ep` of square `sq`. -/
  | creditReturn (sq : SqId) (ep : Fin 32)
  /-- CFLAG_EFFECT (R214): at destination square `sq`. -/
  | cflagEffect (sq : SqId)
  /-- FLAG_VIEW_UPDATE (R197): writes to `flag` that have reached square `sq`. -/
  | flagViewUpdate (sq : SqId) (flag : Fin 8192) (ecc : Ecc)
  /-- FLG_HOSTSET (R190): through partition p's window. -/
  | flgHostset (p : PartId) (w : RegWr)
  /-- COPY_DESCRIPTOR_START (R373): of partition p and class cls. -/
  | copyDescriptorStart (p : PartId) (cls : Fin 3)
  /-- COPY_BEAT (R96): the next beat of engine n. -/
  | copyBeat (n : CeId) (reads : EccAt)
  /-- COPY_LANDING (R97): part number k of engine n's descriptor. -/
  | copyLanding (n : CeId) (k : Nat)
  /-- REFRESH_SLOT (R89). -/
  | refreshSlot (s : StackId)
  /-- ADAPTIVE_REFRESH (R90). -/
  | adaptiveRefresh (s : StackId)
  /-- HBM_TEMP_READ (R452): temperatures in °C of HBM_0 to HBM_5. -/
  | hbmTempRead (temps : Vector (BitVec 8) 6)
  /-- CHESS_CLOCK_START (R234). -/
  | chessClockStart
  /-- FRAME_COUNTER_START (R237). -/
  | frameCounterStart
  /-- REF_LOST (R238). -/
  | refLost
  /-- REF_BACK (R238). -/
  | refBack
  /-- REF_EXPIRED (R238). -/
  | refExpired
  /-- PPS_EDGE (R239). -/
  | ppsEdge
  /-- CHESS_CLOCK_STEP (R240). -/
  | chessClockStep
  /-- LAUNCH_SIGNAL (R244). -/
  | launchSignal (p : PartId)
  /-- LAUNCH_CYCLE (R244). -/
  | launchCycle (p : PartId)
  /-- BARRIER_LAUNCH (R245): the broadcast reaches square `sq`. -/
  | barrierLaunch (sq : SqId)
  /-- LAUNCH_END (R420). -/
  | launchEnd (p : PartId)
  /-- STRICT_ANY_CHANGE (R225). -/
  | strictAnyChange
  /-- TMG_CTL_WRITE (R222). -/
  | tmgCtlWrite (p : PartId) (w : RegWr)
  /-- CLEAR (R232): a write to `DEV_CTL`. -/
  | clear (p : PartId) (w : RegWr)
  /-- DEV_CAUSE_WRITE (R232). -/
  | devCauseWrite (p : PartId) (w : RegWr)
  /-- DEV_CHIP_CAUSE_WRITE (R229). -/
  | devChipCauseWrite (w : RegWr)
  /-- FP_STATUS_WRITE (R131). -/
  | fpStatusWrite (sq : SqId) (w : RegWr)
  /-- MX_FOLD_WRITE (R155). -/
  | mxFoldWrite (sq : SqId) (n : Fin 2) (w : RegWr)
  /-- CHN_STAT_WRITE (R199). -/
  | chnStatWrite (sq : SqId) (n : Fin 32) (w : RegWr)
  /-- LGO_RAIL_MOVE (R259). -/
  | lgoRailMove
  /-- LGO_RAIL_SETTLED (R259). -/
  | lgoRailSettled
  /-- RANK_RAIL_SWITCH (R263). -/
  | rankRailSwitch (r : Fin 8)
  /-- LGO_DROOP_ALARM (R272). -/
  | lgoDroopAlarm
  /-- DROOP_CAP_LIFT (R272). -/
  | droopCapLift
  /-- FRAME_TRANSMIT (R278). -/
  | frameTransmit (l : LinkId)
  /-- LINK_FLIT_HANDOFF (R283). -/
  | linkFlitHandoff (l : LinkId)
  /-- DATA_FRAME (R277, R279): what lanes 0 to 3 and lanes 4 to 7 carried. -/
  | dataFrame (l : LinkId) (low high : HalfLanes)
  /-- TRAIN_FRAME (R300): the 64-byte TRAIN payload received and the frame's records. -/
  | trainFrame (l : LinkId) (payload : Line) (equalised : Bool)
  /-- ADAPT_FRAME (R278). -/
  | adaptFrame (l : LinkId)
  /-- LINK_LANDING (R289): the oldest arrival that is due on channel c of link l. -/
  | linkLanding (l : LinkId) (c : Fin 32)
  /-- LINK_TRAIN_START (R300). -/
  | linkTrainStart (l : LinkId)
  /-- LINK_UP (R300). -/
  | linkUp (l : LinkId)
  /-- LINK_TIME_EXCHANGE (R302). -/
  | linkTimeExchange (l : LinkId) (t : TimeStamps)
  /-- LNK_DOWN (R310). -/
  | lnkDown (l : LinkId)
  /-- RETRAIN (R298): a write to `LNK_CTL[l]`. -/
  | retrain (l : LinkId) (w : RegWr)
  /-- CLOSE (R309): a write to `LNK_CTL[l]`. -/
  | close (l : LinkId) (w : RegWr)
  /-- LINK_GATE (R309). -/
  | linkGate (l : LinkId)
  /-- LNK_MATCH_WRITE (R298). -/
  | lnkMatchWrite (w : RegWr)
  /-- COPY_BEAT_FORWARD (R305): the oldest transit beat that arrived on link l. -/
  | copyBeatForward (l : LinkId)
  /-- REMOTE_COPY_BEAT_WRITE (R306): the oldest beat for this chip that arrived on link l. -/
  | remoteCopyBeatWrite (l : LinkId)
  /-- REMOTE_COPY_LANDING (R308): of a remote part, at its sender or at its destination. -/
  | remoteCopyLanding (e : RemoteEnd) (k : Nat)
  /-- SRV_CTL_WRITE (R312): word `reg` (offset in units of 8 bytes from 0x000C_0000 + 0x100 p). -/
  | srvCtlWrite (p : PartId) (reg : Fin 10) (w : RegWr)
  /-- SERVING_ENABLE (R314). -/
  | servingEnable (p : PartId)
  /-- STARTUP_SCAN_DONE (R314). -/
  | startupScanDone (p : PartId) (ecc : Ecc)
  /-- SERVING_DISABLE (R314). -/
  | servingDisable (p : PartId)
  /-- FRAME_BOUNDARY (R316). -/
  | frameBoundary (p : PartId) (ecc : Ecc)
  /-- SAMPLER_STEP (R332). -/
  | samplerStep (p : PartId) (ecc : Ecc)
  /-- SNP_CTL_WRITE (R344): register `reg` (word offset from 0x0007_0000 + 0x40 p). -/
  | snpCtlWrite (p : PartId) (reg : Fin 8) (w : RegWr)
  /-- SEAL_SIGNAL (R345). -/
  | sealSignal (p : PartId)
  /-- SEAL_CYCLE (R346). -/
  | sealCycle (p : PartId)
  /-- HALT_TIMEOUT (R347). -/
  | haltTimeout (p : PartId)
  /-- DRAIN_COMPLETE (R348). -/
  | drainComplete (p : PartId)
  /-- DRAIN_TIMEOUT (R348). -/
  | drainTimeout (p : PartId)
  /-- CREMA_PAUSE_END (R352). -/
  | cremaPauseEnd (e : PauseEnd)
  /-- PAGE_CAPTURE (R354). -/
  | pageCapture (p : PartId) (ecc : EccAt)
  /-- BUDDY_BEAT (R358). -/
  | buddyBeat (p : BuddyTurn)
  /-- BUDDY_BEAT_RECEIVE (R359): the oldest whole beat that the BUDDY slots of link l have brought is of generation g of partition p. -/
  | buddyBeatReceive (l : LinkId) (p : PartId) (g : Fin 2)
  /-- BUDDY_ACK (R359): what the BUDDY slots of link l have brought first is an acknowledgement for partition p. -/
  | buddyAck (l : LinkId) (p : PartId)
  /-- SET (R369): a `PART_CTL` write with OP 1. -/
  | set (w : RegWr)
  /-- RESET (R382): a `PART_CTL` write with OP 2. -/
  | reset (w : RegWr)
  /-- DESTROY (R371): a `PART_CTL` write with OP 3. -/
  | destroy (w : RegWr)
  /-- PART_OP_COMPLETE (R368). -/
  | partOpComplete (p : PartId)
  /-- CE_ALLOT_WRITE (R373). -/
  | ceAllotWrite (n : CeId) (w : RegWr)
  /-- CONSERVATION_CHECK (R392). -/
  | conservationCheck
  /-- CONS_STATUS_WRITE (R393). -/
  | consStatusWrite (w : RegWr)
  /-- FUNCTION_LEVEL_RESET (R399). -/
  | functionLevelReset (fn : FnId)
  /-- REGISTER_WRITE (R404): `bytes` from byte address `off` of the BAR upward; none is a byte not enabled. -/
  | registerWrite (fn : FnId) (bar : Bar) (off : Nat) (bytes : List (Option Byte)) (poisoned : Bool)
  /-- BAR2_READ (R409). -/
  | bar2Read (fn : FnId) (off : Nat) (len : Nat) (ecc : Ecc)
  /-- BAR2_WRITE (R411). -/
  | bar2Write (fn : FnId) (off : Nat) (bytes : List (Option Byte)) (how : BusWrite)
  /-- RING_CFG_WRITE (R413). -/
  | ringCfgWrite (p : PartId) (w : RegWr)
  /-- SQ_DB (R414). -/
  | sqDb (w : RegWr)
  /-- CQ_DB (R414). -/
  | cqDb (w : RegWr)
  /-- CQ_ARM (R425): a `CQ_DB` write with ARM. -/
  | cqArm (w : RegWr)
  /-- JOB_FETCH (R415): the 64 bytes the host answers; `sheet` is what the loader finds at SHEET, for a LAUNCH with LOAD. -/
  | jobFetch (p : PartId) (job : Line) (sheet : Option Sheet)
  /-- RING_FETCH_ERR (R416). -/
  | ringFetchErr (p : PartId) (e : FetchErr)
  /-- MSIX_UNMASK (R425): the host writes the mask bit of vector v of function fn. -/
  | msixUnmask (fn : FnId) (v : Fin 8) (mask : Bool)
  /-- GATE (R429): a `PWR_CTL` write with OP 1. -/
  | gate (w : RegWr)
  /-- UNGATE (R429): a `PWR_CTL` write with OP 2. -/
  | ungate (w : RegWr)
  /-- DOMAIN_GATED (R432). -/
  | domainGated (d : DomId)
  /-- DOMAIN_READY (R429): `ok` is the self-test's result. -/
  | domainReady (d : DomId) (ok : DomainTest)
  /-- POWER_ON_RESET (R437). -/
  | powerOnReset (e : PwrEdge)
  /-- PIN_RESET (R437). -/
  | pinReset
  /-- RESET_N_RISE (R433). -/
  | resetNRise (straps : StrapPins)
  /-- CHIPRST (R437). -/
  | chiprst (c : ChipRstCause)
  /-- THERMAL_TRIP (R451). -/
  | thermalTrip (sensor : BitVec 8) (deg : BitVec 8)
  /-- FIRMWARE_START (R443). -/
  | firmwareStart (src : ImageSource) (ver : BitVec 16)
  /-- GO (R443): a `KNG_PUSH_LEN` write. -/
  | go (w : RegWr)
  /-- HBM_TRAIN_DONE (R441). -/
  | hbmTrainDone (s : StackId) (ok : Bool)
  /-- DEVICE_READY (R441). -/
  | deviceReady
  /-- ROM_RECOVERY_TIMEOUT (R442). -/
  | romRecoveryTimeout
  /-- MCTP_REQUEST (R440). -/
  | mctpRequest (r : MctpReq)
  /-- AVS_LOOP_TICK (R447): how far (mV) the worst monitor is below its margin, and the lowest VDD_CORE (mV) the monitors allow. -/
  | avsLoopTick (below : Nat) (lowest : Nat)
  /-- AVS_NOACK (R453). -/
  | avsNoack
  /-- AVS_MISMATCH (R453): the voltage read back, in mV. -/
  | avsMismatch (readBack : RailRead)
  /-- AVS_ALERT (R453). -/
  | avsAlert (e : AlertEdge)
  /-- THERMAL_LADDER (R451): hottest junction sensor and its temperature in °C. -/
  | thermalLadder (sensor : BitVec 8) (deg : BitVec 8)
  /-- THM_ARM (R450): a `THM_SCHED` write. -/
  | thmArm (w : RegWr)
  /-- SCHEDULED_THROTTLE_START (R450). -/
  | scheduledThrottleStart
  /-- SQ_WDOG (R462). -/
  | sqWdog (sq : SqId)
  /-- KING_WDOG (R459). -/
  | kingWdog
  /-- FLT_PART_WRITE (R458). -/
  | fltPartWrite (p : PartId) (w : RegWr)
  /-- EVT_CFG_WRITE (R467). -/
  | evtCfgWrite (p : PartId) (w : RegWr)
  /-- EVT_HEAD_WRITE (R469). -/
  | evtHeadWrite (p : PartId) (w : RegWr)
  /-- EVT_HIST_IDX_WRITE (R470). -/
  | evtHistIdxWrite (w : RegWr)
  /-- DBG_CTL_WRITE (R471). -/
  | dbgCtlWrite (sq : SqId) (w : RegWr)
  /-- BREAK_BROADCAST (R472): reaches square `sq`. -/
  | breakBroadcast (sq : SqId)
  /-- HALT (R472): a `DBG_PART[p]` write. -/
  | halt (p : PartId) (w : RegWr)
  /-- RESUME (R474): a `DBG_PART[p]` write. -/
  | resume (p : PartId) (w : RegWr)
  /-- STEP (R474): a `DBG_PART[p]` write. -/
  | step (p : PartId) (w : RegWr)
  /-- TRC_CTL_WRITE (R477). -/
  | trcCtlWrite (p : PartId) (w : RegWr)
  /-- SPM_ECC_READ (R403). -/
  | spmEccRead (sq : SqId) (r : RegRd)
  /-- MC_STATUS_READ (R403). -/
  | mcStatusRead (sq : SqId) (r : RegRd)
  /-- SRV_CNT_READ (R403). -/
  | srvCntRead (p : PartId) (r : RegRd)
  /-- PART_CNT_READ (R403). -/
  | partCntRead (p : PartId) (r : RegRd)
  /-- HST_VIOL_READ (R403). -/
  | hstViolRead (p : PartId) (r : RegRd)
  /-- LNK_FEC_READ (R403). -/
  | lnkFecRead (l : LinkId) (r : RegRd)
  /-- HBM_ECC_READ (R403). -/
  | hbmEccRead (s : StackId) (r : RegRd)
  /-- AVS_STATUS_READ (R403). -/
  | avsStatusRead (r : RegRd)
  /-- EVT_LOST_READ (R403). -/
  | evtLostRead (p : PartId) (r : RegRd)
  /-- TRC_LOST_READ (R403). -/
  | trcLostRead (p : PartId) (r : RegRd)
  /-- REGISTER_READ (R403): byte enables from byte address `off` of the BAR upward. -/
  | registerRead (fn : FnId) (bar : Bar) (off : Nat) (be : List Bool)
  /-- SCORESHEET_LOADED (R420). -/
  | scoresheetLoaded (p : PartId)
  /-- SNAPSHOT_RESTORE_DONE (R361). -/
  | snapshotRestoreDone (p : PartId)
  /-- ADMISSION_DECISION (R322). -/
  | admissionDecision (p : PartId) (blitz : Bool) (ecc : Ecc)
  /-- FLAG_GRANT (R188): the King writes or withdraws grant n. -/
  | flagGrant (g : GrantWr)
  /-- BOOT_SPI_FAIL (R443). -/
  | bootSpiFail
  /-- BOOT_PUSH_FAIL (R453). -/
  | bootPushFail
  /-- PCIE_LINK_UP (R440). -/
  | pcieLinkUp
deriving DecidableEq, Repr

end Sys2Proof
end

