-- ==== Sys2Proof/Decode.lean ====
section
/-! DEFINITION. The command that a word of the opcode table spells: the table gives bits to none of its rows. -/

namespace Sys2Proof

/-- Every row of spec/opcode_table.json has an empty list of fields, so no word spells a command. -/
def decodeTableWord (_nbits _w : Nat) : Option Instr := none

end Sys2Proof
end

