-- ==== Sys2Proof/Machine/Operands.lean ====
section
/-! DEFINITION. The operand forms of a host access (R397, R400, R401, R404): which bytes of a BAR it enables, how they fall into aligned units of
8 bytes, and the windows in which a row's register stands. The operand forms of a ply are in Ply.lean and Encoding.lean. -/

namespace Sys2Proof.Machine

/-! ### Addresses (R397 and the block tables of 14) -/

/-- Bytes of BAR0, BAR2 and BAR4 (R397). -/
def bar0Size : Nat := 0x4000000
def bar2Size : Nat := 0x100000000
def bar4Size : Nat := 0x10000

/-- Window of square n, of partition p; block of link l. -/
def sqWindow (n : SqId) : Nat := 0x100000 + 0x10000 * n.val
def partWindow (p : PartId) : Nat := 0x1000000 + 0x100000 * p.val
def linkWindow (l : LinkId) : Nat := 0xA0000 + 0x1000 * l.val

/-! ### The bytes of one register -/

/-- A mask of enabled bytes as a mask of bits. -/
def byteMask (n : Nat) (be : Nat) : Nat := (List.range n).foldl (fun a i => a + (if be.testBit i then 255 <<< (8 * i) else 0)) 0

/-- A write of one register at its address: byte i of `w.data` where bit i of `w.be` is set. -/
def writeBytes (w : RegWr) (n : Nat) : List (Option Byte) :=
  (List.range n).map fun i => if w.be.getLsbD i then some (w.data.extractLsb' (8 * i) 8) else none
/-- The byte enables of a read of one register of n bytes. -/
def readBytes (r : RegRd) (n : Nat) : List Bool := (List.range n).map r.be.getLsbD

/-! ### Whole accesses (R401) -/

/-- Enabled bytes of an access, first and one past the last; `bad` for the two cases that reach no register. -/
structure Span where
  first : Nat
  last : Nat
  bad : Bool

def spanOf (off : Nat) (en : List Bool) : Option Span :=
  let ix := (List.range en.length).filter fun i => (en[i]?).getD false
  match ix.head?, ix.getLast? with
  | some a, some b =>
    let n := b + 1 - a
    let holes := ix.length != n
    some ⟨off + a, off + b + 1, holes || (decide (n ≤ 8) && decide ((off + a) / 8 ≠ (off + b) / 8))⟩
  | _, _ => none

/-- Units of 8 bytes that a span touches. -/
def unitsOf (sp : Span) : List Nat := (List.range ((sp.last + 7) / 8 - sp.first / 8)).map fun i => 8 * (sp.first / 8 + i)

/-- Bytes of unit u inside the span, as a mask. -/
def unitMask (sp : Span) (u : Nat) : Nat := (List.range 8).foldl (fun a i => if sp.first ≤ u + i ∧ u + i < sp.last then a + 2 ^ i else a) 0

/-- Bytes of unit u of a write, in place. -/
def unitData (off u : Nat) (bytes : List (Option Byte)) : Nat :=
  (List.range 8).foldl (fun a i => if off ≤ u + i then a + ((((bytes[u + i - off]?).getD none).getD 0).toNat <<< (8 * i)) else a) 0

end Sys2Proof.Machine
end

