-- ==== Sys2Proof/Config.lean ====
section
/-! DEFINITION. What an implementation fixes and the spec leaves open: the free values (opaque, no body) and the few sizes of the manual
that depend on the variant. -/

namespace Sys2Proof.Config

/-- A value the spec does not give: draw number `n` (log 8). Nothing can evaluate it; a claim holds for every value. -/
opaque freeNat : Nat → Nat

/-- A product of an admitted Lungo tile, bit 127 its sign, the low bits its magnitude (R269, R270): draw number `n` (log 8, log 21). -/
opaque lungoProduct : Nat → BitVec 128

/-- The twelve DETAIL bytes of an event record, whose layout the code table does not spell out, from the event code and the values the table
lists (log 34). -/
opaque detailBytes : Nat → List Nat → BitVec 96

/-- Which of the neighbouring counts a stamp takes that crosses into the Chess domain (R23, R251): from what is stamped and the count (log 89). -/
opaque crossing : List Nat → Nat → Nat

/-- What an M or T operation reads on a rail position that holds nothing in that cycle, or where no stationary entry can be the operand (R53, R54; log 20):
from the place (0 to 3 rails A to D, 4 the stationary store) and the plies issued since the launch, so that equal runs read equal bytes on every
placement (R248). -/
opaque openSource : Nat → Nat → Nat

/-- ABS of the least integer of an element width (log 15): the same bits wherever it is computed (R248). -/
opaque absLeast : Nat → Nat

/-- The smallest number of copy-channel slots per frame on the links beyond the first hop, of the way to a position for a partition and class (R308, log 22). -/
opaque farSlots : Nat → Nat → Nat → Nat

/-- The equaliser coefficient requests that a link's receiver makes (R300), from the link and the frame number (log 101). -/
opaque eqRequest : Nat → Nat → BitVec 256

/-- Which frame slots the King gives the buddy stream, and under which LCH (R282, R297): from the link and the slot. Bit 5 takes the slot, bits [4:0] are
LCH (log 71). -/
opaque buddySlot : Nat → Nat → BitVec 6

/-- Hops from a square to the sampler's view of the flags, which the spec does not place (R197, R332; log 103). -/
opaque engineHops : Nat → Nat

/-- Whether a trace record comes too late for the trace's turn of HBM (R477): from the square, the core cycle and the type (log 110). -/
opaque traceLate : Nat → Nat → Nat → Bool

end Sys2Proof.Config
end

