-- ==== Sys2Proof/Machine/State.lean ====
section
/-! DEFINITION. The machine's state as plain data: every register, queue, counter, buffer and pin the spec gives the chip, and the queue of
waiting commands. The table of reset values and the rule naming each field stand in INVENTORY.md under State. -/

namespace Sys2Proof.Machine

/-- A sparse array: keys strictly rising, no entry equal to the array's default. -/
abbrev Sparse (α : Type) := List (Nat × α)

/-- Bytes by address in canonical form; an unlisted byte reads 0 (log 4). -/
abbrev Memory := List Host.Cell

/-- Why a step could stop with a fault: no command of this chip does; every fault of the manual is an effect on the state (R454, R455).
Kept as a closed type with the one stop the interface would need. -/
inductive Fault where
  /-- Raised by no command. Safe: it can only stop a run. -/
  | neverRaised
deriving DecidableEq, Repr

/-- Why a command is turned away without a meaning. -/
inductive Refusal where
  /-- The command has no meaning in this model yet (`exec`'s refused arms). Safe: nothing is claimed of it. -/
  | notModelled (mnemonic : String)
deriving DecidableEq, Repr

/-! ### What leaves the chip -/

/-- An event record before it is laid out in bytes (R464). -/
structure Event where
  source : BitVec 16
  cls : BitVec 3
  /-- The partition concerned, none for NOPART. -/
  part : Option PartId
  seq : Word32
  stamp : Word64
  code : BitVec 16
  /-- What the code table puts in DETAIL, in its order (log 34). -/
  detail : List Nat
deriving DecidableEq, Repr

/-- A completion entry (R421, R423). -/
structure Completion where
  jobId : Word32
  type : BitVec 8
  status : BitVec 8
  phase : Bool
  result : Word64
  result2 : Word64
  stamp : Word64
deriving DecidableEq, Repr

/-- What an access to the chip answers, and what the chip writes to the outside (log 9). -/
inductive Output where
  /-- A 32-byte completion written at an index of partition p's completion ring (R421). -/
  | completion (p : PartId) (index : Nat) (entry : BitVec 256)
  /-- A 32-byte event record written at an index of event ring p (R467). -/
  | eventRecord (p : PartId) (index : Nat) (entry : BitVec 256)
  /-- MSI-X vector v of function fn fires (R424). -/
  | msix (fn : FnId) (v : Fin 8)
  /-- Data of a host read, byte 0 first (R403, R409). -/
  | readData (fn : FnId) (bytes : List Byte)
  /-- Data of a host read with the EP bit set (R412). -/
  | readPoisoned (fn : FnId) (bytes : List Byte)
  /-- A host read ends with Unsupported Request (R401, R410). -/
  | unsupportedRequest (fn : FnId)
  /-- An AER error of function fn (R416, R426). -/
  | aer (fn : FnId)
  /-- A frame sent on the lanes of link l (R279, R300). -/
  | frame (l : LinkId) (lanes : Lanes)
  /-- The request of a FETCH to the second's snapshot engine (R363): SPOS, FPOS, partition, GEN_NO. -/
  | fetchRequest (spos fpos : Byte) (part : PartId) (genNo : Word32)
  /-- The answer to an MCTP request (R440): true when answered, false for the not-ready code. -/
  | mctp (answered : Bool)
  /-- A target-voltage write on AVSBus (R446): rail select and mV. -/
  | avsWrite (rail : Fin 2) (mv : Nat)
  /-- A firmware image fetch from host memory (R443): address and length. -/
  | imageFetch (addr : Word64) (len : Nat)
  /-- The `THERM_TRIP_N` pin is asserted (R451). -/
  | thermTrip
deriving DecidableEq, Repr

/-! ### Pins, King, clocks, power -/

/-- What production test burns in (R3): a Grade B part has exactly one fused rank, a Grade A part none, so the fused rank tells the grade. -/
structure Fuses where
  variant : Variant
  /-- The fused rank, counted from 0, of a Grade B part; none on a Grade A part. -/
  fused : Option (Fin 8)
deriving DecidableEq, Repr

/-- `CHIP_ID`.GRADE. -/
def gradeOf (f : Fuses) : Grade := if f.fused.isSome then .b else .a

/-- `CHIP_ID`.FUSED_RANK: 0 none, 1 to 8 the fused rank. -/
def fusedRankNo (f : Fuses) : Nat := match f.fused with | some r => r.val + 1 | none => 0

structure Pins where
  pwrOk : Bool
  resetN : Bool
  thermTripN : Bool
  /-- `SMB_ALERT_N`: low while an unread MCTP message awaits the BMC (R482; log 106). -/
  smbAlertN : Bool
  /-- `STRAP_VAL` (R433). -/
  straps : StrapPins
deriving DecidableEq, Repr

/-- `KNG_STATUS`.STAGE. -/
inductive Stage where
  | rom | loading | running | recovery | test
deriving DecidableEq, Repr

structure King where
  stage : Stage
  source : BitVec 2
  /-- Boot source that the last power-on, pin or chip reset chose (R433). -/
  bootSel : BitVec 2
  image : Bool
  fwver : BitVec 16
  nextBoot : BitVec 3
  pushAddr : Word64
  pushLen : BitVec 24
  pcieUp : Bool
  /-- Configuration Request Retry Status is being answered (R440, R442). -/
  retry : Bool
  /-- `SERVICE_LEVEL`.READY. -/
  deviceReady : Bool
  /-- `SERVICE_LEVEL`.LEVEL. -/
  level : BitVec 2
  /-- Chess counts of the watchdog expiries of the last 10 s, newest first (R459). -/
  expiries : List Nat
  /-- A second expiry within 10 s: ROM until a chip reset (R459). -/
  held : Bool
  /-- The ROM serves the physical function alone (R442). -/
  romOnly : Bool
  /-- VF Enable of the physical function's SR-IOV capability (R399, R437; log 86). -/
  vfEnable : Bool
  /-- A GO has been accepted and its image is being fetched or checked (R443). -/
  pushGo : Bool
  /-- The serving engines passed their start-up self-test (R444; log 37). -/
  servingOk : Bool
deriving DecidableEq, Repr

/-- State of a power domain (R428). -/
inductive Dom where
  | on | closing | gated | failed
deriving DecidableEq, Repr

/-- A gating request in progress (R429). -/
structure PwrReq where
  dom : DomId
  ungate : Bool
deriving DecidableEq, Repr

structure Power where
  dom : Vector Dom 28
  busy : Bool
  err : BitVec 3
  req : Option PwrReq
deriving DecidableEq, Repr

structure Avs where
  vcore : BitVec 10
  vlgo : BitVec 10
  deferred : Bool
  stuck : Bool
  steps : Byte
  /-- Chess count of the last 5 mV step (R447). -/
  lastStep : Option Nat
  /-- A regulator alert stands (R453). -/
  alert : Bool
  /-- A first read-back mismatch has been answered (R453). -/
  missed : Bool
  /-- The same for `VDD_LGO` (R453). -/
  missedLgo : Bool
  /-- The monitors ask for more than 0.85 V (R449). -/
  limit : Bool
deriving DecidableEq, Repr

structure Thermal where
  maxj : Byte
  maxhbm : Byte
  warn : Bool
  /-- Emergency duty of the junction ladder, 8 when none (R451). -/
  junctionDuty : Fin 9
  /-- The King's loops run: DUTY reads the duty in force, and 0 before (log 1). -/
  live : Bool
  /-- The 95 °C HBM emergency is in force (R452). -/
  hbmEmerg : Bool
  /-- An emergency episode is in progress. -/
  emerg : Bool
  tripped : Bool
  /-- Scheduled duty in force, 8 when none (R450). -/
  schedDuty : Fin 9
  /-- `THM_SCHED`.DUTY. -/
  schedReg : BitVec 4
  /-- `THM_SCHED_AT`. -/
  schedAt : Word64
  /-- Armed throttles: count and duty. -/
  armed : List (Nat × Fin 9)
deriving DecidableEq, Repr

structure Clock where
  /-- Chess count. -/
  count : Word64
  counting : Bool
  refOk : Bool
  locked : Bool
  ppsLocked : Bool
  aligned : Bool
  holdover : Bool
  offset : Byte
  master : Bool
  ppsEn : Bool
  /-- The first PPS edge after PPS_EN was set has been taken (R239). -/
  ppsStepped : Bool
  ppsErr : Word32
  frameStart : Word64
  /-- The core frame counter runs (R237). -/
  frameOn : Bool
  /-- Core cycles; the frame counter of R64 stands at `cc - base`. -/
  cc : Nat
  /-- Core cycle in which the frame counter last started, a multiple of a grain (log 40). -/
  base : Nat
  /-- A step of the clock that waits (R240), in ct. -/
  stepPending : Option Int
  /-- The step that waits is the one to PPS (R239). -/
  stepPps : Bool
  /-- Count at which the reference was lost. -/
  refLostAt : Option Int
  /-- The holdover of this loss has expired (R238). -/
  expired : Bool
deriving DecidableEq, Repr

/-! ### Events, faults, debug, trace -/

structure EvtRing where
  /-- `EVT_BASE[p]`. -/
  base : Word64
  log : BitVec 5
  en : Bool
  irqen : Bool
  tail : Nat
  phase : Bool
  head : Nat
  lost : Word32
  /-- The next record written carries LOSS (R468). -/
  lossNext : Bool
  /-- Vector 1 has fired and `EVT_HEAD` has not been written since (R469). -/
  fired : Bool
deriving DecidableEq, Repr

structure FltPart where
  pending : Bool
  cls : BitVec 3
  square : BitVec 6
  nosq : Bool
  code : BitVec 16
deriving DecidableEq, Repr

structure Trace where
  base : Word64
  log : BitVec 5
  en : Bool
  wrap : Bool
  types : BitVec 6
  /-- `TRC_STAT`.NEXT; 2^LOG when a buffer that does not wrap is full. -/
  next : Nat
  wrapped : Bool
  lost : Word32
  /-- Chess count of the last TRC_LOST event (R477). -/
  lostAt : Option Nat
deriving DecidableEq, Repr

/-! ### Squares -/

/-- `SQ_STATUS`.STATE. -/
inductive SqSt where
  | idle | loaded | running | stalled | halted | done | fault
deriving DecidableEq, Repr

/-- Rail positions (R54). -/
inductive Rail where
  | a | b | c | d
deriving DecidableEq, Repr

/-- A ledger (R124). -/
structure Ledger where
  l : BitVec 640
  lsbexp : BitVec 16
  nan : Bool
  pinf : Bool
  ninf : Bool
  ovf : Bool
  trunc : Bool
deriving DecidableEq, Repr

/-- What a result in flight writes when it lands (R36). -/
inductive LandVal where
  | s (i : Fin 32) (x : Word64)
  | p (i : Fin 8) (x : Bool)
  | v (i : Fin 32) (x : VReg)
  | rail (r : Rail) (x : VReg)
  /-- Stationary entries, key array × 64 + entry (R141). -/
  | stat (e : List (Nat × BitVec 256))
  /-- The segment table (R159). -/
  | seg (t : Vector (BitVec 6 × BitVec 4) 8)
deriving DecidableEq, Repr

/-- A result in flight: it is readable in unstalled cycle `due`. -/
structure Landing where
  due : Nat
  val : LandVal
deriving DecidableEq, Repr

/-- Where a load delivers (R69): a V register, rail A, or an S register. -/
inductive LoadDest where
  | v (i : Fin 32)
  | railA
  | s (i : Fin 32)
deriving DecidableEq, Repr

/-- A load that has issued and not sampled (R74). -/
structure PendLoad where
  issued : Nat
  /-- Byte address of each line, or of the 8 bytes. -/
  addrs : List Nat
  /-- Bytes at each address: 64 or 8. -/
  width : Nat
  dest : LoadDest
deriving DecidableEq, Repr

/-- A store in the store buffer (R73): unstalled issue cycle and the chunks it writes. -/
structure BufStore where
  issued : Nat
  chunks : List (Nat × List Byte)
deriving DecidableEq, Repr

/-- Control core of a square (02). -/
structure Core where
  st : SqSt
  stall : BitVec 3
  idx : BitVec 13
  plyCount : Word64
  s : Vector Word64 32
  p : Vector Bool 8
  v : Vector VReg 32
  /-- Value on each rail position and the unstalled cycle in which it is present (R53). -/
  rails : Vector (Option (Nat × VReg)) 4
  /-- Unstalled cycles since the launch (R50). -/
  u : Nat
  /-- Frame cycle whose turn this square has already taken. -/
  lastCc : Option Nat
  /-- Empty cycles left after a block end (R39). -/
  empty : Nat
  flight : List Landing
  loads : List PendLoad
  stores : List BufStore
  /-- Held cycles of the wait in front (R195). -/
  held : Nat
  /-- A halt request is pending (R43). -/
  haltReq : Bool
  /-- A halt request that waits for the end of a snapshot point (R474). -/
  haltLate : Bool
  /-- Boundary tag and mask of a seal that has reached its cycle (R346). -/
  sealTag : Option (Byte × Byte)
  /-- The square halts again before its next quiet point (STEP, R474). -/
  stepReq : Bool
  /-- The ply in front is not tested against the breaks (R474). -/
  skipBreak : Bool
  /-- HALT has issued; the square waits for its operations (R44). -/
  ending : Bool
  /-- Cycles without issue, for the watchdog (R462). -/
  wdog : Nat
  /-- Flags that the square has reported with FLG_DENIED in this launch, its message core's among them (R189). -/
  denied : List (Fin 8192)
  /-- A BLOCK trace record is due at the next issue: a block starts here. -/
  blockStart : Bool
  /-- The square is HALTED at a saved ply index it can resume from (R351). -/
  saved : Bool
  /-- Entry ply of the loaded image. -/
  entry : BitVec 13
deriving DecidableEq, Repr

/-- `MX_FOLD[n]` and the fold's bookkeeping (R153 to R156). -/
structure Fold where
  left : BitVec 16
  handle : Byte
  armed : Bool
  exceeded : Bool
  order : Bool
  /-- Frame cycle in which FARM issued. -/
  armedAt : Nat
  /-- Offset of the last image folded into each cell, plus one. -/
  last : Sparse Nat
deriving DecidableEq, Repr

/-- An image that has entered the fold unit (R154): the cycle of its counter increment, its place and its bytes. -/
structure FoldIn where
  cc : Nat
  /-- Fold set, 0 or 1; the ledger set in the 22 cc class. -/
  set : Fin 2
  off : Nat
  image : BitVec 1024
deriving DecidableEq, Repr

/-- Matrix engine of a square (R132). -/
structure Mx where
  /-- W-accumulators: key (ACC × 128 + array) × 16 + cell. -/
  w : Sparse (BitVec 80)
  /-- Stationary entries: key array × 64 + entry. -/
  stat : Sparse (BitVec 256)
  ledgers : Vector Ledger 16
  /-- Fold cells: key set × 256 + cell. -/
  cells : Sparse (BitVec 80)
  seg : Vector (BitVec 6 × BitVec 4) 8
  fold : Vector Fold 2
  /-- Ledger images waiting for their place among the LMMAs of their cycle (R157). -/
  foldIn : List FoldIn
deriving DecidableEq, Repr

/-- Where a reply goes (R203, R212): the requester's square, its reply endpoint, the reserved offset, the request's route. -/
structure ReplyTo where
  sq : SqId
  /-- The requester's outbound (request) endpoint. -/
  ep : Fin 32
  /-- The requester's inbound reply endpoint. -/
  rep : Fin 32
  off : Nat
  hops : Nat
  /-- Link and inbound channel by which a remote request came (R282). -/
  link : Option (LinkId × Fin 32)
  /-- Requesting partition on this chip and its epoch at the request (R386, R387). -/
  asker : Option (PartId × BitVec 16)
deriving DecidableEq, Repr

/-- A message held at an inbound endpoint (R208). -/
structure HeldMsg where
  /-- Offset of the message in its handle. -/
  off : Nat
  /-- The handle's arrival count after it. -/
  count : Word32
  /-- Sending square and outbound endpoint, when on this chip. -/
  src : Option (SqId × Fin 32)
  hops : Nat
  /-- Link channel by which it came. -/
  link : Option (LinkId × Fin 32)
  /-- Its release returns no credit (R385). -/
  dead : Bool
deriving DecidableEq, Repr

/-- A pending trigger of the message core (R217). `src` is 0–31 for an inbound endpoint and 32–47 for a watch. -/
structure Trigger where
  src : Nat
  /-- 1 message, 2 request, 3 watch (R219). -/
  kind : BitVec 8
  handler : Fin 64
  arose : Nat
  off : Nat
  count : Word32
  reply : Option ReplyTo
deriving DecidableEq, Repr

/-- What the message core does in one of its phase-B turns (R216), or a flag write that waits for the stores before it (R57). -/
inductive McOp where
  | load (reg : Fin 32)
  | store (data : Word64)
  | fset (flag : Fin 8192) (val : Bool)
  | cflag (ep : Fin 32) (flag : Fin 8192) (val : Bool)
deriving DecidableEq, Repr

/-- A scratchpad access of the message core that waits for its turn, in order of issue. -/
structure McAccess where
  /-- First turn in which it may act. -/
  turn : Nat
  addr : Nat
  op : McOp
deriving DecidableEq, Repr

/-- A write to the message core's private memory in the cycle after issue (R216). -/
structure McStore where
  at_ : Nat
  addr : Nat
  data : Word64
deriving DecidableEq, Repr

/-- Message core of a square (07). -/
structure Mc where
  s : Vector Word64 32
  p : Vector Bool 8
  mem : Memory
  /-- Instruction index of the next instruction. -/
  pc : Nat
  /-- Results in flight, due in frame cycles (R216). -/
  flight : List Landing
  /-- A handler is running or selected. -/
  busy : Bool
  current : Fin 64
  trig : Option Trigger
  /-- Frame cycle of the first instruction (R218). -/
  startAt : Nat
  /-- Cycles that do not count against BUDGET (R353). -/
  excused : Nat
  /-- The running request has been answered (R212). -/
  replied : Bool
  access : List McAccess
  stores : List McStore
  lastCc : Option Nat
  /-- Held cycles of the wait in front. -/
  held : Nat
  /-- A handler has been selected and S2 and S3 have still to be loaded, as it is entered (R219). -/
  entering : Bool
  pending : List Trigger
  aborts : Byte
deriving DecidableEq, Repr

/-- An endpoint pair n of a square (R199): outbound route and inbound endpoint n. -/
structure Endpoint where
  /-- `CHN_ROUTE[n]`. -/
  route : Word64
  /-- `CHN_OUT[n]`. -/
  outc : Word32
  /-- `CHN_IN[n]`. -/
  inc : Word32
  credits : BitVec 5
  sreset : Bool
  refused : Bool
  lastCode : BitVec 6
  held : List HeldMsg
  /-- Reply slots reserved and free, counted apart (R211, R391). -/
  reserved : Nat
  freeSlots : Nat
  /-- Messages handed to a link and not yet credited (R391). -/
  away : Nat
  /-- Next reply slot in rotation. -/
  slot : Nat
  /-- Reserved slots whose reply has not come, oldest first: the request endpoint and the offset (R211, R212). -/
  owed : List (Fin 32 × Nat)
deriving DecidableEq, Repr

/-- A handle (R82). -/
structure Handle where
  base : Word32
  len : Word32
  ctl : Word32
  count : Word32
deriving DecidableEq, Repr

/-- A scoreboard entry (R77): an envelope of lines and whether it is IN. -/
structure SbEntry where
  first : Nat
  last : Nat
  isIn : Bool
deriving DecidableEq, Repr

/-- `DBG_CTL` and `DBG_PLYBRK`. -/
structure Dbg where
  tagVal : Byte
  tagMask : Byte
  tagEn : Bool
  cntEn : Bool
  bcast : Bool
  trace : Bool
  vsel : Fin 32
  hit : Bool
  plyBrk : Word64
deriving DecidableEq, Repr

/-- One square. -/
structure Square where
  core : Core
  mx : Mx
  mc : Mc
  eps : Vector Endpoint 32
  /-- `MSH_SLOT[d][s]`, index 16 d + s. -/
  slots : Vector Word32 96
  /-- `HND_TABLE[n]`. -/
  hnd : Vector Word32 64
  /-- `FLG_WATCH[w]`. -/
  watch : Vector Word32 16
  /-- The square's view of the flags (R197). -/
  view : BitVec 8192
  mem : Memory
  plies : Sparse Line
  recipes : Sparse Word128
  /-- `SPM_ECC`. -/
  eccCorr : BitVec 16
  eccUncorr : Byte
  eccBank : BitVec 5
  sb : Vector (Option SbEntry) 33
  hdl : Sparse Handle
  fp : BitVec 6
  dbg : Dbg
  cupSeen : Word64
  cupAdmit : Word64
  /-- Pages of an OPEN generation not yet captured (R353). -/
  uncapt : BitVec 2048
  /-- Last phase-B mesh turn used, and the banks it used (R65). -/
  turnAt : Nat
  turnBanks : List Nat
  /-- In the cycle of that turn: the scratchpad as phase A has it, before any phase-B write (R66), the phase-B writes made, in order, and whether phase B
  has read. -/
  memA : Memory
  bWrites : List (Nat × List Byte)
  readB : Bool
  /-- Writes that its ports have accepted whole, and increments of its arrival counters, counted apart (R391). -/
  accepted : Nat
  counted : Nat
deriving DecidableEq, Repr

/-! ### Flags and mesh -/

/-- A write to a flag under way (R197 to R199). -/
structure FlagWrite where
  flag : Fin 8192
  val : Bool
  /-- Frame cycle of the write. -/
  cc : Nat
  /-- Rank among writes of one cycle (R199). -/
  rank : Nat
  /-- Square it spreads from; none reaches every view 34 cc later (R198). -/
  origin : Option SqId
  /-- Squares whose view has not taken it. -/
  todo : BitVec 64
  /-- The square whose main schedule issued it, and the cycle (R58); none for every other writer. -/
  setter : Option (SqId × Nat)
  /-- Cycles since in which that square was held, in rising order: the latency leaves them out (R45). -/
  late : List Nat
deriving DecidableEq, Repr

/-- What a mesh message is. -/
inductive MsgKind where
  | stream
  | request
  /-- A reply with its trailer code and lines sent (R212). -/
  | reply (code : Byte)
  /-- A channel flag write (R214). -/
  | cflag (flag : Fin 8192) (val : Bool)
deriving DecidableEq, Repr

/-- A message, reply or channel flag write on its way over the mesh of this chip. -/
structure Msg where
  kind : MsgKind
  net : Net
  /-- Sending partition and its epoch at issue (R386). -/
  part : PartId
  epoch : BitVec 16
  /-- Square and endpoint of the route whose base slots the flits use; a reply uses its request's route (R203). -/
  owner : SqId
  ep : Fin 32
  /-- The route is the ingress route of a link channel (R284). -/
  via : Option (LinkId × Fin 32)
  /-- Square from which the flits leave, and where the lines are read. -/
  at_ : SqId
  /-- Square at the end of the route on this chip, its inbound endpoint, and the link when the route leaves the chip. -/
  dst : SqId
  dep : Fin 32
  link : Option LinkId
  dpos : Byte
  hops : Nat
  /-- Offset in the destination handle. -/
  doff : Nat
  /-- Offset of the first source line; lines of the sender, and flits: a trailer may need one more. -/
  soff : Nat
  lines : Nat
  flits : Nat
  /-- First frame cycle in which a source line may be read. -/
  readFrom : Nat
  /-- Lines read: index, frame cycle of the read, bytes. -/
  data : List (Nat × Nat × Line)
  /-- Frame cycles at which the departed flits arrive, in order. -/
  arrive : List Nat
  /-- Flits committed, or handed to the link. -/
  committed : Nat
  /-- Requests: where the reply goes. -/
  reply : Option ReplyTo
  /-- Replies: the requesting partition and its epoch at the request (R387). -/
  asker : Option (PartId × BitVec 16)
  /-- Epoch bits of the record by which it came over a link: those of the sending partition (R280, R386). -/
  rec_ : Option (BitVec 3)
  /-- It is refused with this code; its flits are dropped (R208, R384). -/
  refuse : Option (BitVec 6)
  /-- A flag write of a main schedule: the cycles since its issue in which the sending square was held (R45, R58). -/
  late : Option (List Nat)
deriving DecidableEq, Repr

/-- A credit on its way back (R208). -/
structure CreditBack where
  sq : SqId
  ep : Fin 32
  n : Nat
  seen : Nat
  /-- The far end refused the write with this code (R208). -/
  code : Option (BitVec 6)
deriving DecidableEq, Repr

/-! ### Copy engines and HBM -/

/-- A resolved place in memory: physical HBM bytes, a scratchpad, or a handle on another chip (R91). -/
inductive Loc where
  | hbm (a : Nat)
  | sp (sq : SqId) (a : Nat)
  | remote (pos : Byte) (sq : SqId) (handle : Byte) (off : Nat)
deriving DecidableEq, Repr

/-- A run of lines still to move, and the descriptor part it belongs to. -/
structure Seg where
  src : Loc
  dst : Loc
  lines : Nat
  part : Nat
deriving DecidableEq, Repr

/-- What a part of a descriptor fills (R96, R308). -/
inductive PartDst where
  | square (sq : SqId) (handle : Byte)
  | hbm
  | remote (pos : Byte) (sq : SqId) (handle : Byte)
deriving DecidableEq, Repr

structure CePart where
  dst : PartDst
  /-- Offset and bytes of each run in the handle, for the fold unit (R154). -/
  ranges : List (Nat × Nat)
  /-- Lines not yet committed, or not yet sent. -/
  left : Nat
  /-- Frame cycle in which the last line moved. -/
  doneAt : Nat
  landed : Bool
  /-- It was refused as it landed: it counts nothing (R95). -/
  refused : Bool
  /-- Links that its beats have taken (R305, R307). -/
  via : List LinkId
deriving DecidableEq, Repr

/-- Where a descriptor came from (R91). -/
inductive DescSrc where
  | job (id : Word32) (type : Byte)
  | kick (sq : SqId) (entry : BitVec 16)
deriving DecidableEq, Repr

/-- A queued descriptor. -/
structure Desc where
  d : Line
  src : DescSrc
  part : PartId
  epoch : BitVec 16
  /-- Issue cycle of a kick. -/
  kickAt : Nat
  /-- Issued by the launch in progress. -/
  inLaunch : Bool
deriving DecidableEq, Repr

/-- A 4 KiB beat under way (R96): its lines move in the engine's phase-B turns (R63 to R65). -/
structure CeBeat where
  segs : List Seg
  /-- Lines read, by their number in the beat. -/
  got : List (Nat × Line)
  /-- Lines written, or refused. -/
  done : List Nat
  /-- Frame cycle in which it began. -/
  since : Nat
  /-- Status that ends the descriptor after this beat, or 0 (R95). -/
  code : Nat
deriving DecidableEq, Repr

/-- A descriptor that an engine carries (R96). -/
structure CeRun where
  desc : Desc
  /-- Start cycle t. -/
  start : Nat
  /-- Strict landing cycle L of the on-chip parts; none in Relaxed (R97, R98). -/
  land : Option Nat
  /-- Count at which the completion of remote parts may be posted in Strict (R308). -/
  landCount : Option Nat
  /-- Lines whose beat has not begun. -/
  segs : List Seg
  beat : Option CeBeat
  /-- First frame cycle in which the next beat may move, and the last in which a beat has waited for a capture (R353). -/
  nextAt : Nat
  waitedAt : Nat
  parts : List CePart
  /-- Envelope in each square it touches (R80). -/
  envs : List (SqId × SbEntry)
  /-- Status it takes once `segs` is empty: a bad map or list entry, or 0 (R95). -/
  planned : Byte
  /-- A failure found during the transfer, or 0 (R95). -/
  status : Byte
deriving DecidableEq, Repr

structure CopyEng where
  /-- `CE_ALLOT[n]` as written. -/
  allot : Word32
  /-- The value in force (R373). -/
  inForce : Word32
  /-- The descriptor whose beats the engine moves; it is idle without one. -/
  run : Option CeRun
  /-- Descriptors whose beats have moved and which wait for their landing, oldest first. -/
  waiting : List CeRun
deriving DecidableEq, Repr

structure Hbm where
  /-- All 144 GiB by physical byte address. -/
  mem : Memory
  healthy : BitVec 6
  segments : Nat
  temps : Vector (BitVec 8) 6
  /-- Stacks whose extra refresh slots are open (R89, R452). -/
  hot : BitVec 6
  corr : Vector (BitVec 16) 6
  uncorr : Vector (BitVec 8) 6
  /-- Chess count of the last refresh slot, ordinary and extra (R89). -/
  slot : Vector (Option Nat) 6
  extra : Vector (Option Nat) 6
  /-- HBM training of the boot is over (R441). -/
  trained : BitVec 6
deriving DecidableEq, Repr

/-! ### Lungo -/

structure Lungo where
  effective : BitVec 3
  moving : Bool
  /-- Active caps THERMAL, EMERGENCY, AVS, FLOOR (LGO_STATUS.CAP). -/
  caps : BitVec 4
  offset : Byte
  ranks : BitVec 8
  /-- Level the droop alarm caps at, and the Chess count of the last alarm (R272). -/
  droop : Option (BitVec 3 × Nat)
deriving DecidableEq, Repr

/-! ### Partitions, rings, launches -/

/-- `PART_STATUS`.STATE. -/
inductive PState where
  | absent | active | quiescing | scrubbing
deriving DecidableEq, Repr

/-- The four configuration registers of a partition (R368). -/
structure PartCfg where
  sq : BitVec 64
  seg : BitVec 64
  res : Word64
  env : Word64
deriving DecidableEq, Repr

/-- The King's operation in progress (R368): the OP, its result, and whether DESTROY follows the reset. -/
structure PartOp where
  op : BitVec 2
  err : BitVec 3
deriving DecidableEq, Repr

/-- What the completion of a job, the end of a request and the report of a kick release of a ring (R415, R422). -/
inductive EntryKind where
  | job | reqEnd | kick
deriving DecidableEq, Repr

/-- A completion that waits for a free entry of its ring (R422). -/
structure CqEntry where
  kind : EntryKind
  id : Word32
  type : Nat
  status : Nat
  r1 : Nat
  r2 : Nat
deriving DecidableEq, Repr

/-- Rings and their registers (R413 to R425). -/
structure Ring where
  sqBase : Word64
  cqBase : Word64
  sqlog : BitVec 5
  cqlog : BitVec 5
  en : Bool
  irqen : Bool
  sqHead : Nat
  tail : Nat
  stopped : Bool
  cause : BitVec 2
  cqTail : Nat
  phase : Bool
  head : Nat
  outstanding : Nat
  promised : Nat
  armed : Bool
  /-- Completions that found no free entry, oldest first: they are posted as the host moves HEAD (R422, R426). -/
  held : List CqEntry
deriving DecidableEq, Repr

/-- A fetched job that waits for its engine (R419). -/
structure Job where
  body : Line
  sheet : Option Sheet
deriving DecidableEq, Repr

/-- Stages of a LAUNCH job (R243 to R246, R420). -/
inductive LPhase where
  /-- The loader is at work. -/
  | loading
  /-- Armed on a count. -/
  | armed
  /-- The launch signal has been raised and crosses into the core domain. -/
  | signalled
  /-- A broadcast is on its way to squares that have not started. -/
  | broadcast
  | running
deriving DecidableEq, Repr

/-- The LAUNCH job in front. -/
structure Launch where
  jobId : Word32
  job : Job
  phase : LPhase
  /-- Squares the broadcast has not reached. -/
  todo : BitVec 64
  /-- Frame cycle of the launch cycle, or of the earliest square. -/
  first : Option Nat
  /-- Deviations counted in this launch (R233). -/
  devs : Word64
  /-- Causes that have raised their event (R231). -/
  causes : BitVec 10
deriving DecidableEq, Repr

/-- What remains known of the loaded scoresheet. -/
structure Loaded where
  placed : BitVec 64
  class22 : Bool
  fixedLandings : Bool
  tag : Word64
  copyTable : Word64
  copyCount : Nat
  /-- Links that its routes use. -/
  links : BitVec 12
deriving DecidableEq, Repr

/-- `DEV_COUNT`, `DEV_CAUSE`, `DEV_FIRST` (R229 to R233). -/
structure Dev where
  count : Word64
  cause : BitVec 10
  broken : Bool
  firstCause : BitVec 4
  firstSq : BitVec 6
  firstNosq : Bool
  firstValid : Bool
  firstStamp : BitVec 48
deriving DecidableEq, Repr

/-- One partition. -/
structure Part where
  st : PState
  busy : Bool
  err : BitVec 3
  epoch : BitVec 16
  epochDrop : BitVec 16
  blzOver : BitVec 16
  /-- Configuration registers as written, and the values in force (R369). -/
  cfg : PartCfg
  own : PartCfg
  op : Option PartOp
  /-- `TMG_CTL`.MODE: 1 Strict. -/
  strict : Bool
  result : BitVec 2
  launched : Bool
  /-- A deferred MODE write (R225). -/
  modeWait : Option Bool
  dev : Dev
  lgoLevel : BitVec 3
  lgoQuality : BitVec 4
  lgoLatched : BitVec 3
  /-- QUALITY latched at the last LAUNCH (R258). -/
  lgoQLatched : BitVec 4
  /-- Ranks of its squares that have to return to `VDD_CORE` before its squares run again (R263). -/
  railDue : BitVec 8
  /-- Halted squares whose release waits for that (R263). -/
  resumeWait : BitVec 64
  aptKind : Bool
  aptBase : BitVec 48
  ring : Ring
  violReg : BitVec 16
  violRing : Byte
  violKick : Byte
  launch : Option Launch
  launchQ : List Job
  snapQ : List Job
  /-- A COPY or RESHARD job that waits for room in the copy queue. -/
  copyWait : Option Job
  /-- Job number of a FENCE that stops the fetching. -/
  fence : Option Word32
  loaded : Option Loaded
  queue : List Desc
  /-- Free entries of its copy queue, as the queue itself counts them (R391). -/
  qFree : Int
  /-- Blitz token bucket in units of 1/125 byte, and the Chess count of the last refill (R377). -/
  tokens : Nat
  tokenAt : Nat
  flt : FltPart
  wdgLimit : BitVec 16
  trc : Trace
  /-- Breaks being broadcast (R472): square, frame cycle, and the squares each has not reached. -/
  breaks : List (SqId × Nat × BitVec 64)
  /-- A HALT request of the host, deferred by a snapshot point (R474). -/
  haltWait : Bool
deriving DecidableEq, Repr

/-! ### Links -/

/-- Link states (R299). -/
inductive LinkSt where
  | off | idle | train | ident | time | up | closing | down | miswired
deriving DecidableEq, Repr

/-- A record waiting to leave, or arrived (R280). -/
structure TxFlit where
  lch : Fin 32
  data : Line
  /-- Number of the record that announces it: it leaves in or after that record's frame. -/
  after : Nat
deriving DecidableEq, Repr

/-- A transmitted frame kept for replay (R293). -/
structure SentFrame where
  fseq : BitVec 16
  bytes : BitVec 10280
deriving DecidableEq, Repr

/-- What an arrival on a link channel is (R280, R289). -/
inductive ArrKind where
  | msg (lines : Nat) (doff : Nat)
  | flag (flag : Fin 8192) (val : Bool)
  | credit (n : Nat)
  | refuse (code : Byte)
deriving DecidableEq, Repr

/-- A message or record held in the landing buffer. -/
structure Arrival where
  lch : Fin 32
  kind : ArrKind
  epoch : BitVec 3
  /-- Hand-off count, extended (R281). -/
  stamp : Nat
  /-- Lines received of a message. -/
  data : List Line
  /-- Chess count at which the last flit or the record arrived. -/
  done : Option Nat
  /-- Already refused or of an old epoch: its flits are dropped (R310). -/
  drop : Bool
deriving DecidableEq, Repr

/-- A remote copy beat (R305). -/
structure CopyBeat where
  lch : Fin 32
  pos : Byte
  sq : SqId
  handle : Byte
  off : Nat
  lines : Nat
  last : Bool
  epoch : BitVec 3
  data : List Line
  /-- Lines already written at the destination, by number (R65). -/
  done : List Nat
  /-- Chess count of arrival. -/
  at_ : Nat
  drop : Bool
  /-- Flag that is set with the part at its destination (R306, log 24). -/
  flag : Option (Fin 8192 × Bool)
deriving DecidableEq, Repr

/-- One link: its registers, its transmitter and its receiver. -/
structure Link where
  st : LinkSt
  rate : Bool
  strictOk : Bool
  tsrc : Bool
  npos : Byte
  nlink : BitVec 4
  d : BitVec 12
  corr : BitVec 32
  uncorr : BitVec 16
  retry : BitVec 16
  /-- `LNK_SLOT[l][k]`. -/
  slot : Vector Word32 19
  /-- `LNK_CH[l][c]`. -/
  ch : Vector Word64 32
  /-- `LNK_IRT[l][c]`, `LNK_IRS[l][c]`. -/
  irt : Vector Word64 32
  irs : Vector Word32 32
  /-- STRICT bit of the partner's last frame (R288). -/
  partnerStrict : Bool
  /-- Partner's hop count to the master, 255 unknown (R300). -/
  partnerHops : Byte
  /-- Last measured offset of the Chess Clock in eighths of a ct (R302). -/
  offset8 : Int
  /-- READY of the next TRAIN frame is NOT_READY (R304). -/
  notReady : Bool
  /-- LNK_EARLY has been raised in this training (R310). -/
  early : Bool
  /-- Number of the next frame of this direction (R278). -/
  frameNo : Nat
  fseq : BitVec 16
  /-- FSEQ of the last good frame received, and the one expected (R293). -/
  lastGood : BitVec 16
  /-- Frames are discarded until this FSEQ is replayed. -/
  awaiting : Option (BitVec 16)
  replay : List SentFrame
  /-- The transmitter replays from this FSEQ. -/
  replayFrom : Option (BitVec 16)
  /-- Failed replays in a row of the awaited frame, and the count from which a frame lost is one of its replay (R294, log 100). -/
  fails : Nat
  nakAt : Nat
  /-- Chess counts of the Strict frames lost in the last 1 ms (R292). -/
  losses : List Nat
  txRecs : List Word64
  /-- Records sent since training, for `TxFlit.after`. -/
  recsSent : Nat
  txFlits : List TxFlit
  /-- A TIME record is due in the next frame that carries records of now (R302). -/
  timeDue : Bool
  /-- Flits of the buddy stream that wait for BUDDY slots, and those that have come in them (R297, R358). -/
  txBuddy : List Line
  rxBuddy : List Line
  /-- Epoch bits expected from the partner on each channel after an SRESET. -/
  rxEpoch : Vector (Option (BitVec 3)) 32
  /-- Landing buffer: the counts at which the frames came that it holds, and its free places (R286, R391). -/
  landing : List Nat
  places : Nat
  arrivals : List Arrival
  /-- A COPY beat whose lines are still arriving, per channel. -/
  beats : List CopyBeat
  /-- A COPY record whose COPY2 is still to come (R280). -/
  copyRec : Option Word64
  /-- Copy channels of this link that carry beats from another link: the own channel, and the link and channel they came by (R305, R307). -/
  transit : List (Fin 32 × LinkId × Fin 32)
  closeSent : Bool
  closeRcvd : Bool
  /-- `LNK_MATCH` as the last training took it (R298). -/
  matchReg : Word32
  /-- A delay has been measured since the training began (R302). -/
  timed : Bool
deriving DecidableEq, Repr

/-- A part of a remote copy being written on this chip (R306): one per source route and handle. -/
structure RemotePart where
  link : LinkId
  lch : Fin 32
  sq : SqId
  handle : Byte
  ranges : List (Nat × Nat)
  /-- Frame cycle in which its PARTLAST beat was written whole: the part waits for its landing (R308). -/
  whole : Option Nat
  flag : Option (Fin 8192 × Bool)
  /-- It is the image of a FETCH and lies in its area (R363). -/
  fetched : Bool
deriving DecidableEq, Repr

/-- Match registers (R295 to R298). -/
structure Match where
  /-- `LNK_MATCH`. -/
  reg : Word32
  /-- MX, MY, MZ, LPOS and RATE in force since the last training (R298). -/
  inForce : Word32
  matchId : Word32
  /-- `LNK_MAP`, byte q for logical position q. -/
  map : Vector Byte 256
  second : Word32
  remote : List RemotePart
deriving DecidableEq, Repr

/-! ### Serving engines -/

/-- A request slot (R322, R323). -/
structure Req where
  slot : Nat
  rcd : BitVec 1024
  jobId : Word32
  pos : Nat
  ngen : Nat
  last : Nat
  gstate : Nat
  ended : Option (BitVec 8)
  /-- Order of admission. -/
  order : Nat
  /-- Frame in which the decision was posted. -/
  frame : Nat
  /-- Matched prompt blocks. -/
  m : Nat
  /-- Prefill tokens computed so far, from 32 M on. -/
  done : Nat
  /-- The chunk of the current frame: first token and count. -/
  chunk : Option (Nat × Nat)
  /-- Prompt blocks already considered for the book. -/
  blocks : Nat
  /-- A block was not inserted: later ones are not either (R328). -/
  noMore : Bool
  nodes : List Nat
  /-- Pages of the request by block, P each, and which are its own. -/
  pages : List Nat
  priv : List Nat
  /-- Left out of the last frame for want of a variation place (R331). -/
  late : Bool
deriving DecidableEq, Repr

/-- A sampler step in progress (R332, R374). -/
structure SampStep where
  cls : Fin 3
  /-- Byte offset of the next entry in the step table, and entries left. -/
  next : Nat
  left : Nat
deriving DecidableEq, Repr

/-- Serving engines of a partition. -/
structure Srv where
  en : Bool
  book_ : Bool
  ppb : BitVec 3
  ready : Bool
  frameLen : BitVec 24
  kv : Word32
  book : Word64
  var : Word64
  req : Word64
  batch : Word64
  samp : Word64
  budget : Word64
  frameNo : Word64
  overrun : Byte
  bookFull : Byte
  collide : Byte
  repFull : Byte
  free : List Nat
  slots : List Req
  cursor : Nat
  nextOrder : Nat
  /-- SERVE jobs that wait for the admission unit, in ring order. -/
  waiting : List Job
  /-- Boundaries start from this frame: none until the first after the enable. -/
  opened : Option Nat
  step : Option SampStep
  /-- Visits that the inserts of this partition have taken: the model's own count (R326, log 108). -/
  visits : Nat
deriving DecidableEq, Repr

/-- What the walker walks for (R314, R316, R327, R329). -/
inductive WalkKind where
  | scan | lookup | frame | evict
deriving DecidableEq, Repr

/-- An operation that needs the walker's visits: its partition and class, and the visits left (R374, R375). -/
structure WalkOp where
  part : PartId
  cls : Fin 3
  kind : WalkKind
  left : Nat
deriving DecidableEq, Repr

/-! ### Snapshots -/

/-- `SNP_GEN`.STATE. -/
inductive GenSt where
  | empty | open_ | local_ | complete
deriving DecidableEq, Repr

structure Gen where
  st : GenSt
  adjourned : Bool
  unclean : Bool
  blost : Bool
  genNo : Word32
  /-- Dirty granules: key logical segment × 1,152 + granule (R357). -/
  dirty : Sparse Bool
deriving DecidableEq, Repr

/-- `SNP_PROG`.PHASE, with the two stages before the seal cycle. -/
inductive SnpPhase where
  | armed | signalled | halting | draining | pause | background | buddy
deriving DecidableEq, Repr

/-- A page or a granule that is being captured (R354). -/
structure Capture where
  /-- The page: square × 2,048 + page; none for a granule. -/
  page : Option Nat
  /-- The granule's key as in `Gen.dirty`, for a granule. -/
  gran : Nat
  /-- Lines of the page still to read. -/
  todo : List Nat
  /-- Chess count before which RATE does not let it end. -/
  due : Nat
deriving DecidableEq, Repr

/-- A snapshot in progress (R345 to R360). -/
structure SnpJob where
  jobId : Word32
  type : Byte
  adjourn : Bool
  count : Nat
  btag : Byte
  tmask : Byte
  tag : Word64
  gen : Fin 2
  phase : SnpPhase
  /-- Chess count at which the phase began. -/
  since : Nat
  /-- Squares of the partition: as it is armed, and from the drain on those that the header names (R341). -/
  squares : BitVec 64
  /-- Protected segments of the generation: the header's mask (R340, R341). -/
  prot : BitVec 64
  /-- Squares that were halted already, or DONE, and do not resume. -/
  keep : BitVec 64
  /-- Granules not yet captured: keys as in `Gen.dirty`. -/
  grans : List Nat
  /-- Pages and granules that a writer waits for, oldest first (R354): square × 2,048 + page. -/
  wantPages : List Nat
  wantGrans : List Nat
  /-- The drain is over and the snapshot point lasts: handle arrivals set UNCLEAN (R349). -/
  drained : Bool
  /-- Pages captured of each square whose pages are being captured (R391). -/
  paged : List (Nat × Nat)
  /-- Chess count up to which the captures begun have used RATE, and the captures under way, at most one of a square (R354). -/
  pace : Nat
  caps : List Capture
  /-- Buddy beats still to send: byte offset in the area and lines. -/
  beats : List (Nat × Nat)
  /-- Beats sent and not acknowledged, by offset. -/
  unacked : List Nat
deriving DecidableEq, Repr

/-- A restore or a fetch in progress (R361, R363). -/
structure RstJob where
  jobId : Word32
  gen : Fin 2
  full : Bool
  fetch : Bool
  genNo : Word32
  /-- Slices of the scratchpads written back, of 32 lines of every square (R63, R361). -/
  slice : Nat
deriving DecidableEq, Repr

/-- A hold image under way to a reserve: where, which generation of the hold area, and the next byte (R363). -/
structure HoldSend where
  reserve : Byte
  gen : Fin 2
  off : Nat
deriving DecidableEq, Repr

structure Snp where
  en : Bool
  buddy : Bool
  rate : BitVec 5
  afirst : BitVec 6
  bfirst : BitVec 6
  nseg : BitVec 7
  prot : BitVec 64
  gens : Vector Gen 2
  job : Option SnpJob
  restore : Option RstJob
  /-- `SNP_HOLD[p]`. -/
  hold : Word64
  /-- GEN_NO of each image in the hold area, and whether its last beat has come (R359, R363; log 56). -/
  held : Vector (Option (Word32 × Bool)) 2
  /-- The hold image that a FETCH has asked for and that is being sent (R363). -/
  send : Option HoldSend
  /-- Beats of snapshots that a reset ended, still to be acknowledged: generation, GEN_NO, offset (R386, R387). -/
  stale : List (Fin 2 × Word32 × Nat)
deriving DecidableEq, Repr

/-! ### Flags, conservation, events -/

structure Flags where
  /-- Value of each flag after every write made so far. -/
  pool : BitVec 8192
  writes : List FlagWrite
  /-- `FLG_GRANT[n]`. -/
  grants : Vector Word64 64
  orphan : BitVec 64
  /-- The sampler's view of the flags, without the writes that `writes` still lists (R332). -/
  engine : BitVec 8192
deriving DecidableEq, Repr

structure Cons where
  fail : BitVec 11
  check : BitVec 4
  part : BitVec 4
  chip : Bool
  stamp : BitVec 48
deriving DecidableEq, Repr

/-- A field that a host access clears and the hardware sets or counts up (R405): a w1c bit field or an rc counter of one register. -/
inductive HwField where
  | fpStatus (n : SqId)
  | fold (n : SqId) (k : Fin 2)
  | chnStat (n : SqId) (e : Fin 32)
  | dbgHit (n : SqId)
  | devCause (p : PartId)
  | devChipCause
  | consFail
  | fltPending (p : PartId)
  | spmCorr (n : SqId)
  | spmUncorr (n : SqId)
  | mcAborts (n : SqId)
  /-- `SRV_CNT`: OVERRUN, BOOKFULL, COLLIDE, REPFULL. -/
  | srvCnt (p : PartId) (k : Fin 4)
  | epochDrop (p : PartId)
  | blzOver (p : PartId)
  /-- `HST_VIOL`: REG, RING, KICKLOST. -/
  | viol (p : PartId) (k : Fin 3)
  /-- `LNK_FEC`: CORR, UNCORR, RETRY. -/
  | linkFec (l : LinkId) (k : Fin 3)
  | hbmCorr (t : StackId)
  | hbmUncorr (t : StackId)
  | avsSteps
  | evtLost (p : PartId)
  | trcLost (p : PartId)
deriving DecidableEq, Repr

/-- An event as the history keeps it. -/
structure Events where
  /-- What the hardware has set (bits) or counted (a number) of such fields in the present core cycle (R405). -/
  hw : List (HwField × Nat)
  /-- Next record number of each source (R465). -/
  seq : Sparse Word32
  /-- The newest 4,096 records, newest first (R470). -/
  history : List Event
  histIdx : BitVec 12
  /-- Last event of each host violation: code × 16 + function, and Chess count (R408). -/
  violAt : Sparse Nat
  /-- Corrected errors since the last ECC_CE and the count of that event, per store and unit (R461). -/
  ceAt : List (Nat × Nat × Option Nat)
  /-- Vector 2 has fired for a chip event since `EVT_HEAD[0]` was written (R469). -/
  fired2 : Bool
deriving DecidableEq, Repr

/-- A host access that waits in the endpoint (R407, R412). -/
inductive HostAcc where
  | read (off len : Nat) (ecc : Ecc)
  | write (off : Nat) (bytes : List (Option Byte)) (how : BusWrite)
  | regRead (bar : Bar) (off : Nat) (en : List Bool)
  | regWrite (bar : Bar) (off : Nat) (bytes : List (Option Byte)) (poisoned : Bool)
  /-- A write of a serving register whose table writes wait for captures (R353). -/
  | srvWrite (p : PartId) (reg : Nat) (new : Word64)
deriving DecidableEq, Repr

/-- A waiting access of a function, with the lines of a scratchpad that it has moved so far, by number, and the bytes read (R412). -/
structure HostAccess where
  fn : FnId
  acc : HostAcc
  moved : List (Nat × List Byte)
deriving DecidableEq, Repr

/-- MSI-X and the HI latch of one function (R403, R425). -/
structure Func where
  /-- Register offset of the pair whose LO was the last BAR0 access, and its latched value. -/
  latch : Option (Nat × Word64)
  mask : BitVec 8
  pend : BitVec 8
  /-- Message address and data of each vector, as PCI Express lays them out. -/
  table : Vector (Word64 × Word32) 8
deriving DecidableEq, Repr

/-- Chip-wide timing state (R224, R225, R229). -/
structure ChipTmg where
  strictAny : Bool
  devCount : Word64
  devCause : BitVec 10
deriving DecidableEq, Repr

/-! ### The chip -/

/-- The whole machine and the queue of commands that wait, first in first out. -/
structure State where
  fuses : Fuses
  pins : Pins
  king : King
  power : Power
  avs : Avs
  thermal : Thermal
  clk : Clock
  ev : Events
  rings : Vector EvtRing 16
  parts : Vector Part 16
  funcs : Vector Func 16
  /-- Host accesses held in the endpoint, in the order of arrival (R407, R412). -/
  apt : List HostAccess
  squares : Vector Square 64
  flags : Flags
  msgs : List Msg
  credits : List CreditBack
  hbm : Hbm
  ces : Vector CopyEng 32
  lungo : Lungo
  links : Vector Link 12
  mtch : Match
  srv : Vector Srv 16
  /-- `SRV_TURN[e][i]`, index 16 e + i, and the entry each engine served last (R374). -/
  turns : Vector Word32 48
  turnPos : Vector (Fin 16) 3
  /-- The Blitz and the other decision that the admission unit holds (R375): partition and class. -/
  deciding : Vector (Option (PartId × Fin 3)) 2
  /-- The walker's operations under way, oldest first (R374, R375; log 108). -/
  walk : List WalkOp
  snp : Vector Snp 16
  cons : Cons
  tmg : ChipTmg
  /-- The model's own: the commands that wait. -/
  pending : List Instr
  /-- The model's own: what has left the chip, oldest first (log 9). -/
  out : List Output
  /-- The model's own: draws made of the free values (log 8). -/
  free : Nat
deriving DecidableEq, Repr

/-! ### Reset (log 1, log 2, log 3) -/

/-- Reset state of a ledger: zero, LSBEXP 0 (log 3). -/
def ledgerReset : Ledger := ⟨0, 0, false, false, false, false, false⟩

def coreReset : Core :=
  { st := .idle, stall := 0, idx := 0, plyCount := 0, s := Vector.replicate 32 0, p := Vector.replicate 8 false
    v := Vector.replicate 32 0, rails := Vector.replicate 4 none, u := 0, lastCc := none, empty := 0, flight := [], loads := []
    stores := [], held := 0, haltReq := false, haltLate := false, sealTag := none, stepReq := false, skipBreak := false, ending := false, wdog := 0
    denied := [], blockStart := false, saved := false, entry := 0 }

def foldReset : Fold := { left := 0, handle := 0, armed := false, exceeded := false, order := false, armedAt := 0, last := [] }

def mxReset : Mx :=
  { w := [], stat := [], ledgers := Vector.replicate 16 ledgerReset, cells := [], seg := Vector.replicate 8 (0, 0)
    fold := Vector.replicate 2 foldReset, foldIn := [] }

def mcReset : Mc :=
  { s := Vector.replicate 32 0, p := Vector.replicate 8 false, mem := [], pc := 0, flight := [], busy := false, current := 0, trig := none, startAt := 0, excused := 0, replied := false
    access := [], stores := [], lastCc := none, held := 0, entering := false, pending := [], aborts := 0 }

def endpointReset : Endpoint :=
  { route := 0, outc := 0, inc := 0, credits := 0, sreset := false, refused := false, lastCode := 0, held := [], reserved := 0, freeSlots := 0, away := 0, slot := 0, owed := [] }

def dbgReset : Dbg :=
  { tagVal := 0, tagMask := 0, tagEn := false, cntEn := false, bcast := false, trace := false, vsel := 0, hit := false, plyBrk := 0 }

def squareReset : Square :=
  { core := coreReset, mx := mxReset, mc := mcReset, eps := Vector.replicate 32 endpointReset, slots := Vector.replicate 96 0
    hnd := Vector.replicate 64 0, watch := Vector.replicate 16 0, view := 0, mem := [], plies := [], recipes := [], eccCorr := 0
    eccUncorr := 0, eccBank := 0, sb := Vector.replicate 33 none, hdl := [], fp := 0, dbg := dbgReset, cupSeen := 0, cupAdmit := 0
    uncapt := 0, turnAt := 0, turnBanks := [], memA := [], bWrites := [], readB := false, accepted := 0, counted := 0 }

def cfgReset : PartCfg := ⟨0, 0, 0, 0⟩

/-- Ownership of PART_0 after a chip reset (R366), given the enabled squares and the formed segments. -/
def cfgPart0 (sq seg : BitVec 64) : PartCfg := ⟨sq, seg, 0x9F0010009FFF0000, 0⟩

def ringReset : Ring :=
  { sqBase := 0, cqBase := 0, sqlog := 0, cqlog := 0, en := false, irqen := false, sqHead := 0, tail := 0, stopped := false, cause := 0
    cqTail := 0, phase := false, head := 0, outstanding := 0, promised := 0, armed := false, held := [] }

def devReset : Dev :=
  { count := 0, cause := 0, broken := false, firstCause := 0, firstSq := 0, firstNosq := false, firstValid := false, firstStamp := 0 }

def fltReset : FltPart := ⟨false, 0, 0, false, 0⟩

def traceReset : Trace :=
  { base := 0, log := 0, en := false, wrap := false, types := 0, next := 0, wrapped := false, lost := 0, lostAt := none }

/-- A partition after a chip reset, with the strap defaults of `TMG_CTL` (R366, R433). -/
def partReset (straps : StrapPins) (active : Bool) (cfg : PartCfg) : Part :=
  { st := if active then .active else .absent, busy := false, err := 0, epoch := 0, epochDrop := 0, blzOver := 0, cfg := cfg, own := cfg
    op := none, strict := straps.timing, result := if straps.result then 1 else 0, launched := false, modeWait := none, dev := devReset
    lgoLevel := 0, lgoQuality := 0, lgoLatched := 0, lgoQLatched := 0, railDue := 0, resumeWait := 0, aptKind := false, aptBase := 0, ring := ringReset, violReg := 0
    violRing := 0, violKick := 0, launch := none, launchQ := [], snapQ := [], copyWait := none, fence := none, loaded := none, queue := []
    qFree := (cfg.res.extractLsb' 32 13).toNat
    tokens := 0, tokenAt := 0, flt := fltReset, wdgLimit := 0x0800, trc := traceReset, breaks := []
    haltWait := false }

def evtRingReset : EvtRing :=
  { base := 0, log := 0, en := false, irqen := false, tail := 0, phase := false, head := 0, lost := 0, lossNext := false, fired := false }

/-- `CE_ALLOT[n]` at reset (R373). -/
def allotReset (n : Nat) : Word32 := if n < 4 then 0x80000000 else if n < 24 then 0x80000001 else 0x80000002

/-- `SRV_TURN[e][i]` at reset (R374). -/
def turnReset (i : Nat) : Word32 := if i < 4 then 0x80000000 else if i < 12 then 0x80000001 else 0x80000002

def ceReset (n : Nat) : CopyEng := ⟨allotReset n, allotReset n, none, []⟩

def hbmReset : Hbm :=
  { mem := [], healthy := 0, segments := 0, temps := Vector.replicate 6 0, hot := 0, corr := Vector.replicate 6 0
    uncorr := Vector.replicate 6 0, slot := Vector.replicate 6 none, extra := Vector.replicate 6 none, trained := 0 }

def lungoReset : Lungo := ⟨0, false, 0, 0, 0, none⟩

/-- Places of a link's landing buffer: the frames of 2,048 ct, one every 85/7 ct, and the one that arrives (R278, R286; log 35). -/
def landingCapacity : Nat := 170

def linkReset : Link :=
  { st := .off, rate := false, strictOk := false, tsrc := false, npos := 0, nlink := 0, d := 0, corr := 0, uncorr := 0, retry := 0
    slot := Vector.replicate 19 0, ch := Vector.replicate 32 0, irt := Vector.replicate 32 0, irs := Vector.replicate 32 0
    partnerStrict := false, partnerHops := 255, offset8 := 0, notReady := false, early := false, frameNo := 0, fseq := 0, lastGood := 0xFFFF
    awaiting := none, replay := [], replayFrom := none, fails := 0, nakAt := 0, losses := [], txRecs := [], recsSent := 0, txFlits := []
    timeDue := false, txBuddy := [], rxBuddy := [], rxEpoch := Vector.replicate 32 none, landing := [], places := landingCapacity, arrivals := [], beats := [], copyRec := none, transit := [], closeSent := false, closeRcvd := false
    matchReg := 0, timed := false }

/-- `LNK_MATCH` at reset: LPOS and RATE from the straps, HEAD 0x100. -/
def lnkMatchReset (straps : StrapPins) : Word32 :=
  BitVec.ofNat 32 (0x10000000 + straps.pos.toNat * 256 + (if straps.linkRate then 0x20000 else 0))

def matchReset (straps : StrapPins) : Match :=
  { reg := lnkMatchReset straps, inForce := lnkMatchReset straps, matchId := 0, map := Vector.ofFn fun q => BitVec.ofNat 8 q.val
    second := 0, remote := [] }

def srvReset : Srv :=
  { en := false, book_ := false, ppb := 0, ready := false, frameLen := 0, kv := 0, book := 0, var := 0, req := 0, batch := 0, samp := 0
    budget := 0, frameNo := 0, overrun := 0, bookFull := 0, collide := 0, repFull := 0, free := [], slots := [], cursor := 0
    nextOrder := 0, waiting := [], opened := none, step := none, visits := 0 }

def genReset : Gen := ⟨.empty, false, false, false, 0, []⟩

def snpReset : Snp :=
  { en := false, buddy := false, rate := 0, afirst := 0, bfirst := 0, nseg := 0, prot := 0, gens := Vector.replicate 2 genReset, job := none
    restore := none, hold := 0, held := Vector.replicate 2 none, send := none, stale := [] }

/-- The squares that are not fused (R3, `SQ_MAP`): rank r holds squares 8 (r − 1) to 8 (r − 1) + 7. -/
def sqMapOf (f : Fuses) : BitVec 64 :=
  match f.fused with
  | none => BitVec.allOnes 64
  | some r => ~~~(BitVec.ofNat 64 (255 <<< (8 * r.val)))

/-- Straps before the first sampling (log 1). -/
def strapsReset : StrapPins := ⟨0, false, false, 0, false, false, false⟩

def kingReset : King :=
  { stage := .rom, source := 0, bootSel := 0, image := false, fwver := 0, nextBoot := 0, pushAddr := 0, pushLen := 0, pcieUp := false, retry := true
    deviceReady := false, level := 0, expiries := [], held := false, romOnly := false, vfEnable := false, pushGo := false, servingOk := false }

/-- Every domain but the always-on one is gated (R440, log 1). -/
def powerReset : Power :=
  { dom := (Vector.replicate 28 Dom.gated).set 27 .on, busy := false, err := 0, req := none }

def avsReset : Avs :=
  { vcore := 0, vlgo := 0, deferred := false, stuck := false, steps := 0, lastStep := none, alert := false, missed := false, missedLgo := false, limit := false }

def thermalReset : Thermal :=
  { maxj := 0, maxhbm := 0, warn := false, junctionDuty := 8, live := false, hbmEmerg := false, emerg := false, tripped := false
    schedDuty := 8, schedReg := 8, schedAt := 0, armed := [] }

def clockReset : Clock :=
  { count := 0, counting := false, refOk := false, locked := false, ppsLocked := false, aligned := false, holdover := false, offset := 0
    master := false, ppsEn := false, ppsStepped := false, ppsErr := 0, frameStart := 0, frameOn := false, cc := 0, base := 0
    stepPending := none, stepPps := false, refLostAt := none, expired := false }

def eventsReset : Events :=
  { hw := [], seq := [], history := [], histIdx := 0, violAt := [], ceAt := [], fired2 := false }

/-- Every vector is masked until the host unmasks it, as PCI Express has it (log 57). -/
def funcReset : Func := ⟨none, 255, 0, Vector.replicate 8 (0, 0)⟩

/-- The partitions after a chip reset (R366): PART_0 owns what there is. -/
def partsReset (f : Fuses) (straps : StrapPins) (seg : BitVec 64) : Vector Part 16 :=
  Vector.ofFn fun p => if p.val = 0 then partReset straps true (cfgPart0 (sqMapOf f) seg) else partReset straps false cfgReset

/-- The machine right after a power-on reset, `RESET_N` still low (log 1), of a chip with fuses `f`. -/
def stateReset (f : Fuses) : State :=
  { fuses := f
    pins := ⟨true, false, true, true, strapsReset⟩
    king := kingReset
    power := powerReset
    avs := avsReset
    thermal := thermalReset
    clk := clockReset
    ev := eventsReset
    rings := Vector.replicate 16 evtRingReset
    parts := partsReset f strapsReset 0
    funcs := Vector.replicate 16 funcReset
    apt := []
    squares := Vector.replicate 64 squareReset
    flags := ⟨0, [], Vector.replicate 64 0, 0, 0⟩
    msgs := []
    credits := []
    hbm := hbmReset
    ces := Vector.ofFn fun n => ceReset n.val
    lungo := lungoReset
    links := Vector.replicate 12 linkReset
    mtch := matchReset strapsReset
    srv := Vector.replicate 16 srvReset
    turns := Vector.ofFn fun i => turnReset (i.val % 16)
    turnPos := Vector.replicate 3 15
    deciding := Vector.replicate 2 none, walk := []
    snp := Vector.replicate 16 snpReset
    cons := ⟨0, 0, 0, false, 0⟩
    tmg := ⟨false, 0, 0⟩
    pending := []
    out := []
    free := 0 }

/-- Reset of the chip whose fuses log 2 names: an Onildun-M of Grade A with no fused rank. -/
def State.reset : State := stateReset ⟨.m, none⟩

end Sys2Proof.Machine
end

