-- ==== Sys2Proof/Machine/Mem.lean ====
section
/-! DEFINITION. Sparse arrays in canonical form and byte memories over them: the one place that reads and writes scratchpad, HBM, message-core
memory and the other large arrays. -/

namespace Sys2Proof.Machine

/-- Entry k of a sparse array with default d. -/
def sget {α : Type} (d : α) : Sparse α → Nat → α
  | [], _ => d
  | (k', v) :: r, k => if k' = k then v else sget d r k

/-- Remove every entry at key k. -/
def sdrop {α : Type} (m : Sparse α) (k : Nat) : Sparse α := m.filter fun e => decide (e.1 ≠ k)

/-- Put v at key k; the default's entry is removed, so the form stays canonical. -/
def sset {α : Type} [DecidableEq α] (d : α) : Sparse α → Nat → α → Sparse α
  | [], k, v => if v = d then [] else [(k, v)]
  | (k', v') :: r, k, v =>
    if k < k' then (if v = d then sdrop ((k', v') :: r) k else (k, v) :: (k', v') :: r)
    else if k = k' then (if v = d then sdrop r k else (k, v) :: r)
    else (k', v') :: sset d r k v

/-- Remove every entry with lo ≤ key < hi. -/
def sclear {α : Type} (m : Sparse α) (lo hi : Nat) : Sparse α :=
  m.filter fun e => decide (e.1 < lo) || decide (hi ≤ e.1)

/-- All keys above `lo` (exclusive) rise strictly. -/
def sortedAbove {α : Type} : Nat → Sparse α → Bool
  | _, [] => true
  | lo, (k, _) :: r => decide (lo < k) && sortedAbove k r

/-- The canonical form: keys strictly rising, no entry equal to the default. -/
def swf {α : Type} [DecidableEq α] (d : α) (m : Sparse α) : Bool :=
  (match m with
    | [] => true
    | (k, _) :: r => sortedAbove k r) && m.all fun e => decide (e.2 ≠ d)

/-- The canonical form of a byte memory (R67; log 4). -/
def Memory.wf (m : Memory) : Bool := swf (0 : Byte) m

/-- One byte (an unlisted byte reads 0). -/
def memByte (m : Memory) (a : Nat) : Byte := sget 0 m a

def memSetByte (m : Memory) (a : Nat) (b : Byte) : Memory := sset 0 m a b

/-- n bytes from address a upward. -/
def memBytes (m : Memory) (a n : Nat) : List Byte := (List.range n).map fun i => memByte m (a + i)

/-- Bytes as a little-endian number (R100). -/
def leNat : List Byte → Nat
  | [] => 0
  | b :: r => b.toNat + 256 * leNat r

/-- The low n bytes of a number, least significant first. -/
def natLe : Nat → Nat → List Byte
  | 0, _ => []
  | n + 1, x => BitVec.ofNat 8 x :: natLe n (x / 256)

/-- n bytes from address a as a little-endian number. -/
def memNat (m : Memory) (a n : Nat) : Nat := leNat (memBytes m a n)

/-- Write bytes from address a upward. -/
def memWrite : Memory → Nat → List Byte → Memory
  | m, _, [] => m
  | m, a, b :: r => memWrite (memSetByte m a b) (a + 1) r

/-- Write the low n bytes of a number at address a. -/
def memWriteNat (m : Memory) (a n x : Nat) : Memory := memWrite m a (natLe n x)

/-- Write zeros over [lo, hi). -/
def memZero (m : Memory) (lo hi : Nat) : Memory := sclear m lo hi

/-- A 64-byte line at address a. -/
def memLine (m : Memory) (a : Nat) : Line := BitVec.ofNat 512 (memNat m a 64)

def memWriteLine (m : Memory) (a : Nat) (x : Line) : Memory := memWriteNat m a 64 x.toNat

end Sys2Proof.Machine
end

