-- ==== Sys2Proof/Machine/Num.lean ====
section
/-! DEFINITION. Number formats (04): exact values, rounding once, conversions, the W-accumulator and the ledger. Every arithmetic result is formed
exactly as a sign, a natural number and a power of two, and rounded a single time (R109). -/

namespace Sys2Proof.Machine

/-- Sticky status bits of `FP_STATUS` (R131). -/
abbrev Fp := BitVec 6
def fpInvalid : Fp := 1
def fpOverflow : Fp := 2
def fpUnderflow : Fp := 4
def fpInexact : Fp := 8
def fpSat : Fp := 16
def fpPbClamp : Fp := 32
def fpIf (b : Bool) (f : Fp) : Fp := if b then f else 0

/-- Rounding codes (R115). -/
inductive Rnd where
  | rne | rtz | rup | rdn | rna
deriving DecidableEq, Repr

def rndOf (n : Nat) : Option Rnd :=
  match n with
  | 0 => some .rne
  | 1 => some .rtz
  | 2 => some .rup
  | 3 => some .rdn
  | 4 => some .rna
  | _ => none

/-- Storage formats by FMT code (R99). -/
inductive Fmt where
  | int4 | int8 | int16 | int32 | e4m3 | e5m2 | b16 | bf16 | b32 | b64 | pb28
deriving DecidableEq, Repr

def fmtOf (n : Nat) : Option Fmt :=
  match n with
  | 0 => some .int4
  | 1 => some .int8
  | 2 => some .int16
  | 3 => some .int32
  | 4 => some .e4m3
  | 5 => some .e5m2
  | 6 => some .b16
  | 7 => some .bf16
  | 8 => some .b32
  | 9 => some .b64
  | 10 => some .pb28
  | _ => none

/-- Element width in bits; for PB28 the width of one part as 32 values per block would take (R172 counts 32 values per 64 bytes). -/
def fmtBits (f : Fmt) : Nat :=
  match f with
  | .int4 => 4
  | .int8 | .e4m3 | .e5m2 => 8
  | .int16 | .b16 | .bf16 => 16
  | .int32 | .b32 => 32
  | .b64 => 64
  | .pb28 => 32

def fmtIsInt (f : Fmt) : Bool :=
  match f with
  | .int4 | .int8 | .int16 | .int32 => true
  | _ => false

def fmtIsFloat (f : Fmt) : Bool :=
  match f with
  | .e4m3 | .e5m2 | .b16 | .bf16 | .b32 | .b64 => true
  | _ => false

/-- Exponent bits, fraction bits and bias of a floating-point format (R104). -/
structure FpParams where
  ebits : Nat
  fbits : Nat
  bias : Nat
deriving DecidableEq, Repr

def fpParams (f : Fmt) : FpParams :=
  match f with
  | .e4m3 => ⟨4, 3, 7⟩
  | .e5m2 => ⟨5, 2, 15⟩
  | .b16 => ⟨5, 10, 15⟩
  | .bf16 => ⟨8, 7, 127⟩
  | .b32 => ⟨8, 23, 127⟩
  | _ => ⟨11, 52, 1023⟩

/-- An exact value: NaN, an infinity, or (−1)^neg × m × 2^e (m = 0 is a signed zero). -/
inductive FVal where
  | nan
  | inf (neg : Bool)
  | fin (neg : Bool) (m : Nat) (e : Int)
deriving DecidableEq, Repr

/-- The value an encoding holds (R104, R106). -/
def fpDecode (f : Fmt) (x : Nat) : FVal :=
  let p := fpParams f
  let neg := x.testBit (p.ebits + p.fbits)
  let e := field x p.fbits p.ebits
  let fr := field x 0 p.fbits
  if e = 2 ^ p.ebits - 1 ∧ f ≠ .e4m3 then (if fr = 0 then .inf neg else .nan)
  else if f = .e4m3 ∧ e = 15 ∧ fr = 7 then .nan
  else if e = 0 then .fin neg fr (1 - (p.bias : Int) - p.fbits)
  else .fin neg (2 ^ p.fbits + fr) ((e : Int) - p.bias - p.fbits)

/-- A signalling NaN: a NaN whose top fraction bit is 0 (R108, IEEE 754; E4M3's one NaN code is quiet). -/
def fpSignalling (f : Fmt) (x : Nat) : Bool :=
  f ≠ .e4m3 && fpDecode f x == .nan && !x.testBit ((fpParams f).fbits - 1)

/-- Canonical NaN (R104). -/
def fpNan (f : Fmt) : Nat :=
  let p := fpParams f
  if f = .e4m3 then 0x7F else (2 ^ p.ebits - 1) <<< p.fbits + 2 ^ (p.fbits - 1)

def fpInf (f : Fmt) (neg : Bool) : Nat :=
  let p := fpParams f
  (bool2nat neg <<< (p.ebits + p.fbits)) + (2 ^ p.ebits - 1) <<< p.fbits

/-- Largest finite encoding. -/
def fpMax (f : Fmt) (neg : Bool) : Nat :=
  let p := fpParams f
  (bool2nat neg <<< (p.ebits + p.fbits)) +
    (if f = .e4m3 then 0x7E else (2 ^ p.ebits - 2) <<< p.fbits + (2 ^ p.fbits - 1))

/-- m × 2^(−k) rounded to an integer (k may be negative), and whether it is inexact. -/
def roundShift (r : Rnd) (neg : Bool) (m : Nat) (k : Int) : Nat × Bool :=
  if k ≤ 0 then (m <<< k.natAbs, false)
  else
    let d := k.toNat
    let q := m >>> d
    let rem := m - (q <<< d)
    let up : Bool :=
      match r with
      | .rtz => false
      | .rup => !neg && rem ≠ 0
      | .rdn => neg && rem ≠ 0
      | .rna => decide (2 ^ (d - 1) ≤ rem)
      | .rne => decide (2 ^ (d - 1) < rem) || (decide (rem = 2 ^ (d - 1)) && q % 2 == 1)
    (q + bool2nat up, rem ≠ 0)

/-- Overflow of a format that has infinities (R116): ±∞ or the largest finite, by the rounding code. -/
def fpOverflowed (f : Fmt) (r : Rnd) (neg : Bool) : Nat × Fp :=
  if f = .e4m3 then (fpMax f neg, fpSat)
  else
    let toInf :=
      match r with
      | .rne | .rna => true
      | .rtz => false
      | .rup => !neg
      | .rdn => neg
    (if toInf then fpInf f neg else fpMax f neg, fpOverflow ||| fpInexact)

/-- Round (−1)^neg × m × 2^e once into a floating-point format (R109, R116): tininess after rounding, UNDERFLOW only when also inexact. -/
def fpRound (f : Fmt) (r : Rnd) (neg : Bool) (m : Nat) (e : Int) : Nat × Fp :=
  let p := fpParams f
  let sgn := bool2nat neg <<< (p.ebits + p.fbits)
  if m = 0 then (sgn, 0)
  else
    let emin : Int := 1 - (p.bias : Int)
    let lead : Int := (Nat.log2 m : Int) + e
    let q : Int := max lead emin - p.fbits
    let (n, inex) := roundShift r neg m (q - e)
    -- n × 2^q is the rounded value; n ≤ 2^(fbits+1)
    let (n1, q1) : Nat × Int := if n = 2 ^ (p.fbits + 1) then (2 ^ p.fbits, q + 1) else (n, q)
    let be : Int := if n1 < 2 ^ p.fbits then 0 else q1 + p.fbits + p.bias
    let maxBe : Int := if f = .e4m3 then 15 else (2 ^ p.ebits : Nat) - 2
    if maxBe < be ∨ (f = .e4m3 ∧ be = 15 ∧ n1 = 15) then fpOverflowed f r neg
    else
      let q' : Int := lead - p.fbits
      let n' := (roundShift r neg m (q' - e)).1
      -- rounded to full precision with no exponent bound: tiny when below 2^emin
      let tiny : Bool := decide (lead < emin) && !(decide (n' = 2 ^ (p.fbits + 1)) && decide (lead + 1 = emin))
      let enc := if be = 0 then n1 else be.toNat <<< p.fbits + (n1 - 2 ^ p.fbits)
      (sgn + enc, fpIf inex fpInexact ||| fpIf (tiny && inex) fpUnderflow)

/-- Encode a value into a floating-point format under a rounding code (R116). -/
def fpEncode (f : Fmt) (r : Rnd) (v : FVal) : Nat × Fp :=
  match v with
  | .nan => (fpNan f, 0)
  | .inf neg => if f = .e4m3 then (fpMax f neg, fpSat) else (fpInf f neg, 0)
  | .fin neg m e => fpRound f r neg m e

/-! ### Exact arithmetic on values -/

def fvNeg : FVal → FVal
  | .nan => .nan
  | .inf n => .inf (!n)
  | .fin n m e => .fin (!n) m e

def fvAbs : FVal → FVal
  | .nan => .nan
  | .inf _ => .inf false
  | .fin _ m e => .fin false m e

/-- The integer n with value n × 2^k of a finite value whose exponent is at least k. -/
def fvScaled (neg : Bool) (m : Nat) (e k : Int) : Int :=
  let x : Int := (m <<< (e - k).toNat : Nat)
  if neg then -x else x

/-- A finite sum as an exact value; an exact zero of unlike signs is +0 (RNE; −0 only from −0 and −0). -/
def fvAddFin (n1 : Bool) (m1 : Nat) (e1 : Int) (n2 : Bool) (m2 : Nat) (e2 : Int) : FVal :=
  let k := min e1 e2
  let x := fvScaled n1 m1 e1 k + fvScaled n2 m2 e2 k
  if x = 0 then .fin (n1 && n2 && m1 == 0 && m2 == 0) 0 0
  else .fin (decide (x < 0)) x.natAbs k

/-- Exact sum; ∞ − ∞ is an invalid operation. -/
def fvAdd (a b : FVal) : FVal × Bool :=
  match a, b with
  | .nan, _ => (.nan, false)
  | _, .nan => (.nan, false)
  | .inf x, .inf y => if x = y then (.inf x, false) else (.nan, true)
  | .inf x, _ => (.inf x, false)
  | _, .inf y => (.inf y, false)
  | .fin n1 m1 e1, .fin n2 m2 e2 => (fvAddFin n1 m1 e1 n2 m2 e2, false)

/-- Exact product; ∞ × 0 is an invalid operation. -/
def fvMul (a b : FVal) : FVal × Bool :=
  match a, b with
  | .nan, _ => (.nan, false)
  | _, .nan => (.nan, false)
  | .inf x, .inf y => (.inf (x != y), false)
  | .inf x, .fin y m _ => if m = 0 then (.nan, true) else (.inf (x != y), false)
  | .fin y m _, .inf x => if m = 0 then (.nan, true) else (.inf (x != y), false)
  | .fin n1 m1 e1, .fin n2 m2 e2 => (.fin (n1 != n2) (m1 * m2) (e1 + e2), false)

/-- a × b + c, exact. Infinity times zero is invalid whatever c is, a quiet NaN too, which IEEE 754 leaves open (DESIGN CHOICE, log 116). -/
def fvFma (a b c : FVal) : FVal × Bool :=
  let (p, i) := fvMul a b
  if i then (.nan, true) else fvAdd p c

/-- Quotient: enough bits of the exact quotient that one rounding to at most 64 bits is right, the last bit standing for what is left.
The second part is INVALID, the third a finite value divided by zero (R168). -/
def fvDiv (a b : FVal) : FVal × Bool × Bool :=
  match a, b with
  | .nan, _ => (.nan, false, false)
  | _, .nan => (.nan, false, false)
  | .inf _, .inf _ => (.nan, true, false)
  | .inf x, .fin y _ _ => (.inf (x != y), false, false)
  | .fin x _ _, .inf y => (.fin (x != y) 0 0, false, false)
  | .fin n1 m1 e1, .fin n2 m2 e2 =>
    if m2 = 0 then (if m1 = 0 then (.nan, true, false) else (.inf (n1 != n2), false, true))
    else
      let k := 80 + Nat.log2 m2
      let num := m1 <<< k
      let q := num / m2
      let st := bool2nat (num % m2 ≠ 0)
      (.fin (n1 != n2) (2 * q + st) (e1 - e2 - k - 1), false, false)

/-- Integer square root from the top bit down: `n` bits of result still to find. -/
def isqrtGo : Nat → Nat → Nat → Nat
  | 0, _, r => r
  | n + 1, x, r =>
    let c := r + 2 ^ n
    isqrtGo n x (if c * c ≤ x then c else r)

def isqrt (x : Nat) : Nat := isqrtGo (Nat.log2 x / 2 + 1) x 0

/-- Square root, with the last bit standing for what is left; a negative nonzero value is invalid, −0 gives −0 (R168). -/
def fvSqrt (a : FVal) : FVal × Bool :=
  match a with
  | .nan => (.nan, false)
  | .inf n => if n then (.nan, true) else (.inf false, false)
  | .fin n m e =>
    if m = 0 then (.fin n 0 0, false)
    else if n then (.nan, true)
    else
      -- scale to an even exponent and at least 160 bits
      let k : Int := 160 + (if (e - 160) % 2 = 0 then 0 else 1)
      let x := m <<< k.toNat
      let q := isqrt x
      let st := bool2nat (q * q ≠ x)
      (.fin false (2 * q + st) ((e - k) / 2 - 1), false)

/-- Order of two non-NaN values, −0 equal to +0. -/
def fvLt (a b : FVal) : Bool :=
  match a, b with
  | .nan, _ => false
  | _, .nan => false
  | .inf x, .inf y => x && !y
  | .inf x, _ => x
  | _, .inf y => !y
  | .fin n1 m1 e1, .fin n2 m2 e2 =>
    let k := min e1 e2
    decide (fvScaled n1 m1 e1 k < fvScaled n2 m2 e2 k)

def fvEq (a b : FVal) : Bool :=
  a != .nan && b != .nan && !fvLt a b && !fvLt b a

def fvIsNeg : FVal → Bool
  | .nan => false
  | .inf n => n
  | .fin n _ _ => n

/-- Order with −0 below +0 (R168). -/
def fvLtTotal (a b : FVal) : Bool :=
  fvLt a b || (fvEq a b && fvIsNeg a && !fvIsNeg b)

/-! ### Operations on encodings of one format, rounded once under RNE (R168) -/

def fpSig2 (f : Fmt) (a b : Nat) : Fp := fpIf (fpSignalling f a || fpSignalling f b) fpInvalid
def fpSig1 (f : Fmt) (a : Nat) : Fp := fpIf (fpSignalling f a) fpInvalid

def fpFinish (f : Fmt) (r : FVal × Bool) (extra : Fp) : Nat × Fp :=
  let (x, fl) := fpEncode f .rne r.1
  (x, fl ||| fpIf r.2 fpInvalid ||| extra)

def fpAdd (f : Fmt) (a b : Nat) : Nat × Fp := fpFinish f (fvAdd (fpDecode f a) (fpDecode f b)) (fpSig2 f a b)
def fpSub (f : Fmt) (a b : Nat) : Nat × Fp := fpFinish f (fvAdd (fpDecode f a) (fvNeg (fpDecode f b))) (fpSig2 f a b)
def fpMul (f : Fmt) (a b : Nat) : Nat × Fp := fpFinish f (fvMul (fpDecode f a) (fpDecode f b)) (fpSig2 f a b)
def fpFma (f : Fmt) (a b c : Nat) : Nat × Fp :=
  fpFinish f (fvFma (fpDecode f a) (fpDecode f b) (fpDecode f c)) (fpSig2 f a b ||| fpSig1 f c)
def fpDiv (f : Fmt) (a b : Nat) : Nat × Fp :=
  let (v, inv, dz) := fvDiv (fpDecode f a) (fpDecode f b)
  fpFinish f (v, inv) (fpSig2 f a b ||| fpIf dz fpOverflow)
def fpSqrt (f : Fmt) (a : Nat) : Nat × Fp := fpFinish f (fvSqrt (fpDecode f a)) (fpSig1 f a)

/-- Smaller or larger of two encodings; a NaN gives the canonical NaN (R168). -/
def fpMinMax (f : Fmt) (isMax : Bool) (a b : Nat) : Nat × Fp :=
  let x := fpDecode f a
  let y := fpDecode f b
  if x = .nan ∨ y = .nan then (fpNan f, fpSig2 f a b)
  else if isMax then ((if fvLtTotal x y then b else a), 0)
  else ((if fvLtTotal y x then b else a), 0)

/-- |a| and −a: exact; a NaN gives the canonical NaN (R108). -/
def fpAbs (f : Fmt) (a : Nat) : Nat × Fp :=
  if fpDecode f a = .nan then (fpNan f, fpSig1 f a) else (a % 2 ^ (fmtBits f - 1), 0)
def fpNeg (f : Fmt) (a : Nat) : Nat × Fp :=
  if fpDecode f a = .nan then (fpNan f, fpSig1 f a)
  else ((a + 2 ^ (fmtBits f - 1)) % 2 ^ fmtBits f, 0)

/-! ### Integers (R103, R168) -/

/-- Saturate an integer to a signed width. -/
def satInt (w : Nat) (x : Int) : Nat × Fp :=
  let hi : Int := (2 ^ (w - 1) : Nat) - 1
  let lo : Int := -((2 ^ (w - 1) : Nat) : Int)
  if hi < x then (wrapInt w hi, fpSat) else if x < lo then (wrapInt w lo, fpSat) else (wrapInt w x, 0)

/-- Round an exact value to an integer of a signed width (R116): NaN gives 0 and INVALID, out of range saturates. -/
def fvToInt (w : Nat) (r : Rnd) (v : FVal) : Nat × Fp :=
  match v with
  | .nan => (0, fpInvalid)
  | .inf n =>
    let (x, _) := satInt w (if n then -((2 ^ w : Nat) : Int) else (2 ^ w : Nat))
    (x, fpSat)
  | .fin n m e =>
    let (q, inex) := roundShift r n m (-e)
    let (x, fl) := satInt w (if n then -(q : Int) else q)
    (x, if fl = 0 then fpIf inex fpInexact else fl)

def intToFv (x : Int) : FVal := .fin (decide (x < 0)) x.natAbs 0

/-- The value of an element of any format but PB28. -/
def elemVal (f : Fmt) (x : Nat) : FVal :=
  if fmtIsInt f then intToFv (signedOf (fmtBits f) x) else fpDecode f x

/-- Encode a value in any format but PB28 under a rounding code (the rows of R116). -/
def elemEncode (f : Fmt) (r : Rnd) (v : FVal) : Nat × Fp :=
  if fmtIsInt f then fvToInt (fmtBits f) r v else fpEncode f r v

/-- Conversion of one element between any two formats other than PB28 (R116); a signalling NaN sets INVALID (R108). -/
def convert (src dst : Fmt) (r : Rnd) (x : Nat) : Nat × Fp :=
  let (y, fl) := elemEncode dst r (elemVal src x)
  (y, fl ||| fpIf (fmtIsFloat src && fpSignalling src x) fpInvalid)

/-! ### The W-accumulator (R120 to R122) -/

/-- Value of a W-accumulator; exponent 0 is read with the exponent of 1 (R120, log 13). -/
def wDecode (x : BitVec 80) : FVal :=
  let neg := x.getLsbD 79
  let e := bits x 78 64
  let s := bits x 63 0
  if e = 0x7FFF then (if s = 2 ^ 63 then .inf neg else .nan)
  else .fin neg s ((max e 1 : Nat) - 16446)

def wNan : BitVec 80 := 0x7FFFC000000000000000

/-- Round a value to a W-accumulator (R121). -/
def wEncode (v : FVal) : BitVec 80 × Bool :=
  match v with
  | .nan => (wNan, false)
  | .inf neg => (BitVec.ofNat 80 ((bool2nat neg <<< 79) + (0x7FFF <<< 64) + 2 ^ 63), false)
  | .fin neg m e =>
    if m = 0 then (BitVec.ofNat 80 (bool2nat neg <<< 79), false)
    else
      let lead : Int := (Nat.log2 m : Int) + e
      let q : Int := max (lead - 63) (-16445)
      let (n, inex) := roundShift .rne neg m (q - e)
      let (n1, q1) : Nat × Int := if n = 2 ^ 64 then (2 ^ 63, q + 1) else (n, q)
      let be : Int := if n1 < 2 ^ 63 then 0 else q1 + 16446
      if 32766 < be then (BitVec.ofNat 80 ((bool2nat neg <<< 79) + (0x7FFF <<< 64) + 2 ^ 63), true)
      else (BitVec.ofNat 80 ((bool2nat neg <<< 79) + (be.toNat <<< 64) + n1), inex)

/-- acc + v rounded once under RNE; NaN operands and ∞ − ∞ set INVALID (R121, R122). -/
def wAddVal (acc : BitVec 80) (v : FVal) : BitVec 80 × Fp :=
  let a := wDecode acc
  if a = .nan ∨ v = .nan then (wNan, fpInvalid)
  else
    let (s, inv) := fvAdd a v
    let (x, inex) := wEncode s
    (x, fpIf inv fpInvalid ||| fpIf inex fpInexact)

/-- acc + a × b with the product exact (R121): a NaN operand, or ∞ × 0, sets INVALID. -/
def wMac (acc : BitVec 80) (a b : FVal) : BitVec 80 × Fp := wAddVal acc (fvMul a b).1

/-- Read-out of a W-accumulator into a storage format (R130). -/
def wReadOut (f : Fmt) (r : Rnd) (x : BitVec 80) : Nat × Fp := elemEncode f r (wDecode x)

/-- W image: 16 bytes (R123). -/
def wImage (x : BitVec 80) : List Byte := natLe 16 x.toNat

/-! ### The ledger (R124 to R129) -/

def ledgerZero (lsb : BitVec 16) : Ledger := ⟨0, lsb, false, false, false, false, false⟩

/-- Add one product to a ledger in the four steps of R125. `invalid` is a NaN operand or ∞ × 0. -/
def ledgerAdd (g : Ledger) (p : FVal) : Ledger :=
  match p with
  | .nan => { g with nan := true }
  | .inf neg => if neg then { g with ninf := true } else { g with pinf := true }
  | .fin neg m e =>
    let lsb : Int := g.lsbexp.toInt
    let (n, dropped) := roundShift .rtz neg m (lsb - e)
    let g := if dropped then { g with trunc := true } else g
    if 2 ^ 560 ≤ n then { g with ovf := true }
    else { g with l := if neg then g.l - BitVec.ofNat 640 n else g.l + BitVec.ofNat 640 n }

def ledgerMac (g : Ledger) (a b : FVal) : Ledger := ledgerAdd g (fvMul a b).1

/-- Merge of two images (R128): unequal LSBEXP sets NAN and INVALID and adds nothing (log 14). -/
def ledgerMerge (g h : Ledger) : Ledger × Fp :=
  if g.lsbexp = h.lsbexp then
    (⟨g.l + h.l, g.lsbexp, g.nan || h.nan, g.pinf || h.pinf, g.ninf || h.ninf, g.ovf || h.ovf, g.trunc || h.trunc⟩, 0)
  else ({ g with nan := true }, fpInvalid)

/-- Exact value L × 2^LSBEXP. -/
def ledgerVal (g : Ledger) : FVal :=
  let x := g.l.toInt
  .fin (decide (x < 0)) x.natAbs g.lsbexp.toInt

/-- Saturated minimum or maximum for an infinite ledger in E4M3 or an integer target (R129): SAT as its row names, without INEXACT (DESIGN CHOICE, log 113). -/
def ledgerInf (f : Fmt) (neg : Bool) : Nat × Fp :=
  if fmtIsInt f then fvToInt (fmtBits f) .rne (.inf neg)
  else fpEncode f .rne (.inf neg)

/-- Read-out of a ledger (R129): a finite ledger that saturates is not exact. A tiny result that TRUNC alone makes inexact sets INEXACT and leaves
UNDERFLOW clear (DESIGN CHOICE, log 113). -/
def ledgerReadOut (f : Fmt) (r : Rnd) (g : Ledger) : Nat × Fp :=
  if g.nan || g.ovf || (g.pinf && g.ninf) then ((if fmtIsInt f then 0 else fpNan f), fpInvalid)
  else if g.pinf then ledgerInf f false
  else if g.ninf then ledgerInf f true
  else if g.l = 0 then (0, fpIf g.trunc fpInexact)
  else
    let (x, fl) := elemEncode f r (ledgerVal g)
    (x, fl ||| fpIf (g.trunc || decide (fl &&& fpSat ≠ 0)) fpInexact)

/-- Ledger image: 128 bytes (R127). -/
def ledgerImage (g : Ledger) : BitVec 1024 :=
  BitVec.ofNat 1024 (g.l.toNat + (g.lsbexp.toNat <<< 640) +
    ((bool2nat g.nan + 2 * bool2nat g.pinf + 4 * bool2nat g.ninf + 8 * bool2nat g.ovf + 16 * bool2nat g.trunc) <<< 656))

def ledgerOfImage (x : BitVec 1024) : Ledger :=
  { l := BitVec.ofNat 640 (bits x 639 0), lsbexp := BitVec.ofNat 16 (bits x 655 640)
    nan := bit x 656, pinf := bit x 657, ninf := bit x 658, ovf := bit x 659, trunc := bit x 660 }

/-! ### PB28 (R110 to R114) -/

/-- Shared exponent of a block, signed. -/
def pbExp (b : Nat) : Int := signedOf 8 (field b 0 8)

/-- Element j is valid: its MASK bit is 1 and EXP is not 0x80 (R112). -/
def pbValid (b j : Nat) : Bool := field b 0 8 ≠ 0x80 && b.testBit (8 + j)

/-- Part i (0 real, 1 imaginary) of element j as an integer. -/
def pbPart (b j i : Nat) : Int := signedOf 14 (field b (64 + 28 * j + 14 * i) 14)

/-- Exact value of a part; an invalid element counts as zero here (R112). -/
def pbVal (b j i : Nat) : FVal :=
  if pbValid b j then
    let x := pbPart b j i
    .fin (decide (x < 0)) x.natAbs (pbExp b - 13)
  else .fin false 0 0

/-- ⌊log₂|x|⌋ + 1 of a nonzero finite value. -/
def fvTopExp (v : FVal) : Option Int :=
  match v with
  | .fin _ m e => if m = 0 then none else some ((Nat.log2 m : Int) + e + 1)
  | _ => none

/-- Largest of the top exponents. -/
def maxTop (vs : List FVal) : Option Int :=
  vs.foldl (fun acc v =>
    match fvTopExp v, acc with
    | none, a => a
    | some x, none => some x
    | some x, some y => some (max x y)) none

/-- r = round(x × 2^(13 − EXP)) of one part: magnitude, sign, inexact. -/
def pbRound (r : Rnd) (ex : Int) (v : FVal) : Nat × Bool × Bool :=
  match v with
  | .fin n m e => let (q, i) := roundShift r n m (ex - 13 - e); (q, n, i)
  | _ => (0, false, false)

/-- Pack 32 values (real, imaginary of 16 elements) into a block (R114); `ty` and `toff` are carried (R113). -/
def pbPack (r : Rnd) (vs : List FVal) (ty toff : Nat) : Nat × Fp :=
  let elems := (List.range 16).map fun j => (vs.getD (2 * j) .nan, vs.getD (2 * j + 1) .nan)
  let isFin : FVal → Bool := fun v => match v with | .fin _ _ _ => true | _ => false
  let valid := elems.map fun e => isFin e.1 && isFin e.2
  let anyBad := valid.any (!·)
  let parts := (elems.zip valid).flatMap fun (e, ok) => if ok then [e.1, e.2] else [.fin false 0 0, .fin false 0 0]
  let mask := (List.range 16).foldl (fun a j => a + (bool2nat (valid.getD j false) <<< j)) 0
  let hdr : Int → Nat := fun ex => wrapInt 8 ex + (mask <<< 8) + ((ty % 256) <<< 24) + ((toff % 2 ^ 32) <<< 32)
  match maxTop parts with
  | none => (hdr (-127), fpIf anyBad fpInvalid)
  | some ex0 =>
    let big : Int → Bool := fun ex => parts.any fun v => decide (8192 ≤ (pbRound r ex v).1)
    let ex1 := if big ex0 then ex0 + 1 else ex0
    let ex := max (-127) (min 127 ex1)
    let rs := parts.map (pbRound r ex)
    let sat := rs.any fun x => decide (8192 ≤ x.1)
    let inex := rs.any fun x => x.2.2
    let enc := (List.range 32).foldl (fun a i =>
      let x := rs.getD i (0, false, false)
      let mag : Nat := min x.1 8191
      a + (wrapInt 14 (if x.2.1 then -(mag : Int) else mag) <<< (64 + 14 * i))) 0
    (hdr ex + enc,
      fpIf anyBad fpInvalid ||| fpIf (sat || decide (ex ≠ ex1)) fpPbClamp ||| fpIf inex fpInexact)

/-- One part of a block into a floating-point format (R116): an invalid element gives the canonical NaN. -/
def pbUnpack (f : Fmt) (r : Rnd) (b j i : Nat) : Nat × Fp :=
  if pbValid b j then fpEncode f r (pbVal b j i) else (fpNan f, fpInvalid)

end Sys2Proof.Machine
end

