-- ==== Sys2Proof/Machine/Ply.lean ====
section
/-! DEFINITION. The 512-bit ply (R26 to R31): its header, its six slots with every field at the bit positions of R30, and the encoder that puts the
fields back. The message-core instruction forms (07) use the same slots. -/

namespace Sys2Proof.Machine

/-- Header fields (R27). -/
structure PlyHdr where
  tag : BitVec 8
  endB : BitVec 1
  haltOk : BitVec 1
  res : BitVec 6
deriving DecidableEq, Repr

/-- S slot (R30). -/
structure SSlot where
  opc : BitVec 8
  dst : BitVec 5
  srca : BitVec 5
  srcb : BitVec 5
  pred : BitVec 3
  pneg : BitVec 1
  gen : BitVec 1
  res : BitVec 4
  imm : BitVec 64
deriving DecidableEq, Repr

/-- V slot (R30). -/
structure VSlot where
  opc : BitVec 8
  stage : BitVec 1
  rin : BitVec 1
  rout : BitVec 1
  vd : BitVec 5
  va : BitVec 5
  vb : BitVec 5
  pred : BitVec 3
  pneg : BitVec 1
  gen : BitVec 1
  fmt : BitVec 4
  sdst : BitVec 5
  rcp : BitVec 10
  res : BitVec 14
  imm : BitVec 32
deriving DecidableEq, Repr

/-- M slot (R30). -/
structure MSlot where
  opc : BitVec 8
  fmta : BitVec 4
  fmtb : BitVec 4
  acc : BitVec 2
  gmask : BitVec 8
  srca : BitVec 3
  srcb : BitVec 3
  va : BitVec 5
  vb : BitVec 5
  clr : BitVec 1
  rdo : BitVec 1
  rnd : BitVec 3
  pred : BitVec 3
  pneg : BitVec 1
  gen : BitVec 1
  res : BitVec 12
  imm : BitVec 32
deriving DecidableEq, Repr

/-- L slot (R30). -/
structure LSlot where
  opc : BitVec 8
  abase : BitVec 5
  off : BitVec 25
  lines : BitVec 4
  vd : BitVec 5
  dest : BitVec 1
  pred : BitVec 3
  pneg : BitVec 1
  gen : BitVec 1
  fmt : BitVec 4
  stride : BitVec 16
  res : BitVec 7
deriving DecidableEq, Repr

/-- T slot (R30). -/
structure TSlot where
  opc : BitVec 8
  abase : BitVec 5
  off : BitVec 25
  lines : BitVec 3
  res41 : BitVec 1
  vs : BitVec 5
  res47 : BitVec 1
  src : BitVec 2
  pred : BitVec 3
  pneg : BitVec 1
  gen : BitVec 1
  fmt : BitVec 4
  stride : BitVec 16
  res : BitVec 5
deriving DecidableEq, Repr

/-- Y slot (R30). -/
structure YSlot where
  opc : BitVec 6
  flag : BitVec 13
  val : BitVec 1
  sreg : BitVec 5
  chan : BitVec 5
  handle : BitVec 8
  pred : BitVec 3
  pneg : BitVec 1
  gen : BitVec 1
  res : BitVec 5
deriving DecidableEq, Repr

def decodeHdr (x : BitVec 16) : PlyHdr :=
  { tag := x.extractLsb' 0 8, endB := x.extractLsb' 8 1, haltOk := x.extractLsb' 9 1, res := x.extractLsb' 10 6 }

def encodeHdr (h : PlyHdr) : BitVec 16 := h.res ++ h.haltOk ++ h.endB ++ h.tag

def decodeS (x : BitVec 96) : SSlot :=
  { opc := x.extractLsb' 0 8, dst := x.extractLsb' 8 5, srca := x.extractLsb' 13 5, srcb := x.extractLsb' 18 5
    pred := x.extractLsb' 23 3, pneg := x.extractLsb' 26 1, gen := x.extractLsb' 27 1, res := x.extractLsb' 28 4
    imm := x.extractLsb' 32 64 }

def encodeS (s : SSlot) : BitVec 96 :=
  s.imm ++ s.res ++ s.gen ++ s.pneg ++ s.pred ++ s.srcb ++ s.srca ++ s.dst ++ s.opc

def decodeV (x : BitVec 96) : VSlot :=
  { opc := x.extractLsb' 0 8, stage := x.extractLsb' 8 1, rin := x.extractLsb' 9 1, rout := x.extractLsb' 10 1
    vd := x.extractLsb' 11 5, va := x.extractLsb' 16 5, vb := x.extractLsb' 21 5
    pred := x.extractLsb' 26 3, pneg := x.extractLsb' 29 1, gen := x.extractLsb' 30 1
    fmt := x.extractLsb' 31 4, sdst := x.extractLsb' 35 5, rcp := x.extractLsb' 40 10, res := x.extractLsb' 50 14
    imm := x.extractLsb' 64 32 }

def encodeV (v : VSlot) : BitVec 96 :=
  v.imm ++ v.res ++ v.rcp ++ v.sdst ++ v.fmt ++ v.gen ++ v.pneg ++ v.pred ++ v.vb ++ v.va ++ v.vd ++ v.rout ++ v.rin ++ v.stage ++ v.opc

def decodeM (x : BitVec 96) : MSlot :=
  { opc := x.extractLsb' 0 8, fmta := x.extractLsb' 8 4, fmtb := x.extractLsb' 12 4, acc := x.extractLsb' 16 2
    gmask := x.extractLsb' 18 8, srca := x.extractLsb' 26 3, srcb := x.extractLsb' 29 3
    va := x.extractLsb' 32 5, vb := x.extractLsb' 37 5, clr := x.extractLsb' 42 1, rdo := x.extractLsb' 43 1
    rnd := x.extractLsb' 44 3, pred := x.extractLsb' 47 3, pneg := x.extractLsb' 50 1, gen := x.extractLsb' 51 1
    res := x.extractLsb' 52 12, imm := x.extractLsb' 64 32 }

def encodeM (m : MSlot) : BitVec 96 :=
  m.imm ++ m.res ++ m.gen ++ m.pneg ++ m.pred ++ m.rnd ++ m.rdo ++ m.clr ++ m.vb ++ m.va ++ m.srcb ++ m.srca ++ m.gmask ++ m.acc
    ++ m.fmtb ++ m.fmta ++ m.opc

def decodeL (x : BitVec 80) : LSlot :=
  { opc := x.extractLsb' 0 8, abase := x.extractLsb' 8 5, off := x.extractLsb' 13 25, lines := x.extractLsb' 38 4
    vd := x.extractLsb' 42 5, dest := x.extractLsb' 47 1, pred := x.extractLsb' 48 3, pneg := x.extractLsb' 51 1
    gen := x.extractLsb' 52 1, fmt := x.extractLsb' 53 4, stride := x.extractLsb' 57 16, res := x.extractLsb' 73 7 }

def encodeL (l : LSlot) : BitVec 80 :=
  l.res ++ l.stride ++ l.fmt ++ l.gen ++ l.pneg ++ l.pred ++ l.dest ++ l.vd ++ l.lines ++ l.off ++ l.abase ++ l.opc

def decodeT (x : BitVec 80) : TSlot :=
  { opc := x.extractLsb' 0 8, abase := x.extractLsb' 8 5, off := x.extractLsb' 13 25, lines := x.extractLsb' 38 3
    res41 := x.extractLsb' 41 1, vs := x.extractLsb' 42 5, res47 := x.extractLsb' 47 1, src := x.extractLsb' 48 2
    pred := x.extractLsb' 50 3, pneg := x.extractLsb' 53 1, gen := x.extractLsb' 54 1, fmt := x.extractLsb' 55 4
    stride := x.extractLsb' 59 16, res := x.extractLsb' 75 5 }

def encodeT (t : TSlot) : BitVec 80 :=
  t.res ++ t.stride ++ t.fmt ++ t.gen ++ t.pneg ++ t.pred ++ t.src ++ t.res47 ++ t.vs ++ t.res41 ++ t.lines ++ t.off ++ t.abase ++ t.opc

def decodeY (x : BitVec 48) : YSlot :=
  { opc := x.extractLsb' 0 6, flag := x.extractLsb' 6 13, val := x.extractLsb' 19 1, sreg := x.extractLsb' 20 5
    chan := x.extractLsb' 25 5, handle := x.extractLsb' 30 8, pred := x.extractLsb' 38 3, pneg := x.extractLsb' 41 1
    gen := x.extractLsb' 42 1, res := x.extractLsb' 43 5 }

def encodeY (y : YSlot) : BitVec 48 :=
  y.res ++ y.gen ++ y.pneg ++ y.pred ++ y.handle ++ y.chan ++ y.sreg ++ y.val ++ y.flag ++ y.opc

/-- A whole ply (R26). -/
structure Ply where
  hdr : PlyHdr
  s : SSlot
  v : VSlot
  m : MSlot
  l : LSlot
  t : TSlot
  y : YSlot
deriving DecidableEq, Repr

def decodePly (x : Line) : Ply :=
  { hdr := decodeHdr (x.extractLsb' 0 16), s := decodeS (x.extractLsb' 16 96), v := decodeV (x.extractLsb' 112 96)
    m := decodeM (x.extractLsb' 208 96), l := decodeL (x.extractLsb' 304 80), t := decodeT (x.extractLsb' 384 80)
    y := decodeY (x.extractLsb' 464 48) }

def encodePly (p : Ply) : Line :=
  encodeY p.y ++ encodeT p.t ++ encodeL p.l ++ encodeM p.m ++ encodeV p.v ++ encodeS p.s ++ encodeHdr p.hdr

/-- A slot whose bits are all zero is a no-op (R28). -/
def sNop (s : SSlot) : Bool := encodeS s == 0
def vNop (v : VSlot) : Bool := encodeV v == 0
def mNop (m : MSlot) : Bool := encodeM m == 0
def lNop (l : LSlot) : Bool := encodeL l == 0
def tNop (t : TSlot) : Bool := encodeT t == 0
def yNop (y : YSlot) : Bool := encodeY y == 0

/-- The guard of a slot (R29). -/
def guard (preds : Vector Bool 8) (pred : BitVec 3) (pneg gen : BitVec 1) : Bool :=
  gen == 0 || (preds[pred.toFin] != (pneg == 1))

/-- A branch opcode of the S slot, or HALT (R33). -/
def isBranchOpc (o : BitVec 8) : Bool := decide (0xF0 ≤ o.toNat ∧ o.toNat ≤ 0xF6) || o == 0xFF

/-- Message-core instruction (07 Handlers): bits [127:126] select the form. -/
inductive McInstr where
  | s (x : SSlot)
  | y (x : YSlot)
  | l (x : LSlot)
  | t (x : TSlot)
deriving DecidableEq, Repr

def decodeMc (x : Word128) : McInstr :=
  match (x.extractLsb' 126 2).toNat with
  | 0 => .s (decodeS (x.extractLsb' 0 96))
  | 1 => .y (decodeY (x.extractLsb' 0 48))
  | 2 => .l (decodeL (x.extractLsb' 0 80))
  | _ => .t (decodeT (x.extractLsb' 0 80))

end Sys2Proof.Machine
end

