-- ==== Sys2Proof/Machine/Scalar.lean ====
section
/-! DEFINITION. The scalar opcodes (R33, R34, R118): the value each one computes from its sources, and its latency. The control core and the message
core use the same table. -/

namespace Sys2Proof.Machine

/-- What a scalar operation writes: an S register, a P register, or nothing. -/
inductive SRes where
  | s (x : Word64) (fl : BitVec 6)
  | p (x : Bool) (fl : BitVec 6)
  | none
deriving DecidableEq, Repr

/-- Leading zero bits of a 64-bit value; 64 for zero. -/
def clz64 (x : Word64) : Nat := if x = 0 then 64 else 63 - Nat.log2 x.toNat

/-- Number of 1 bits. -/
def popcount (w x : Nat) : Nat := (List.range w).foldl (fun a i => a + bool2nat (x.testBit i)) 0

/-- Binary64 comparison; signalling NaN sets INVALID, a NaN compares false (R34, R108). -/
def fpCmp (lt eq : Bool) (a b : Word64) : Bool × BitVec 6 :=
  let x := fpDecode .b64 a.toNat
  let y := fpDecode .b64 b.toNat
  ((lt && fvLt x y) || (eq && fvEq x y), fpSig2 .b64 a.toNat b.toNat)

def sFp (r : Nat × BitVec 6) : SRes := .s (BitVec.ofNat 64 r.1) r.2

/-- Integer and logic group, 0x01 to 0x2F (R34). -/
def scalarInt (opc : Nat) (a b imm : Word64) (preds : Vector Bool 8) : SRes :=
  let sh := bits b 5 0
  let si := bits imm 5 0
  match opc with
  | 0x01 => .s (a + b) 0
  | 0x02 => .s (a - b) 0
  | 0x03 => .s (a &&& b) 0
  | 0x04 => .s (a ||| b) 0
  | 0x05 => .s (a ^^^ b) 0
  | 0x06 => .s (a &&& ~~~b) 0
  | 0x07 => .s (a <<< sh) 0
  | 0x08 => .s (a >>> sh) 0
  | 0x09 => .s (a.sshiftRight sh) 0
  | 0x0A => .s (if b.slt a then b else a) 0
  | 0x0B => .s (if a.slt b then b else a) 0
  | 0x0C => .s (if b.ult a then b else a) 0
  | 0x0D => .s (if a.ult b then b else a) 0
  | 0x0E => .s (BitVec.ofNat 64 (clz64 a)) 0
  | 0x0F => .s (BitVec.ofNat 64 (popcount 64 a.toNat)) 0
  | 0x10 => .s a 0
  | 0x11 => .s imm 0
  | 0x12 => .s (a + imm) 0
  | 0x13 => .s (a &&& imm) 0
  | 0x14 => .s (a ||| imm) 0
  | 0x15 => .s (a ^^^ imm) 0
  | 0x16 => .s (a <<< si) 0
  | 0x17 => .s (a >>> si) 0
  | 0x18 => .s (a.sshiftRight si) 0
  | 0x19 => .s (if preds[(imm.extractLsb' 0 3).toFin] then a else b) 0
  | 0x1A => .s (BitVec.ofNat 64 ((List.range 8).foldl (fun x i => x + (bool2nat (preds.toList.getD i false) <<< i)) 0)) 0
  | _ => .none

/-- Integer multiplies, 0x30 to 0x37. -/
def scalarMul (opc : Nat) (a b imm : Word64) : SRes :=
  match opc with
  | 0x30 => .s (a * b) 0
  | 0x31 => .s (BitVec.ofInt 64 ((a.toInt * b.toInt) / (2 ^ 64 : Nat))) 0
  | 0x32 => .s (BitVec.ofNat 64 (a.toNat * b.toNat / 2 ^ 64)) 0
  | 0x33 => .s (a * imm) 0
  | _ => .none

/-- Compares and predicate logic, 0x40 to 0x5F. `pa`, `pb` are P[SRCA], P[SRCB]. -/
def scalarCmp (opc : Nat) (a b imm : Word64) (pa pb : Bool) : SRes :=
  match opc with
  | 0x40 => .p (a == b) 0
  | 0x41 => .p (a != b) 0
  | 0x42 => .p (a.slt b) 0
  | 0x43 => .p (a.sle b) 0
  | 0x44 => .p (a.ult b) 0
  | 0x45 => .p (a.ule b) 0
  | 0x46 => .p (a == imm) 0
  | 0x47 => .p (a.slt imm) 0
  | 0x48 => let r := fpCmp false true a b; .p r.1 r.2
  | 0x49 => let r := fpCmp true false a b; .p r.1 r.2
  | 0x4A => let r := fpCmp true true a b; .p r.1 r.2
  | 0x4B => .p (decide (fpDecode .b64 a.toNat = .nan) || decide (fpDecode .b64 b.toNat = .nan)) (fpSig2 .b64 a.toNat b.toNat)
  | 0x50 => .p (pa && pb) 0
  | 0x51 => .p (pa || pb) 0
  | 0x52 => .p (pa != pb) 0
  | 0x53 => .p (!pa) 0
  | 0x54 => .p (bit imm 0) 0
  | 0x55 => .p (a != 0) 0
  | _ => .none

/-- Binary64 arithmetic and conversions, 0x60 to 0x7F. `d` is S[DST] as read at issue. -/
def scalarFp (opc : Nat) (a b d : Word64) : SRes :=
  let x := a.toNat
  let y := b.toNat
  match opc with
  | 0x60 => sFp (fpAdd .b64 x y)
  | 0x61 => sFp (fpSub .b64 x y)
  | 0x62 => sFp (fpMul .b64 x y)
  | 0x63 => sFp (fpDiv .b64 x y)
  | 0x64 => sFp (fpSqrt .b64 x)
  | 0x65 => sFp (fpMinMax .b64 false x y)
  | 0x66 => sFp (fpMinMax .b64 true x y)
  | 0x67 => sFp (fpFma .b64 x y d.toNat)
  | 0x68 => sFp (fpAbs .b64 x)
  | 0x69 => sFp (fpNeg .b64 x)
  | 0x6A => sFp (fpEncode .b64 .rne (intToFv a.toInt))
  | 0x6B =>
    let r := fvToInt 64 .rne (fpDecode .b64 x)
    sFp (r.1, r.2 ||| fpSig1 .b64 x)
  | _ => .none

/-- Result of the scalar opcode of an S slot. -/
def scalarOp (s : SSlot) (regs : Vector Word64 32) (preds : Vector Bool 8) : SRes :=
  let o := s.opc.toNat
  let a := regs[s.srca.toFin]
  let b := regs[s.srcb.toFin]
  if o < 0x30 then scalarInt o a b s.imm preds
  else if o < 0x40 then scalarMul o a b s.imm
  else if o < 0x60 then scalarCmp o a b s.imm preds[(s.srca.extractLsb' 0 3).toFin] preds[(s.srcb.extractLsb' 0 3).toFin]
  else if o < 0x80 then scalarFp o a b regs[s.dst.toFin]
  else .none

/-- Latency of a scalar opcode (R33). -/
def scalarLatency (opc : BitVec 8) : Nat :=
  let o := opc.toNat
  if o < 0x30 then 1 else if o < 0x40 then 3 else if o < 0x60 then 1 else 4

/-- The opcode is assigned by R34 (branches and HALT apart). -/
def scalarAssigned (opc : BitVec 8) : Bool :=
  let o := opc.toNat
  decide (0x01 ≤ o ∧ o ≤ 0x1A) || decide (0x30 ≤ o ∧ o ≤ 0x33) || decide (0x40 ≤ o ∧ o ≤ 0x4B) || decide (0x50 ≤ o ∧ o ≤ 0x55)
    || decide (0x60 ≤ o ∧ o ≤ 0x6B)

/-- Whether a branch opcode is taken (R33, R40). HALT is not a branch. -/
def branchTaken (s : SSlot) (regs : Vector Word64 32) (preds : Vector Bool 8) : Bool :=
  let a := regs[s.srca.toFin]
  let b := regs[s.srcb.toFin]
  let p := preds[(s.srca.extractLsb' 0 3).toFin]
  match s.opc.toNat with
  | 0xF0 => true
  | 0xF1 => p
  | 0xF2 => !p
  | 0xF3 => a == 0
  | 0xF4 => a != 0
  | 0xF5 => a.slt b
  | 0xF6 => !a.slt b
  | _ => false

/-- Target ply index of a branch: bits [44:32] of the slot. -/
def branchTarget (s : SSlot) : BitVec 13 := s.imm.extractLsb' 0 13

/-- The scalar results as landings. -/
def sLanding (s : SSlot) (r : SRes) (u : Nat) : List Landing :=
  match r with
  | .s x _ => [⟨u + scalarLatency s.opc, .s s.dst.toFin x⟩]
  | .p x _ => [⟨u + scalarLatency s.opc, .p (s.dst.extractLsb' 0 3).toFin x⟩]
  | .none => []

def sFlags (r : SRes) : BitVec 6 :=
  match r with
  | .s _ f => f
  | .p _ f => f
  | .none => 0

end Sys2Proof.Machine
end

