-- ==== Sys2Proof/Machine/Vec.lean ====
section
/-! DEFINITION. The vector engine (06): elements, masks, every V opcode, recipes and the reduction tree, as functions of the register contents. -/

namespace Sys2Proof.Machine

/-- Register width in bits: 512 B on Onildun-M, 1 KiB on Onildun-V (R2, R161). -/
def vBits (vt : Variant) : Nat := match vt with | .m => 4096 | .v => 8192

/-- Elements per register (R161); for PB28, complex elements. -/
def vElems (vt : Variant) (f : Fmt) : Nat :=
  match f with
  | .pb28 => vBits vt / 32
  | f => vBits vt / fmtBits f

/-- Values per register for CVT: a PB28 register counts 32 values per block (R172). -/
def vValues (vt : Variant) (f : Fmt) : Nat :=
  match f with
  | .pb28 => vBits vt / 16
  | f => vBits vt / fmtBits f

/-- Element k of width w bits. -/
def elem (w : Nat) (x k : Nat) : Nat := field x (w * k) w

/-- Pack elements of w bits, element 0 lowest (R100, R101). -/
def pack (w : Nat) : List Nat → Nat
  | [] => 0
  | x :: r => x % 2 ^ w + (pack w r) <<< w

/-- Elements of a register. -/
def elems (w n x : Nat) : List Nat := (List.range n).map (elem w x)

/-- Operands of a vector operation at issue. -/
structure VArgs where
  variant : Variant
  a : Nat
  b : Nat
  /-- VD as it stood at issue. -/
  d : Nat
  /-- The mask register V[IMM[4:0]] of SEL. -/
  mask : Nat
  /-- S[SDST]. -/
  s : Word64
  imm : Nat
deriving DecidableEq, Repr

/-- Apply a function to every element, collecting status. -/
def mapElems (w n : Nat) (f : Nat → Nat × Fp) : Nat × Fp :=
  let rs := (List.range n).map f
  (pack w (rs.map (·.1)), rs.foldl (fun acc r => acc ||| r.2) 0)

/-- Two-operand arithmetic on one element (R168). -/
def elemBin (opc : Nat) (f : Fmt) (x y : Nat) : Nat × Fp :=
  let w := fmtBits f
  if fmtIsInt f then
    let a := signedOf w x
    let b := signedOf w y
    match opc with
    | 0x01 => (wrapInt w (a + b), 0)
    | 0x02 => (wrapInt w (a - b), 0)
    | 0x03 => (wrapInt w (a * b), 0)
    | 0x05 => (if b < a then y else x, 0)
    | 0x06 => (if a < b then y else x, 0)
    | 0x0B => satInt w (a + b)
    | 0x0C => satInt w (a - b)
    | _ => (x, 0)
  else
    match opc with
    | 0x01 => fpAdd f x y
    | 0x02 => fpSub f x y
    | 0x03 => fpMul f x y
    | 0x05 => fpMinMax f false x y
    | 0x06 => fpMinMax f true x y
    | 0x09 => fpDiv f x y
    | _ => (x, 0)

/-- One-operand arithmetic on one element; ABS of the least integer is a free value (log 15). -/
def elemUn (opc : Nat) (f : Fmt) (x : Nat) : Nat × Fp :=
  let w := fmtBits f
  if fmtIsInt f then
    let a := signedOf w x
    match opc with
    | 0x07 => if a = -((2 ^ (w - 1) : Nat) : Int) then (Config.absLeast w % 2 ^ w, 0) else (wrapInt w a.natAbs, 0)
    | 0x08 => (wrapInt w (-a), 0)
    | _ => (x, 0)
  else
    match opc with
    | 0x07 => fpAbs f x
    | 0x08 => fpNeg f x
    | 0x0A => fpSqrt f x
    | _ => (x, 0)

/-- Shift of one element by a count modulo the width (R168). -/
def elemShift (opc : Nat) (w x c : Nat) : Nat :=
  let n := c % w
  match opc with
  | 0x14 => (x <<< n) % 2 ^ w
  | 0x15 => wrapInt w (signedOf w x >>> n)
  | _ => x >>> n

/-- CMP conditions (R169). -/
def elemCmp (f : Fmt) (cond x y : Nat) : Bool × Fp :=
  let a := elemVal f x
  let b := elemVal f y
  let un := a == .nan || b == .nan
  let r :=
    match cond with
    | 0 => fvEq a b
    | 1 => !fvEq a b
    | 2 => fvLt a b
    | 3 => fvLt a b || fvEq a b
    | 4 => fvLt b a
    | 5 => fvLt b a || fvEq a b
    | 6 => un
    | _ => !un
  (r, if fmtIsInt f then 0 else fpSig2 f x y)

/-- A mask register from its bits; bits E and above are zero (R162). -/
def maskOf (bs : List Bool) : Nat := pack 1 (bs.map bool2nat)

/-- Rank of element e: active elements below it (R179). -/
def rankOf (mask e : Nat) : Nat := popcount e mask

/-- TAMP (R180): active elements of VA packed from start s. -/
def vTamp (w n a d mask : Nat) (s : Int) : Nat :=
  let acts := (List.range n).filter fun e => mask.testBit e
  pack w ((List.range n).map fun (pos : Nat) =>
    let k : Int := (pos : Int) - s
    if k < 0 then elem w d pos
    else match acts[k.toNat]? with
      | some e => elem w a e
      | none => elem w d pos)

/-- BLOOM (R181): element s + k of VA to the active position of rank k. -/
def vBloom (w n a d mask : Nat) (s : Int) : Nat :=
  pack w ((List.range n).map fun (pos : Nat) =>
    if mask.testBit pos then
      let i : Int := s + rankOf mask pos
      if 0 ≤ i ∧ i < n then elem w a i.toNat else elem w d pos
    else elem w d pos)

/-- Values 0 to n − 1 of a PB28 register counted as real, imaginary, real, … (R172). -/
def pbValues (x n : Nat) : List (Nat × Nat × Nat) :=
  (List.range n).map fun k => (field x (512 * (k / 32)) 512, k % 32 / 2, k % 2)

/-- CVT (R171, R172). -/
def vCvt (args : VArgs) (src dst : Fmt) (r : Rnd) : Nat × Fp :=
  let es := vValues args.variant src
  let et := vValues args.variant dst
  let n := min es et
  let part := field args.imm 7 4
  let s0 := if et < es then part * n else 0
  let t0 := if es < et then part * n else 0
  if dst = .pb28 then
    let w := fmtBits src
    let toff := bits args.s 31 0
    let ty := field args.imm 11 8
    let blocks := (List.range (n / 32)).map fun k =>
      pbPack r ((List.range 32).map fun i => elemVal src (elem w args.a (s0 + 32 * k + i))) ty toff
    let sig := (List.range n).foldl (fun acc i => acc ||| fpIf (fmtIsFloat src && fpSignalling src (elem w args.a (s0 + i))) fpInvalid) 0
    let base := t0 / 32
    let outB := (List.range (et / 32)).map fun k =>
      if base ≤ k ∧ k < base + n / 32 then (blocks.getD (k - base) (0, 0)).1 else field args.d (512 * k) 512
    (pack 512 outB, blocks.foldl (fun acc b => acc ||| b.2) sig)
  else if src = .pb28 then
    let w := fmtBits dst
    let vs := (pbValues args.a (s0 + n)).drop s0
    let rs := vs.map fun (b, j, i) => pbUnpack dst r b j i
    let out := (List.range et).map fun k =>
      if t0 ≤ k ∧ k < t0 + n then (rs.getD (k - t0) (0, 0)).1 else elem w args.d k
    (pack w out, rs.foldl (fun acc x => acc ||| x.2) 0)
  else
    let ws := fmtBits src
    let w := fmtBits dst
    let rs := (List.range n).map fun i => convert src dst r (elem ws args.a (s0 + i))
    let out := (List.range et).map fun k =>
      if t0 ≤ k ∧ k < t0 + n then (rs.getD (k - t0) (0, 0)).1 else elem w args.d k
    (pack w out, rs.foldl (fun acc x => acc ||| x.2) 0)

/-- The operations that write VD (R166), RECIPE apart. `lo` is the free value of ABS at the least integer. -/
def vOp (opc : Nat) (f : Fmt) (x : VArgs) : Nat × Fp :=
  let w := fmtBits f
  let n := vElems x.variant f
  let width := vBits x.variant
  let bin := fun (o : Nat) => mapElems w n fun e => elemBin o f (elem w x.a e) (elem w x.b e)
  let s : Int := x.s.toInt
  match opc with
  | 0x01 => bin 0x01
  | 0x02 => bin 0x02
  | 0x03 => bin 0x03
  | 0x04 => mapElems w n fun e => fpFma f (elem w x.a e) (elem w x.b e) (elem w x.d e)
  | 0x05 => bin 0x05
  | 0x06 => bin 0x06
  | 0x07 => mapElems w n fun e => elemUn 0x07 f (elem w x.a e)
  | 0x08 => mapElems w n fun e => elemUn 0x08 f (elem w x.a e)
  | 0x09 => bin 0x09
  | 0x0A => mapElems w n fun e => elemUn 0x0A f (elem w x.a e)
  | 0x0B => bin 0x0B
  | 0x0C => bin 0x0C
  | 0x10 => (x.a &&& x.b, 0)
  | 0x11 => (x.a ||| x.b, 0)
  | 0x12 => (x.a ^^^ x.b, 0)
  | 0x13 => (x.a - (x.a &&& x.b), 0)
  | 0x14 => mapElems w n fun e => (elemShift 0x14 w (elem w x.a e) (field x.imm 0 6), 0)
  | 0x15 => mapElems w n fun e => (elemShift 0x15 w (elem w x.a e) (field x.imm 0 6), 0)
  | 0x16 => mapElems w n fun e => (elemShift 0x16 w (elem w x.a e) (field x.imm 0 6), 0)
  | 0x20 =>
    let rs := (List.range n).map fun e => elemCmp f (field x.imm 0 3) (elem w x.a e) (elem w x.b e)
    (maskOf (rs.map (·.1)), rs.foldl (fun acc r => acc ||| r.2) 0)
  | 0x21 => mapElems w n fun e => (if x.mask.testBit e then elem w x.a e else elem w x.b e, 0)
  | 0x22 => (maskOf ((List.range (vElems x.variant .pb28)).map fun e => pbValid (field x.a (512 * (e / 16)) 512) (e % 16)), 0)
  | 0x28 =>
    let y : Nat × Fp := if f = .b64 then convert .b32 .b64 .rne (x.imm % 2 ^ 32) else (x.imm % 2 ^ w, 0)
    (pack w (List.replicate n y.1), y.2)
  | 0x29 => (pack w (List.replicate n (x.s.toNat % 2 ^ w)), 0)
  | 0x2A => (x.a % 2 ^ width, 0)
  | 0x2B => mapElems w n fun p => (elem w x.a ((p + n - field x.imm 0 12 % n) % n), 0)
  | 0x2C => mapElems w n fun e => (elem w x.a (elem w x.b e % n), 0)
  | 0x2D =>
    match fmtOf (field x.imm 0 4), rndOf (field x.imm 4 3) with
    | some t, some r => vCvt x f t r
    | _, _ => (x.d, 0)
  | 0x30 => (vTamp w n x.a x.d x.b s, 0)
  | 0x31 => (vBloom w n x.a x.d x.b s, 0)
  | _ => (x.d, 0)

/-- The opcode writes VD. -/
def vWritesV (opc : Nat) : Bool := decide (opc < 0x38) || opc == 0x40

/-- Opcodes of R166. -/
def vAssigned (opc : Nat) : Bool :=
  decide (0x01 ≤ opc ∧ opc ≤ 0x0C) || decide (0x10 ≤ opc ∧ opc ≤ 0x16) || decide (0x20 ≤ opc ∧ opc ≤ 0x22)
    || decide (0x28 ≤ opc ∧ opc ≤ 0x2D) || decide (0x30 ≤ opc ∧ opc ≤ 0x31) || decide (0x38 ≤ opc ∧ opc ≤ 0x3D) || opc == 0x40

/-- Formats a row of R166 allows. -/
def vFmtOk (opc : Nat) (f : Fmt) : Bool :=
  let int := f == .int8 || f == .int16 || f == .int32
  let flt := f == .b16 || f == .bf16 || f == .b32 || f == .b64
  let arith := int || flt
  let move := f != .int4 && f != .pb28
  if opc ≤ 0x03 ∨ opc = 0x05 ∨ opc = 0x06 ∨ opc = 0x07 ∨ opc = 0x08 ∨ opc = 0x20 ∨ (0x38 ≤ opc ∧ opc ≤ 0x3B) ∨ opc = 0x3D ∨ opc = 0x40 then arith
  else if opc = 0x04 ∨ opc = 0x09 ∨ opc = 0x0A then flt
  else if opc = 0x0B ∨ opc = 0x0C ∨ (0x14 ≤ opc ∧ opc ≤ 0x16) then int
  else if opc = 0x22 then f == .pb28
  else if opc = 0x21 ∨ opc = 0x28 ∨ opc = 0x29 ∨ opc = 0x2B ∨ opc = 0x30 ∨ opc = 0x31 then move
  else if opc = 0x2C then move && decide (16 ≤ fmtBits f)
  else true

/-! ### Reductions (R182, R183) -/

/-- One tree level: node i combines nodes 2i and 2i + 1 of the level below. -/
def treeLevel {α : Type} (op : α → α → α) : List α → List α
  | a :: b :: r => op a b :: treeLevel op r
  | l => l

/-- `levels` levels of the tree. -/
def treeUp {α : Type} (op : α → α → α) : Nat → List α → List α
  | 0, l => l
  | n + 1, l => treeUp op n (treeLevel op l)

/-- A lane combines its elements in ascending order. -/
def laneFold {α : Type} (op : α → α → α) : List α → Option α
  | [] => none
  | x :: r => some (r.foldl op x)

/-- Split a list into runs of q. -/
def chunksOf {α : Type} (q : Nat) : Nat → List α → List (List α)
  | 0, _ => []
  | n + 1, l => l.take q :: chunksOf q n (l.drop q)

/-- The reduction of R182: lanes, then the tree. -/
def reduce {α : Type} (op : α → α → α) (vt : Variant) (f : Fmt) (xs : List α) (z : α) : α :=
  let levels := match vt with | .m => 7 | .v => 8
  let q := if f = .b64 then 1 else 32 / fmtBits f
  let lanes := (chunksOf q (xs.length / q) xs).filterMap (laneFold op)
  let n := if f = .b64 then levels - 1 else levels
  (treeUp op n lanes).headD z

/-- Smaller or larger of two values, −0 below +0; NaN wins (R183). -/
def fvSelect (isMax : Bool) (a b : FVal) : FVal :=
  if a = .nan ∨ b = .nan then .nan
  else if isMax then (if fvLtTotal a b then b else a)
  else if fvLtTotal b a then b else a

/-- The reductions, RCOUNT and EXT: the value of S[SDST] and the status. A quiet NaN element of RSUM sets nothing (DEDUCED from R108, log 116). -/
def vReduce (opc : Nat) (f : Fmt) (x : VArgs) : Word64 × Fp :=
  let w := fmtBits f
  let n := vElems x.variant f
  let xs := elems w n x.a
  let int := fmtIsInt f
  let vals := xs.map (elemVal f)
  let sig : Fp := if int then 0 else xs.foldl (fun acc e => acc ||| fpSig1 f e) 0
  let outF := fun (v : FVal) => let r := fpEncode .b64 .rne v; (BitVec.ofNat 64 r.1, r.2)
  let outI := fun (v : FVal) => match v with
    | .fin s m e => let k := (roundShift .rtz s m (-e)).1; BitVec.ofInt 64 (if s then -(k : Int) else k)
    | _ => (0 : Word64)
  match opc with
  | 0x38 =>
    if int then (BitVec.ofInt 64 (xs.foldl (fun acc e => acc + signedOf w e) 0), 0)
    else
      let ws : List (BitVec 80 × Fp) := vals.map fun v => ((wEncode v).1, 0)
      let add := fun (p q : BitVec 80 × Fp) =>
        let r := wAddVal p.1 (wDecode q.1)
        -- a NaN that came from an input sets nothing new (R108)
        let nanIn := decide (wDecode p.1 = .nan) || decide (wDecode q.1 = .nan)
        (r.1, p.2 ||| q.2 ||| (if nanIn then 0 else r.2))
      let root := reduce add x.variant f ws (0, 0)
      let o := outF (wDecode root.1)
      (o.1, o.2 ||| root.2 ||| sig)
  | 0x39 => let v := reduce (fvSelect false) x.variant f vals (.fin false 0 0)
            if int then (outI v, 0) else let o := outF v; (o.1, o.2 ||| sig)
  | 0x3A => let v := reduce (fvSelect true) x.variant f vals (.fin false 0 0)
            if int then (outI v, 0) else let o := outF v; (o.1, o.2 ||| sig)
  | 0x3B => let v := reduce (fvSelect true) x.variant f (vals.map fvAbs) (.fin false 0 0)
            if int then (outI v, 0) else let o := outF v; (o.1, o.2 ||| sig)
  | 0x3C => (BitVec.ofNat 64 (popcount n x.a), 0)
  | _ =>
    let e := elem w x.a (field x.imm 0 12 % n)
    if int then (BitVec.ofInt 64 (signedOf w e), 0)
    else let o := outF (fpDecode f e); (o.1, o.2 ||| fpSig1 f e)

/-! ### Recipes (R174 to R178) -/

/-- One recipe step: `RCP_CTL` in bits [63:0] and `RCP_K` in bits [127:64] of the stored word. -/
structure RcpStep where
  sop : Nat
  last : Bool
  dst : Nat
  sa : Nat
  sb : Nat
  sc : Nat
  k : Nat
deriving DecidableEq, Repr

def rcpStep (x : Word128) : RcpStep :=
  { sop := bits x 5 0, last := bit x 6, dst := bits x 10 7, sa := bits x 14 11, sb := bits x 18 15, sc := bits x 22 19, k := bits x 127 64 }

/-- Working values of one application: X, Y, Z, OUT and TMP_0 to TMP_7. -/
structure RcpEnv where
  x : Nat
  y : Nat
  z : Nat
  out : Nat
  tmp : List Nat
  fl : BitVec 6
deriving DecidableEq, Repr

def rcpSrc (e : RcpEnv) (k w code : Nat) : Nat :=
  match code with
  | 0 => e.x
  | 1 => e.y
  | 2 => k % 2 ^ w
  | 3 => e.z
  | n => e.tmp.getD (n - 4) 0

/-- ⌊log₂|a|⌋ as a value (R175 GETEXP). -/
def fvGetExp (v : FVal) : FVal :=
  match v with
  | .nan => .nan
  | .inf _ => .inf false
  | .fin _ m e => if m = 0 then .inf true else intToFv ((Nat.log2 m : Int) + e)

/-- a × 2^⌊b⌋ with b truncated toward zero (R175 SCALE); an infinite b multiplies by ∞ or 0 (log 15). -/
def fvScale (a b : FVal) : FVal × Bool :=
  match a, b with
  | .nan, _ => (.nan, false)
  | _, .nan => (.nan, false)
  | a, .inf n => fvMul a (if n then .fin false 0 0 else .inf false)
  | .inf n, _ => (.inf n, false)
  | .fin n m e, .fin nb mb eb =>
    let k := (roundShift .rtz nb mb (-eb)).1
    -- beyond ±2^20 the result has long over- or underflowed
    let k := min k 1048576
    (.fin n m (e + (if nb then -(k : Int) else k)), false)

/-- Step operations (R175) on encodings of format f. -/
def rcpOp (sop : Nat) (f : Fmt) (a b c : Nat) : Nat × Fp :=
  let w := fmtBits f
  let mm := fun (isMax : Bool) (p q : Nat) => elemBin (if isMax then 0x06 else 0x05) f p q
  match sop with
  | 0x01 => elemBin 0x01 f a b
  | 0x02 => elemBin 0x02 f a b
  | 0x03 => elemBin 0x03 f a b
  | 0x04 => if fmtIsInt f then (wrapInt w (signedOf w a * signedOf w b + signedOf w c), 0) else fpFma f a b c
  | 0x05 => mm false a b
  | 0x06 => mm true a b
  | 0x07 => elemUn 0x07 f a
  | 0x08 => elemUn 0x08 f a
  | 0x09 => (if a.testBit (w - 1) then b else c, 0)
  | 0x0A => (a &&& b, 0)
  | 0x0B => (a ||| b, 0)
  | 0x0C => (a ^^^ b, 0)
  | 0x0D => (elemShift 0x14 w a b, 0)
  | 0x0E => (elemShift 0x15 w a b, 0)
  | 0x0F =>
    let (t, f1) := mm true a b
    let (r, f2) := mm false t c
    (r, f1 ||| f2)
  | 0x10 =>
    match fpDecode f a with
    | .fin n m e =>
      let (q, inex) := roundShift .rne n m (-e)
      let r := fpEncode f .rne (.fin n q 0)
      (r.1, r.2 ||| fpIf inex fpInexact)
    | v => let r := fpEncode f .rne v; (r.1, r.2 ||| fpSig1 f a)
  | 0x11 => let r := fpEncode f .rne (fvGetExp (fpDecode f a)); (r.1, r.2 ||| fpSig1 f a)
  | 0x12 => fpFinish f (fvScale (fpDecode f a) (fpDecode f b)) (fpSig2 f a b)
  | 0x13 => fpDiv f a b
  | 0x14 => fpSqrt f a
  | _ => (a, 0)

def rcpExec (f : Fmt) (e : RcpEnv) (st : RcpStep) : RcpEnv :=
  let w := fmtBits f
  let r := rcpOp st.sop f (rcpSrc e st.k w st.sa) (rcpSrc e st.k w st.sb) (rcpSrc e st.k w st.sc)
  let e := { e with fl := e.fl ||| r.2 }
  if st.dst = 0 then { e with out := r.1 } else { e with tmp := e.tmp.set (st.dst - 4) r.1 }

/-- The steps of the recipe at entry n, through the first with LAST set; at most 32 (R177). -/
def recipeSteps (m : Sparse Word128) : Nat → Nat → List RcpStep
  | 0, _ => []
  | fuel + 1, n =>
    let st := rcpStep (sget 0 m n)
    if st.last then [st] else st :: recipeSteps m fuel (n + 1)

/-- RECIPE on a whole register (R176). -/
def vRecipe (steps : List RcpStep) (f : Fmt) (x : VArgs) : Nat × Fp :=
  let w := fmtBits f
  mapElems w (vElems x.variant f) fun e =>
    let env := steps.foldl (rcpExec f) ⟨elem w x.a e, elem w x.b e, elem w x.d e, 0, List.replicate 8 0, 0⟩
    (env.out, env.fl)

/-- Recipe formats and step formats (R175). -/
def rcpFmtOk (sop : Nat) (f : Fmt) : Bool :=
  vFmtOk 0x40 f && (if sop = 0x0D ∨ sop = 0x0E then fmtIsInt f else if 0x10 ≤ sop then fmtIsFloat f else true)

/-- Latency of a V opcode (R45, R166): n is the recipe's number of steps. -/
def vLatency (vt : Variant) (opc n : Nat) : Nat :=
  if opc = 0x40 then 3 + n
  else if 0x38 ≤ opc ∧ opc ≤ 0x3D then (match vt with | .m => 8 | .v => 9)
  else 4

end Sys2Proof.Machine
end

