-- ==== Sys2Proof/Machine/Matrix.lean ====
section
/-! DEFINITION. The matrix engine (05) and the cupping predictor (09): operand chunks, the M opcodes, the ledger set, the fold unit. -/

namespace Sys2Proof.Machine

/-- Array groups of a square (R132). -/
def mGroups (vt : Variant) : Nat := match vt with | .m => 8 | .v => 4

def mArrays (vt : Variant) : Nat := 16 * mGroups vt

/-- K of a format (R148). -/
def mK (f : Fmt) : Nat :=
  match f with
  | .int4 => 8
  | .int8 | .e4m3 | .e5m2 => 4
  | .int16 | .b16 | .bf16 => 2
  | _ => 1

/-- Bytes of a chunk (R136). -/
def mChunk (f : Fmt) : Nat :=
  match f with
  | .b64 => 32
  | .pb28 => 64
  | _ => 16

/-- Permitted operand pairs (R119). -/
def mPairOk (a b : Fmt) : Bool :=
  a == b || (a == .e4m3 && b == .e5m2) || (a == .e5m2 && b == .e4m3) || (a == .b16 && b == .bf16) || (a == .bf16 && b == .b16)

/-- Issue interval of an accumulating operation (R148). -/
def mInterval (class22 : Bool) (f : Fmt) : Nat :=
  if f = .b64 then (if class22 then 16 else 4) else (if class22 then 4 else 1)

/-- IMM fields (R142). -/
def mSent (imm : Nat) : Nat := field imm 0 6
def mOfmt (imm : Nat) : Nat := field imm 6 4
def mRbase (imm : Nat) : Nat := field imm 10 7
def mAnchor (imm : Nat) : BitVec 16 := BitVec.ofInt 16 (signedOf 12 (field imm 17 12))
def mSet (imm : Nat) : Fin 2 := if imm.testBit 0 then 1 else 0
def mFhandle (imm : Nat) : Nat := field imm 1 8
def mFcount (imm : Nat) : Nat := field imm 9 16

/-- Significand width of a format (R253). -/
def sigWidth (f : Fmt) : Nat :=
  match f with
  | .pb28 => 14
  | .int4 => 4
  | .int8 => 8
  | .int16 => 16
  | .int32 => 32
  | f => (fpParams f).fbits + 1

/-- Over-scaled span at a knob level (R253). -/
def lungoSpan (fa fb : Fmt) (level : Nat) : Nat := (sigWidth fa + sigWidth fb) * level / 16

/-- Score of a tile (R266). `chunk` is the group operand chunk, for PB28 the block; g the group. -/
def lungoScore (f : Fmt) (chunk g : Nat) : Nat :=
  let h := sigWidth f / 2
  let (n, b) : Nat × Nat :=
    if f = .pb28 then
      let one := fun (j : Nat) =>
        if pbValid chunk j then popcount 7 (field chunk (64 + 28 * j) 7) + popcount 7 (field chunk (64 + 28 * j + 14) 7) else 0
      (one (2 * g) + one (2 * g + 1), 28)
    else
      let w := fmtBits f
      let k := 8 * mChunk f / w
      ((List.range k).foldl (fun a i => a + popcount h (elem w chunk i)) 0, h * k)
  min 15 (16 * n / b)

/-- What a Lungo launch brings to an accumulating operation: none outside Lungo. -/
structure LungoCtx where
  /-- The rank is fed from `VDD_LGO` (R262). -/
  fed : Bool
  /-- Effective level. -/
  level : Nat
  quality : Nat
deriving DecidableEq, Repr

/-- Everything an M operation reads beside the engine itself. -/
structure MCtx where
  variant : Variant
  /-- 22 cc class: the partition runs Ristretto scoresheets. -/
  class22 : Bool
  lungo : Option LungoCtx
  /-- Bytes of SRCA and of SRCB (rail position or V register), little-endian. -/
  srcA : Nat
  srcB : Nat
  /-- First draw number for erroneous Lungo products. -/
  draw : Nat
  /-- Unstalled cycle and frame cycle of issue. -/
  u : Nat
  cc : Nat
deriving DecidableEq, Repr

/-- What an M operation gives: the engine, status, landings, predictor counts. -/
structure MRes where
  mx : Mx
  fp : Fp
  lands : List Landing
  seen : Nat
  admitted : Nat
deriving DecidableEq, Repr

/-- Latency to rail C (R145). -/
def mLatency (class22 : Bool) : Nat := if class22 then 22 else 14

def statGet (mx : Mx) (a e : Nat) : Nat := (sget 0 mx.stat (64 * a + e)).toNat

/-- Exact elements of a plain chunk: n elements of f. -/
def chunkVals (f : Fmt) (chunk n : Nat) : List FVal := (List.range n).map fun i => elemVal f (elem (fmtBits f) chunk i)

/-- One part of PB28 element j of a block. -/
def pbCx (b j : Nat) : FVal × FVal := (pbVal b j 0, pbVal b j 1)

/-- Operand A of array (g, j) as a chunk: group operand of MMA and VMMA, array operand of LMMA, or the stationary entry (R137 to R139).
For PB28 the second part is the index of the tile's first element: of the four elements that R138 gives an array, the 2 × 1 tile of R135 is the first
two (DESIGN CHOICE, log 97). -/
def mOperandA (mx : Mx) (x : MCtx) (f : Fmt) (ledger stationary : Bool) (g0 g j sent : Nat) : Nat × Nat :=
  if stationary then (statGet mx (16 * g + j) sent, 0)
  else if f = .pb28 then
    if ledger then (field x.srcA (512 * (4 * (g - g0) + j / 4)) 512, 4 * (j % 4))
    else (field x.srcA 0 512, 2 * g)
  else
    let c := 8 * mChunk f
    if ledger then (field x.srcA (c * (16 * (g - g0) + j)) c, 0) else (field x.srcA (c * g) c, 0)

/-- Operand B of array (g, j); `entry` is the stationary entry when B is stationary. -/
def mOperandB (mx : Mx) (x : MCtx) (f : Fmt) (stationary : Bool) (g0 g j entry : Nat) : Nat × Nat :=
  if stationary then (statGet mx (16 * g + j) entry, 0)
  else if f = .pb28 then (field x.srcB (512 * (4 * (g - g0) + j / 4)) 512, 4 * (j % 4))
  else
    let c := 8 * mChunk f
    (field x.srcB (c * (16 * (g - g0) + j)) c, 0)

/-- The list of products each of the 16 cells takes, in ascending k: cell number and product. For PB28 two entries a cell pair, each the list
of its partial products (R134, R135). -/
def mTerms (fa fb : Fmt) (a b : Nat × Nat) : List (Nat × List (FVal × FVal × Bool)) :=
  if fa = .pb28 then
    (List.range 2).flatMap fun i => (List.range 4).flatMap fun j =>
      let (ar, ai) := pbCx a.1 (a.2 + i)
      let (br, bi) := pbCx b.1 (b.2 + j)
      if pbValid a.1 (a.2 + i) && pbValid b.1 (b.2 + j) then
        [(2 * (4 * i + j), [(ar, br, false), (ai, bi, true)]), (2 * (4 * i + j) + 1, [(ar, bi, false), (ai, br, false)])]
      else []
  else
    let k := mK fa
    let va := chunkVals fa a.1 (4 * k)
    let vb := chunkVals fb b.1 (4 * k)
    (List.range 4).flatMap fun i => (List.range 4).map fun j =>
      (4 * i + j, (List.range k).map fun n => (va.getD (k * i + n) .nan, vb.getD (4 * n + j) .nan, false))

/-- A product: exact, or of an admitted tile a free value of the product's width (R269, R270). -/
def mProduct (free : Option (Nat × Nat)) (a b : FVal) : FVal :=
  let p := (fvMul a b).1
  match free, a, b with
  | some (n, w), .fin _ _ e1, .fin _ _ e2 =>
    let r := Config.lungoProduct n
    .fin (r.getLsbD 127) (r.toNat % 2 ^ w) (e1 + e2)
  | _, _, _ => p

/-- Row of C that a cell belongs to (R160). -/
def mRow (f : Fmt) (cell : Nat) : Nat := if f = .pb28 then cell / 8 else cell / 4

/-- Accumulate one array's cells (R121, R149): `free` gives the first draw number and the product width of an admitted tile. CLR clears the cells of the
enabled rows (R143, R160: DESIGN CHOICE, log 97). -/
def wAccumulate (w : Sparse (BitVec 80)) (base : Nat) (fa fb : Fmt) (rows : Nat) (clr : Bool) (free : Option (Nat × Nat))
    (a b : Nat × Nat) : Sparse (BitVec 80) × Fp :=
  let w := if clr then (List.range 16).foldl (fun w c => if rows.testBit (mRow fa c) then sset 0 w (base + c) 0 else w) w else w
  (mTerms fa fb a b).foldl (fun (w, fl) (c, ps) =>
    if rows.testBit (mRow fa c) then
      let old := sget 0 w (base + c)
      let dr := fun (n : Nat) => free.map fun (d, wd) => (d + 8 * c + n, wd)
      let (new, f2) : BitVec 80 × Fp :=
        if fa = .pb28 then
          -- a complex product's part is formed exactly, then accumulated once
          let v := (List.zipIdx ps).foldl (fun acc ((x, y, neg), n) =>
            let p := mProduct (dr n) x y
            (fvAdd acc (if neg then fvNeg p else p)).1) (.fin false 0 0)
          wAddVal old v
        else (List.zipIdx ps).foldl (fun (acc, f) ((x, y, _), n) =>
          let r := wAddVal acc (mProduct (dr n) x y)
          (r.1, f ||| r.2)) (old, 0)
      (sset 0 w (base + c) new, fl ||| f2)
    else (w, fl)) (w, 0)

/-- Accumulate one array's products into the ledger set (R125, R151). -/
def lAccumulate (ls : Vector Ledger 16) (fa fb : Fmt) (a b : Nat × Nat) : Vector Ledger 16 :=
  (mTerms fa fb a b).foldl (fun ls (c, ps) =>
    if h : c < 16 then
      ls.set c (ps.foldl (fun g (x, y, neg) => ledgerAdd g (let p := (fvMul x y).1; if neg then fvNeg p else p)) ls[c])
    else ls) ls

/-- Signalling NaNs among the elements of a chunk set INVALID (R108, R131). -/
def chunkSig (f : Fmt) (chunk : Nat) : Fp :=
  if fmtIsFloat f then
    (List.range (8 * mChunk f / fmtBits f)).foldl (fun acc i => acc ||| fpSig1 f (elem (fmtBits f) chunk i)) 0
  else 0

/-- The same for operand A when only the enabled rows are read (R160); operand B is read when any row is. -/
def rowSig (fa fb : Fmt) (rows a b : Nat) : Fp :=
  if fa = .pb28 ∨ rows % 16 = 0 then 0
  else
    let k := mK fa
    let sa := if fmtIsFloat fa then
        (List.range (4 * k)).foldl (fun acc i => if rows.testBit (i / k) then acc ||| fpSig1 fa (elem (fmtBits fa) a i) else acc) 0
      else 0
    sa ||| chunkSig fb b

/-- Groups named by GMASK on this variant (R31). -/
def mNamed (vt : Variant) (gmask : BitVec 8) : List Nat := (List.range (mGroups vt)).filter fun g => bit gmask g

/-- The admission decision of a tile (R265): the product width's free draw when admitted. -/
def mAdmit (x : MCtx) (fa : Fmt) (stationary : Bool) (g : Nat) : Bool :=
  match x.lungo with
  | none => false
  | some l =>
    let chunk := if fa = .pb28 then field x.srcA 0 512 else field x.srcA (8 * mChunk fa * g) (8 * mChunk fa)
    l.fed && decide (0 < l.level) && !stationary && decide (lungoScore fa chunk g ≤ 15 - l.quality)

/-- MMA and VMMA (R142, R149, R160). -/
def mMma (mx : Mx) (x : MCtx) (m : MSlot) (fa fb : Fmt) : MRes :=
  let vm := m.opc.toNat == 0x03
  let imm := m.imm.toNat
  let gs := mNamed x.variant m.gmask
  let g0 := gs.headD 0
  let statA := m.srca.toNat == 3
  let statB := vm || m.srcb.toNat == 3
  gs.foldl (fun r g =>
    let seg := mx.seg[g]?.getD (0, 0)
    let rows := if vm then seg.2.toNat else 0xF
    let entry := if vm then (seg.1.toNat + mSent imm) % 64 else mSent imm
    let adm := mAdmit x fa statA g
    let span := match x.lungo with | some l => lungoSpan fa fb l.level | none => 0
    let (w, fl) := (List.range 16).foldl (fun (w, fl) j =>
      let arr := 16 * g + j
      let a := mOperandA mx x fa false statA g0 g j (mSent imm)
      let b := mOperandB mx x fb statB g0 g j entry
      let free := if adm && decide (0 < span) then some (x.draw + 128 * arr, sigWidth fa + sigWidth fb) else none
      let (w, f) := wAccumulate w ((m.acc.toNat * 128 + arr) * 16) fa fb rows (m.clr == 1) free a b
      (w, fl ||| f ||| rowSig fa fb rows a.1 b.1)) (r.mx.w, r.fp)
    { r with mx := { r.mx with w := w }, fp := fl
             seen := r.seen + (if x.lungo.isSome then 1 else 0), admitted := r.admitted + bool2nat adm })
    ⟨mx, 0, [], 0, 0⟩

/-- LSBEXP that a clearing LMMA fixes (R124, R152). -/
def mLsbexp (fa : Fmt) (imm : Nat) : BitVec 16 :=
  if fa = .b64 then mAnchor imm else if fmtIsInt fa then 0 else BitVec.ofInt 16 (-298)

/-- LMMA (R151, R152). -/
def mLmma (mx : Mx) (x : MCtx) (m : MSlot) (fa fb : Fmt) : MRes :=
  let imm := m.imm.toNat
  let gs := mNamed x.variant m.gmask
  let g0 := gs.headD 0
  let ls := if m.clr == 1 then Vector.replicate 16 (ledgerZero (mLsbexp fa imm)) else mx.ledgers
  let (ls, fl) := gs.foldl (fun acc g => (List.range 16).foldl (fun (ls, fl) j =>
      let a := mOperandA mx x fa true (m.srca.toNat == 3) g0 g j (mSent imm)
      let b := mOperandB mx x fb (m.srcb.toNat == 3) g0 g j (mSent imm)
      (lAccumulate ls fa fb a b, fl ||| (if fa = .pb28 then 0 else chunkSig fa a.1 ||| chunkSig fb b.1))) acc) (ls, (0 : Fp))
  ⟨{ mx with ledgers := ls }, fl, [], 0, 0⟩

/-- Number of arrays or tiles a read covers (R146). -/
def mReadCount (vt : Variant) (f : Fmt) (a : Nat) : Nat := min (vBits vt / (16 * fmtBits f)) a

/-- Read a W set onto rail C (R146). -/
def mReadW (mx : Mx) (vt : Variant) (acc : Nat) (f : Fmt) (r : Rnd) (rbase : Nat) : Nat × Fp :=
  let n := mReadCount vt f (mArrays vt)
  mapElems (fmtBits f) (16 * n) fun i => wReadOut f r (sget 0 mx.w ((acc * 128 + rbase) * 16 + i))

/-- Read the ledger set (R146). -/
def mReadL (mx : Mx) (f : Fmt) (r : Rnd) : Nat × Fp :=
  mapElems (fmtBits f) 16 fun i => ledgerReadOut f r (mx.ledgers[i]?.getD (ledgerZero 0))

/-- Read a fold set (R146, R158): there is no tile after the sixteenth. -/
def mReadF (mx : Mx) (vt : Variant) (set : Fin 2) (f : Fmt) (r : Rnd) (rbase : Nat) : Nat × Fp :=
  let n := min (mReadCount vt f 16) (16 - rbase)
  mapElems (fmtBits f) (16 * n) fun i => wReadOut f r (sget 0 mx.cells (set.val * 256 + rbase * 16 + i))

/-- Clear set ACC of `n` arrays from rbase (R143). -/
def mClearW (mx : Mx) (acc rbase n : Nat) : Mx :=
  { mx with w := sclear mx.w ((acc * 128 + rbase) * 16) ((acc * 128 + rbase + n) * 16) }

/-- Clear the ledger set; each ledger keeps its LSBEXP (R143, R152). -/
def mClearL (mx : Mx) : Mx := { mx with ledgers := mx.ledgers.map fun g => ledgerZero g.lsbexp }

def railC (x : MCtx) (v : Nat) : Landing := ⟨x.u + mLatency x.class22, .rail .c (BitVec.ofNat 8192 v)⟩

/-- The read part of RD, and of an operation with RDO. -/
def mReadOut (mx : Mx) (x : MCtx) (m : MSlot) (ledger : Bool) : Nat × Fp :=
  match fmtOf (mOfmt m.imm.toNat), rndOf m.rnd.toNat with
  | some f, some r => if ledger then mReadL mx f r else mReadW mx x.variant m.acc.toNat f r (mRbase m.imm.toNat)
  | _, _ => (0, 0)

/-- RD (R143, R146): CLR clears the arrays read, or the ledger set. -/
def mRd (mx : Mx) (x : MCtx) (m : MSlot) : MRes :=
  let (v, fl) := mReadOut mx x m x.class22
  let n := match fmtOf (mOfmt m.imm.toNat) with | some f => mReadCount x.variant f (mArrays x.variant) | none => 0
  let mx' := if m.clr == 1 then (if x.class22 then mClearL mx else mClearW mx m.acc.toNat (mRbase m.imm.toNat) n) else mx
  ⟨mx', fl, [railC x v], 0, 0⟩

/-- WSPILL (R147); there is nothing beyond the last array (log 97). -/
def mWspill (mx : Mx) (x : MCtx) (m : MSlot) : MRes :=
  let rb := mRbase m.imm.toNat
  let n := min (vBits x.variant / 2048) (mArrays x.variant - rb)
  let v := pack 128 ((List.range (16 * n)).map fun i => (sget 0 mx.w ((m.acc.toNat * 128 + rb) * 16 + i)).toNat)
  ⟨if m.clr == 1 then mClearW mx m.acc.toNat rb n else mx, 0, [railC x v], 0, 0⟩

/-- LSPILL (R147); there is nothing beyond ledger 15 (DESIGN CHOICE, log 97). -/
def mLspill (mx : Mx) (x : MCtx) (m : MSlot) : MRes :=
  let n := vBits x.variant / 1024
  let rb := mRbase m.imm.toNat
  let v := pack 1024 ((List.range n).map fun i => match mx.ledgers[rb + i]? with | some g => (ledgerImage g).toNat | none => 0)
  ⟨if m.clr == 1 then mClearL mx else mx, 0, [railC x v], 0, 0⟩

/-- SLD (R141): the entry is read by operations issued four unstalled cycles later. -/
def mSld (mx : Mx) (x : MCtx) (m : MSlot) : MRes :=
  let gs := mNamed x.variant m.gmask
  let g0 := gs.headD 0
  let sent := mSent m.imm.toNat
  let es := gs.flatMap fun g => (List.range 16).map fun j =>
    let a := 16 * g + j
    let v := if m.srca.toNat == 3 then statGet mx a sent else field x.srcA (256 * (16 * (g - g0) + j)) 256
    (64 * a + sent, BitVec.ofNat 256 v)
  ⟨mx, 0, [⟨x.u + 4, .stat es⟩], 0, 0⟩

/-- VSEG (R159). -/
def mVseg (mx : Mx) (x : MCtx) : MRes :=
  let t : Vector (BitVec 6 × BitVec 4) 8 := Vector.ofFn fun (g : Fin 8) =>
    if g.val < mGroups x.variant then (BitVec.ofNat 6 (field x.srcA (64 * g.val) 6), BitVec.ofNat 4 (field x.srcA (64 * g.val + 8) 4))
    else (0, 0)
  ⟨mx, 0, [⟨x.u + 4, .seg t⟩], 0, 0⟩

/-- FARM (R153): arm the fold, or disarm it when FCOUNT is 0; the cells of the set clear either way. ORDER clears with every FARM. -/
def mFarm (mx : Mx) (x : MCtx) (m : MSlot) : MRes :=
  let imm := m.imm.toNat
  let n : Fin 2 := if x.class22 then 0 else mSet imm
  let cnt := mFcount imm
  let old := mx.fold[n]
  let f : Fold :=
    if cnt = 0 then { old with armed := false, left := 0, order := false, last := [] }
    else { left := BitVec.ofNat 16 cnt, handle := BitVec.ofNat 8 (mFhandle imm), armed := true, exceeded := old.exceeded, order := false
           armedAt := x.cc, last := [] }
  let cells := if x.class22 then mx.cells else sclear mx.cells (n.val * 256) (n.val * 256 + 256)
  ⟨{ mx with fold := mx.fold.set n f, cells := cells }, 0, [], 0, 0⟩

/-- FRD (R158). -/
def mFrd (mx : Mx) (x : MCtx) (m : MSlot) : MRes :=
  let imm := m.imm.toNat
  let (v, fl) := match fmtOf (mOfmt imm), rndOf m.rnd.toNat with
    | some f, some r => mReadF mx x.variant (mSet imm) f r (mRbase imm)
    | _, _ => ((0 : Nat), (0 : Fp))
  ⟨mx, fl, [railC x v], 0, 0⟩

/-! ### Folds (R153 to R158) -/

/-- What folding images in has given: the engine, status flags, new out-of-order folds, and the sets that got more than FCOUNT images. -/
structure FoldRes where
  mx : Mx
  fp : Fp
  devs : Nat
  full : List (Fin 2)
deriving DecidableEq, Repr

/-- Add one image into its cell or ledger (R154, R156). An offset equal to the last one of its cell is no other order (DESIGN CHOICE, log 114). -/
def foldImage (class22 : Bool) (r : FoldRes) (i : FoldIn) : FoldRes :=
  let mx := r.mx
  if class22 then
    let c := i.off / 128 % 16
    let (g, f) := ledgerMerge (mx.ledgers[c]?.getD (ledgerZero 0)) (ledgerOfImage i.image)
    { r with mx := { mx with ledgers := mx.ledgers.setIfInBounds c g }, fp := r.fp ||| f }
  else
    let c := i.off / 16 % 256
    let key := i.set.val * 256 + c
    let fo := mx.fold[i.set]
    let bad := decide (i.off + 1 < sget 0 fo.last c)
    let (x, f) := wAddVal (sget 0 mx.cells key) (wDecode (BitVec.ofNat 80 (bits i.image 79 0)))
    { r with mx := { mx with cells := sset 0 mx.cells key x
                             fold := mx.fold.set i.set { fo with order := fo.order || bad, last := sset 0 fo.last c (i.off + 1) } }
             fp := r.fp ||| f, devs := if bad && !fo.order then r.devs + 1 else r.devs }

/-- Take the next image in: it spends one of LEFT, or lies beyond FCOUNT and sets OVER (R153, R155). -/
def foldOne (class22 : Bool) (r : FoldRes) (i : FoldIn) : FoldRes :=
  let fo := r.mx.fold[i.set]
  if fo.left = 0 then
    { r with mx := { r.mx with fold := r.mx.fold.set i.set { fo with exceeded := true } }
             full := if r.full.contains i.set then r.full else r.full ++ [i.set] }
  else foldImage class22 { r with mx := { r.mx with fold := r.mx.fold.set i.set { fo with left := fo.left - 1 } } } i

/-- Insert an image among those waiting: by cycle, then offset (R154). -/
def foldInsert (i : FoldIn) : List FoldIn → List FoldIn
  | [] => [i]
  | x :: r => if i.cc < x.cc ∨ (i.cc = x.cc ∧ i.off < x.off) then i :: x :: r else x :: foldInsert i r

/-- Fold in every image whose increment falls in a cycle up to `cc` (R157). -/
def foldSettle (mx : Mx) (class22 : Bool) (cc : Nat) : FoldRes :=
  let now := mx.foldIn.filter fun i => decide (i.cc ≤ cc)
  now.foldl (foldOne class22) ⟨{ mx with foldIn := mx.foldIn.filter fun i => decide (cc < i.cc) }, 0, 0, []⟩

/-- The whole images of `data`, the bytes written from offset `off` of a handle. -/
def foldImages (cc : Nat) (set : Fin 2) (size off : Nat) (data : List Byte) : List FoldIn :=
  (List.range (data.length / size)).map fun i => ⟨cc, set, off + size * i, BitVec.ofNat 1024 (leNat ((data.drop (size * i)).take size))⟩

/-- A write whose increment falls in cycle `cc` reaches a handle: its images enter every fold armed onto it before that cycle (R153, R154). In the
cycle of a FARM the arming that it ends takes the images that came before the FARM, and none after it (DESIGN CHOICE, log 114). -/
def foldArrive (mx : Mx) (class22 : Bool) (handle off : Nat) (data : List Byte) (cc : Nat) : Mx :=
  let sets : List (Fin 2) := (if class22 then [0] else [0, 1]).filter fun k =>
    mx.fold[k].armed && mx.fold[k].handle.toNat == handle && decide (mx.fold[k].armedAt < cc)
  { mx with foldIn := (sets.flatMap fun k => foldImages cc k (if class22 then 128 else 16) off data).foldl (fun q i => foldInsert i q) mx.foldIn }

/-- The opcode is assigned, and in the sheet's class (R142). -/
def mAssigned (class22 : Bool) (o : Nat) : Bool :=
  if class22 then o == 2 || o == 4 || o == 5 || o == 6 || o == 8 || o == 9
  else o == 1 || o == 3 || o == 4 || o == 5 || o == 6 || o == 7 || o == 9 || o == 10

/-- RDO of an accumulating operation: its set is read after it (R145). -/
def mWithRdo (r : MRes) (x : MCtx) (m : MSlot) (ledger : Bool) : MRes :=
  if m.rdo == 1 then
    let (v, fl) := mReadOut r.mx x m ledger
    { r with fp := r.fp ||| fl, lands := r.lands ++ [railC x v] }
  else r

/-- A later settling after an earlier one. -/
def foldThen (a b : FoldRes) : FoldRes := ⟨b.mx, a.fp ||| b.fp, a.devs + b.devs, a.full ++ b.full.filter fun k => !a.full.contains k⟩

/-- One M operation at issue, and what folding gave. The fold additions of earlier cycles come before it, those of its own cycle after an LMMA and before
a read or a FARM (R157, R158). -/
def mOp (mx : Mx) (x : MCtx) (m : MSlot) : MRes × FoldRes :=
  let f0 := foldSettle mx x.class22 (x.cc - 1)
  let settle := fun (mx : Mx) => foldThen f0 (foldSettle mx x.class22 x.cc)
  let pre := fun (k : Mx → MRes) =>
    let f := settle f0.mx
    let r := k f.mx
    ({ r with fp := r.fp ||| f.fp }, f)
  match m.opc.toNat, fmtOf m.fmta.toNat, fmtOf m.fmtb.toNat with
  | 0x01, some fa, some fb =>
    let r := mWithRdo (mMma f0.mx x m fa fb) x m false
    ({ r with fp := r.fp ||| f0.fp }, f0)
  | 0x03, some fa, some fb =>
    let r := mWithRdo (mMma f0.mx x m fa fb) x m false
    ({ r with fp := r.fp ||| f0.fp }, f0)
  | 0x02, some fa, some fb =>
    let r := mLmma f0.mx x m fa fb
    let f := settle r.mx
    (mWithRdo { r with mx := f.mx, fp := r.fp ||| f.fp } x m true, f)
  | 0x04, _, _ => pre fun mx => mSld mx x m
  | 0x05, _, _ => pre fun mx => mVseg mx x
  | 0x06, _, _ => pre fun mx => mRd mx x m
  | 0x07, _, _ => pre fun mx => mWspill mx x m
  | 0x08, _, _ => pre fun mx => mLspill mx x m
  | 0x09, _, _ => pre fun mx => mFarm mx x m
  | 0x0A, _, _ => pre fun mx => mFrd mx x m
  | _, _, _ => (⟨f0.mx, f0.fp, [], 0, 0⟩, f0)

end Sys2Proof.Machine
end

