-- ==== Sys2Proof/Machine/Ops.lean ====
section
/-! DEFINITION. The named operations that every family shares: access to the parts of the state, ownership, HBM addresses, time, events and
their rings, deviations, completions, handles and arrival counters, trace records. -/

namespace Sys2Proof.Machine

/-! ### Parts of the state -/

def updSq (s : State) (n : SqId) (f : Square → Square) : State := { s with squares := s.squares.set n (f s.squares[n]) }
def updPart (s : State) (p : PartId) (f : Part → Part) : State := { s with parts := s.parts.set p (f s.parts[p]) }
def updLink (s : State) (l : LinkId) (f : Link → Link) : State := { s with links := s.links.set l (f s.links[l]) }
def updCe (s : State) (n : CeId) (f : CopyEng → CopyEng) : State := { s with ces := s.ces.set n (f s.ces[n]) }
def updSrv (s : State) (p : PartId) (f : Srv → Srv) : State := { s with srv := s.srv.set p (f s.srv[p]) }
def updSnp (s : State) (p : PartId) (f : Snp → Snp) : State := { s with snp := s.snp.set p (f s.snp[p]) }
def updEvt (s : State) (p : PartId) (f : EvtRing → EvtRing) : State := { s with rings := s.rings.set p (f s.rings[p]) }
def updFunc (s : State) (n : FnId) (f : Func → Func) : State := { s with funcs := s.funcs.set n (f s.funcs[n]) }
def updCore (s : State) (n : SqId) (f : Core → Core) : State := updSq s n fun q => { q with core := f q.core }
def updMc (s : State) (n : SqId) (f : Mc → Mc) : State := updSq s n fun q => { q with mc := f q.mc }
def updRingOf (s : State) (p : PartId) (f : Ring → Ring) : State := updPart s p fun q => { q with ring := f q.ring }
def emit (s : State) (o : Output) : State := { s with out := s.out ++ [o] }

/-- Indices in ascending order. -/
def allSq : List SqId := List.finRange 64
def allPart : List PartId := List.finRange 16
def allLink : List LinkId := List.finRange 12
def allCe : List CeId := List.finRange 32

/-- Fold a state change over a list. -/
def forEach {α : Type} (l : List α) (f : State → α → State) (s : State) : State := l.foldl f s

/-- Set bits of a mask as indices. -/
def bitsOf {w : Nat} (m : BitVec w) : List Nat := (List.range w).filter fun i => m.getLsbD i

def finOf (n : Nat) (x : Nat) (h : 0 < n) : Fin n := ⟨x % n, Nat.mod_lt x h⟩
def sqOf (x : Nat) : SqId := finOf 64 x (by decide)
def partOf (x : Nat) : PartId := finOf 16 x (by decide)
def linkOf (x : Nat) : LinkId := finOf 12 x (by decide)
def epOf (x : Nat) : Fin 32 := finOf 32 x (by decide)
def flagOf (x : Nat) : Fin 8192 := finOf 8192 x (by decide)

/-- Saturating increment of a counter. -/
def satInc {w : Nat} (x : BitVec w) (n : Nat := 1) : BitVec w := if 2 ^ w ≤ x.toNat + n then BitVec.allOnes w else x + BitVec.ofNat w n

/-! ### Board geometry (R11, R12) -/

def fileOf (n : SqId) : Nat := n.val % 8
def rankIx (n : SqId) : Fin 8 := ⟨n.val / 8, by have := n.isLt; omega⟩
def absDiff (a b : Nat) : Nat := (a - b) + (b - a)
/-- Mesh hops between two squares. -/
def hopsBetween (a b : SqId) : Nat := absDiff (fileOf a) (fileOf b) + absDiff (rankIx a).val (rankIx b).val

/-- Attachment square of a link (R200). -/
def linkSquare (l : LinkId) : SqId :=
  match l.val with
  | 0 => 0 | 1 => 16 | 2 => 40 | 3 => 56 | 4 => 7 | 5 => 23 | 6 => 47 | 7 => 63 | 8 => 2 | 9 => 5 | 10 => 58 | _ => 61

/-! ### Ownership and domains -/

def sqMap (s : State) : BitVec 64 := sqMapOf s.fuses
def sqFused (s : State) (n : SqId) : Bool := !(sqMap s).getLsbD n
/-- Domain of a rank, an HBM stack, a link. -/
def domRank (r : Fin 8) : DomId := ⟨r.val, by have := r.isLt; omega⟩
def domHbm (t : StackId) : DomId := ⟨8 + t.val, by have := t.isLt; omega⟩
def domLink (l : LinkId) : DomId := ⟨14 + l.val, by have := l.isLt; omega⟩
def domEngine : DomId := 26
def domOn (s : State) (d : DomId) : Bool := s.power.dom[d] == .on
def sqOn (s : State) (n : SqId) : Bool := !sqFused s n && domOn s (domRank (rankIx n))

/-- The partition that owns a square (R16, R365). -/
def ownerSq (s : State) (n : SqId) : Option PartId :=
  allPart.find? fun p => decide (s.parts[p].st ≠ .absent) && s.parts[p].own.sq.getLsbD n
def ownsSq (s : State) (p : PartId) (n : SqId) : Bool := ownerSq s n == some p
def squaresOf (s : State) (p : PartId) : List SqId := allSq.filter fun n => s.parts[p].own.sq.getLsbD n
def placedOf (s : State) (p : PartId) : List SqId :=
  match s.parts[p].loaded with
  | some l => allSq.filter fun n => l.placed.getLsbD n
  | none => []

/-! ### Fields of `PART_RES` and `BLZ_ENV` -/

def resFirst (r : Word64) : Nat := bits r 12 0
def resLast (r : Word64) : Nat := bits r 28 16
def resFen (r : Word64) : Bool := bit r 31
def resQdepth (r : Word64) : Nat := bits r 44 32
def resLfirst (r : Word64) : Nat := bits r 52 48
def resLlast (r : Word64) : Nat := bits r 60 56
def resLen (r : Word64) : Bool := bit r 63
def envBB (e : Word64) : Nat := bits e 15 0
def envRB (e : Word64) : Nat := bits e 31 16
def envNB (e : Word64) : Nat := bits e 35 32
def envBvis (e : Word64) : Nat := bits e 43 36
def envLburst (e : Word64) : Nat := bits e 51 44

/-! ### HBM addresses (R86, R87, R91) -/

/-- 2.25 GiB. -/
def segBytes : Nat := 0x90000000
/-- Physical segment of a logical one: the logical-th owned segment in ascending order (R365). -/
def physSeg (s : State) (p : PartId) (logical : Nat) : Option Nat := (bitsOf s.parts[p].own.seg)[logical]?

/-- A stack domain is closing or worse, and holds part of the interleave: accesses to it are refused (R431). A physical 4 KiB block b lies in the
(b mod k)-th healthy stack (R86). -/
def healthyStacks (s : State) : List Nat := bitsOf s.hbm.healthy
def stackOfAddr (s : State) (a : Nat) : Option StackId :=
  let hs := healthyStacks s
  (hs[(a / 4096) % hs.length]?).map fun x => finOf 6 x (by decide)

/-- Physical byte address of `len` bytes at a segment and offset of a partition; none where the spec says BAD_SEGMENT. -/
def hbmAt (s : State) (p : PartId) (seg off len : Nat) : Option Nat :=
  if segBytes < off + len then none else (physSeg s p seg).map fun ph => ph * segBytes + off

/-- An HBM address in the encoding of R91, reserved bits zero. -/
def hbmAddr (s : State) (p : PartId) (w len : Nat) : Option Nat :=
  if w / 2 ^ 38 ≠ 0 then none else hbmAt s p (field w 0 6) (field w 6 32) len

/-- Linear address (R409). -/
def hbmLinear (s : State) (p : PartId) (a len : Nat) : Option Nat :=
  if len = 0 then none
  else if a / segBytes = (a + len - 1) / segBytes then hbmAt s p (a / segBytes) (a % segBytes) len else none

/-- Granule key of a logical segment and offset (R357). -/
def granKey (seg off : Nat) : Nat := seg * 1152 + off / 0x200000

/-- Mark the granules of a write of a partition as dirty in both generations, when its segment is protected (R357). -/
def markDirty (s : State) (p : PartId) (seg off len : Nat) : State :=
  if s.snp[p].prot.getLsbD seg then
    let ks := (List.range (off % 0x200000 / 0x200000 + (off % 0x200000 + len + 0x1FFFFF) / 0x200000)).map fun i => granKey seg off + i
    updSnp s p fun n => { n with gens := n.gens.map fun g => { g with dirty := ks.foldl (fun d k => sset false d k true) g.dirty } }
  else s

/-- Logical segment and offset of a physical address in a partition. -/
def logicalOf (s : State) (p : PartId) (a : Nat) : Option (Nat × Nat) :=
  ((bitsOf s.parts[p].own.seg).idxOf? (a / segBytes)).map fun i => (i, a % segBytes)

/-- Write HBM bytes at a physical address for a partition, with the dirty bits of R357. -/
def hbmWrite (s : State) (p : PartId) (a : Nat) (b : List Byte) : State :=
  let s := { s with hbm := { s.hbm with mem := memWrite s.hbm.mem a b } }
  match logicalOf s p a with
  | some (g, o) => markDirty s p g o b.length
  | none => s

def hbmNat (s : State) (a n : Nat) : Nat := memNat s.hbm.mem a n
def hbmBytes (s : State) (a n : Nat) : List Byte := memBytes s.hbm.mem a n

/-! ### Time -/

/-- Core cycles and ticks of the ratio lock (R235): 7 cc per 4 ct, or 8 cc per 5 ct. -/
def ratioCc (s : State) : Nat := match s.fuses.variant with | .m => 7 | .v => 8
def ratioCt (s : State) : Nat := match s.fuses.variant with | .m => 4 | .v => 5
def nowCc (s : State) : Nat := s.clk.cc
def nowCt (s : State) : Nat := s.clk.count.toNat
/-- Chess count in the core cycle c of the frame counter. -/
def ctAt (s : State) (c : Nat) : Nat := s.clk.frameStart.toNat + (c - s.clk.base) * ratioCt s / ratioCc s
/-- First count at or after the start of core cycle c (R289). -/
def ctFrom (s : State) (c : Nat) : Nat := s.clk.frameStart.toNat + ceilDiv ((c - s.clk.base) * ratioCt s) (ratioCc s)
/-- First core cycle whose count is at or after t. -/
def ccFrom (s : State) (t : Nat) : Nat := s.clk.base + ceilDiv ((t - s.clk.frameStart.toNat) * ratioCc s) (ratioCt s)
/-- A core cycle as a frame cycle, counted from the start of the frame counter (R237). -/
def frameCycle (s : State) (c : Nat) : Nat := c - s.clk.base

/-- Count that a stamp shows when it crosses into the Chess domain: the present one or a neighbour of it, which one is free (R23, R251; log 89).
`what` tells what is stamped. -/
def nearCount (s : State) (what : List Nat) : Nat := nowCt s + Config.crossing what (nowCt s) % 3 - 1

/-! ### Hardware updates of host-clearable fields (R405) -/

/-- The hardware sets bits `x` of a w1c field, or counts an rc field up by `x`, in the present core cycle. -/
def hwMark (s : State) (f : HwField) (x : Nat) : State := { s with ev := { s.ev with hw := (f, x) :: s.ev.hw } }
/-- What the hardware has written to the field in this cycle. -/
def hwOf (s : State) (f : HwField) : List Nat := (s.ev.hw.filter fun e => e.1 == f).map (·.2)
/-- Bits that the hardware has set in this cycle: a w1c write leaves them set. -/
def hwBits (s : State) (f : HwField) : Nat := (hwOf s f).foldl (· ||| ·) 0
/-- The hardware counts rc field `f`, which holds `old`, up by n. The mark tells too, in units of 2³², what the saturated count has not taken. -/
def hwUp {w : Nat} (s : State) (f : HwField) (old : BitVec w) (n : Nat := 1) : State := hwMark s f (n + 2 ^ 32 * (old.toNat + n - (2 ^ w - 1)))
/-- What the hardware has counted in this cycle: it opens the new count after an rc clear. -/
def hwCount (s : State) (f : HwField) : Nat := (hwOf s f).foldl (fun a x => a + x % 2 ^ 32) 0
/-- What it has counted and the saturated field does not hold. -/
def hwLost (s : State) (f : HwField) : Nat := (hwOf s f).foldl (fun a x => a + x / 2 ^ 32) 0
/-- What a read of an rc field that holds v shows: the count without this cycle's increments, which count after the clear. -/
def rcShown (s : State) (f : HwField) (v : Nat) : Nat := v + hwLost s f - hwCount s f
/-- What an rc field of n bytes holds after the read that clears it. -/
def rcLeft (s : State) (f : HwField) (n : Nat) : Nat := min (2 ^ (8 * n) - 1) (hwCount s f)
/-- The read has cleared the field: its present value is all of this cycle's count. -/
def rcOpened (s : State) (f : HwField) : State :=
  { s with ev := { s.ev with hw := s.ev.hw.map fun e => if e.1 == f then (e.1, e.2 % 2 ^ 32) else e } }
/-- The bits of a write of ones `x` that clear their field. -/
def w1c (s : State) (f : HwField) (x : Nat) : Nat := x - (x &&& hwBits s f)

/-- Draw a free value (log 8). -/
def draw (s : State) : State × Nat := ({ s with free := s.free + 1 }, Config.freeNat s.free)

/-! ### MSI-X, events, rings (R424, R425, R464 to R470) -/

/-- Vector v of function fn fires; a masked vector pends. A virtual function has two vectors. -/
def fireMsix (s : State) (fn : FnId) (v : Fin 8) : State :=
  if fn.val ≠ 0 ∧ 2 ≤ v.val then s
  else if s.funcs[fn].mask.getLsbD v then updFunc s fn fun f => { f with pend := f.pend ||| BitVec.ofNat 8 (1 <<< v.val) }
  else emit s (.msix fn v)

/-- Sources (R464). -/
def srcKing : Nat := 0
def srcChess : Nat := 1
def srcPwr : Nat := 2
def srcThm : Nat := 3
def srcCons : Nat := 4
def srcSnp : Nat := 5
def srcWalker : Nat := 6
def srcAdmission : Nat := 7
def srcSampler : Nat := 8
def srcLoader : Nat := 9
def srcHost (n : FnId) : Nat := 0x10 + n.val
def srcLink (l : LinkId) : Nat := 0x20 + l.val
def srcHbm (t : StackId) : Nat := 0x30 + t.val
def srcCe (n : CeId) : Nat := 0x40 + n.val
def srcSq (n : SqId) : Nat := 0x100 + n.val

/-- Class of an event code (16 event codes). -/
def evtClass (c : Nat) : BitVec 3 :=
  if 0x0101 ≤ c ∧ c ≤ 0x0108 then 1
  else if 0x0200 ≤ c ∧ c ≤ 0x0209 then 2
  else if c = 0x0A0B then 4
  else if 0x0A01 ≤ c ∧ c ≤ 0x0A0C then 3
  else if 0x0F01 ≤ c ∧ c ≤ 0x0F0A then 3
  else match c with
  | 0x0110 | 0x0211 | 0x0301 | 0x0401 => 0
  | 0x0114 | 0x0214 | 0x0904 => 5
  | 0x0402 | 0x0403 | 0x0404 | 0x0901 | 0x0A10 | 0x0A11 => 4
  | 0x0409 => 7
  | 0x0903 => 6
  | _ => 1

/-- The 32 bytes of a record (R464); `loss` and `phase` belong to the ring it is written to. -/
def eventBits (e : Event) (loss phase : Bool) : BitVec 256 :=
  let b3 := (match e.part with | some p => p.val | none => 16) + 32 * bool2nat loss + 64 * bool2nat phase
  BitVec.ofNat 256 (e.source.toNat + (e.cls.toNat <<< 16) + (b3 <<< 24) + (e.seq.toNat <<< 32) + (e.stamp.toNat <<< 64)
    + (e.code.toNat <<< 128) + ((Config.detailBytes e.code.toNat e.detail).toNat <<< 160))

/-- A record for ring p is written: the ring is enabled and not full (R468). -/
def evtRoom (s : State) (p : PartId) : Bool :=
  let r := s.rings[p]
  let size := 2 ^ r.log.toNat
  r.en && !decide ((r.tail + size - r.head) % size = size - 1)

/-- A record of the chip would fire vector 2 of the physical function: it is written to ring 0, whose IRQEN is set, and none has fired since (R469). -/
def evtFires2 (s : State) : Bool := evtRoom s 0 && s.rings[(0 : PartId)].irqen && !s.ev.fired2

/-- Write a record to ring p, or count it lost (R467, R468); vector 1 fires once until `EVT_HEAD` is written (R469). -/
def evtRingPut (s : State) (p : PartId) (e : Event) : State :=
  let r := s.rings[p]
  let size := 2 ^ r.log.toNat
  if !evtRoom s p then
    updEvt (hwUp s (.evtLost p) r.lost) p fun r => { r with lost := satInc r.lost, lossNext := true }
  else
    let s := emit s (.eventRecord p r.tail (eventBits e r.lossNext r.phase))
    let t := (r.tail + 1) % size
    let fire := r.irqen && !r.fired
    let s := updEvt s p fun r => { r with tail := t, phase := if t = 0 then !r.phase else r.phase, lossNext := false, fired := r.fired || fire }
    if fire then fireMsix s p 1 else s

/-- Make an event record: number it, keep it in the history, write it to the rings that receive it (R465 to R470). Its stamp crosses into the Chess
domain, unless it is made there (R251). -/
def raise (s : State) (src : Nat) (part : Option PartId) (code : Nat) (detail : List Nat) : State :=
  let n := sget 0 s.ev.seq src
  let stamp := if src = srcChess then s.clk.count else BitVec.ofNat 64 (nearCount s [0, src, n.toNat])
  let e : Event := { source := BitVec.ofNat 16 src, cls := evtClass code, part := part, seq := n, stamp := stamp
                     code := BitVec.ofNat 16 code, detail := detail }
  let s := { s with ev := { s.ev with seq := sset 0 s.ev.seq src (n + 1), history := (e :: s.ev.history).take 4096 } }
  let fires := evtFires2 s
  let s := evtRingPut s 0 e
  let s := match part with
    | some p => if p.val = 0 then s else evtRingPut s p e
    | none => s
  if part.isNone && fires then fireMsix { s with ev := { s.ev with fired2 := true } } 0 2 else s

/-- Number of the last record of a source. -/
def lastSeq (s : State) (src : Nat) : Nat := (sget 0 s.ev.seq src - 1).toNat

/-! ### Host violations (R408, R426) -/

/-- Log a violation of function fn: counted in `HST_VIOL`, one event per code and function per millisecond. -/
def logViol (s : State) (fn : FnId) (code : Nat) : State :=
  let ring := decide (0x0F05 ≤ code ∧ code ≤ 0x0F07) || code == 0x0F09
  let s :=
    if code = 0x0F0A then hwUp s (.viol fn 2) s.parts[fn].violKick
    else if ring then hwUp s (.viol fn 1) s.parts[fn].violRing else hwUp s (.viol fn 0) s.parts[fn].violReg
  let s := updPart s fn fun p =>
    if code = 0x0F0A then { p with violKick := satInc p.violKick }
    else if ring then { p with violRing := satInc p.violRing } else { p with violReg := satInc p.violReg }
  let key := code * 16 + fn.val
  let last := sget 0 s.ev.violAt key
  if last = 0 ∨ last + 1000000 ≤ nowCt s + 1 then
    raise { s with ev := { s.ev with violAt := sset 0 s.ev.violAt key (nowCt s + 1) } } (srcHost fn) (some fn) code []
  else s

def regPriv (s : State) (fn : FnId) : State := logViol s fn 0x0F02
def regAccess (s : State) (fn : FnId) : State := logViol s fn 0x0F01

/-! ### Phase B of a scratchpad (R62 to R66) -/

def spBytes : Nat := 2 ^ 25
def bankOf (a : Nat) : Nat := a / 64 % 32

/-- A phase-B access to square n has been made in this cycle. -/
def phaseB (s : State) (n : SqId) : Bool := s.squares[n].turnAt == nowCc s + 1
/-- Banks that the client of this turn has used in square n. -/
def banksUsed (s : State) (n : SqId) : List Nat := if phaseB s n then s.squares[n].turnBanks else []

/-- The client of this turn uses a bank of square n. Its first access of the cycle keeps the scratchpad as phase A has it (R66). -/
def useBank (s : State) (n : SqId) (b : Nat) : State :=
  let now := nowCc s + 1
  updSq s n fun q =>
    if q.turnAt = now then { q with turnBanks := b :: q.turnBanks }
    else { q with turnAt := now, turnBanks := [b], memA := q.mem, bWrites := [], readB := false }

/-- Write pieces of bytes to a scratchpad in phase B; none runs past its end. -/
def padWrite (s : State) (n : SqId) (w : List (Nat × List Byte)) : State :=
  updSq s n fun q => { q with mem := w.foldl (fun m c => memWrite m c.1 c.2) q.mem, bWrites := q.bWrites ++ w }

/-- Phase B has read square n in this cycle: a store that would still have to commit in its phase A comes too late (R66). -/
def padRead (s : State) (n : SqId) : State := updSq s n fun q => { q with readB := true }

/-! ### ECC (R68, R460, R461) -/

def storeNo : Store → Nat
  | .scratchpad => 0 | .plyStore => 1 | .recipeStore => 2 | .mcMemory => 3 | .registerFile => 4 | .handleTable => 5 | .endpointRegs => 6
  | .hbm _ => 7 | .flagPool => 8 | .meshRouter => 9 | .slotTable => 10 | .copyEngine => 11

/-- An ECC_CE at most once per store, unit and second, with the number corrected since the last one. -/
def noteCe (s : State) (src : Nat) (part : Option PartId) (st : Store) : State :=
  let key := storeNo st * 1024 + src
  let old := (s.ev.ceAt.find? fun e => e.1 == key).getD (key, 0, none)
  let rest := s.ev.ceAt.filter fun e => e.1 != key
  let n := old.2.1 + 1
  let due := match old.2.2 with | some t => decide (t + 1000000000 ≤ nowCt s) | none => true
  if due then raise { s with ev := { s.ev with ceAt := (key, 0, some (nowCt s)) :: rest } } src part 0x0401 [storeNo st, n]
  else { s with ev := { s.ev with ceAt := (key, n, old.2.2) :: rest } }

/-- A corrected error in a store of a square: `SPM_ECC`.CORR for the SECDED stores. -/
def sqCorrected (s : State) (n : SqId) (st : Store) (loc : Nat) : State :=
  let s := updSq (hwUp s (.spmCorr n) s.squares[n].eccCorr) n fun q =>
    { q with eccCorr := satInc q.eccCorr, eccBank := if st = .scratchpad then BitVec.ofNat 5 loc else q.eccBank }
  noteCe s (srcSq n) (ownerSq s n) st

/-- An uncorrected error in a store of a square. -/
def sqUncorrected (s : State) (n : SqId) (st : Store) (loc : Nat) : State :=
  let s := if st = .scratchpad then updSq (hwUp s (.spmUncorr n) s.squares[n].eccUncorr) n fun q => { q with eccUncorr := satInc q.eccUncorr, eccBank := BitVec.ofNat 5 loc } else s
  raise s (srcSq n) (ownerSq s n) 0x0402 [storeNo st, loc]

/-- HBM errors count in `HBM_ECC`. -/
def hbmCorrected (s : State) (t : StackId) (p : Option PartId) : State :=
  noteCe (hwUp { s with hbm := { s.hbm with corr := s.hbm.corr.set t (satInc s.hbm.corr[t]) } } (.hbmCorr t) s.hbm.corr[t]) (srcHbm t) p (.hbm t)
def hbmUncorrected (s : State) (t : StackId) (p : Option PartId) (loc : Nat) : State :=
  raise (hwUp { s with hbm := { s.hbm with uncorr := s.hbm.uncorr.set t (satInc s.hbm.uncorr[t]) } } (.hbmUncorr t) s.hbm.uncorr[t]) (srcHbm t) p 0x0402 [7, loc]

/-! ### Counters that a read clears (R405) -/

/-- `PART_CNT`: an old-epoch arrival dropped (R386), Blitz work outside the envelope (R377). -/
def countOldEpoch (s : State) (p : PartId) : State := updPart (hwUp s (.epochDrop p) s.parts[p].epochDrop) p fun q => { q with epochDrop := satInc q.epochDrop }
def countBlzOver (s : State) (p : PartId) : State := updPart (hwUp s (.blzOver p) s.parts[p].blzOver) p fun q => { q with blzOver := satInc q.blzOver }

/-- `FP_STATUS` takes flags (R131). -/
def setFp (s : State) (n : SqId) (fl : Fp) : State :=
  if fl = 0 then s else updSq (hwMark s (.fpStatus n) fl.toNat) n fun q => { q with fp := q.fp ||| fl }

/-! ### Deviations (R229 to R233) -/

def devRefresh : Nat := 0
def devLinkRetry : Nat := 1
def devScoreboard : Nat := 2
def devCrema : Nat := 3
def devThrottle : Nat := 4
def devAvs : Nat := 5
def devArrival : Nat := 6
def devLate : Nat := 7
def devRelaunch : Nat := 8
def devAlign : Nat := 9

/-- A partition in this mode counts the cause (R229): REFRESH, AVS, LATE_LANDING, RELAUNCH and ALIGN in Strict, LINK_RETRY and CREMA in Relaxed, the
others in both. -/
def devCounts (cause : Nat) (strict : Bool) : Bool :=
  if cause = devRefresh ∨ cause = devAvs ∨ cause = devLate ∨ cause = devRelaunch ∨ cause = devAlign then strict
  else if cause = devLinkRetry ∨ cause = devCrema then !strict
  else true

/-- The partition copy of one deviation (R229 to R232): in the modes of its cause, and only during the partition's launch. -/
def devPart (s : State) (p : PartId) (cause src : Nat) (sq : Option SqId) (tag : Nat) : State :=
  let q := s.parts[p]
  if !q.launched || !devCounts cause q.strict then s
  else
    let c10 := BitVec.ofNat 10 (1 <<< cause)
    let d := q.dev
    let d := { d with count := satInc d.count, cause := d.cause ||| c10, broken := d.broken || q.strict }
    let d := if d.firstValid then d else
      { d with firstCause := BitVec.ofNat 4 cause, firstSq := (match sq with | some n => BitVec.ofNat 6 n.val | none => 0)
               firstNosq := sq.isNone, firstValid := true, firstStamp := BitVec.ofNat 48 (nearCount s [2, p.val, cause]) }
    let first := match q.launch with | some l => l.causes &&& c10 == 0 | none => true
    let s := updPart (hwMark s (.devCause p) (c10.toNat + (bool2nat q.strict <<< 31))) p fun q =>
      { q with dev := d, launch := q.launch.map fun l => { l with devs := satInc l.devs, causes := l.causes ||| c10 } }
    if first then raise s src (some p) (0x0200 + cause) [cause, match sq with | some n => n.val | none => tag] else s

/-- Count one deviation that touches the partitions `ps` (R230): on the chip whenever it occurs, which a cause of one partition's landings or launch
does only in a mode of that partition (R229). -/
def countDev (s : State) (ps : List PartId) (cause src : Nat) (sq : Option SqId) (tag : Nat := 0) : State :=
  if (cause = devLate ∨ cause = devRelaunch ∨ cause = devAlign) ∧ !(ps.any fun p => devCounts cause s.parts[p].strict) then s else
  let s := hwMark { s with tmg := { s.tmg with devCount := satInc s.tmg.devCount, devCause := s.tmg.devCause ||| BitVec.ofNat 10 (1 <<< cause) } }
    .devChipCause (1 <<< cause)
  ps.foldl (fun s p => devPart s p cause src sq tag) s

/-- A deviation of a square's partition. -/
def countDevSq (s : State) (n : SqId) (cause : Nat) : State := countDev s (ownerSq s n).toList cause (srcSq n) (some n)

/-! ### Jobs (R418) and completions (R415, R421 to R425) -/

/-- Job header in bytes 56 to 63. -/
def jobId (b : Line) : Word32 := b.extractLsb' 480 32
def jobType (b : Line) : Nat := bits b 455 448
/-- Word n of a job. -/
def jobWord (b : Line) (n : Nat) : Nat := bits b (64 * n + 63) (64 * n)
/-- OP of a SERVE job: 1 ADMIT, 2 FINISH. -/
def srvCode (j : Job) : Nat := jobWord j.body 0 % 4

/-- Free entries of the completion ring (R415). -/
def cqFree (r : Ring) : Nat :=
  let size := 2 ^ r.cqlog.toNat
  size - 1 - (r.cqTail + size - r.head) % size

/-- What a posted entry releases: a job's promise and its place among the outstanding jobs, a request end's promise. -/
def released (k : EntryKind) (r : Ring) : Ring :=
  match k with
  | .job => { r with outstanding := r.outstanding - 1, promised := r.promised - 1 }
  | .reqEnd => { r with promised := r.promised - 1 }
  | .kick => r

/-- Write one completion entry at CQTAIL; an armed ring with IRQEN fires vector 0 once. Its count crosses into the Chess domain (R23). -/
def postEntry (s : State) (p : PartId) (e : CqEntry) : State :=
  let r := s.parts[p].ring
  let size := 2 ^ r.cqlog.toNat
  let x := BitVec.ofNat 256 (e.id.toNat + (e.type <<< 32) + (e.status <<< 40) + (bool2nat r.phase <<< 48) + ((e.r1 % 2 ^ 64) <<< 64)
    + ((e.r2 % 2 ^ 64) <<< 128) + (nearCount s [1, p.val, r.cqTail] <<< 192))
  let s := emit s (.completion p r.cqTail x)
  let t := (r.cqTail + 1) % size
  let fire := r.armed && r.irqen
  let s := updRingOf s p fun r =>
    released e.kind { r with cqTail := t, phase := if t = 0 then !r.phase else r.phase, armed := r.armed && !fire }
  if fire then fireMsix s p 0 else s

/-- Post a completion, or keep it while the ring has no free entry, behind those already kept: none is ever dropped (R422, R426). -/
def putEntry (s : State) (p : PartId) (e : CqEntry) : State :=
  if s.parts[p].ring.held.isEmpty && decide (0 < cqFree s.parts[p].ring) then postEntry s p e
  else updRingOf s p fun r => { r with held := r.held ++ [e] }

/-- A FENCE that waits for the last earlier job completes after it (R419). -/
def fenceDone (s : State) (p : PartId) : State :=
  match s.parts[p].fence with
  | some f => if s.parts[p].ring.outstanding = 1 then putEntry (updPart s p fun q => { q with fence := none }) p ⟨.job, f, 0x07, 0, 0, 0⟩ else s
  | none => s

/-- Complete a fetched job: one entry, one promise and one outstanding job less. -/
def complete (s : State) (p : PartId) (id : Word32) (type status r1 r2 : Nat) : State :=
  fenceDone (putEntry s p ⟨.job, id, type, status, r1, r2⟩) p

/-- A request's end entry (R422): a promise less, no job less. -/
def completeReqEnd (s : State) (p : PartId) (id : Word32) (status r1 r2 : Nat) : State := putEntry s p ⟨.reqEnd, id, 0x08, status, r1, r2⟩

/-- The end of a copy started by a kick that did not end OK (R423). -/
def completeKick (s : State) (p : PartId) (status r1 r2 : Nat) : State :=
  let r := s.parts[p].ring
  if r.promised < cqFree r then putEntry s p ⟨.kick, 0, 0x09, status, r1, r2⟩
  else logViol s p 0x0F0A

/-- Post what was kept, oldest first, while entries are free; at most k of them. -/
def drainHeld : Nat → State → PartId → State
  | 0, s, _ => s
  | k + 1, s, p =>
    match s.parts[p].ring.held with
    | [] => s
    | e :: r =>
      if 0 < cqFree s.parts[p].ring then drainHeld k (fenceDone (postEntry (updRingOf s p fun x => { x with held := r }) p e) p) p else s

/-- The host has moved HEAD: what waited for free entries is posted. -/
def postHeld (s : State) (p : PartId) : State := drainHeld (s.parts[p].ring.held.length + 1) s p

/-! ### Trace (R476, R477) -/

/-- A trace record of square n: written to the partition's buffer, or counted in LOST when the buffer is full or the record comes too late for its turn of
HBM (R477; log 110). -/
def trace (s : State) (n : SqId) (type : Nat) (payload : Nat) : State :=
  match ownerSq s n with
  | none => s
  | some p =>
    let t := s.parts[p].trc
    if !s.squares[n].dbg.trace || !t.en || !t.types.getLsbD (type - 1) then s
    else
      let size := 2 ^ t.log.toNat
      let lose := fun (s : State) =>
        let due := match t.lostAt with | some c => decide (c + 1000000000 ≤ nowCt s) | none => true
        let s := updPart (hwUp s (.trcLost p) t.lost) p fun q => { q with trc := { q.trc with lost := satInc t.lost, lostAt := if due then some (nowCt s) else t.lostAt } }
        if due then raise s (srcSq n) (some p) 0x0B01 [(satInc t.lost).toNat] else s
      if (!t.wrap && decide (size ≤ t.next)) || Config.traceLate n.val (nowCc s) type then lose s
      else
        let i := t.next % size
        match hbmAddr s p t.base.toNat (16 * size) with
        | none => lose s
        | some a =>
          let rcd := (frameCycle s (nowCc s) % 2 ^ 48) + (n.val <<< 48) + (type <<< 56) + ((payload % 2 ^ 64) <<< 64)
          let s := { s with hbm := { s.hbm with mem := memWriteNat s.hbm.mem (a + 16 * i) 16 rcd } }
          updPart s p fun q => { q with trc := { q.trc with next := if t.wrap then (i + 1) % size else t.next + 1
                                                            wrapped := t.wrapped || (t.wrap && decide (i + 1 = size)) } }

/-! ### Handles and arrival counters (R82 to R85) -/

def hdlDefault : Handle := ⟨0, 0, 0, 0⟩
def hdlOf (q : Square) (h : Nat) : Handle := sget hdlDefault q.hdl h
def hdlBase (h : Handle) : Nat := bits h.base 24 6 * 64
def hdlLen (h : Handle) : Nat := bits h.len 25 6 * 64
def hdlOwner (h : Handle) : Nat := bits h.ctl 3 0
def hdlWmesh (h : Handle) : Bool := bit h.ctl 4
def hdlWgrant (h : Handle) : Bool := bit h.ctl 5
def hdlWlink (h : Handle) : Bool := bit h.ctl 6
def hdlWce (h : Handle) : Bool := bit h.ctl 7
def hdlRce (h : Handle) : Bool := bit h.ctl 8

def stNoHandle : Nat := 3
def stDenied : Nat := 4
def stBounds : Nat := 5
def stCancelled : Nat := 8
def stClosed : Nat := 9

/-- R83: 0 when the write or read may go ahead. -/
def hdlCheck (h : Handle) (perm : Bool) (off len : Nat) : Nat :=
  if hdlLen h = 0 then stNoHandle else if !perm then stDenied else if hdlLen h < off + len then stBounds else 0

/-- The refusal of a write to a square whose partition resets (R384). -/
def sqResets (s : State) (n : SqId) : Nat :=
  match ownerSq s n with
  | some p => if s.parts[p].st == .quiescing || s.parts[p].st == .scrubbing then stCancelled else 0
  | none => 0

/-- A boundary refusal before the handle is looked at: a closing or gated rank (R431), a partition that resets (R384). -/
def sqClosed (s : State) (n : SqId) : Nat := if !sqOn s n then stClosed else sqResets s n

/-- The same for what crossed the boundary of the rank before CLOSING began: it is delivered (R432). -/
def sqGone (s : State) (n : SqId) : Nat :=
  if sqFused s n || !(domOn s (domRank (rankIx n)) || s.power.dom[domRank (rankIx n)] == .closing) then stClosed else sqResets s n

/-- What a settling of the fold unit reports: FOLD_OVER for each set that got more than FCOUNT images, and the deviations (R155, R156). -/
def foldReport (s : State) (n : SqId) (r : FoldRes) : State :=
  let s := r.full.foldl (fun s k =>
    raise (hwMark s (.fold n k) (2 ^ 25)) (srcSq n) (ownerSq s n) 0x0406 [k.val, r.mx.fold[k].handle.toNat]) s
  (List.range r.devs).foldl (fun s _ => countDevSq s n devArrival) s

/-- The square's latency class: that of its partition's loaded scoresheet (R60). -/
def sqClass22 (s : State) (n : SqId) : Bool :=
  match ownerSq s n with
  | some p => match s.parts[p].loaded with | some l => l.class22 | none => false
  | none => false

/-- Fold in what has entered the fold unit up to cycle `cc`, with its status and deviations (R154 to R157). -/
def settleFolds (s : State) (n : SqId) (cc : Nat) : State :=
  let r := foldSettle s.squares[n].mx (sqClass22 s n) cc
  foldReport (setFp (updSq s n fun q => { q with mx := r.mx }) n r.fp) n r

/-- The fold additions of square n up to the present cycle are made, and counted (R154 to R157). -/
def settleSq (s : State) (n : SqId) : State := if s.squares[n].mx.foldIn.isEmpty then s else settleFolds s n (nowCc s)

/-- One core cycle of the clocks (R234 to R237): before the frame counter runs, one tick of the Chess Clock (log 5). -/
def clockTick (s : State) : State :=
  if s.clk.frameOn then
    let s := { s with clk := { s.clk with cc := s.clk.cc + 1 } }
    { s with clk := { s.clk with count := BitVec.ofNat 64 (ctAt s s.clk.cc) } }
  else if s.clk.counting then { s with clk := { s.clk with count := s.clk.count + 1 } }
  else s

/-- A core cycle ends and the next begins: the images that arrived in it are folded (R157), what the hardware wrote is no longer of this cycle (R405),
and a partition reset that began in it has ended its steps 1 to 6 (R382, log 36). -/
def coreTick (s : State) : State :=
  let s := allSq.foldl settleSq s
  clockTick { s with ev := { s.ev with hw := [] }
                     parts := s.parts.map fun (q : Part) => if q.st = PState.quiescing then { q with st := PState.scrubbing } else q }

/-- The fold additions of a partition's squares up to the present cycle are made. -/
def settlePart (s : State) (p : PartId) : State := (squaresOf s p).foldl settleSq s

/-- An accepted write to a handle is complete: its counter increments in this cycle, its images enter the fold unit in offset order, the increment is
traced, and after a drain it makes the open generation UNCLEAN (R84, R154, R349, R476). `data` are the offsets and bytes written. -/
def arrive (s : State) (n : SqId) (h : Nat) (data : List (Nat × List Byte)) : State :=
  let hd := hdlOf s.squares[n] h
  let c := hd.count + 1
  let s := updSq s n fun q => { q with hdl := sset hdlDefault q.hdl h { hd with count := c }, counted := q.counted + 1 }
  let s := settleFolds s n (nowCc s - 1)
  let c22 := sqClass22 s n
  let at_ := nowCc s
  let s := updSq s n fun q => { q with mx := data.foldl (fun mx (off, b) => foldArrive mx c22 h off b at_) q.mx }
  let s := trace s n 6 (h + (c.toNat <<< 32))
  match ownerSq s n with
  | some p =>
    match s.snp[p].job with
    | some j => if j.drained then updSnp s p fun x => { x with gens := x.gens.set j.gen { x.gens[j.gen] with unclean := true } } else s
    | none => s
  | none => s

/-- A port of square n has accepted a whole write to a handle, and its counter increments (R84, R391). -/
def acceptWrite (s : State) (n : SqId) (h : Nat) (data : List (Nat × List Byte)) : State :=
  arrive (updSq s n fun q => { q with accepted := q.accepted + 1 }) n h data

/-- A refused handle write raises an event at the square (R83). -/
def handleRefused (s : State) (n : SqId) (h code : Nat) : State := raise s (srcSq n) (ownerSq s n) 0x0407 [h, code]

end Sys2Proof.Machine
end

