-- ==== Sys2Proof/Machine/Flags.lean ====
section
/-! DEFINITION. The flag pool (R187 to R199, R388): ownership and grants, writes on their way to the squares' views, the rank of writers. -/

namespace Sys2Proof.Machine

/-! ### Ranks of the writers of one cycle (R199) -/

def rankMain (n : SqId) : Nat := n.val * 100
def rankChannel (n : SqId) (ep : Fin 32) : Nat := n.val * 100 + 1 + ep.val
def rankMc (n : SqId) : Nat := n.val * 100 + 50
def rankHost (f : FnId) : Nat := 100000 + f.val
def rankRemote (l : LinkId) (n : SqId) : Nat := 200000 + l.val * 64 + n.val
def rankCe (n : CeId) : Nat := 300000 + n.val

/-- Write a comes before write b: earlier cycle, or lower rank in one cycle. -/
def fwBefore (a b : FlagWrite) : Bool := decide (a.cc < b.cc) || (decide (a.cc = b.cc) && decide (a.rank < b.rank))

/-- A cycle counted in unstalled cycles: each held cycle before it puts it off by one (R45, R50). -/
def stretch (late : List Nat) (due : Nat) : Nat := late.foldl (fun d x => if x < d then d + 1 else d) due

/-- Cycle in which a write with h hops before it is seen (R197, R198). A flag set of a main schedule takes its 6 + 2h in unstalled cycles of its square
(R45); a flag write that its channel carried is seen no earlier than six of those after its issue, when the stores before it have committed (R58; log 93). -/
def seenAfter (w : FlagWrite) (h : Nat) : Nat :=
  let base := w.cc + 6 + 2 * h
  match w.setter with
  | none => base
  | some (_, t) => if t = w.cc then stretch w.late base else max base (stretch w.late (t + 6))

/-- Cycle in which a write reaches the view of square n. -/
def fwSeen (w : FlagWrite) (n : SqId) : Nat := match w.origin with | some o => seenAfter w (hopsBetween o n) | none => w.cc + 34

/-- Make a flag write in cycle `cc`: the pool takes it unless a later write has been made already, and it sets out for every view. -/
def writeFlag (s : State) (flag : Fin 8192) (val : Bool) (cc rank : Nat) (origin : Option SqId) (setter : Option (SqId × Nat) := none)
    (late : List Nat := []) : State :=
  let w : FlagWrite := ⟨flag, val, cc, rank, origin, BitVec.allOnes 64, setter, late⟩
  let newest := s.flags.writes.all fun x => !(x.flag == flag && fwBefore w x)
  { s with flags := { s.flags with
      pool := if newest then setBits s.flags.pool flag.val 1 (bool2nat val) else s.flags.pool
      writes := s.flags.writes ++ [w] } }

/-- A held cycle of square n: the flag writes that its main schedule has issued are held with it, those still on a channel too (R45, R50; log 93). -/
def delayFlags (s : State) (n : SqId) : State :=
  let mine := fun (w : FlagWrite) => match w.setter with | some (o, _) => o == n | none => false
  { s with flags := { s.flags with writes := s.flags.writes.map fun w => if mine w then { w with late := w.late ++ [nowCc s] } else w }
           msgs := s.msgs.map fun m => if m.owner == n then { m with late := m.late.map fun l => l ++ [nowCc s] } else m }

/-- The last of some writes, in the order in which every view ends: of two writes of one source in one cycle, the later made (R199, R209). -/
def lastWrite (ws : List FlagWrite) : Option FlagWrite :=
  ws.foldl (fun best w => match best with | none => some w | some b => if fwBefore w b then some b else some w) none

/-- The last of the writes to a flag that have reached square n by now, if any has not been taken into its view. -/
def dueWrite (s : State) (n : SqId) (flag : Fin 8192) : Option FlagWrite :=
  let due := s.flags.writes.filter fun w => w.flag == flag && w.todo.getLsbD n.val && decide (fwSeen w n ≤ nowCc s)
  -- a write overtaken by one the view has already taken is dropped
  let taken := s.flags.writes.filter fun w => w.flag == flag && !w.todo.getLsbD n.val
  let live := due.filter fun w => taken.all fun x => !fwBefore w x
  lastWrite live

/-- The square's view of a flag in the present cycle (R197). -/
def viewOf (s : State) (n : SqId) (flag : Fin 8192) : Bool :=
  match dueWrite s n flag with
  | some w => w.val
  | none => s.squares[n].view.getLsbD flag.val

/-- Rank of the sampler's flag writes, above every writer of R199 (log 85). -/
def rankSampler : Nat := 400002

/-- Cycle in which a write reaches the sampler's view: its own at once, one of a square after 6 + 2h with h at most 14, another after 34 cc (R197, R198;
log 103). -/
def engineSeen (w : FlagWrite) : Nat :=
  if w.rank = rankSampler then w.cc
  else match w.origin with | some o => seenAfter w (Config.engineHops o.val % 15) | none => w.cc + 34

/-- The sampler's view of a flag (R332). -/
def engineView (s : State) (flag : Fin 8192) : Bool :=
  match lastWrite (s.flags.writes.filter fun w => w.flag == flag && decide (engineSeen w ≤ nowCc s)) with
  | some w => w.val
  | none => s.flags.engine.getLsbD flag.val

/-- Square n takes into its view every write to the flag that has reached it. -/
def takeView (s : State) (n : SqId) (flag : Fin 8192) : State :=
  let v := viewOf s n flag
  let ws := s.flags.writes.map fun w =>
    if w.flag == flag && w.todo.getLsbD n.val && decide (fwSeen w n ≤ nowCc s) then { w with todo := setBits w.todo n.val 1 0 } else w
  -- a write every square has taken goes, unless an earlier one of the same flag is still on its way
  let keep := fun (w : FlagWrite) => !(w.todo == 0) || ws.any fun x => x.flag == w.flag && fwBefore x w && x.todo != 0
  let gone := lastWrite (ws.filter fun w => w.flag == flag && !keep w)
  let engine := match gone with | some w => setBits s.flags.engine flag.val 1 (bool2nat w.val) | none => s.flags.engine
  let s := { s with flags := { s.flags with writes := ws.filter keep, engine := engine } }
  updSq s n fun q => { q with view := setBits q.view flag.val 1 (bool2nat v) }

/-! ### Rights (R187 to R190, R388) -/

def inRange (s : State) (p : PartId) (flag : Nat) : Bool :=
  let r := s.parts[p].own.res
  decide (s.parts[p].st ≠ .absent) && resFen r && decide (resFirst r ≤ flag ∧ flag ≤ resLast r)

/-- The partition whose range holds a flag. -/
def flagOwner (s : State) (flag : Nat) : Option PartId := allPart.find? fun p => inRange s p flag

def grFirst (g : Word64) : Nat := bits g 12 0
def grLast (g : Word64) : Nat := bits g 25 13
def grOwner (g : Word64) : PartId := partOf (bits g 29 26)
def grTo (g : Word64) (p : PartId) : Bool := bit g (30 + p.val)
def grObserve (g : Word64) : Bool := bit g 46
def grSignal (g : Word64) : Bool := bit g 47
def grValid (g : Word64) : Bool := bit g 63

/-- Grants in force that give partition p the flag. -/
def grantsOn (s : State) (p : PartId) (flag : Nat) : List (Fin 64) :=
  (List.finRange 64).filter fun n =>
    let g := s.flags.grants[n]
    grValid g && grTo g p && decide (grFirst g ≤ flag ∧ flag ≤ grLast g) && inRange s (grOwner g) flag

/-- What a partition may do with a flag. -/
inductive FlagRight where
  | own
  | granted
  /-- By a grant whose owner was reset (R388). -/
  | orphan
  | denied
deriving DecidableEq, Repr

/-- Right of partition p on a flag: to observe it, or to signal it when `signal`. -/
def flagRight (s : State) (p : PartId) (flag : Nat) (signal : Bool) : FlagRight :=
  if inRange s p flag then .own
  else
    let gs := (grantsOn s p flag).filter fun n => if signal then grSignal s.flags.grants[n] else grObserve s.flags.grants[n]
    if gs.isEmpty then .denied
    else if !signal && gs.any fun n => s.flags.orphan.getLsbD n.val then .orphan
    else .granted

/-- `FLG_RANGE[p]` (R187). -/
def flgRange (s : State) (p : PartId) : Word32 :=
  let r := s.parts[p].own.res
  if s.parts[p].st = .absent ∨ !resFen r then 0
  else BitVec.ofNat 32 (resFirst r + (resLast r <<< 16) + 2 ^ 31)

/-- Set every flag of a span to 0 in the pool and in every view, and drop what is on its way to them (R370, R382 step 7). -/
def clearFlags (s : State) (lo hi : Nat) : State :=
  let m := BitVec.ofNat 8192 ((2 ^ (hi + 1 - lo) - 1) <<< lo)
  { s with flags := { s.flags with pool := s.flags.pool &&& ~~~m, engine := s.flags.engine &&& ~~~m
                                   writes := s.flags.writes.filter fun w => decide (w.flag.val < lo ∨ hi < w.flag.val) }
           squares := s.squares.map fun q => { q with view := q.view &&& ~~~m } }

end Sys2Proof.Machine
end

