-- ==== Sys2Proof/Machine/Book.lean ====
section
/-! DEFINITION. The serving tables in HBM (R311 to R313, R324 to R329): register fields, book nodes, the free list, request slots, and the return
of a request's pages and references. -/

namespace Sys2Proof.Machine

def kvSeg (v : Srv) : Nat := bits v.kv 5 0
def kvPages (v : Srv) : Nat := bits v.kv 29 6
def bookBase (v : Srv) : Nat := bits v.book 37 0
def bookLog2 (v : Srv) : Nat := bits v.book 42 38
def bookAge (v : Srv) : Nat := bits v.book 63 48
def varBase (v : Srv) : Nat := bits v.var 37 0
def reqBase (v : Srv) : Nat := bits v.req 37 0
def reqSlots (v : Srv) : Nat := bits v.req 50 38
def batchBase (v : Srv) : Nat := bits v.batch 37 0
def batchFflag (v : Srv) : Nat := bits v.batch 50 38
def sampBase (v : Srv) : Nat := bits v.samp 37 0
def sampSflag (v : Srv) : Nat := bits v.samp 50 38
def sampDflag (v : Srv) : Nat := bits v.samp 63 51
def budPrefill (v : Srv) : Nat := bits v.budget 19 0
def budReserve (v : Srv) : Nat := bits v.budget 43 20
/-- P, pages per 32-token block (R320). -/
def srvP (v : Srv) : Nat := v.ppb.toNat + 1

/-- The stacks of `len` bytes from a physical address are all on: a closing one refuses (R431). -/
def stacksOn (s : State) (a len : Nat) : Bool :=
  (List.range (min 6 (ceilDiv (a % 4096 + len) 4096))).all fun i => match stackOfAddr s (a + 4096 * i) with
    | some t => domOn s (domHbm t)
    | none => false

/-- Physical address of `len` bytes at `off` in a table whose address is `base` (R311); a closing stack refuses (R431). -/
def tableAt (s : State) (p : PartId) (base off len : Nat) : Option Nat :=
  match (if base / 2 ^ 38 = 0 then hbmAt s p (base % 64) (field base 6 32 + off) len else none) with
  | some a => if stacksOn s a len then some a else none
  | none => none

/-- An engine reaches `len` bytes at `off` in a table: if not, the access ends the operation with BAD_SEGMENT (R311, R431). -/
def reaches (s : State) (p : PartId) (base off len : Nat) : Bool := (tableAt s p base off len).isSome

/-- Physical address of page n of the pool (R313). -/
def pageAt (s : State) (p : PartId) (n : Nat) : Option Nat :=
  hbmAt s p (kvSeg s.srv[p] + n / 36864) (0x10000 * (n % 36864)) 0x10000

/-- The record an ADMIT names; none when it cannot be read (R319, R431). -/
def rcdAt (s : State) (p : PartId) (j : Job) : Option (BitVec 1024) :=
  (tableAt s p (jobWord j.body 1) 0 128).map fun a => BitVec.ofNat 1024 (hbmNat s a 128)

def rcdF (r : BitVec 1024) (off n : Nat) : Nat := bits r (8 * (off + n) - 1) (8 * off)
def rClass (r : BitVec 1024) : Nat := rcdF r 42 1

/-! ### Turns of the serving engines (R374, R375) -/

/-- Entry i of engine e's turn table: 0 walker, 1 admission unit, 2 sampler (R374). -/
def turnEntry (s : State) (e : Fin 3) (i : Nat) : Option (PartId × Fin 3) :=
  let r := (s.turns[16 * e.val + i % 16]?).getD 0
  if bit r 31 && bits r 1 0 != 3 then some (partOf (bits r 7 4), finOf 3 (bits r 1 0) (by decide)) else none

/-- The next entry that engine e serves among the Blitz entries, or among the others, whose partition has pending work of that class. -/
def nextTurn (s : State) (e : Fin 3) (blitz : Bool) (pend : PartId → Fin 3 → Bool) : Option (Nat × PartId × Fin 3) :=
  let order := (List.range 16).map fun k => (s.turnPos[e].val + 1 + k) % 16
  order.findSome? fun i => match turnEntry s e i with
    | some (p, c) => if (c == 0) == blitz && pend p c then some (i, p, c) else none
    | none => none

/-- Whom engine e serves in its next turn: a Blitz entry with pending work, else another (R374). -/
def engineTurn (s : State) (e : Fin 3) (pend : PartId → Fin 3 → Bool) : Option (Nat × PartId × Fin 3) :=
  (nextTurn s e true pend).orElse fun _ => nextTurn s e false pend

def setTurn (s : State) (e : Fin 3) (i : Nat) : State := { s with turnPos := s.turnPos.set e (finOf 16 i (by decide)) }

/-- Class of an ADMIT on the shared engines: one whose record cannot be read, or names no class, is Classical (log 50). -/
def admClass (s : State) (p : PartId) (j : Job) : Fin 3 :=
  match rcdAt s p j with
  | some r => if rClass r = 0 then 0 else if rClass r = 1 then 1 else 2
  | none => 2

/-- The first waiting ADMIT of a partition and class. -/
def admJob (s : State) (p : PartId) (c : Fin 3) : Option Job := s.srv[p].waiting.find? fun j => srvCode j == 1 && admClass s p j == c

/-- The admission unit takes decisions into its Blitz place and its other place, by its turn table (R374, R375). The lookup of a decision that is no more
ends with it. -/
def admPick (s : State) : State :=
  let s := { s with deciding := s.deciding.map fun d => match d with
    | some (p, c) => if (admJob s p c).isSome then d else none
    | none => none }
  let s := { s with walk := s.walk.filter fun w => w.kind != .lookup || s.deciding.toList.contains (some (w.part, w.cls)) }
  [(0 : Fin 2), 1].foldl (fun (s : State) b =>
    if s.deciding[b].isSome then s
    else match nextTurn s 1 (b == 0) (fun p c => (admJob s p c).isSome) with
      | some (i, p, c) => { setTurn s 1 i with deciding := s.deciding.set b (some (p, c)) }
      | none => s) s

/-- Read or write at an optional address. -/
def optNat (s : State) (a : Option Nat) (n : Nat) : Nat := match a with | some x => hbmNat s x n | none => 0
def optWrite (s : State) (p : PartId) (a : Option Nat) (n x : Nat) : State :=
  match a with
  | some y => hbmWrite s p y (natLe n x)
  | none => s

/-- Node i, and the free list of n pages, lie in reach of the engines (R311, R431). -/
def nodeReach (s : State) (p : PartId) (i : Nat) : Bool := reaches s p (bookBase s.srv[p]) (128 * i) 128
def freeReach (s : State) (p : PartId) (n : Nat) : Bool := reaches s p (reqBase s.srv[p]) (256 * reqSlots s.srv[p]) (4 * n)

/-- Field of book node i at a byte offset (R325). -/
def nodeGet (s : State) (p : PartId) (i off n : Nat) : Nat := optNat s (tableAt s p (bookBase s.srv[p]) (128 * i + off) n) n
def nodeSet (s : State) (p : PartId) (i off n x : Nat) : State := optWrite s p (tableAt s p (bookBase s.srv[p]) (128 * i + off) n) n x
def nodeState (s : State) (p : PartId) (i : Nat) : Nat := nodeGet s p i 14 1
def nodeValid (s : State) (p : PartId) (i : Nat) : Bool := nodeState s p i == 1
def nodeRefs (s : State) (p : PartId) (i : Nat) : Nat := nodeGet s p i 12 2
def nodeParent (s : State) (p : PartId) (i : Nat) : Nat := nodeGet s p i 8 4
def nodeChildren (s : State) (p : PartId) (i : Nat) : Nat := nodeGet s p i 20 2
def nodeNpages (s : State) (p : PartId) (i : Nat) : Nat := nodeGet s p i 15 1
def nodePages (s : State) (p : PartId) (i : Nat) : List Nat := (List.range (min 8 (nodeNpages s p i))).map fun k => nodeGet s p i (24 + 4 * k) 4
def nodeNone : Nat := 0xFFFFFFFF

/-- The free list as the admission unit keeps it: in State, and in HBM after the request slots (R313). -/
def setFree (s : State) (p : PartId) (l : List Nat) : State :=
  let s := updSrv s p fun v => { v with free := l }
  let v := s.srv[p]
  (List.zipIdx l).foldl (fun s (x, i) => optWrite s p (tableAt s p (reqBase v) (256 * reqSlots v + 4 * i) 4) 4 x) s

/-- Return pages to the free list, each at a place the spec leaves open (log 47). -/
def returnPages (s : State) (p : PartId) (pages : List Nat) : State :=
  let (s, l) := pages.foldl (fun ((s, l) : State × List Nat) x =>
    let (s, k) := draw s
    (s, l.insertIdx (k % (l.length + 1)) x)) (s, s.srv[p].free)
  setFree s p l

/-- The references and pages of a request go back, up to the first access out of reach (R311, R329). -/
def releaseTables (s : State) (p : PartId) (r : Req) : State :=
  let ns := r.nodes.takeWhile (nodeReach s p)
  let s := ns.foldl (fun s i => nodeSet s p i 12 2 (nodeRefs s p i - 1)) s
  if ns.length = r.nodes.length && freeReach s p (s.srv[p].free.length + r.priv.length) then returnPages s p r.priv else s

/-- Release a request: its references, its private pages, its slot, and the completion with its end code (R323, R329). -/
def endRequest (s : State) (p : PartId) (r : Req) (code : Nat) : State :=
  let s := releaseTables s p r
  let s := updSrv s p fun v => { v with slots := v.slots.filter fun x => x.slot != r.slot }
  completeReqEnd s p r.jobId code (bits r.rcd 63 0) (r.ngen % 2 ^ 32 + (r.slot <<< 32))

/-- Count n in field k of `SRV_CNT`: 0 OVERRUN, 1 BOOKFULL, 2 COLLIDE, 3 REPFULL. -/
def countSrv (s : State) (p : PartId) (k : Fin 4) (n : Nat) : State :=
  if n = 0 then s
  else
    let v := s.srv[p]
    let old := match k with | 0 => v.overrun | 1 => v.bookFull | 2 => v.collide | 3 => v.repFull
    updSrv (hwUp s (.srvCnt p k) old n) p fun v => match k with
    | 0 => { v with overrun := satInc v.overrun n }
    | 1 => { v with bookFull := satInc v.bookFull n }
    | 2 => { v with collide := satInc v.collide n }
    | 3 => { v with repFull := satInc v.repFull n }

/-- Clearing EN ends every active request with CANCELLED and returns its pages and references (R314); a step of the sampler and what
the walker walks for the partition end with it. -/
def srvDisable (s : State) (p : PartId) : State :=
  let s := s.srv[p].slots.foldl (fun s r => endRequest s p r 5) s
  let s := { s with walk := s.walk.filter fun w => w.part != p }
  updSrv s p fun v => { v with en := false, ready := false, opened := none, step := none }

/-! ### The walker's turns (R327, R374, R375) -/

/-- The walker has work for a partition and class. -/
def walkPending (s : State) (p : PartId) (c : Fin 3) : Bool := s.walk.any fun w => w.part == p && w.cls == c

/-- The walker's next visit, if it is one for operation w: the oldest of the partition and class that its turn table serves (R374). -/
def walkTurn (s : State) (w : WalkOp) : Option State :=
  match engineTurn s 0 (walkPending s) with
  | some (i, p, c) => if (s.walk.find? fun x => x.part == p && x.cls == c) == some w then some (setTurn s 0 i) else none
  | none => none

/-- The operation of a kind that is under way for a partition and class, or one of `need` visits that begins. -/
def walkOp (s : State) (p : PartId) (c : Fin 3) (k : WalkKind) (need : Nat) : WalkOp :=
  (s.walk.find? fun w => w.part == p && w.cls == c && w.kind == k).getD ⟨p, c, k, need⟩

/-- The operation stands among those under way. -/
def walkEnter (s : State) (w : WalkOp) : State := if s.walk.contains w then s else { s with walk := s.walk ++ [w] }

/-- One visit of it has been made. -/
def walkVisited (s : State) (w : WalkOp) : State :=
  { s with walk := s.walk.map fun x => if x = w then { w with left := w.left - 1 } else x }

end Sys2Proof.Machine
end

