-- ==== Sys2Proof/Machine/Mesh.lean ====
section
/-! DEFINITION. Channels and the mesh (R199 to R215): endpoint fields, sending, line reads, departures, commits, credits, triggers of the message
core. The commands of the mesh family stand in Channel.lean; here are their parts. -/

namespace Sys2Proof.Machine

/-! ### Register fields -/

def rtDsq (r : Word64) : SqId := sqOf (bits r 5 0)
def rtDep (r : Word64) : Fin 32 := epOf (bits r 10 6)
def rtDpos (r : Word64) : Byte := BitVec.ofNat 8 (bits r 18 11)
def rtRemote (r : Word64) : Bool := bit r 19
def rtRequest (r : Word64) : Bool := bit r 20
def rtValid (r : Word64) : Bool := bit r 21
def rtLink (r : Word64) : LinkId := linkOf (bits r 25 22)
def rtHops (r : Word64) : Nat := bits r 29 26
def rtStep (r : Word64) (i : Nat) : Nat := bits r (31 + 2 * i) (30 + 2 * i)
def outSlots (r : Word32) : BitVec 16 := BitVec.ofNat 16 (bits r 15 0)
def outCred (r : Word32) : Nat := bits r 20 16
def outRep (r : Word32) : Fin 32 := epOf (bits r 25 21)
def inHandle (r : Word32) : Nat := bits r 7 0
def inDepth (r : Word32) : Nat := bits r 12 8
def inKind (r : Word32) : Nat := bits r 14 13
def inHen (r : Word32) : Bool := bit r 15
def inHandler (r : Word32) : Fin 64 := finOf 64 (bits r 21 16) (by decide)
def inValid (r : Word32) : Bool := bit r 31
def hndEntry (r : Word32) : Nat := bits r 11 0
def hndBlitz (r : Word32) : Bool := bit r 12
def hndBudget (r : Word32) : Nat := bits r 23 16
def hndValid (r : Word32) : Bool := bit r 31
def wtFlag (r : Word32) : Fin 8192 := flagOf (bits r 12 0)
def wtVal (r : Word32) : Bool := bit r 13
def wtHandler (r : Word32) : Fin 64 := finOf 64 (bits r 19 14) (by decide)
def wtValid (r : Word32) : Bool := bit r 31
def chSrcSq (r : Word64) : SqId := sqOf (bits r 5 0)
def chSep (r : Word64) : Fin 32 := epOf (bits r 10 6)
def chKind (r : Word64) : Nat := bits r 12 11
def chOwner (r : Word64) : PartId := partOf (bits r 16 13)
def chClass (r : Word64) : Nat := bits r 18 17
def chTx (r : Word64) : Bool := bit r 19
def chRx (r : Word64) : Bool := bit r 20
def chRlch (r : Word64) : Fin 32 := epOf (bits r 25 21)

/-- Send descriptor (R205). -/
def sdSoff (w : Word64) : Nat := bits w 24 6 * 64
def sdLines (w : Word64) : Nat := bits w 26 25 + 1
def sdDoff (w : Word64) : Nat := bits w 56 38 * 64

def updEp (s : State) (n : SqId) (e : Fin 32) (f : Endpoint → Endpoint) : State :=
  updSq s n fun q => { q with eps := q.eps.set e (f q.eps[e]) }

/-! ### Link records (R280) -/

def mkRecord (rtype : Nat) (lch : Fin 32) (epoch : Nat) (stamp : Nat) (body : Nat) : Word64 :=
  BitVec.ofNat 64 (rtype + (lch.val <<< 8) + ((epoch % 8) <<< 13) + ((stamp % 8192) <<< 16) + (body <<< 29))

/-- Queue a record for link l, handed off in this cycle (R281, R289). -/
def sendRecord (s : State) (l : LinkId) (rtype : Nat) (lch : Fin 32) (epoch body : Nat) : State :=
  updLink s l fun k => { k with txRecs := k.txRecs ++ [mkRecord rtype lch epoch (ctFrom s (nowCc s)) body] }

/-! ### Triggers (R217, R218) -/

/-- Add a trigger of square n, unless its handler entry is not in force. -/
def addTrigger (s : State) (n : SqId) (t : Trigger) : State :=
  if hndValid s.squares[n].hnd[t.handler] then updMc s n fun m => { m with pending := m.pending ++ [t] } else s

/-- Watches of square n on a flag whose view has changed to `val` in this cycle (R217, R388): one trigger each until dispatched. -/
def watchTriggers (s : State) (n : SqId) (flag : Fin 8192) (val : Bool) : State :=
  let orph := match ownerSq s n with
    | some p => decide (flagRight s p flag.val false = FlagRight.orphan) || decide (flagRight s p flag.val false = FlagRight.denied)
    | none => true
  if orph then s
  else (List.finRange 16).foldl (fun (s : State) (w : Fin 16) =>
    let r := s.squares[n].watch[w]
    if wtValid r && wtFlag r == flag && wtVal r == val && !(s.squares[n].mc.pending.any fun t => t.src == 32 + w.val) then
      addTrigger s n { src := 32 + w.val, kind := 3, handler := wtHandler r, arose := nowCc s, off := 0, count := 0, reply := none }
    else s) s

/-- FLAG_VIEW_UPDATE on one square: the view, and the watches on a change. -/
def viewUpdate (s : State) (n : SqId) (flag : Fin 8192) : State :=
  let old := s.squares[n].view.getLsbD flag.val
  let s := takeView s n flag
  let new := s.squares[n].view.getLsbD flag.val
  if old = new then s else watchTriggers s n flag new

/-! ### Credits (R208) -/

/-- Return credits, or the news of a refusal, to an outbound endpoint of this chip. -/
def creditBack (s : State) (n : SqId) (e : Fin 32) (k hops : Nat) (code : Option (BitVec 6)) : State :=
  { s with credits := s.credits ++ [⟨n, e, k, nowCc s + 6 + 2 * hops, code⟩] }

/-- Channel by which credits and refusals of inbound channel c go back: RLCH of a request channel, else the reverse of the channel (R286). -/
def backChannel (k : Link) (c : Fin 32) : Fin 32 := if chKind k.ch[c] = 1 then chRlch k.ch[c] else c

/-- A record that answers what came in on channel c, in the name of the partition at this end, or with the epoch of an answer that only passes (R280). -/
def answerRecord (s : State) (l : LinkId) (c : Fin 32) (rtype body : Nat) (passing : Option (BitVec 3) := none) : State :=
  sendRecord s l rtype (backChannel s.links[l] c)
    (match passing with | some e => e.toNat | none => s.parts[chOwner s.links[l].ch[c]].epoch.toNat) body

/-- The sender of a message gets its credit back: over the mesh, or as a CREDIT record on the link it came by (R208, R286). -/
def returnCredit (s : State) (src : Option (SqId × Fin 32)) (link : Option (LinkId × Fin 32)) (hops : Nat) (code : Option (BitVec 6)) : State :=
  match link with
  | some (l, c) =>
    let s := match code with
      | some x => answerRecord s l c 0x04 x.toNat
      | none => s
    answerRecord s l c 0x03 1
  | none =>
    match src with
    | some (n, e) => creditBack s n e 1 hops code
    | none => s

/-- k reserved slots of a reply endpoint become free. -/
def slotsBack (x : Endpoint) (k : Nat) : Endpoint :=
  if inKind x.inc = 2 then { x with reserved := x.reserved - k, freeSlots := x.freeSlots + min k x.reserved } else x

/-- Release the k oldest held messages of an inbound endpoint; a reply endpoint frees their slots (R208, R212, R385). -/
def release (s : State) (n : SqId) (e : Fin 32) (k : Nat) : State :=
  let ep := s.squares[n].eps[e]
  let go := ep.held.take k
  let s := updEp s n e fun x => slotsBack { x with held := x.held.drop k } go.length
  go.foldl (fun s h => if h.dead then s else returnCredit s h.src h.link h.hops none) s

/-- Release the held message whose arrival count is c, if it is still held (R212, R220). -/
def releaseCount (s : State) (n : SqId) (e : Fin 32) (c : Word32) : State :=
  let ep := s.squares[n].eps[e]
  match ep.held.find? fun h => h.count == c with
  | none => s
  | some h =>
    let s := updEp s n e fun x => slotsBack { x with held := x.held.filter fun y => y.count != c } 1
    if h.dead then s else returnCredit s h.src h.link h.hops none

/-! ### Sending (R206, R211, R212, R214) -/

def epochOf (s : State) (n : SqId) : BitVec 16 := match ownerSq s n with | some p => s.parts[p].epoch | none => 0
def partOfSq (s : State) (n : SqId) : PartId := (ownerSq s n).getD 0

/-- A message on the route of endpoint e of square n, issued in cycle t. -/
def mkMsg (s : State) (n : SqId) (e : Fin 32) (kind : MsgKind) (net : Net) (w : Word64) (t : Nat) (reply : Option ReplyTo) : Msg :=
  let r := s.squares[n].eps[e].route
  let remote := rtRemote r
  { kind := kind, net := net, part := partOfSq s n, epoch := epochOf s n, owner := n, ep := e, via := none, at_ := n
    dst := if remote then linkSquare (rtLink r) else rtDsq r
    dep := rtDep r, link := if remote then some (rtLink r) else none, dpos := rtDpos r, hops := rtHops r
    doff := sdDoff w, soff := sdSoff w, lines := sdLines w, flits := sdLines w, readFrom := t + 4, data := [], arrive := []
    committed := 0, reply := reply, asker := none, rec_ := none, refuse := none, late := none }

def takeCredit (s : State) (n : SqId) (e : Fin 32) : State := updEp s n e fun x => { x with credits := x.credits - 1 }

/-- SEND with a credit in hand. -/
def sendStream (s : State) (n : SqId) (e : Fin 32) (w : Word64) (t : Nat) : State :=
  let m := mkMsg s n e .stream .stream w t none
  takeCredit { s with msgs := s.msgs ++ [m] } n e

/-- A free reply slot of the reply endpoint of request route e (R211). -/
def replySlotFree (q : Square) (e : Fin 32) : Bool :=
  let rep := q.eps[outRep q.eps[e].outc]
  decide (rep.reserved < inDepth rep.inc)

/-- REQ with a credit and a reply slot in hand: the reserved offset comes back. -/
def sendRequest (s : State) (n : SqId) (e : Fin 32) (w : Word64) (t : Nat) : State × Nat :=
  let q := s.squares[n]
  let rep := outRep q.eps[e].outc
  let off := 256 * q.eps[rep].slot
  let m := mkMsg s n e .request .request w t
    (some { sq := n, ep := e, rep := rep, off := off, hops := rtHops q.eps[e].route, link := none, asker := some (partOfSq s n, epochOf s n) })
  let s := takeCredit { s with msgs := s.msgs ++ [m] } n e
  (updEp s n rep fun x => { x with reserved := x.reserved + 1, freeSlots := x.freeSlots - 1, owed := x.owed ++ [(e, off)], slot := (x.slot + 1) % max 1 (inDepth x.inc) }, off)

/-- CFLAG of the main schedule or the message core, issued in cycle t (R214). -/
def sendCflag (s : State) (n : SqId) (main : Bool) (e : Fin 32) (flag : Fin 8192) (val : Bool) (t : Nat) : State :=
  let net : Net := if rtRequest s.squares[n].eps[e].route then .request else .stream
  let m := mkMsg s n e (.cflag flag val) net 0 t none
  { s with msgs := s.msgs ++ [{ m with lines := 0, flits := 1, readFrom := t, late := if main then some [] else none }] }

/-- A reply from square n on the reversed route of its request (R203, R212): `lines` lines of the handler from `soff`, and the trailer. -/
def sendReply (s : State) (n : SqId) (r : ReplyTo) (code : Byte) (soff lines t : Nat) : State :=
  -- where no partition owns the square any more, the reply goes in the requester's name
  let who : PartId × BitVec 16 := match ownerSq s n with
    | some p => (p, s.parts[p].epoch)
    | none => r.asker.getD (match r.link with | some (l, c) => let p := chOwner s.links[l].ch[c]; (p, s.parts[p].epoch) | none => (0, 0))
  let m : Msg :=
    { kind := .reply code, net := .reply, part := who.1, epoch := who.2
      owner := (match r.link with | some (l, _) => linkSquare l | none => r.sq)
      ep := (match r.link with | some (_, c) => c | none => r.ep), via := r.link, at_ := n
      dst := (match r.link with | some (l, _) => linkSquare l | none => r.sq), dep := r.rep
      link := r.link.map (·.1), dpos := 0, hops := r.hops, doff := r.off, soff := soff, lines := lines
      flits := if lines = 4 then 4 else lines + 1, readFrom := t + 4, data := [], arrive := [], committed := 0, reply := none
      asker := r.asker, rec_ := none, refuse := none, late := none }
  { s with msgs := s.msgs ++ [m] }

/-! ### Line reads (R65, R206) -/

def isMeshTurn (s : State) : Bool := s.clk.frameOn && decide (nowCc s % 2 = 0)

/-- Lines of message m still unread. -/
def unread (m : Msg) : List Nat :=
  (List.range m.lines).filter fun i => !(m.data.any fun d => d.1 == i)

/-- In this mesh turn of square n, message m reads each of its lines whose bank is free. -/
def readLines (s : State) (n : SqId) (m : Msg) : State × Msg :=
  (unread m).foldl (fun (s, m) i =>
    let a := (m.soff + 64 * i) % 2 ^ 25
    if (banksUsed s n).contains (bankOf a) then (s, m)
    else (padRead (useBank s n (bankOf a)) n, { m with data := m.data ++ [(i, nowCc s, memLine s.squares[n].mem a)] })) (s, m)

/-- MESH_LINE_READ: every message of square n whose lines may be read, in the order of sending. -/
def lineRead (s : State) (n : SqId) : State :=
  if !isMeshTurn s then s
  else
    let ms := s.msgs
    let (s, out) := ms.foldl (fun (s, out) m =>
      if m.at_ == n && m.via.isNone || m.at_ == n && m.net == .reply then
        if m.readFrom ≤ nowCc s then let (s, m) := readLines s n m; (s, out ++ [m]) else (s, out ++ [m])
      else (s, out ++ [m])) (s, ([] : List Msg))
    { s with msgs := out }

/-! ### Departures (R201, R203, R214) -/

/-- Base slots of the route a message uses. -/
def slotsOfMsg (s : State) (m : Msg) : BitVec 16 :=
  match m.via with
  | some (l, c) => outSlots s.links[l].irs[c]
  | none => outSlots s.squares[m.owner].eps[m.ep].outc

/-- The next flit of m may leave in cycle cc: its line was read before (a trailer flit and a flag write have no line). -/
def flitReady (m : Msg) (cc : Nat) : Bool :=
  let k := m.arrive.length
  decide (k < m.flits) && (
    if k < m.lines then m.data.any fun d => d.1 == k && decide (d.2.1 < cc)
    else match m.kind with
      | .cflag _ _ => decide (m.readFrom < cc)
      | _ => decide (m.readFrom ≤ cc))

/-- One flit of the route's slot in this cycle already left. -/
def slotTaken (s : State) (n : SqId) (e : Fin 32) (net : Net) : Bool :=
  s.msgs.any fun m => m.owner == n && m.ep == e && m.net == net && m.arrive.any fun a => a == nowCc s + 2 * m.hops

/-- FLIT_DEPART: the oldest message of the route with a flit still to send, when the slot is a base slot of the route and the flit is ready. -/
def flitDepart (s : State) (n : SqId) (e : Fin 32) (net : Net) : State :=
  let cc := nowCc s
  let mine := fun (m : Msg) => m.owner == n && m.ep == e && m.net == net
  match s.msgs.find? fun m => mine m && decide (m.arrive.length < m.flits) with
  | none => s
  | some m =>
    if s.clk.frameOn && (slotsOfMsg s m).getLsbD (cc % 16) && flitReady m cc && !slotTaken s n e net && domOn s domEngine then
      let m' := { m with arrive := m.arrive ++ [cc + 2 * m.hops] }
      { s with msgs := s.msgs.replace m m' }
    else s

/-! ### Commits (R83, R84, R206 to R208, R212, R384, R386) -/

/-- Whether a mesh write from partition p is allowed by a handle (R82, R83): WMESH from the owner's squares, WGRANT from others. -/
def meshPerm (h : Handle) (p : PartId) : Bool := if hdlOwner h = p.val then hdlWmesh h else hdlWgrant h

/-- Handle and offset a message writes. -/
def msgHandle (s : State) (m : Msg) : Nat := inHandle s.squares[m.dst].eps[m.dep].inc
def msgLen (m : Msg) : Nat := match m.kind with | .reply _ => 256 | _ => 64 * m.lines

/-- The check at a message's first flit: 0, or the code it is refused with. -/
def msgCheck (s : State) (m : Msg) : Nat :=
  let c := sqClosed s m.dst
  if c ≠ 0 then c
  else
    let h := hdlOf s.squares[m.dst] (msgHandle s m)
    let perm := if m.via.isSome then hdlWlink h else meshPerm h m.part
    hdlCheck h perm m.doff (msgLen m)

/-- Refuse a message: the sender's credit returns at once with the code (R208, R384). A refused request still yields its reply (R212, log 16). -/
def refuseMsg (s : State) (m : Msg) (code : Nat) : State :=
  let s := handleRefused s m.dst (msgHandle s m) code
  let s := match m.via with
    | some (l, c) => raise s (srcLink l) (some (chOwner s.links[l].ch[c])) 0x0A05 [c.val, code]
    | none => s
  match m.kind with
  | .reply _ => match m.via with
    | some (l, c) => answerRecord s l c 0x04 code
    | none => s
  | .cflag _ _ => s
  | _ =>
    let s := returnCredit s (some (m.owner, m.ep)) m.via m.hops (some (BitVec.ofNat 6 code))
    match m.reply with
    | some r => sendReply s m.dst r (if code = stCancelled then 3 else 1) 0 0 (nowCc s)
    | none => s

/-- A message that a link refuses, or that a partition reset finds on its way to a link: the sender learns it under R208; a request is still answered
(log 16). -/
def refuseAtLink (s : State) (m : Msg) (code : Nat) : State :=
  match m.kind with
  | .reply _ => s
  | .cflag _ _ => match m.via with
    | some (l, c) => answerRecord s l c 0x04 code
    | none => creditBack s m.owner m.ep 0 m.hops (some (BitVec.ofNat 6 code))
  | _ =>
    let s := returnCredit s (some (m.owner, m.ep)) m.via m.hops (some (BitVec.ofNat 6 code))
    match m.reply with
    | some r => sendReply s m.dst r 1 0 0 (nowCc s)
    | none => s

/-- Write the bytes of flit k of m into its handle. -/
def commitFlit (s : State) (m : Msg) (k : Nat) : State :=
  let base := hdlBase (hdlOf s.squares[m.dst] (msgHandle s m)) + m.doff
  let s := match m.data.find? fun d => d.1 == k with
    | some d => padWrite s m.dst [((base + 64 * k) % 2 ^ 25, natLe 64 d.2.2.toNat)]
    | none => s
  match m.kind with
  | .reply code =>
    if k + 1 = m.flits then
      padWrite s m.dst [((base + 248) % 2 ^ 25, natLe 8 (code.toNat + 256 * m.lines))]
    else s
  | _ => s

/-- Bytes of a whole message, as its images (R158). A reply is the 256 bytes of its slot, those that its lines do not write as they stand (DESIGN CHOICE, log
114). -/
def msgBytes (s : State) (m : Msg) : List Byte :=
  let base := hdlBase (hdlOf s.squares[m.dst] (msgHandle s m)) + m.doff
  match m.kind with
  | .reply _ => memBytes s.squares[m.dst].mem base 256
  | _ => (List.range m.lines).flatMap fun k => match m.data.find? fun d => d.1 == k with
    | some d => natLe 64 d.2.2.toNat
    | none => []

/-- The last flit of an accepted message has committed: counter, held message, trigger. -/
def msgDone (s : State) (m : Msg) : State :=
  let h := msgHandle s m
  let s := acceptWrite s m.dst h [(m.doff, msgBytes s m)]
  let count := (hdlOf s.squares[m.dst] h).count
  let ep := s.squares[m.dst].eps[m.dep]
  let src := match m.via with | some _ => none | none => some (m.owner, m.ep)
  let s := updEp s m.dst m.dep fun x =>
    { x with owed := (match m.kind with | .reply _ => x.owed.filter fun o => o.2 != m.doff | _ => x.owed)
             held := x.held ++ [⟨m.doff, count, (match m.kind with | .reply _ => none | _ => src), m.hops,
                                 (match m.kind with | .reply _ => none | _ => m.via), false⟩] }
  let trig := fun (kind : BitVec 8) => addTrigger s m.dst
    { src := m.dep.val, kind := kind, handler := inHandler ep.inc, arose := nowCc s, off := m.doff, count := count, reply := m.reply }
  match m.kind with
  | .request =>
    if hndValid s.squares[m.dst].hnd[inHandler ep.inc] then trig 2
    else
      -- no handler in force: the request yields its reply all the same (R212)
      let s := match m.reply with | some r => sendReply s m.dst r 1 0 0 (nowCc s) | none => s
      releaseCount s m.dst m.dep count
  | .stream => if inHen ep.inc then trig 1 else s
  | .reply _ => if inHen ep.inc then trig 1 else s
  | .cflag _ _ => s

/-- The partition whose reset has made a message old: the sender's, or the requester's of a reply (R386, R387). -/
def staleFor (s : State) (m : Msg) : Option PartId :=
  if m.epoch ≠ s.parts[m.part].epoch then some m.part
  else match m.asker with
    | some (p, e) => if e ≠ s.parts[p].epoch then some p else none
    | none => none

/-- One flit of m commits in this turn, at index m.committed. -/
def commitNext (s : State) (m : Msg) : State × Option Msg :=
  let k := m.committed
  -- arrivals of an old epoch are dropped (R386)
  match staleFor s m with
  | some p => (if k = 0 then countOldEpoch s p else s, none)
  | none =>
    let code := if k = 0 ∧ m.refuse.isNone then msgCheck s m else 0
    let (s, m) := if code ≠ 0 then (refuseMsg s m code, { m with refuse := some (BitVec.ofNat 6 code) }) else (s, m)
    let s := if m.refuse.isNone then commitFlit s m k else s
    let m := { m with committed := k + 1 }
    if m.committed = m.flits then (if m.refuse.isNone then msgDone s m else s, none) else (s, some m)

/-- Address of flit k of m in its destination, for the banks of R65: a flit that is only the trailer lies in the slot's last line (R212). -/
def flitAddr (s : State) (m : Msg) (k : Nat) : Nat :=
  hdlBase (hdlOf s.squares[m.dst] (msgHandle s m)) + m.doff + 64 * (match m.kind with | .reply _ => if k + 1 = m.flits then 3 else k | _ => k)

/-- Commit flits of one message in this turn until one is not due or its bank is taken. -/
def commitMsg : Nat → State → Msg → State × Option Msg
  | 0, s, m => (s, some m)
  | fuel + 1, s, m =>
    match m.arrive[m.committed]? with
    | some a =>
      let b := bankOf (flitAddr s m m.committed)
      if nowCc s ≤ a ∨ (banksUsed s m.dst).contains b then (s, some m)
      else
        let (s, r) := commitNext (useBank s m.dst b) m
        match r with
        | some m => commitMsg fuel s m
        | none => (s, none)
    | none => (s, some m)

/-- MESH_FLIT_COMMIT at square n: in this mesh turn, the flits that arrived before it, channel by channel in order (R206, R209). -/
def flitCommit (s : State) (n : SqId) : State :=
  if !isMeshTurn s then s
  else
    let ms := s.msgs
    let (s, out) := ms.foldl (fun ((s, out) : State × List Msg) m =>
      let isFlag := match m.kind with | .cflag _ _ => true | _ => false
      -- an earlier message of the channel that is not complete holds this one back (R209)
      let blocked := out.any fun x => x.owner == m.owner && x.ep == m.ep && x.net == m.net && x.via == m.via && x.dst == m.dst
      if m.dst == n && m.link.isNone && !isFlag && !blocked then
        let (s, r) := commitMsg m.flits s m
        match r with
        | some m => (s, out ++ [m])
        | none => (s, out)
      else (s, out ++ [m])) (s, [])
    -- messages sent meanwhile (replies of the device) stay at the end
    { s with msgs := out ++ s.msgs.drop (ms.length) }

/-! ### Flag writes of channels (R214, R215) -/

/-- The right of R215 at the destination chip: the flag is the destination partition's own, or granted to the sender with SIGNAL. -/
def cflagRight (s : State) (dstPart : Option PartId) (sender : Option PartId) (flag : Fin 8192) : Bool :=
  (match dstPart with | some p => inRange s p flag.val | none => false)
    || (match sender with | some p => decide (flagRight s p flag.val true = FlagRight.granted) | none => false)

/-- CFLAG_EFFECT at square n, which a partition owns (R16): every flag write that arrived in an earlier cycle and has no earlier message of its channel before it. -/
def cflagEffect (s : State) (n : SqId) : State :=
  let ms := s.msgs
  let (s, out) := ms.foldl (fun ((s, out) : State × List Msg) m =>
    match m.kind with
    | .cflag flag val =>
      let due := match m.arrive[0]? with | some a => decide (a < nowCc s) | none => false
      let blocked := out.any fun x => x.owner == m.owner && x.ep == m.ep && x.net == m.net && x.via == m.via && x.dst == m.dst
      if m.dst == n && m.link.isNone && due && !blocked then
        if m.epoch ≠ s.parts[m.part].epoch then (countOldEpoch s m.part, out)
        else if (ownerSq s n).isSome && cflagRight s (ownerSq s n) (some m.part) flag then
          (writeFlag s flag val (nowCc s) (rankChannel n m.dep) (some n) (m.late.map fun _ => (m.owner, m.readFrom)) (m.late.getD []), out)
        else
          let s := match m.via with
            | some (l, c) => answerRecord (raise s (srcLink l) (some m.part) 0x0A05 [c.val, stDenied]) l c 0x04 stDenied
            | none => creditBack s m.owner m.ep 0 m.hops (some (BitVec.ofNat 6 stDenied))
          (s, out)
      else (s, out ++ [m])
    | _ => (s, out ++ [m])) (s, [])
  { s with msgs := out ++ s.msgs.drop ms.length }

/-! ### Credits seen (R208) -/

/-- CREDIT_RETURN: the credits and refusals that outbound endpoint e of square n sees in this cycle or earlier. -/
def creditReturn (s : State) (n : SqId) (e : Fin 32) : State :=
  let due := s.credits.filter fun c => c.sq == n && c.ep == e && decide (c.seen ≤ nowCc s)
  let s := { s with credits := s.credits.filter fun c => !(c.sq == n && c.ep == e && decide (c.seen ≤ nowCc s)) }
  due.foldl (fun s c =>
    let s := if c.code.isSome then hwMark s (.chnStat n e) (1 <<< 17) else s
    let s := updEp s n e fun x => { x with credits := x.credits + BitVec.ofNat 5 c.n
                                           refused := x.refused || c.code.isSome, lastCode := c.code.getD x.lastCode }
    match c.code with
    | some k => raise s (srcSq n) (ownerSq s n) 0x0408 [e.val, k.toNat]
    | none => s) s

end Sys2Proof.Machine
end

