-- ==== Sys2Proof/Machine/Conservation.lean ====
section
/-! DEFINITION. The conservation monitors (R391 to R393): the eleven checks computed from the state, and what a failure does. -/

namespace Sys2Proof.Machine

/-- Credits of the route of endpoint e of square n as the monitors count them (check 0): held by the sender, under way, held by the receiver. What a remote
route has handed to its link and not got back is under way or held on the far chip (`away`, log 35). -/
def creditSum (s : State) (n : SqId) (e : Fin 32) : Nat :=
  let ep := s.squares[n].eps[e]
  let here := fun (m : Msg) => m.link.isNone || m.committed == 0
  let flying := (s.msgs.filter fun m => m.owner == n && m.ep == e && m.via.isNone && m.refuse.isNone && here m && (match m.kind with
    | .stream => true
    | .request => true
    | _ => false)).length
  let back := (s.credits.filter fun c => c.sq == n && c.ep == e).foldl (fun a c => a + c.n) 0
  let dst := s.squares[rtDsq ep.route].eps[rtDep ep.route]
  let held := if rtRemote ep.route then ep.away else (dst.held.filter fun h => h.src == some (n, e) && !h.dead).length
  ep.credits.toNat + flying + back + held

/-- Check 0 on one endpoint. -/
def checkCredit (s : State) (n : SqId) (e : Fin 32) : Bool :=
  let ep := s.squares[n].eps[e]
  !rtValid ep.route || creditSum s n e == outCred ep.outc

/-- Check 1: the free and the reserved slots of a reply endpoint make DEPTH. -/
def checkReply (q : Square) (e : Fin 32) : Bool :=
  let ep := q.eps[e]
  !inValid ep.inc || inKind ep.inc != 2 || ep.freeSlots + ep.reserved == inDepth ep.inc

/-- Descriptors of a partition queued or running (R365). -/
def copyLoad (s : State) (p : PartId) : Nat :=
  s.parts[p].queue.length
    + allCe.foldl (fun a n => a + ((s.ces[n].run.toList ++ s.ces[n].waiting).filter fun r => r.desc.part == p).length) 0

/-- A descriptor of p is queued or in progress: of a copy, serving or snapshot engine (R369, R382). -/
def descriptorsOf (s : State) (p : PartId) : Bool :=
  decide (copyLoad s p ≠ 0) || s.parts[p].copyWait.isSome || !s.srv[p].waiting.isEmpty || !s.parts[p].snapQ.isEmpty
    || s.snp[p].job.isSome || s.snp[p].restore.isSome

/-- Check 3 on one square: every handle that is not at its reset value carries the owner of the square (log 35). -/
def checkHandles (s : State) (n : SqId) : Bool :=
  match ownerSq s n with
  | some p => s.squares[n].hdl.all fun e => hdlOwner e.2 == p.val
  | none => true

/-- Flags of the range of a partition. -/
def rangeSize (s : State) (p : PartId) : Nat :=
  let r := s.parts[p].own.res
  if s.parts[p].st = .absent ∨ !resFen r then 0 else resLast r + 1 - resFirst r

/-- Check 4: no two ranges share a flag. -/
def checkFlags (s : State) : Bool :=
  allPart.all fun p => allPart.all fun q =>
    let a := s.parts[p].own.res
    let b := s.parts[q].own.res
    decide (p = q) || decide (rangeSize s p = 0) || decide (rangeSize s q = 0) || decide (resLast a < resFirst b) || decide (resLast b < resFirst a)

/-- Hold area of a partition: first segment and count when valid (`SNP_HOLD`, R359). -/
def holdSegs (s : State) (p : PartId) : BitVec 64 :=
  let h := s.snp[p].hold
  if bit h 63 then BitVec.ofNat 64 ((2 ^ bits h 12 6 - 1) <<< bits h 5 0) else 0

/-- Check 5: no segment is owned twice or both owned and held, and none lies above the segments formed. -/
def checkSegs (s : State) : Bool :=
  let masks := allPart.map fun p => if s.parts[p].st = .absent then (0 : BitVec 64) else s.parts[p].own.seg
  let holds := allPart.map fun p => holdSegs s p
  let r := (masks ++ holds).foldl (fun ((ok, acc) : Bool × BitVec 64) m => (ok && (acc &&& m == 0), acc ||| m)) (true, 0)
  r.1 && r.2.toNat >>> s.hbm.segments == 0

/-- Check 6: free, private and book pages of a serving partition (R324). -/
def checkPages (s : State) (p : PartId) : Bool :=
  let v := s.srv[p]
  !v.ready || (
    let priv := v.slots.foldl (fun a r => a + r.priv.length) 0
    let book := if v.book_ then (List.range (2 ^ bookLog2 v)).foldl (fun a i => if nodeValid s p i then a + nodeNpages s p i else a) 0 else 0
    v.free.length + priv + book == kvPages v)

/-- Check 7: the references of the book are the nodes that active requests hold. -/
def checkRefs (s : State) (p : PartId) : Bool :=
  let v := s.srv[p]
  !v.ready || !v.book_ || (
    let refs := (List.range (2 ^ bookLog2 v)).foldl (fun a i => if nodeValid s p i then a + nodeRefs s p i else a) 0
    refs == v.slots.foldl (fun a r => a + r.nodes.length) 0)

/-- Check 8: captured and uncaptured pages of each square of an OPEN generation that is being captured. -/
def checkCaptured (s : State) (p : PartId) : Bool :=
  match s.snp[p].job with
  | none => true
  | some j => j.paged.all fun (n, k) => k + (bitsOf (s.squares[sqOf n].uncapt)).length == 2048

/-- Check 10 on one link: frames held and free places of its landing buffer (R286). -/
def checkLanding (k : Link) : Bool := k.landing.length + k.places == landingCapacity

/-- Whether check n fails, and the partition concerned (none: the chip). -/
def consCheck (s : State) (n : Nat) : Option (Option PartId) :=
  match n with
  | 0 => (allSq.find? fun q => !((List.finRange 32).all fun e => checkCredit s q e)).map fun q => ownerSq s q
  | 1 => (allSq.find? fun q => !((List.finRange 32).all fun e => checkReply s.squares[q] e)).map fun q => ownerSq s q
  | 2 => (allPart.find? fun p => decide (s.parts[p].st ≠ .absent) && decide (s.parts[p].qFree + copyLoad s p ≠ resQdepth s.parts[p].own.res)).map some
  | 3 => (allSq.find? fun q => !checkHandles s q).map fun q => ownerSq s q
  | 4 => if checkFlags s then none else some none
  | 5 => if checkSegs s then none else some none
  | 6 => (allPart.find? fun p => !checkPages s p).map some
  | 7 => (allPart.find? fun p => !checkRefs s p).map some
  | 8 => (allPart.find? fun p => !checkCaptured s p).map some
  | 9 => (allSq.find? fun q => s.squares[q].accepted != s.squares[q].counted).map fun q => ownerSq s q
  | 10 => if allLink.all fun l => checkLanding s.links[l] then none else some none
  | _ => none

/-- R393: a failure sets its bit, stands in CONS_LAST, and raises one event until its bit is cleared. -/
def consFail (s : State) (n : Nat) (p : Option PartId) : State :=
  let known := s.cons.fail.getLsbD n
  let s := hwMark s .consFail (1 <<< n)
  let who := match p with | some x => x.val | none => 0
  let s := { s with cons := { fail := s.cons.fail ||| BitVec.ofNat 11 (1 <<< n), check := BitVec.ofNat 4 n
                              part := BitVec.ofNat 4 who, chip := p.isNone, stamp := BitVec.ofNat 48 (nearCount s [3, n]) } }
  if known then s else raise s srcCons p 0x0903 [n, who, bool2nat p.isNone]

/-- Run every check. -/
def consRun (s : State) : State :=
  (List.range 11).foldl (fun s n => match consCheck s n with
    | some p => consFail s n p
    | none => s) s

end Sys2Proof.Machine
end

