-- ==== Sys2Proof/Machine/Reset.lean ====
section
/-! DEFINITION. Partition reset (R382 to R388) and partition faults (R454 to R459): the shared operations that RESET, DESTROY, function level resets and
every fault run. -/

namespace Sys2Proof.Machine

/-! ### Steps of R382 -/

/-- Step 1 on one square: issue stops, operations in flight are discarded, handlers end without effect. -/
def stopSquare (fault : Bool) (q : Square) : Square :=
  { q with
    core := { q.core with flight := [], loads := [], stores := [], rails := Vector.replicate 4 none, empty := 0, held := 0, haltReq := false
                          haltLate := false, sealTag := none, stepReq := false, skipBreak := false, ending := false, stall := 0, saved := false
                          st := if fault then .fault else q.core.st }
    mc := { q.mc with busy := false, trig := none, pending := [], access := [], stores := [], flight := [], held := 0, replied := false, entering := false } }

/-- Requests that the squares `own` would have answered: their requesters outside them. -/
def orphanReplies (s : State) (own : BitVec 64) : List (SqId × ReplyTo) :=
  (allSq.filter fun n => own.getLsbD n.val).flatMap fun n =>
    let mc := s.squares[n].mc
    let running := match mc.trig with | some t => if mc.busy && !mc.replied then [t] else [] | none => []
    ((running ++ mc.pending).filterMap fun t => t.reply).filterMap fun r =>
      if r.link.isSome || !own.getLsbD r.sq.val then some (n, r) else none

/-- FLG_ORPHAN of every grant in force that p owns (R388). -/
def orphanGrants (s : State) (p : PartId) : State :=
  let m := (List.finRange 64).foldl (fun (m : BitVec 64) n =>
    let g := s.flags.grants[n]
    if grValid g && grOwner g == p then m ||| BitVec.ofNat 64 (1 <<< n.val) else m) 0
  { s with flags := { s.flags with orphan := s.flags.orphan ||| m } }

/-- RESULT2 of a copy completion (R423): TAG, then parts landed, or copy-table entry and square of a kick. -/
def descResult2 (d : Desc) (landed : Nat) : Nat :=
  bits d.d 63 32 + (match d.src with
    | .job _ _ => landed <<< 32
    | .kick n e => (e.toNat <<< 32) + (n.val <<< 48))

/-- The frame cycle of a RESULT: none stands for an event that never happened, whose value the spec leaves open (log 90). -/
def resultCycle (s : State) (t : Option Nat) : State × Nat :=
  match t with
  | some c => (s, frameCycle s c)
  | none => draw s

/-- A descriptor takes an entry of its partition's copy queue (R91, R193). -/
def enqueue (s : State) (d : Desc) : State := updPart s d.part fun q => { q with queue := q.queue ++ [d], qFree := q.qFree - 1 }

/-- The end of a queued or running descriptor started in cycle t (none: it never started): its entry is free, a job completes; a kick reports only a status other than
OK (R423). -/
def endDesc (s : State) (d : Desc) (status : Nat) (t : Option Nat) (landed : Nat) : State :=
  let s := updPart s d.part fun q => { q with qFree := q.qFree + 1 }
  match d.src with
  | .job id type => let (s, c) := resultCycle s t; complete s d.part id type.toNat status c (descResult2 d landed)
  -- a kick's start cycle is its issue cycle (R96)
  | .kick _ _ => if status = 0 then s else let (s, c) := resultCycle s (some (t.getD d.kickAt)); completeKick s d.part status c (descResult2 d landed)

/-- Completion of a LAUNCH job: a RUN reports its deviations and its launch cycle, none if it never ran; of a LOAD the table states neither (R423,
log 90). -/
def launchComplete (s : State) (p : PartId) (body : Line) (status devs : Nat) (first : Option Nat) : State :=
  let (s, x) := if bits body 1 0 = 1 then draw s else (s, devs)
  let (s, c) := resultCycle s (if bits body 1 0 = 1 then none else first)
  complete s p (jobId body) 1 status x c

def jsBadJob : Nat := 0xF0
/-- Completion status of a job that never ran (R423). -/
def jsCancelled : Nat := 0xF1
def jsFault : Nat := 0x18

/-- COPY, RESHARD, SNAPSHOT and ADJOURN have a CANCELLED of their own. -/
def cancelCode (type : Nat) : Nat := if 2 ≤ type ∧ type ≤ 5 then stCancelled else jsCancelled

/-- Completion of a SNAPSHOT or ADJOURN job: GEN_NO, generation and KIND (R423). -/
def snpComplete (s : State) (p : PartId) (id : Word32) (type status : Nat) (genNo : Word32) (gen : Nat) (adjourned : Bool) : State :=
  complete s p id type status genNo.toNat (gen + 2 * bool2nat adjourned)

/-- The scoreboard entry of an engine in one square: the union of the envelopes of all it carries, IN if any of them writes the square (R77, R80). For an
engine that reads and writes one square, or carries two descriptors there, no rule gives the one entry (DESIGN CHOICE, log 112). -/
def sbUnion (es : List SbEntry) : Option SbEntry :=
  es.foldl (fun acc e => match acc with
    | none => some e
    | some a => some ⟨min a.first e.first, max a.last e.last, a.isIn || e.isIn⟩) none

/-- Set the entry of engine n in every square from what the engine carries. -/
def sbRefresh (s : State) (n : CeId) : State :=
  let runs := s.ces[n].waiting ++ s.ces[n].run.toList
  let sq := s.squares.mapFinIdx fun i q _ =>
    { q with sb := q.sb.set n.val (sbUnion (runs.flatMap fun r => (r.envs.filter fun e => e.1.val == i).map (·.2))) (by have := n.isLt; omega) }
  { s with squares := sq }

/-- RESULT and RESULT2 of a SERVE job that takes no slot (R423): RID of a record that can be read, or the slot of a FINISH. -/
def serveResults (s : State) (p : PartId) (j : Job) : Nat × Nat :=
  if srvCode j = 1 then (match rcdAt s p j with | some r => bits r 63 0 | none => 0, 0) else (0, jobWord j.body 1 % 4096)

/-- A job that has not started ends with a status, with the results of its type (R423). -/
def endUnstarted (s : State) (p : PartId) (j : Job) (status : Nat) : State :=
  match jobType j.body with
  | 1 => launchComplete s p j.body status 0 none
  | 2 => let (s, c) := resultCycle s none; complete s p (jobId j.body) 2 status c (bits j.body 63 32)
  | 3 => let (s, c) := resultCycle s none; complete s p (jobId j.body) 3 status c (bits j.body 63 32)
  | 4 =>
    -- a RESTORE names its generation, a FETCH the number too (R418)
    let g : Fin 2 := if bit j.body 3 then 1 else 0
    if jobWord j.body 0 % 4 = 1 then complete s p (jobId j.body) 4 status s.snp[p].gens[g].genNo.toNat g.val
    else if jobWord j.body 0 % 4 = 2 then complete s p (jobId j.body) 4 status (jobWord j.body 3 / 2 ^ 32) g.val
    else
      let (s, no) := draw s
      let (s, g) := draw s
      complete s p (jobId j.body) 4 status (no % 2 ^ 32) (g % 2)
  | 5 =>
    let (s, no) := draw s
    let (s, g) := draw s
    complete s p (jobId j.body) 5 status (no % 2 ^ 32) (g % 2 + 2)
  | 6 => let r := serveResults s p j; complete s p (jobId j.body) 6 status r.1 r.2
  | t => complete s p (jobId j.body) t status 0 0

/-- A waiting job completes with CANCELLED. -/
def cancelJob (s : State) (p : PartId) (j : Job) : State := endUnstarted s p j (cancelCode (jobType j.body))

/-- The LAUNCH in front ends: with FAULT when it was running and a fault ends it, otherwise with CANCELLED. -/
def endLaunch (s : State) (p : PartId) (fault : Bool) : State :=
  match s.parts[p].launch with
  | none => s
  | some l =>
    let ran := match l.phase with | .broadcast => true | .running => true | _ => false
    let s := updPart s p fun q => { q with launch := none, launched := false }
    launchComplete s p l.job.body (if fault && ran then jsFault else jsCancelled) l.devs.toNat l.first

/-- What waits for p in the shared engines ends with CANCELLED; the admission unit turns to the others' work (R382 step 2, R383). -/
def dropWaiting (s : State) (p : PartId) : State :=
  let q := s.parts[p]
  let s := updPart s p fun q => { q with snapQ := [], copyWait := none, queue := [] }
  let s := q.snapQ.foldl (fun s j => cancelJob s p j) s
  let s := q.copyWait.toList.foldl (fun s j => cancelJob s p j) s
  let s := q.queue.foldl (fun s d => endDesc s d stCancelled none 0) s
  let w := s.srv[p].waiting
  let s := admPick (updSrv s p fun v => { v with waiting := [] })
  w.foldl (fun s j => cancelJob s p j) s

/-! ### Lines of a copy (R91, R96) -/

/-- Front of a segment: its first k lines, and the rest. -/
def advLoc (l : Loc) (k : Nat) : Loc :=
  match l with
  | .hbm a => .hbm (a + 64 * k)
  | .sp q a => .sp q (a + 64 * k)
  | .remote pos q h off => .remote pos q h (off + 64 * k)

/-- Lines of a beat in order, each with its source, destination and part. -/
def beatLines (gs : List Seg) : List (Loc × Loc × Nat) :=
  gs.flatMap fun g => (List.range g.lines).map fun i => (advLoc g.src i, advLoc g.dst i, g.part)

/-- The line at a place. -/
def readLine (s : State) (l : Loc) : Line :=
  match l with
  | .hbm a => BitVec.ofNat 512 (leNat (hbmBytes s a 64))
  | .sp q a => BitVec.ofNat 512 (leNat ((List.range 64).map fun i => memByte s.squares[q].mem ((a + i) % spBytes)))
  | .remote _ _ _ _ => 0

/-- A stack or rank that the segment touches is closing (R431), or its partition resets (R384): the status of the refusal. -/
def locClosed (s : State) (l : Loc) : Nat :=
  match l with
  | .hbm a => match stackOfAddr s a with
    | some t => if domOn s (domHbm t) then 0 else stClosed
    | none => stClosed
  | .sp q _ => sqClosed s q
  | .remote _ _ _ _ => 0

/-- Parts of a descriptor that have landed and count (R95). -/
def landedParts (r : CeRun) : Nat := (r.parts.filter fun x => x.landed && !x.refused).length

/-- A beat under way in a partition that resets goes to its end: what it still has for HBM is written; its own squares refuse writes already (R95, R382 step
3, R384; log 36). -/
def finishBeat (s : State) (p : PartId) (r : CeRun) : State :=
  match r.beat with
  | none => s
  | some bt => (beatLines bt.segs).zipIdx.foldl (fun s (x, i) => match x.2.1 with
    | .hbm a =>
      if bt.done.contains i || locClosed s x.1 = stClosed || locClosed s x.2.1 ≠ 0 then s
      else
        let v : Line := match bt.got.find? (fun e => e.1 == i) with | some e => e.2 | none => readLine s x.1
        hbmWrite s p a (natLe 64 v.toNat)
    | _ => s) s

/-- What runs for p in the copy and snapshot engines ends with CANCELLED: a descriptor after its current beat, a snapshot after its page (R382 step 3). -/
def dropRunning (s : State) (p : PartId) : State :=
  let s := allCe.foldl (fun s n =>
    let c := s.ces[n]
    let mine := (c.waiting ++ c.run.toList).filter fun r => r.desc.part == p
    if mine.isEmpty then s
    else
      let runs := match c.run with | some r => r.desc.part == p | none => false
      let s := mine.foldl (fun s r => finishBeat s p r) s
      let s := updCe s n fun c =>
        { c with run := if runs then none else c.run, inForce := if runs then c.allot else c.inForce
                 waiting := c.waiting.filter fun r => r.desc.part != p }
      let s := sbRefresh s n
      mine.foldl (fun s r => endDesc s r.desc stCancelled (some r.start) (landedParts r)) s) s
  -- snapshots
  let s := match s.snp[p].job with
    | some j =>
      -- its beats will still be acknowledged, in the old epoch (R386)
      let left := j.unacked.map fun o => (j.gen, s.snp[p].gens[j.gen].genNo, o)
      let s := updSnp s p fun x =>
        { x with job := none, stale := x.stale ++ left, gens := if x.gens[j.gen].st = GenSt.open_ then x.gens.set j.gen { x.gens[j.gen] with st := .empty } else x.gens }
      let s := { s with squares := s.squares.mapFinIdx fun i q h =>
        if j.squares.getLsbD i then { q with uncapt := 0, sb := q.sb.set 32 none } else q }
      snpComplete s p j.jobId j.type.toNat stCancelled s.snp[p].gens[j.gen].genNo j.gen.val j.adjourn
    | none => s
  match s.snp[p].restore with
  | some r =>
    -- the generation that a FETCH was writing is EMPTY (R343)
    let s := updSnp s p fun x =>
      { x with restore := none
               gens := if r.fetch && x.gens[r.gen].st == GenSt.open_ then x.gens.set r.gen { x.gens[r.gen] with st := .empty } else x.gens }
    snpComplete s p r.jobId 4 stCancelled r.genNo r.gen.val s.snp[p].gens[r.gen].adjourned
  | none => s

/-- Steps 2 and 3: what waits or runs for p ends with CANCELLED. -/
def dropWork (s : State) (p : PartId) (fault : Bool) : State :=
  let q := s.parts[p]
  let s := endLaunch s p fault
  let s := updPart s p fun q => { q with launchQ := [] }
  let s := q.launchQ.foldl (fun s j => cancelJob s p j) s
  let s := dropRunning (dropWaiting s p) p
  let s := match s.parts[p].fence with
    | some f => putEntry (updPart s p fun q => { q with fence := none }) p ⟨.job, f, 7, jsCancelled, 0, 0⟩
    | none => s
  updPart s p fun q => { q with haltWait := false, resumeWait := 0, breaks := []
                                ring := { q.ring with sqHead := q.ring.tail } }

/-- Inbound endpoints with a route from partition p on this chip (step 4). -/
def routedFrom (s : State) (p : PartId) : List (SqId × Fin 32) :=
  (squaresOf s p).flatMap fun n => (List.finRange 32).filterMap fun e =>
    let r := s.squares[n].eps[e].route
    if rtValid r && !rtRemote r then some (rtDsq r, rtDep r) else none

/-- Messages of other partitions that had begun to commit in a square of p are refused, and their credits return (R384). -/
def refuseCrossing (s : State) (p : PartId) : State :=
  let own := s.parts[p].own.sq
  let hit := fun (m : Msg) => m.part != p && m.link.isNone && m.refuse.isNone && own.getLsbD m.dst.val && decide (0 < m.committed)
  let ms := s.msgs.filter hit
  let s := { s with msgs := s.msgs.map fun m => if hit m then { m with refuse := some (BitVec.ofNat 6 stCancelled) } else m }
  ms.foldl (fun s m => refuseMsg s m stCancelled) s

/-- Type and channel of a record (R280). -/
def rcType (r : Word64) : Nat := bits r 7 0
def rcLch (r : Word64) : Fin 32 := epOf (bits r 12 8)

/-- A record that carries a write of the channel's partition: MSG, FLAG, COPY, COPY2. -/
def recWrites (r : Word64) : Bool := let t := rcType r; t == 0x01 || t == 0x02 || t == 0x06 || t == 0x07

/-- What partition p has queued at a link port and has not left leaves the queue (R382 step 4); the records that stay are numbered anew. -/
def dropQueued (p : PartId) (k : Link) : Link :=
  let mine := fun (c : Fin 32) => chTx k.ch[c] && chOwner k.ch[c] == p
  let gone := fun (r : Word64) => recWrites r && mine (rcLch r)
  let before := fun (n : Nat) => ((k.txRecs.take (n - k.recsSent)).filter gone).length
  -- credits and refusals on their way to its endpoints are of the old epoch (R387)
  let back := fun (a : Arrival) => (match a.kind with | .credit _ => true | .refuse _ => true | _ => false) && chOwner k.ch[a.lch] == p
  { k with arrivals := k.arrivals.filter fun a => !back a
           txRecs := k.txRecs.filter fun r => !gone r
           txFlits := (k.txFlits.filter fun x => !mine x.lch).map fun x => { x with after := x.after - before x.after } }

/-- Step 4: messages of p are dropped, at the link ports too, SRESET is set where it sent, and its link channels announce the new epoch. What a link has
brought is no message of p: it is refused with CANCELLED (R384). -/
def dropTraffic (s : State) (p : PartId) : State :=
  let came := s.msgs.filter fun m => m.part == p && m.via.isSome && m.net != .reply && m.refuse.isNone
  let s := { s with msgs := s.msgs.filter fun m => m.part != p
                    mtch := { s.mtch with remote := s.mtch.remote.filter fun r => chOwner s.links[r.link].ch[r.lch] != p } }
  let s := { s with links := s.links.map (dropQueued p) }
  let s := came.foldl (fun s m => if m.link.isSome then refuseAtLink s m stCancelled else refuseMsg s m stCancelled) s
  let s := (routedFrom s p).foldl (fun s (n, e) => updEp (hwMark s (.chnStat n e) (1 <<< 16)) n e fun x => { x with sreset := true }) s
  let ep := (s.parts[p].epoch.toNat + 1) % 8
  allLink.foldl (fun s l => (List.finRange 32).foldl (fun s c =>
    let ch := s.links[l].ch[c]
    if chTx ch && chOwner ch == p then sendRecord s l 0x05 c ep ep else s) s) s

/-- Step 5 at one square: what squares outside `own` hold with it returns; its own credits are whole again. -/
def returnAll (s : State) (own : BitVec 64) (n : SqId) : State :=
  let s := (List.finRange 32).foldl (fun s e =>
    let ep := s.squares[n].eps[e]
    let s := ep.held.foldl (fun s h =>
      let mine := match h.src with | some (m, _) => own.getLsbD m.val | none => false
      if h.dead || mine then s else returnCredit s h.src h.link h.hops none) s
    updEp s n e fun x => { x with held := [], reserved := 0, owed := [], away := 0, freeSlots := inDepth x.inc, credits := BitVec.ofNat 5 (outCred x.outc) }) s
  { s with credits := s.credits.filter fun c => c.sq != n }

/-- Messages of the squares `own` that others hold stay, and their release returns no credit (R385). -/
def deadMessages (s : State) (own : BitVec 64) : State :=
  { s with squares := s.squares.map fun q =>
      { q with eps := q.eps.map fun x => { x with held := x.held.map fun h => match h.src with
          | some (m, _) => if own.getLsbD m.val then { h with dead := true } else h
          | none => h } } }

/-- Steps 1 to 6 of R382, in one command (log 36). -/
def quiesce (s : State) (p : PartId) (fault : Bool) : State :=
  let s := settlePart s p
  let own := s.parts[p].own.sq
  let replies := orphanReplies s own
  let s := { s with squares := s.squares.mapFinIdx fun i q _ => if own.getLsbD i then stopSquare fault q else q }
  let s := orphanGrants s p
  let s := dropWork s p fault
  let s := refuseCrossing (dropTraffic s p) p
  let s := (squaresOf s p).foldl (fun s n => returnAll s own n) s
  let s := deadMessages s own
  let s := srvDisable s p
  let s := consRun s
  let s := updPart s p fun q => { q with epoch := q.epoch + 1, launched := false }
  replies.foldl (fun s (n, r) => sendReply s n r 3 0 0 (nowCc s)) s

/-! ### Step 7 -/

/-- What the scrub leaves of a square (R382 step 7, R370): the message core's memory, handler table, watches and debug registers are not named. Its slot
tables carry the routes of other partitions too, whose work goes on (R24, R383): `clearSlots` takes its own entries out. -/
def scrubSquare (q : Square) : Square :=
  { q with
    core := coreReset, mx := mxReset
    mc := { mcReset with mem := q.mc.mem, aborts := q.mc.aborts }
    eps := Vector.replicate 32 endpointReset, mem := [], plies := [], recipes := []
    sb := Vector.replicate 33 none, hdl := [], fp := 0, uncapt := 0, turnBanks := [], accepted := 0, counted := 0 }

/-- Owner square of a mesh slot entry (`MSH_SLOT`: SRCSQ in bits [5:0], VALID in bit 31). -/
def slotSrc (r : Word32) : SqId := sqOf (bits r 5 0)

/-- A link without the channels of partition p and their frame slots and ingress routes. -/
def clearLink (p : PartId) (l : Link) : Link :=
  let mine := fun (c : Nat) => (l.ch[c]?.map chOwner).getD 0 == p && ((l.ch[c]?.map fun x => chTx x || chRx x).getD false)
  { l with
    slot := l.slot.map fun r => if bit r 31 && !bit r 5 && mine (bits r 4 0) then 0 else r
    irt := l.irt.mapFinIdx fun c x _ => if mine c then 0 else x
    irs := l.irs.mapFinIdx fun c x _ => if mine c then 0 else x
    ch := l.ch.map fun x => if chOwner x == p then 0 else x }

/-- The inbound channel whose ingress route starts at endpoint e of square n (R284). -/
def ingressOf (s : State) (n : SqId) (e : Fin 32) : Option Word64 :=
  ((allLink.find? fun l => linkSquare l == n && chRx s.links[l].ch[e])).map fun l => s.links[l].ch[e]

/-- The slot tables of the mesh without the entries of the routes that satisfy `gone`: by square and endpoint. -/
def dropSlots (s : State) (gone : SqId → Fin 32 → Bool) : State :=
  let keep := fun (r : Word32) => if bit r 31 && gone (slotSrc r) (epOf (bits r 10 6)) then (0 : Word32) else r
  { s with squares := s.squares.map fun (q : Square) => { q with slots := q.slots.map keep } }

/-- The slot tables of the mesh and of the links lose the entries of the squares and channels of p; ingress routes of other partitions that start at its
squares stay (R24, R383). -/
def clearSlots (s : State) (own : BitVec 64) (p : PartId) : State :=
  let s := dropSlots s fun n e => match ingressOf s n e with | some ch => chOwner ch == p | none => own.getLsbD n.val
  { s with links := s.links.map (clearLink p) }

/-- Step 7 of a partition reset. -/
def scrub (s : State) (p : PartId) : State :=
  let own := s.parts[p].own.sq
  let r := s.parts[p].own.res
  let s := { s with squares := s.squares.mapFinIdx fun i q _ => if own.getLsbD i then scrubSquare q else q }
  let s := if resFen r then clearFlags s (resFirst r) (resLast r) else s
  let s := clearSlots s own p
  updPart s p fun q => { q with loaded := none, st := .active }

/-! ### Faults -/

/-- Fault classes (R454). -/
def fcSquare : Nat := 0
def fcEngine : Nat := 1
def fcLink : Nat := 2
def fcClock : Nat := 3
def fcChip : Nat := 4
def fcTrip : Nat := 5

/-- A partition fault (R455, R456). `src`, `code` and `seq` name the first cause. -/
def partFault (s : State) (p : PartId) (cls : Nat) (sq : Option SqId) (src code seq : Nat) : State :=
  let q := s.parts[p]
  if q.st = .absent then s
  else
    let s := raise s srcKing (some p) 0x0901 [src, code, seq, cls]
    if q.flt.pending then s
    else
      let s := updPart (hwMark s (.fltPending p) 1) p fun q =>
        { q with flt := { pending := true, cls := BitVec.ofNat 3 cls, square := (match sq with | some n => BitVec.ofNat 6 n.val | none => 0)
                          nosq := sq.isNone, code := BitVec.ofNat 16 code } }
      -- a partition that is being reset already runs the sequence
      if q.st = .active then quiesce s p true else s

/-- Fault of one partition, its cause being the last record of a source. -/
def partFaultBy (s : State) (p : PartId) (cls : Nat) (sq : Option SqId) (src code : Nat) : State := partFault s p cls sq src code (lastSeq s src)

/-- A square fault: the partition that owns the square (R454). -/
def squareFault (s : State) (n : SqId) (code : Nat) : State :=
  match ownerSq s n with
  | some p => partFaultBy s p fcSquare (some n) (srcSq n) code
  | none => s

/-- A chip fault: every ACTIVE partition. -/
def chipFault (s : State) (src code : Nat) : State :=
  let seq := lastSeq s src
  allPart.foldl (fun s p => if s.parts[p].st = .active then partFault s p fcChip none src code seq else s) s

/-- A double-bit or parity error that a square's own access met, in the store the table of R460 names. -/
def squareError (s : State) (n : SqId) (st : Store) (loc : Nat) : State :=
  match st with
  | .registerFile => squareFault (raise s (srcSq n) (ownerSq s n) 0x0404 [4]) n 0x0404
  | .handleTable => squareFault (raise s (srcSq n) (ownerSq s n) 0x0404 [5]) n 0x0404
  | .endpointRegs => squareFault (raise s (srcSq n) (ownerSq s n) 0x0404 [6]) n 0x0404
  | .flagPool => chipFault (raise s (srcSq n) none 0x0402 [8, loc]) (srcSq n) 0x0402
  | .meshRouter => chipFault (raise s (srcSq n) none 0x0402 [9, loc]) (srcSq n) 0x0402
  | .slotTable => chipFault (raise s (srcSq n) none 0x0402 [10, loc]) (srcSq n) 0x0402
  | st => squareFault (sqUncorrected s n st loc) n 0x0402

/-- The outcome of the protected reads of a square's step: true when the step goes on. -/
def eccSquare (s : State) (n : SqId) (e : Ecc) : State × Bool :=
  match e with
  | .clean => (s, true)
  | .corrected st loc => (sqCorrected s n st loc.toNat, true)
  | .uncorrected st loc => (squareError s n st loc.toNat, false)

end Sys2Proof.Machine
end

