-- ==== Sys2Proof/Machine/Sync.lean ====
section
/-! DEFINITION. The Y-slot operations (R191 to R196) that the main schedule and the message core share: status words, flag tests, waits, sends,
releases and kicks. `main` tells the main schedule from the message core. -/

namespace Sys2Proof.Machine

/-! ### Status words (R192) -/

def ycOk : Nat := 0
def ycTimeout : Nat := 1
def ycOrphan : Nat := 2
def ycDenied : Nat := 3
def ycSenderReset : Nat := 4
def ycNoCredit : Nat := 5
def ycQfull : Nat := 6
def ycBadIndex : Nat := 7
def ycBadCount : Nat := 8

def statusWord (code : Nat) (value : Bool) (high : Nat) : Word64 := BitVec.ofNat 64 (code + 256 * bool2nat value + (high <<< 32))

/-- Opcodes that write a status word. -/
def yHasStatus (o : Nat) : Bool := !(o == 0x01 || o == 0x09)
/-- Opcodes of R191; REPLY belongs to the message core. -/
def yAssigned (main : Bool) (o : Nat) : Bool := (decide (1 ≤ o ∧ o ≤ 4) || decide (8 ≤ o ∧ o ≤ 0x0B) || o == 0x0D) || (!main && o == 0x0C)

/-- What a wait or test finds in this cycle: it completes with a code, the flag value and the high word, or it holds. -/
inductive YWait where
  | holds
  | done (code : Nat) (value : Bool) (high : Nat)
deriving DecidableEq, Repr

/-- FTEST and FWAIT on a flag by square n (R189, R194, R196, R388). `want` is VAL for a wait. -/
def flagWait (s : State) (n : SqId) (flag : Fin 8192) (want : Option Bool) : YWait :=
  let p := partOfSq s n
  let val := viewOf s n flag
  match flagRight s p flag.val false with
  | .denied => .done ycDenied false 0
  | .orphan => .done ycOrphan val 0
  | _ => match want with
    | none => .done ycOk val 0
    | some b => if val == b then .done ycOk val 0 else .holds

/-- Inbound endpoint of a handle whose sender was reset (R196). -/
def handleReset (q : Square) (h : Nat) : Bool :=
  (List.finRange 32).any fun e => inValid q.eps[e].inc && inHandle q.eps[e].inc == h && q.eps[e].sreset

/-- CWAIT (R85, R194, R196). -/
def countWait (s : State) (n : SqId) (h : Nat) (target : Word32) : YWait :=
  let q := s.squares[n]
  let c := (hdlOf q h).count
  if handleReset q h then .done ycSenderReset false c.toNat
  else if (c - target).toNat < 2 ^ 31 then .done ycOk false c.toNat
  else .holds

/-- A route that may be used: in force, with its kind. -/
def routeOk (s : State) (n : SqId) (e : Fin 32) (req : Bool) : Bool :=
  let r := s.squares[n].eps[e].route
  rtValid r && rtRequest r == req

/-- SEND or REQ has what it needs (R207, R211). -/
def canSend (s : State) (n : SqId) (e : Fin 32) (req : Bool) : Bool :=
  let q := s.squares[n]
  decide (q.eps[e].credits ≠ 0) && (!req || replySlotFree q e)

/-- What the wait of a Y slot finds in this cycle; an operation that never waits is done. -/
def yWait (s : State) (n : SqId) (main : Bool) (y : YSlot) (operand : Word64) : YWait :=
  let e := y.chan.toFin
  match y.opc.toNat with
  | 0x03 => flagWait s n y.flag.toFin (some (y.val == 1))
  | 0x04 => countWait s n y.handle.toNat (operand.extractLsb' 0 32)
  | 0x08 => if main && !canSend s n e false then .holds else .done ycOk false 0
  | 0x0B => if main && !canSend s n e true then .holds else .done ycOk false 0
  | _ => .done ycOk false 0

/-- Timeout operand of a wait, 0 for none (R191, R207). -/
def yTimeout (y : YSlot) (operand : Word64) : Nat :=
  match y.opc.toNat with
  | 0x03 => bits operand 31 0
  | 0x04 => bits operand 63 32
  | _ => 0

/-! ### Effects -/

/-- FSET by square n (R189, R197, R199, R476). -/
def doFset (s : State) (n : SqId) (main : Bool) (flag : Fin 8192) (val : Bool) : State :=
  match flagRight s (partOfSq s n) flag.val true with
  | .denied =>
    if s.squares[n].core.denied.contains flag then s
    else
      let s := updCore s n fun c => { c with denied := flag :: c.denied }
      raise s (srcSq n) (ownerSq s n) 0x040A [flag.val, bool2nat (!main)]
  | _ =>
    let s := trace s n 4 (flag.val + (bool2nat val <<< 16))
    writeFlag s flag val (nowCc s) (if main then rankMain n else rankMc n) (some n) (if main then some (n, nowCc s) else none)

/-- CFLAG by square n (R214). -/
def doCflag (s : State) (n : SqId) (main : Bool) (e : Fin 32) (flag : Fin 8192) (val : Bool) : State :=
  if rtValid s.squares[n].eps[e].route then sendCflag s n main e flag val (nowCc s) else s

/-- RECV (R192, R208, R385): with SRESET set the messages are released all the same, and the code says so (log 19). -/
def doRecv (s : State) (n : SqId) (e : Fin 32) (k : Nat) : State × Word64 :=
  let ep := s.squares[n].eps[e]
  if k = 0 ∨ ep.held.length < k then (s, statusWord ycBadCount false 0)
  else (release s n e k, statusWord (if ep.sreset then ycSenderReset else ycOk) false 0)

/-- Blocks of the copy table: descriptor of entry k, when its address lies in the partition (R193). -/
def tableDesc (s : State) (p : PartId) (l : Loaded) (k : Nat) : Line :=
  match hbmAddr s p l.copyTable.toNat (64 * (k + 1)) with
  | some a => memLine s.hbm.mem (a + 64 * k)
  | none => 0

/-- KICK (R192, R193). A double-bit error in the table read ends the copy with DATA_ERROR (log 17). -/
def doKick (s : State) (n : SqId) (k : Nat) (bad : Bool) : State × Word64 :=
  let p := partOfSq s n
  match s.parts[p].loaded with
  | none => (s, statusWord ycBadIndex false 0)
  | some l =>
    if l.copyCount ≤ k then (s, statusWord ycBadIndex false 0)
    else if resQdepth s.parts[p].own.res ≤ copyLoad s p then (s, statusWord ycQfull false 0)
    else if bad then (completeKick s p 6 (frameCycle s (nowCc s)) ((k <<< 32) + (n.val <<< 48)), statusWord ycOk false 0)
    else
      let d : Desc := { d := tableDesc s p l k, src := .kick n (BitVec.ofNat 16 k), part := p, epoch := s.parts[p].epoch, kickAt := nowCc s
                        inLaunch := s.parts[p].launched }
      (enqueue s d, statusWord ycOk false 0)

/-- SEND or REQ: nothing is sent without what it needs; on the message core the status says so (R206, R207, R211). -/
def doSend (s : State) (n : SqId) (e : Fin 32) (req : Bool) (w : Word64) : State × Word64 :=
  if !canSend s n e req || !routeOk s n e req then (s, statusWord ycNoCredit false 0)
  else if req then
    let (s, off) := sendRequest s n e w (nowCc s)
    (s, statusWord ycOk false off)
  else (sendStream s n e w (nowCc s), statusWord ycOk false 0)

/-- REPLY by the running handler; a second one, or one with no request, sends nothing (R212, log 18). -/
def doReply (s : State) (n : SqId) (w : Word64) : State × Word64 :=
  let mc := s.squares[n].mc
  match mc.trig.bind fun t => t.reply with
  | some r =>
    if mc.replied then (s, statusWord ycOk false 0)
    else
      let s := sendReply s n r 0 (sdSoff w) (sdLines w) (nowCc s)
      (updMc s n fun m => { m with replied := true }, statusWord ycOk false 0)
  | none => (s, statusWord ycOk false 0)

/-- The effect of a Y operation that issues in this cycle, and its status word. `wait` is what its test found; `timedOut` ends a wait. -/
def yOp (s : State) (n : SqId) (main : Bool) (y : YSlot) (operand : Word64) (timedOut bad : Bool) : State × Option Word64 :=
  let e := y.chan.toFin
  let flag := y.flag.toFin
  let ofWait := fun (w : YWait) => match w with
    | .done c v h => statusWord c v h
    | .holds => statusWord (if timedOut then ycTimeout else ycOk) (if y.opc.toNat = 3 then viewOf s n flag else false)
        (if y.opc.toNat = 4 then (hdlOf s.squares[n] y.handle.toNat).count.toNat else 0)
  let out := fun (r : State × Word64) => (r.1, some r.2)
  match y.opc.toNat with
  | 0x01 => (doFset s n main flag (y.val == 1), none)
  | 0x02 => (s, some (ofWait (flagWait s n flag none)))
  | 0x03 => (s, some (ofWait (flagWait s n flag (some (y.val == 1)))))
  | 0x04 => (s, some (ofWait (countWait s n y.handle.toNat (operand.extractLsb' 0 32))))
  | 0x08 => out (doSend s n e false operand)
  | 0x09 => (doCflag s n main e flag (y.val == 1), none)
  | 0x0A => out (doRecv s n e (bits operand 15 0))
  | 0x0B => out (doSend s n e true operand)
  | 0x0C => if main then (s, none) else out (doReply s n operand)
  | 0x0D => out (doKick s n (bits operand 15 0) bad)
  | _ => (s, none)

end Sys2Proof.Machine
end

