-- ==== Sys2Proof/Machine/LoadStore.lean ====
section
/-! DEFINITION. The load and store units of a square (R32, R69 to R76), its scoreboard (R77 to R79), and the landings of what is in flight (R36, R50,
R53). -/

namespace Sys2Proof.Machine

/-! ### Addresses (R32, R70, R71) -/

/-- Effective address of a load or store. -/
def effAddr (base : Word64) (off : BitVec 25) : Nat := (base.toNat + off.toNat) % spBytes

/-- Line addresses of an access of n + 1 lines. -/
def lineAddrs (ea n stride : Nat) : List Nat :=
  let a := ea / 64 * 64
  let d := if stride = 0 then 1 else stride
  (List.range (n + 1)).map fun i => (a + 64 * i * d) % spBytes

/-- Addresses and bytes at each that an L slot reads; none for an opcode that reads no scratchpad. -/
def loadAddrs (l : LSlot) (regs : Vector Word64 32) : Option (List Nat × Nat) :=
  let ea := effAddr regs[l.abase.toFin] l.off
  match l.opc.toNat with
  | 0x01 => some (lineAddrs ea l.lines.toNat l.stride.toNat, 64)
  | 0x02 => some ([ea / 8 * 8], 8)
  | _ => none

def storeAddrs (t : TSlot) (regs : Vector Word64 32) : Option (List Nat × Nat) :=
  let ea := effAddr regs[t.abase.toFin] t.off
  match t.opc.toNat with
  | 0x01 => some (lineAddrs ea t.lines.toNat t.stride.toNat, 64)
  | 0x02 => some ([ea / 8 * 8], 8)
  | _ => none

/-- An access whose lines fall more than once in one bank (R71). -/
def strideBad (lines stride : Nat) : Bool :=
  let d := if stride = 0 then 1 else stride
  decide (32 / Nat.gcd d 32 < lines + 1)

/-! ### Scoreboard (R77 to R79) -/

/-- Envelope of an access in lines: lowest and highest. -/
def envelope (addrs : List Nat) : Option (Nat × Nat) :=
  match addrs with
  | [] => none
  | a :: r => some (r.foldl (fun (lo, hi) x => (min lo (x / 64), max hi (x / 64))) (a / 64, a / 64))

def overlaps (e : Nat × Nat) (b : SbEntry) : Bool := decide (e.1 ≤ b.last ∧ b.first ≤ e.2)

/-- Guards of the L and T slots. -/
def lGuard (q : Square) (l : LSlot) : Bool := guard q.core.p l.pred l.pneg l.gen
def tGuard (q : Square) (t : TSlot) : Bool := guard q.core.p t.pred t.pneg t.gen

/-- A load overlaps an IN entry or a store any entry. -/
def scoreboardHold (q : Square) (p : Ply) : Bool :=
  let es := q.sb.toList.filterMap id
  let lo := if lGuard q p.l then (loadAddrs p.l q.core.s).bind fun a => envelope a.1 else none
  let st := if tGuard q p.t then (storeAddrs p.t q.core.s).bind fun a => envelope a.1 else none
  (match lo with | some e => es.any fun b => b.isIn && overlaps e b | none => false)
    || (match st with | some e => es.any fun b => overlaps e b | none => false)

/-- Pages of 16 KiB that a store's envelope touches. -/
def storePages (q : Square) (p : Ply) : List Nat :=
  match if tGuard q p.t then (storeAddrs p.t q.core.s).bind fun a => envelope a.1 else none with
  | some (lo, hi) => (List.range (hi / 256 + 1 - lo / 256)).map fun i => lo / 256 + i
  | none => []

/-- Uncaptured pages that a store would touch (R353). -/
def cremaPages (q : Square) (p : Ply) : List Nat := if q.uncapt = 0 then [] else (storePages q p).filter fun k => q.uncapt.getLsbD k

/-! ### Sampling and landing (R36, R73 to R76) -/

/-- The byte a buffered store gives to address a, if it covers it. -/
def chunkByte (st : BufStore) (a : Nat) : Option Byte :=
  st.chunks.findSome? fun c => if c.1 ≤ a ∧ a < c.1 + c.2.length then c.2[a - c.1]? else none

/-- Bytes a load takes at address a: the youngest of the stores issued one to three cycles before it, else SRAM. -/
def sampleByte (mem : Memory) (stores : List BufStore) (issued a : Nat) : Byte :=
  let near := stores.filter fun st => decide (st.issued < issued ∧ issued ≤ st.issued + 3)
  match near.foldl (fun best st => match chunkByte st a with
    | some b => (match best with
      | some (i, x) => if i ≤ st.issued then some (st.issued, b) else some (i, x)
      | none => some (st.issued, b))
    | none => best) (none : Option (Nat × Byte)) with
  | some (_, b) => b
  | none => memByte mem a

/-- The value a load delivers: its lines in order from the low end, zeros above (R165). -/
def sampleLoad (mem : Memory) (stores : List BufStore) (l : PendLoad) : Nat :=
  leNat (l.addrs.flatMap fun a => (List.range l.width).map fun i => sampleByte mem stores l.issued ((a + i) % spBytes))

def loadLanding (l : PendLoad) (x : Nat) : Landing :=
  match l.dest with
  | .v i => ⟨l.issued + 9, .v i (BitVec.ofNat 8192 x)⟩
  | .railA => ⟨l.issued + 9, .rail .a (BitVec.ofNat 8192 x)⟩
  | .s i => ⟨l.issued + 9, .s i (BitVec.ofNat 64 x)⟩

/-- Write one store's chunks to SRAM. -/
def commitStore (mem : Memory) (st : BufStore) : Memory := st.chunks.foldl (fun m c => memWrite m c.1 c.2) mem

def railIx (r : Rail) : Fin 4 := match r with | .a => 0 | .b => 1 | .c => 2 | .d => 3

/-- Apply one landing. -/
def landOne (q : Square) (l : Landing) : Square :=
  match l.val with
  | .s i x => { q with core := { q.core with s := q.core.s.set i x } }
  | .p i x => { q with core := { q.core with p := q.core.p.set i x } }
  | .v i x => { q with core := { q.core with v := q.core.v.set i x } }
  | .rail r x => { q with core := { q.core with rails := q.core.rails.set (railIx r) (some (l.due, x)) } }
  | .stat es => { q with mx := { q.mx with stat := es.foldl (fun m e => sset 0 m e.1 e.2) q.mx.stat } }
  | .seg t => { q with mx := { q.mx with seg := t } }

/-- Everything that happens to a square's operations at the start of unstalled cycle u, before a ply issues: stores of u − 4 commit, loads of u − 1
sample, results due land (R36, R73, R74). -/
def beginCycle (q : Square) (u : Nat) : Square :=
  let c := q.core
  let done := c.stores.filter fun st => decide (st.issued + 4 ≤ u)
  -- loads sample before the stores that are younger than they are leave the buffer
  let now := c.loads.filter fun l => decide (l.issued + 1 ≤ u)
  let old := done.filter fun st => now.all fun l => decide (st.issued + 4 ≤ l.issued + 1)
  let mem1 := old.foldl commitStore q.mem
  let landed := now.map fun l => loadLanding l (sampleLoad mem1 c.stores l)
  let mem := (done.filter fun st => !old.contains st).foldl commitStore mem1
  let flight := c.flight ++ landed
  let q := { q with mem := mem
                    core := { c with stores := c.stores.filter fun st => !decide (st.issued + 4 ≤ u)
                                     loads := c.loads.filter fun l => !decide (l.issued + 1 ≤ u)
                                     flight := flight.filter fun l => !decide (l.due ≤ u) } }
  (flight.filter fun l => decide (l.due ≤ u)).foldl landOne q

/-- What is due at the start of a square's next unstalled cycle, in phase A of frame cycle cc: of the phase-B writes of cc it sees none, and they come
after its own (R66). -/
def beginNow (cc : Nat) (q : Square) : Square :=
  if q.turnAt = cc + 1 then
    let r := beginCycle { q with mem := q.memA } q.core.u
    { r with memA := r.mem, mem := q.bWrites.foldl (fun m c => memWrite m c.1 c.2) r.mem }
  else beginCycle q q.core.u

/-- The value on a rail position in cycle u (R53). -/
def railAt (c : Core) (r : Rail) (u : Nat) : Option VReg :=
  match c.rails[railIx r] with
  | some (d, x) => if d = u then some x else none
  | none => none

/-- Nothing of the square is in flight. -/
def idleFlight (c : Core) : Bool := c.flight.isEmpty && c.loads.isEmpty && c.stores.isEmpty

/-! ### Issue of the L and T slots -/

/-- The load of a ply issued in cycle u. -/
def issueLoad (q : Square) (l : LSlot) (u : Nat) : Option PendLoad :=
  if !lGuard q l then none
  else (loadAddrs l q.core.s).map fun (as, w) =>
    { issued := u, addrs := as, width := w
      dest := if l.opc.toNat = 2 then .s l.vd.toFin else if l.dest == 1 then .railA else .v l.vd.toFin }

/-- The store of a ply issued in cycle u; `src` are the bytes of the source that SRC names. -/
def issueStore (q : Square) (t : TSlot) (u src : Nat) : Option BufStore :=
  if !tGuard q t then none
  else match storeAddrs t q.core.s with
    | some (as, w) =>
      let x := if t.opc.toNat = 2 then q.core.s[t.vs.toFin].toNat else src
      some { issued := u, chunks := as.mapIdx fun i a => (a, natLe w (x / 2 ^ (8 * w * i))) }
    | none => none

end Sys2Proof.Machine
end

