-- ==== Sys2Proof/Machine/Encoding.lean ====
section
/-! DEFINITION. What the loader checks of a ply image (R28 to R31, R35, R37, R40, R42, R60, R69, R71, R99, R115, R119, R139 to R148, R152, R165, R166,
R171, R177, R191): encodings, blocks, collisions. -/

namespace Sys2Proof.Machine

/-! ### Encodings (LOAD_ENCODING) -/

/-- Immediate bits that a scalar row names (R33, R34). -/
def sImmBits (o : Nat) : Nat :=
  if o = 0x33 ∨ o = 0x46 ∨ o = 0x47 ∨ (0x11 ≤ o ∧ o ≤ 0x15) then 64
  else if 0x16 ≤ o ∧ o ≤ 0x18 then 6
  else if o = 0x19 then 3
  else if o = 0x54 then 1
  else if 0xF0 ≤ o ∧ o ≤ 0xF6 then 13
  else 0

def sLegal (s : SSlot) : Bool :=
  sNop s || (s.opc != 0 && s.res == 0 && (scalarAssigned s.opc || isBranchOpc s.opc)
    && decide (s.imm.toNat / 2 ^ sImmBits s.opc.toNat = 0)
    && !(decide (0x40 ≤ s.opc.toNat ∧ s.opc.toNat ≤ 0x5F) && decide (8 ≤ s.dst.toNat)))

/-- A recipe that a RECIPE may name (R177): n is its entry. A source field that its step does not use (R175) is not in R177's list and is not looked at
(DESIGN CHOICE, log 115). -/
def recipeLegal (rcp : Sparse Word128) (n : Nat) (f : Fmt) : Bool :=
  let steps := recipeSteps rcp 32 n
  let srcOk := fun (c : Nat) => decide (c < 12)
  decide (n + steps.length ≤ 1024)
    && (match steps.getLast? with | some st => st.last | none => false)
    && (steps.any fun st => st.dst == 0)
    && steps.all fun st => decide (1 ≤ st.sop ∧ st.sop ≤ 0x14) && srcOk st.sa && srcOk st.sb && srcOk st.sc
        && (st.dst == 0 || decide (4 ≤ st.dst ∧ st.dst ≤ 11)) && rcpFmtOk st.sop f

/-- Values that one register holds in a conversion: a PB28 block counts 32 (R172). -/
def cvtCount (vt : Variant) (f : Fmt) : Nat := if f = .pb28 then vBits vt / 512 * 32 else vBits vt / fmtBits f

/-- The immediate of CVT (R116, R171, R172). -/
def cvtLegal (vt : Variant) (f : Fmt) (imm : Nat) : Bool :=
  match fmtOf (field imm 0 4) with
  | none => false
  | some t =>
    let a := cvtCount vt f
    let b := cvtCount vt t
    decide (field imm 4 3 < 5) && !(f == .pb28 && t == .pb28) && !(f == .pb28 && fmtIsInt t) && !(t == .pb28 && fmtIsInt f)
      && decide (field imm 7 4 < max a b / min a b) && decide (imm / 2 ^ 19 = 0)

/-- Immediate bits that a V row uses (R166). -/
def vImmBits (o : Nat) : Nat :=
  if 0x14 ≤ o ∧ o ≤ 0x16 then 6
  else if o = 0x20 then 3
  else if o = 0x21 then 5
  else if o = 0x28 ∨ o = 0x2D then 32
  else if o = 0x2B ∨ o = 0x3D then 12
  else 0

def vLegal (vt : Variant) (rcp : Sparse Word128) (v : VSlot) : Bool :=
  let o := v.opc.toNat
  vNop v || (match fmtOf v.fmt.toNat with
    | none => false
    | some f =>
      v.opc != 0 && v.res == 0 && vAssigned o && vFmtOk o f && decide (v.imm.toNat / 2 ^ vImmBits o = 0)
        && (vWritesV o || v.rout == 0) && (o != 0x2D || cvtLegal vt f v.imm.toNat) && (o != 0x40 || recipeLegal rcp v.rcp.toNat f))

/-- Bytes that an M source offers (R140). -/
def mSourceBytes (vt : Variant) (code : Nat) : Nat := if code = 1 then 1024 else vBits vt / 8

/-- Chunks of an array operand from the lowest to the highest group named, in bytes (R138). -/
def mArrayBytes (f : Fmt) (gs : List Nat) (chunk : Nat) : Nat :=
  match gs.head?, gs.getLast? with
  | some lo, some hi => if f = .pb28 then 4 * (hi - lo + 1) * 64 else 16 * (hi - lo + 1) * chunk
  | _, _ => 0

/-- Chunks of a group operand in bytes (R137). -/
def mGroupBytes (f : Fmt) (gs : List Nat) (chunk : Nat) : Nat :=
  match gs.getLast? with
  | some hi => if f = .pb28 then 64 else (hi + 1) * chunk
  | none => 0

/-- The chunks an operation takes lie in its sources (R139, R140). -/
def mFits (vt : Variant) (m : MSlot) (fa fb : Fmt) : Bool :=
  let gs := mNamed vt m.gmask
  let ok := fun (code bytes : Nat) => code == 3 || decide (bytes ≤ mSourceBytes vt code)
  let a := m.srca.toNat
  let b := m.srcb.toNat
  match m.opc.toNat with
  | 0x01 => ok a (mGroupBytes fa gs (mChunk fa)) && ok b (mArrayBytes fb gs (mChunk fb))
  | 0x02 => ok a (mArrayBytes fa gs (mChunk fa)) && ok b (mArrayBytes fb gs (mChunk fb))
  | 0x03 => ok a (mGroupBytes fa gs (mChunk fa))
  | 0x04 => ok a (mArrayBytes .int8 gs 32)
  | _ => true

/-- Read-out fields (R143, R146). -/
def mReadLegal (vt : Variant) (m : MSlot) : Bool :=
  let o := m.opc.toNat
  let imm := m.imm.toNat
  if o = 0x06 ∨ o = 0x0A ∨ m.rdo == 1 then
    match fmtOf (mOfmt imm) with
    | none => false
    | some f =>
      let n := mReadCount vt f (if o = 0x0A then 16 else mArrays vt)
      f != .pb28 && decide (mRbase imm % max 1 n = 0)
  else true

def mLegal (vt : Variant) (class22 : Bool) (m : MSlot) : Bool :=
  let o := m.opc.toNat
  let imm := m.imm.toNat
  mNop m || (match fmtOf m.fmta.toNat, fmtOf m.fmtb.toNat with
    | some fa, some fb =>
      m.opc != 0 && m.res == 0 && mAssigned class22 o && decide (m.srca.toNat < 4) && decide (m.srcb.toNat < 4)
        && !(m.srca == 3 && m.srcb == 3) && decide (m.rnd.toNat < 5)
        && (match vt with | .m => true | .v => decide (m.gmask.toNat < 16))
        && (decide (1 ≤ o ∧ o ≤ 3) || m.rdo == 0) && (decide (1 ≤ o ∧ o ≤ 3) || decide (6 ≤ o ∧ o ≤ 8) || m.clr == 0)
        && (!class22 || m.acc == 0)
        && (!(decide (1 ≤ o ∧ o ≤ 3)) || mPairOk fa fb)
        && (o == 0x09 || (decide (imm / 2 ^ 29 = 0) && (fmtOf (mOfmt imm)).isSome))
        && (o != 0x09 || (decide (imm / 2 ^ 25 = 0) && !(class22 && mSet imm == 1)))
        && !(o == 0x02 && fa != .b64 && mAnchor imm != 0)
        && mReadLegal vt m && mFits vt m fa fb
    | _, _ => false)

def lLegal (vt : Variant) (l : LSlot) : Bool :=
  lNop l || (l.res == 0 && (fmtOf l.fmt.toNat).isSome && (match l.opc.toNat with
    | 0x01 => !strideBad l.lines.toNat l.stride.toNat && (l.dest == 1 || decide (64 * (l.lines.toNat + 1) ≤ vBits vt / 8))
    | 0x02 => l.lines == 0 && l.stride == 0
    | _ => false))

def tLegal (vt : Variant) (t : TSlot) : Bool :=
  tNop t || (t.res == 0 && t.res41 == 0 && t.res47 == 0 && t.src != 3 && (fmtOf t.fmt.toNat).isSome && (match t.opc.toNat with
    | 0x01 => !strideBad t.lines.toNat t.stride.toNat && (t.src != 0 || decide (64 * (t.lines.toNat + 1) ≤ vBits vt / 8))
    | 0x02 => t.lines == 0 && t.stride == 0 && t.src == 0
    | _ => false))

/-- Fields that a Y row does not use are zero (R191). -/
def yLegal (y : YSlot) : Bool :=
  let o := y.opc.toNat
  let flag := decide (o = 1 ∨ o = 2 ∨ o = 3 ∨ o = 9)
  let val := decide (o = 1 ∨ o = 3 ∨ o = 9)
  let sreg := !(decide (o = 1 ∨ o = 9))
  let chan := decide (8 ≤ o ∧ o ≤ 0x0B)
  yNop y || (y.opc != 0 && y.res == 0 && yAssigned true o && (flag || y.flag == 0) && (val || y.val == 0) && (sreg || y.sreg == 0)
    && (chan || y.chan == 0) && (o == 4 || y.handle == 0))

/-- A ply as R28, R30 and R31 and the rows of its opcodes allow it. -/
def plyLegal (vt : Variant) (class22 : Bool) (rcp : Sparse Word128) (p : Ply) : Bool :=
  p.hdr.res == 0 && sLegal p.s && vLegal vt rcp p.v && mLegal vt class22 p.m && lLegal vt p.l && tLegal vt p.t && yLegal p.y

/-! ### Handler code (R34, R69, R191) -/

/-- A message-core instruction as its form allows it: scalar operations of R34, Y forms of R191, LD.S, LD.P, ST.S and ST.P of R69; unused bits are zero. -/
def mcLegal (w : Word128) : Bool :=
  let high := fun (n : Nat) => decide ((w.toNat % 2 ^ 126) / 2 ^ n = 0)
  match decodeMc w with
  | .s x => high 96 && sLegal x
  | .y y => high 48 && (yLegal y || (y.opc == 0x0C && y.res == 0 && y.flag == 0 && y.val == 0 && y.chan == 0 && y.handle == 0))
  | .l l => high 80 && (lNop l || (l.res == 0 && (fmtOf l.fmt.toNat).isSome && (l.opc == 0x02 || (l.opc == 0x12 && l.dest == 0))
      && l.lines == 0 && l.stride == 0))
  | .t t => high 80 && (tNop t || (t.res == 0 && t.res41 == 0 && t.res47 == 0 && (fmtOf t.fmt.toNat).isSome && (t.opc == 0x02 || t.opc == 0x12) && t.lines == 0
      && t.stride == 0 && t.src == 0))

/-- Instructions that can follow one at index pc: the next, a branch target, none after HALT. -/
def mcFollow (w : Word128) (pc : Nat) : List Nat :=
  match decodeMc w with
  | .s x =>
    let next := if (x.opc == 0xF0 || x.opc == 0xFF) && x.gen == 0 then [] else [(pc + 1) % 4096]
    if isBranchOpc x.opc && x.opc != 0xFF then ((branchTarget x).toNat % 4096) :: next else next
  | _ => [(pc + 1) % 4096]

/-- Every instruction that can be reached from the indices `todo` passes `ok`; `seen` are those already checked, `fuel` bounds the visits. -/
def handlerAll (ok : Word128 → Bool) (m : Memory) : Nat → List Nat → BitVec 4096 → Bool
  | 0, _, _ => true
  | _, [], _ => true
  | fuel + 1, pc :: todo, seen =>
    if seen.getLsbD pc then handlerAll ok m fuel todo seen
    else
      let w := BitVec.ofNat 128 (memNat m (16 * pc) 16)
      ok w && handlerAll ok m fuel (mcFollow w pc ++ todo) (seen ||| BitVec.ofNat 4096 (1 <<< pc))

/-! ### Blocks (LOAD_BLOCK) and collisions (LOAD_COLLISION) -/

/-- What a result lands in. -/
inductive Target where
  | s (i : Nat)
  | p (i : Nat)
  | v (i : Nat)
  | rail (r : Rail)
  /-- A store's commit, a stationary entry, the segment table: no register of R37. -/
  | other
deriving DecidableEq, Repr

/-- Landings of a ply by latency, whatever its guards (R29, R45). -/
def plyLandings (vt : Variant) (class22 : Bool) (rcp : Sparse Word128) (p : Ply) : List (Target × Nat) :=
  let so := p.s.opc.toNat
  let s := if !scalarAssigned p.s.opc then []
    else if 0x40 ≤ so ∧ so ≤ 0x5F then [(Target.p (p.s.dst.toNat % 8), scalarLatency p.s.opc)]
    else [(Target.s p.s.dst.toNat, scalarLatency p.s.opc)]
  let vo := p.v.opc.toNat
  let vn := vLatency vt vo (recipeSteps rcp 32 p.v.rcp.toNat).length
  let v := if vNop p.v then []
    else if vWritesV vo then
      (Target.v p.v.vd.toNat, vn) :: (if p.v.rout == 1 then [(Target.rail (if p.v.stage == 1 then .d else .b), vn)] else [])
    else [(Target.s p.v.sdst.toNat, vn)]
  let mo := p.m.opc.toNat
  let m := if mNop p.m then []
    else if mo = 0x04 ∨ mo = 0x05 then [(Target.other, 4)]
    else if p.m.rdo == 1 ∨ (6 ≤ mo ∧ mo ≤ 8) ∨ mo = 0x0A then [(Target.rail .c, mLatency class22)]
    else []
  let l := match p.l.opc.toNat with
    | 0x01 => [(if p.l.dest == 1 then Target.rail .a else Target.v p.l.vd.toNat, 9)]
    | 0x02 => [(Target.s p.l.vd.toNat, 9)]
    | _ => []
  let t := if tNop p.t then [] else [(Target.other, 4)]
  let y := if yAssigned true p.y.opc.toNat && yHasStatus p.y.opc.toNat then [(Target.s p.y.sreg.toNat, 1)] else []
  s ++ v ++ m ++ l ++ t ++ y

/-- Groups an accumulating operation occupies and for how long (R148). -/
def plyGroups (vt : Variant) (class22 : Bool) (p : Ply) : List (Nat × Nat) :=
  let o := p.m.opc.toNat
  if 1 ≤ o ∧ o ≤ 3 then
    match fmtOf p.m.fmta.toNat with
    | some f => (mNamed vt p.m.gmask).map fun g => (g, mInterval class22 f)
    | none => []
  else []

/-- A block as the checks see it: offsets count from its first ply. -/
structure Block where
  start : Nat
  len : Nat
  ended : Bool
  /-- Issue offset, target and landing offset. -/
  lands : List (Nat × Target × Nat)
  /-- Group, issue offset and end of its interval. -/
  uses : List (Nat × Nat × Nat)
  quiet : List Nat
  next : List Nat
deriving DecidableEq, Repr

/-- Plies from an index to the end of their block. -/
def blockPlies : List Ply → List Ply
  | [] => []
  | p :: r => if p.hdr.endB == 1 then [p] else p :: blockPlies r

def mkBlock (vt : Variant) (class22 : Bool) (rcp : Sparse Word128) (img : List Ply) (start : Nat) : Block :=
  let ps := blockPlies (img.drop start)
  let z := ps.zipIdx
  let last := ps.getLast?
  let n := ps.length
  let next := match last with
    | some p =>
      let o := p.s.opc.toNat
      (if isBranchOpc p.s.opc && o != 0xFF then [(branchTarget p.s).toNat] else []) ++ (if o = 0xF0 ∨ o = 0xFF then [] else [start + n])
    | none => []
  { start := start, len := n, ended := (match last with | some p => p.hdr.endB == 1 | none => false)
    lands := z.flatMap fun (p, i) => (plyLandings vt class22 rcp p).map fun (t, n) => (i, t, i + n)
    uses := z.flatMap fun (p, i) => (plyGroups vt class22 p).map fun (g, n) => (g, i, i + n)
    quiet := z.filterMap fun (p, i) => if p.hdr.haltOk == 1 then some i else none
    next := next }

/-- Ply indices at which a block starts (R40). -/
def blockStarts (img : List Ply) : List Nat :=
  let z := img.zipIdx
  let after := z.filterMap fun (p, i) => if p.hdr.endB == 1 ∧ i + 1 < img.length then some (i + 1) else none
  let targets := z.filterMap fun (p, _) => if isBranchOpc p.s.opc && p.s.opc != 0xFF then some (branchTarget p.s).toNat else none
  (List.range img.length).filter fun i => i == 0 || after.contains i || targets.contains i

/-- R40: branches and HALT only at a block end, unguarded, to a ply of the image. -/
def branchLegal (img : List Ply) : Bool :=
  img.all fun p => !isBranchOpc p.s.opc
    || (p.hdr.endB == 1 && p.s.gen == 0 && (p.s.opc == 0xFF || decide ((branchTarget p.s).toNat < img.length)))

/-- R42 inside one block: a quiet point exists, and nothing issued before it lands at or after it. A last run of plies with no END is no block
(DESIGN CHOICE, log 94). -/
def quietLegal (b : Block) : Bool :=
  b.ended && !b.quiet.isEmpty && b.quiet.all fun q => b.lands.all fun (i, _, d) => !(decide (i < q) && decide (q ≤ d))

/-- Two of these land together in one register or rail position. -/
def landsTwice : List (Nat × Target × Nat) → Bool
  | [] => false
  | (_, t, d) :: r => (t != .other && r.any fun (_, t', d') => t == t' && d == d') || landsTwice r

/-- A group is named again inside its interval. -/
def groupTwice (uses : List (Nat × Nat × Nat)) : Bool :=
  uses.any fun (g, i, e) => uses.any fun (g', i', _) => g == g' && decide (i < i' ∧ i' < e)

/-- What a block hands on: landings and busy groups at or after the start of the next block, seven cycles after its last ply (R39, R41). -/
def handOn (b : Block) (fl : List (Target × Nat)) (busy : List (Nat × Nat)) : List (Target × Nat) × List (Nat × Nat) :=
  let w := b.len + 6
  (fl.filterMap (fun (t, d) => if w ≤ d then some (t, d - w) else none), busy.filterMap (fun (g, e) => if w < e then some (g, e - w) else none))

/-- What is in flight from one block meets each block that can follow: 0 none, 1 a quiet point breaks R42, 2 a collision breaks R37 or R148. -/
def followBlocks (blocks : List Block) : Nat → List Nat → List (Target × Nat) → List (Nat × Nat) → Nat
  | 0, _, _, _ => 0
  | fuel + 1, next, fl, busy =>
    if fl.isEmpty && busy.isEmpty then 0
    else next.foldl (fun r n =>
      match blocks.find? fun b => b.start == n with
      | none => r
      | some b =>
        let q := if b.quiet.any fun q => fl.any fun (_, d) => decide (q ≤ d) then 1 else 0
        let c := if (fl.any fun (t, d) => t != .other && b.lands.any fun (_, t', d') => t == t' && d == d')
            || (busy.any fun (g, e) => b.uses.any fun (g', i, _) => g == g' && decide (i < e)) then 2 else 0
        let (fl', busy') := handOn b fl busy
        let deep := followBlocks blocks fuel b.next fl' busy'
        max r (max (if q ≠ 0 then 1 else 0) (max c deep))) 0

/-- The block checks over an image: 0, LOAD_BLOCK 9, LOAD_COLLISION 10. A path holds nothing in flight after 40 cycles, so six blocks suffice. -/
def imageCheck (vt : Variant) (class22 : Bool) (rcp : Sparse Word128) (img : List Ply) (entry : Nat) : Nat :=
  let blocks := (blockStarts img).map (mkBlock vt class22 rcp img)
  let follow := blocks.map fun b =>
    let (fl, busy) := handOn b (b.lands.map fun (_, t, d) => (t, d)) (b.uses.map fun (g, _, e) => (g, e))
    (followBlocks blocks 7 b.next fl busy)
  let entryOk := match img[entry]? with | some p => p.hdr.haltOk == 1 | none => false
  if !branchLegal img || !(blocks.all quietLegal) || !entryOk || follow.contains 1 then 9
  else if (blocks.any fun b => landsTwice b.lands || groupTwice b.uses) || follow.contains 2 then 10
  else 0

end Sys2Proof.Machine
end

