-- ==== Sys2Proof/Machine/Issue.lean ====
section
/-! DEFINITION. The control core of a square (R26 to R59): the cycle in which a ply issues or is held, throttled cycles, timeouts, halts, DONE. -/

namespace Sys2Proof.Machine

/-! ### Throttle (R449 to R453) -/

/-- Duty in force: the smaller of the scheduled duty and every emergency duty. -/
def dutyOf (s : State) : Nat :=
  let four := fun (b : Bool) => if b then 4 else 8
  min s.thermal.schedDuty.val (min s.thermal.junctionDuty.val
    (min (four s.thermal.hbmEmerg) (min (four s.avs.stuck) (min (four s.avs.alert) (four s.avs.limit)))))

/-- The present cycle is frozen by the throttle. -/
def frozen (s : State) : Bool := decide (dutyOf s ≤ nowCc s % 8)

/-! ### The square's turn -/

/-- The square runs a program, whether or not it has had its turn in this cycle. -/
def sqLive (s : State) (n : SqId) : Bool :=
  let c := s.squares[n].core
  s.clk.frameOn && sqOn s n && (c.st == .running || c.st == .stalled)
    && (match ownerSq s n with | some p => s.parts[p].st == .active | none => false)

/-- The square runs a program and has not had its turn in this cycle. -/
def sqReady (s : State) (n : SqId) : Bool := sqLive s n && s.squares[n].core.lastCc != some (nowCc s)

/-- Phase B of this cycle has read the square, and a store of it would still have to commit in phase A: its turn comes too late (R66, log 99). -/
def missedA (s : State) (n : SqId) : Bool :=
  let q := s.squares[n]
  phaseB s n && q.readB && q.core.stores.any fun st => decide (st.issued + 4 ≤ q.core.u)

/-- Square n with what is due at the start of this cycle done (R36, R66). -/
def begun (s : State) (n : SqId) : State := updSq s n (beginNow (nowCc s))

def plyAt (q : Square) : Ply := decodePly (sget 0 q.plies q.core.idx.toNat)

/-- A halt request takes effect in front of this ply (R43, R346). -/
def haltsHere (c : Core) (p : Ply) : Bool :=
  c.empty == 0 && !c.ending && p.hdr.haltOk == 1 && (c.haltReq || (match c.sealTag with
    | some (t, m) => p.hdr.tag &&& m == t &&& m
    | none => false))

/-- Every other square of the partition a break of square n reaches by broadcast (R472). -/
def castBreak (s : State) (n : SqId) : State :=
  if !s.squares[n].dbg.bcast then s
  else match ownerSq s n with
    | some p => updPart s p fun q => { q with breaks := q.breaks ++ [(n, nowCc s, q.own.sq &&& ~~~(BitVec.ofNat 64 (1 <<< n.val)))] }
    | none => s

/-- The partition is at a snapshot point: a halt request waits for its end (R474). -/
def atSnapshotPoint (s : State) (p : PartId) : Bool :=
  match s.snp[p].job with
  | some j => j.phase == .halting || j.phase == .draining || j.phase == .pause
  | none => false

/-- The partition that owns square n is at a snapshot point. -/
def sqAtPoint (s : State) (n : SqId) : Bool := match ownerSq s n with | some p => atSnapshotPoint s p | none => false

/-- A halt request reaches a square that runs (R43): in a snapshot point it waits for the end of the point (R474). -/
def askHalt (late : Bool) (c : Core) : Core := if late then { c with haltLate := true } else { c with haltReq := true }

/-- A break of square n fires (R471): HIT, BREAK, halt request. `kind` 0 count, 1 tag. -/
def fireBreak (s : State) (n : SqId) (kind : Nat) : State :=
  let late := sqAtPoint s n
  let s := updSq (hwMark s (.dbgHit n) 1) n fun q => { q with dbg := { q.dbg with hit := true }, core := askHalt late q.core }
  let c := s.squares[n].core
  castBreak (raise s (srcSq n) (ownerSq s n) 0x0409 [c.idx.toNat, c.plyCount.toNat, kind]) n

/-- The tag test of the ply in front: it breaks once (R471, R474). -/
def testTag (s : State) (n : SqId) (p : Ply) : State :=
  let q := s.squares[n]
  if !q.core.skipBreak && q.dbg.tagEn && (p.hdr.tag &&& q.dbg.tagMask == q.dbg.tagVal &&& q.dbg.tagMask) then
    fireBreak (updCore s n fun c => { c with skipBreak := true }) n 1
  else s

/-! ### Slots -/

/-- Latched Lungo conditions of square n: none outside a Lungo partition (R255 to R265). -/
def lungoCtx (s : State) (n : SqId) : Option LungoCtx :=
  match ownerSq s n with
  | some p => if s.parts[p].result = 2 then
      some ⟨s.lungo.ranks.getLsbD (rankIx n).val, s.lungo.effective.toNat, s.parts[p].lgoQLatched.toNat⟩ else none
  | none => none

/-- What an M or T operation reads on a rail position: the value present in cycle u, else one the spec leaves open (R53, R54; log 20). -/
def railRead (q : Square) (r : Rail) (u : Nat) : Nat :=
  match railAt q.core r u with
  | some x => x.toNat
  | none => Config.openSource (railIx r).val q.core.plyCount.toNat % 2 ^ 8192

/-- What a V operation reads on a rail position: zero bytes where no value is present (R163). -/
def railOrZero (q : Square) (r : Rail) (u : Nat) : Nat := match railAt q.core r u with | some x => x.toNat | none => 0

/-- The V slot at issue: landings and status. -/
def issueV (vt : Variant) (q : Square) (v : VSlot) (u : Nat) : List Landing × Fp :=
  let o := v.opc.toNat
  match fmtOf v.fmt.toNat with
  | none => ([], 0)
  | some f =>
    if !vAssigned o || !vFmtOk o f || !guard q.core.p v.pred v.pneg v.gen then ([], 0)
    else
      let rail : Rail := if v.stage == 1 then .c else .a
      let a := if v.rin == 1 then railOrZero q rail u % 2 ^ vBits vt else q.core.v[v.va.toFin].toNat
      let args : VArgs := { variant := vt, a := a, b := q.core.v[v.vb.toFin].toNat, d := q.core.v[v.vd.toFin].toNat
                            mask := q.core.v[(v.imm.extractLsb' 0 5).toFin].toNat, s := q.core.s[v.sdst.toFin], imm := v.imm.toNat }
      let steps := recipeSteps q.recipes 32 v.rcp.toNat
      let due := u + vLatency vt o steps.length
      if vWritesV o then
        let r := if o = 0x40 then vRecipe steps f args else vOp o f args
        let x := BitVec.ofNat 8192 r.1
        let out : Rail := if v.stage == 1 then .d else .b
        (⟨due, .v v.vd.toFin x⟩ :: (if v.rout == 1 then [⟨due, .rail out x⟩] else []), r.2)
      else
        let r := vReduce o f args
        ([⟨due, .s v.sdst.toFin r.1⟩], r.2)

/-- Bytes of an M source; an absent rail, and the stationary store as the source of a segment table, give the free value (log 20). -/
def mSource (q : Square) (code : BitVec 3) (reg : BitVec 5) (u : Nat) : Nat :=
  match code.toNat with
  | 0 => railRead q .b u
  | 1 => railRead q .a u
  | 2 => q.core.v[reg.toFin].toNat
  | _ => Config.openSource 4 q.core.plyCount.toNat % 2 ^ 8192

/-- The M slot at issue (R142 to R160): the engine, landings, status and predictor counts; deviations of folds are counted. -/
def issueM (s : State) (n : SqId) (m : MSlot) (u : Nat) : State × List Landing :=
  let q := s.squares[n]
  let c22 := sqClass22 s n
  if !mAssigned c22 m.opc.toNat || !guard q.core.p m.pred m.pneg m.gen then (s, [])
  else
    let x : MCtx := { variant := s.fuses.variant, class22 := c22, lungo := lungoCtx s n, srcA := mSource q m.srca m.va u
                      srcB := mSource q m.srcb m.vb u, draw := s.free, u := u, cc := nowCc s }
    let s := if x.lungo.isSome then { s with free := s.free + 16384 } else s
    let (r, f) := mOp q.mx x m
    let s := updSq (setFp s n r.fp) n fun q =>
      { q with mx := r.mx, cupSeen := q.cupSeen + BitVec.ofNat 64 r.seen, cupAdmit := q.cupAdmit + BitVec.ofNat 64 r.admitted }
    (foldReport s n f, r.lands)

/-- Bytes of a store's source (R54, R69). -/
def tSource (q : Square) (t : TSlot) (u : Nat) : Nat :=
  match t.src.toNat with
  | 0 => q.core.v[t.vs.toFin].toNat
  | 1 => railRead q .d u
  | _ => railRead q .c u

/-! ### Issue -/

/-- The partition is at a block-trace point: the first ply of a block issues (R476). -/
def traceBlock (s : State) (n : SqId) : State :=
  let c := s.squares[n].core
  if c.blockStart then trace s n 1 (c.idx.toNat + ((c.plyCount.toNat % 2 ^ 48) <<< 16)) else s

/-- The operand of a Y slot. -/
def yOperand (q : Square) (y : YSlot) : Word64 := q.core.s[y.sreg.toFin]
def yGuard (q : Square) (y : YSlot) : Bool := y.opc != 0 && guard q.core.p y.pred y.pneg y.gen

/-- Issue the ply in front with all its slots (R36, R39, R40, R47, R59). The square has begun its cycle. Without a taken branch the next index follows,
modulo 2^13, past the end of the image too (log 95). -/
def issuePly (s : State) (n : SqId) (p : Ply) (timedOut bad : Bool) : State :=
  let q := s.squares[n]
  let u := q.core.u
  let wasHeld := q.core.st == .stalled
  let s := traceBlock s n
  let s := if wasHeld then trace s n 2 (q.core.stall.toNat + 8) else s
  -- sources of every slot are those of the start of the cycle
  let sOn := p.s.opc != 0 && guard q.core.p p.s.pred p.s.pneg p.s.gen && scalarAssigned p.s.opc
  let sr := if sOn then scalarOp p.s q.core.s q.core.p else .none
  let (vl, vf) := issueV s.fuses.variant q p.v u
  let (s, ml) := issueM s n p.m u
  let ld := issueLoad q p.l u
  let st := issueStore q p.t u (tSource q p.t u)
  let (s, word) := if yGuard q p.y && yAssigned true p.y.opc.toNat then yOp s n true p.y (yOperand q p.y) timedOut bad else (s, none)
  let yl := match word with | some w => [(⟨u + 1, .s p.y.sreg.toFin w⟩ : Landing)] | none => []
  let isEnd := p.hdr.endB == 1
  let next := if branchTaken p.s q.core.s q.core.p then branchTarget p.s else q.core.idx + 1
  let s := updSq (setFp s n (vf ||| sFlags sr)) n fun q =>
    { q with
      core := { q.core with
        flight := q.core.flight ++ sLanding p.s sr u ++ vl ++ ml ++ yl
        loads := q.core.loads ++ ld.toList, stores := q.core.stores ++ st.toList
        st := .running, stall := 0, held := 0, wdog := 0, u := u + 1, lastCc := some (nowCc s)
        plyCount := q.core.plyCount + 1, idx := next
        empty := if isEnd then 6 else 0, blockStart := isEnd, ending := isEnd && p.s.opc == 0xFF
        skipBreak := false, haltReq := q.core.haltReq || q.core.stepReq, stepReq := false } }
  let q := s.squares[n]
  if q.dbg.cntEn && q.core.plyCount == q.dbg.plyBrk then fireBreak s n 0 else s

/-- A cycle in which issue is held (R48, R50, R79, R353). -/
def holdPly (s : State) (n : SqId) (sb : Bool) (pages : List Nat) : State :=
  let code := if sb then 2 else if !pages.isEmpty then 3 else 1
  let s := if s.squares[n].core.st == .stalled then s else trace s n 2 code
  let s := updCore (delayFlags s n) n fun c =>
    { c with st := .stalled, stall := BitVec.ofNat 3 code, held := c.held + 1, wdog := c.wdog + 1, lastCc := some (nowCc s) }
  let s := if sb then countDevSq s n devScoreboard else s
  if pages.isEmpty then s
  else
    let s := countDevSq s n devCrema
    match ownerSq s n with
    | some p => updSnp s p fun x => { x with job := x.job.map fun j =>
        { j with wantPages := j.wantPages ++ ((pages.map fun k => n.val * 2048 + k).filter fun k => !j.wantPages.contains k) } }
    | none => s

/-- What stands in the way of the ply in front, in this cycle. -/
structure IssueTest where
  ply : Ply
  sb : Bool
  pages : List Nat
  waits : Bool
  timedOut : Bool

/-- Test the ply in front of a square that has begun its cycle. -/
def testIssue (s : State) (n : SqId) : IssueTest :=
  let q := s.squares[n]
  let p := plyAt q
  let w := if yGuard q p.y then yWait s n true p.y (yOperand q p.y) else .done 0 false 0
  let waits := w == .holds
  let t := yTimeout p.y (yOperand q p.y)
  { ply := p, sb := scoreboardHold q p, pages := cremaPages q p, waits := waits
    timedOut := waits && t != 0 && decide (t ≤ q.core.held + 1) }

/-- Outcome of the protected reads of a ply's cycle; an HBM error belongs to the table read of a KICK (R193). -/
def plyEcc (s : State) (n : SqId) (e : Ecc) : State × Bool × Bool :=
  match e with
  | .corrected (.hbm t) _ => (hbmCorrected s t (ownerSq s n), true, false)
  | .uncorrected (.hbm t) loc => (hbmUncorrected s t (ownerSq s n) loc.toNat, true, true)
  | e => let (s, ok) := eccSquare s n e; (s, ok, false)

/-- A cycle of the square in which no ply is in front: the empty cycles of a block end, and the wait of HALT (R39, R44). Nothing is held in it (R48). -/
def emptyCycle (s : State) (n : SqId) : State :=
  let s := if s.squares[n].core.st == .stalled then trace s n 2 (s.squares[n].core.stall.toNat + 8) else s
  updSq s n fun q =>
    let q := beginNow (nowCc s) q
    { q with core := { q.core with st := .running, stall := 0, empty := q.core.empty - 1, u := q.core.u + 1, wdog := q.core.wdog + 1, lastCc := some (nowCc s) } }

/-- PLY_ISSUE: the issue cycle of square n. A cycle that belongs to another command (throttled, timed out, halting) changes nothing here. -/
def plyIssue (s : State) (n : SqId) (e : Ecc) : State :=
  if !sqReady s n || frozen s || missedA s n then s
  else if s.squares[n].core.empty ≠ 0 ∨ s.squares[n].core.ending then
    -- a load of the block's last ply may sample in this cycle (R68)
    let (s, ok, _) := plyEcc s n e
    if ok then emptyCycle s n else s
  else
    let p := plyAt s.squares[n]
    let s := testTag s n p
    if haltsHere s.squares[n].core p then s
    else
      let (s, ok, bad) := plyEcc s n e
      if !ok then s
      else
        let b := begun s n
        let t := testIssue b n
        if t.sb || !t.pages.isEmpty then holdPly s n t.sb t.pages
        else if t.waits then (if t.timedOut then s else holdPly s n false [])
        else issuePly b n t.ply false bad

/-- WAIT_TIMEOUT (R195): the wait in front has held for its T-th cycle and the ply issues with TIMEOUT. -/
def waitTimeout (s : State) (n : SqId) (e : Ecc) : State :=
  if !sqReady s n || frozen s || missedA s n || decide (s.squares[n].core.empty ≠ 0) || s.squares[n].core.ending then s
  else
    let p := plyAt s.squares[n]
    let s := testTag s n p
    let b := begun s n
    let t := testIssue b n
    if haltsHere s.squares[n].core p || t.sb || !t.pages.isEmpty || !t.timedOut then s
    else
      let (s, ok, bad) := plyEcc s n e
      if !ok then s
      else issuePly (begun s n) n t.ply true bad

/-- THROTTLE_FROZEN_CYCLE (R49): nothing is tested and nothing moves; STALL shows the throttle unless an earlier case still shows (R79). -/
def frozenCycle (s : State) (n : SqId) : State :=
  if !sqReady s n || !frozen s then s
  else
    let s := if s.squares[n].core.st == .stalled then s else trace s n 2 4
    updCore (delayFlags s n) n fun c => { c with stall := if c.st == .stalled then c.stall else 4, st := .stalled, lastCc := some (nowCc s) }

/-- Issue is held in this cycle: a ply stands in front of square n and meets one of the stall cases of R48. -/
def heldHere (s : State) (n : SqId) : Bool :=
  let c := s.squares[n].core
  c.empty == 0 && !c.ending && (let t := testIssue (begun s n) n; t.sb || !t.pages.isEmpty || (t.waits && !t.timedOut))

/-- OPERATION_LANDING and STORE_COMMIT (R36, R73): what is due at the start of the square's next unstalled cycle. A held square is frozen (R50). -/
def landNow (s : State) (n : SqId) : State :=
  if sqReady s n && !frozen s && !missedA s n && !heldHere s n then begun s n else s

/-- Every placed square is halted or done: one that is still to start has not halted (R346). -/
def allStopped (s : State) (p : PartId) : Bool := (placedOf s p).all fun n => s.squares[n].core.st == .halted || s.squares[n].core.st == .done

/-- A snapshot whose last square has stopped begins to drain (R348). -/
def snpAdvance (s : State) (p : PartId) : State :=
  match s.snp[p].job with
  | some j =>
    if j.phase == .halting && allStopped s p then
      let j := { j with phase := .draining, since := nowCt s }
      updSnp s p fun n => { n with job := some j }
    else s
  | none => s

def snpAdvanceSq (s : State) (n : SqId) : State := match ownerSq s n with | some p => snpAdvance s p | none => s

/-- A halted square stays HALTED when the snapshot point that stopped its partition ends (R474). -/
def keepHalted (s : State) (n : SqId) : State :=
  match ownerSq s n with
  | some p => if atSnapshotPoint s p then
      updSnp s p fun x =>
        let job := x.job.map fun (j : SnpJob) => { j with keep := j.keep ||| BitVec.ofNat 64 (1 <<< n.val) }
        { x with job := job }
    else s
  | none => s

/-- SQUARE_HALT (R43, R52, R346): the square stops in front of its quiet point with nothing in flight. -/
def haltSquare (s : State) (n : SqId) : State :=
  if !sqReady s n || missedA s n then s
  else
    let p := plyAt s.squares[n]
    if !haltsHere s.squares[n].core p then s
    else
      let asked := s.squares[n].core.haltReq
      let s := updSq s n fun q =>
        let q := beginNow (nowCc s) q
        { q with core := { q.core with st := .halted, stall := 0, held := 0, haltReq := false, sealTag := none, stepReq := false, saved := true
                                       lastCc := some (nowCc s) } }
      let s := if asked then keepHalted s n else s
      trace s n 3 ((s.squares[n].core.plyCount.toNat % 2 ^ 48) <<< 16)

/-- A halt request reaches square n: it halts at its next quiet point, or after the snapshot point that holds it (R43, R474). -/
def requestHalt (s : State) (n : SqId) : State :=
  let c := s.squares[n].core
  if c.st == .running || c.st == .stalled then updCore s n (askHalt (sqAtPoint s n))
  else if c.st == .halted then keepHalted s n else s

/-- BREAK_BROADCAST (R472): every break of another square whose broadcast has reached square n. -/
def breakBroadcast (s : State) (n : SqId) : State :=
  match ownerSq s n with
  | none => s
  | some p =>
    let due := fun (b : SqId × Nat × BitVec 64) => b.2.2.getLsbD n.val && decide (b.2.1 + 6 + 2 * hopsBetween b.1 n ≤ nowCc s)
    if !(s.parts[p].breaks.any due) then s
    else
      let s := updPart s p fun q =>
        { q with breaks := (q.breaks.map fun b => if due b then (b.1, b.2.1, setBits b.2.2 n.val 1 0) else b).filter fun b => b.2.2 != 0 }
      requestHalt s n

/-- SQ_WDOG (R462): the square has not issued for LIMIT × 65,536 counted cycles. -/
def sqWdog (s : State) (n : SqId) : State :=
  match ownerSq s n with
  | none => s
  | some p =>
    let lim := s.parts[p].wdgLimit.toNat
    let c := s.squares[n].core
    if lim = 0 ∨ !sqLive s n ∨ c.wdog < lim * 65536 then s
    else squareFault (raise s (srcSq n) (some p) 0x0403 [c.idx.toNat, c.plyCount.toNat % 2 ^ 32]) n 0x0403

/-- ENTER_DONE (R44): after HALT, once every operation has landed and every store has committed; in the cycle of HALT itself when nothing else is
under way. -/
def doneSquare (s : State) (n : SqId) : State :=
  if !sqLive s n || frozen s || !s.squares[n].core.ending || (missedA s n && s.squares[n].core.lastCc != some (nowCc s)) then s
  else
    let q := if s.squares[n].core.lastCc == some (nowCc s) then s.squares[n] else beginNow (nowCc s) s.squares[n]
    if !idleFlight q.core then s
    else updSq s n fun _ => { q with core := { q.core with st := .done, stall := 0, ending := false, empty := 0, haltReq := false, sealTag := none
                                                           stepReq := false, saved := false, lastCc := some (nowCc s) } }

def execPlyIssue (sq : SqId) (ecc : Ecc) (s : State) : Host.Outcome State Fault Refusal := .next (plyIssue s sq ecc)
def execOperationLanding (sq : SqId) (s : State) : Host.Outcome State Fault Refusal := .next (landNow s sq)
def execStoreCommit (sq : SqId) (s : State) : Host.Outcome State Fault Refusal := .next (landNow s sq)
def execThrottleFrozenCycle (sq : SqId) (s : State) : Host.Outcome State Fault Refusal := .next (frozenCycle s sq)
def execWaitTimeout (sq : SqId) (ecc : Ecc) (s : State) : Host.Outcome State Fault Refusal := .next (waitTimeout s sq ecc)
def execBreakBroadcast (sq : SqId) (s : State) : Host.Outcome State Fault Refusal := .next (breakBroadcast s sq)
def execSqWdog (sq : SqId) (s : State) : Host.Outcome State Fault Refusal := .next (sqWdog s sq)
def execSquareHalt (sq : SqId) (s : State) : Host.Outcome State Fault Refusal := .next (snpAdvanceSq (haltSquare s sq) sq)
def execEnterDone (sq : SqId) (s : State) : Host.Outcome State Fault Refusal := .next (snpAdvanceSq (doneSquare s sq) sq)

end Sys2Proof.Machine
end

