-- ==== Sys2Proof/Machine/MsgCore.lean ====
section
/-! DEFINITION. The message core (R56, R57, R216 to R220): its cycle, handler dispatch, handler end and abort. -/

namespace Sys2Proof.Machine

/-! ### Registers an instruction reads (R216) -/

/-- S sources SRCA, SRCB, DST and predicate sources of a scalar opcode. -/
def sReads (x : SSlot) : List (Fin 32) × List (Fin 8) :=
  let a := x.srca.toFin
  let b := x.srcb.toFin
  let pa := (x.srca.extractLsb' 0 3).toFin
  let pb := (x.srcb.extractLsb' 0 3).toFin
  let o := x.opc.toNat
  if o = 0 ∨ o = 0x11 ∨ o = 0x54 ∨ o = 0xF0 ∨ o = 0xFF then ([], [])
  else if o = 0x1A then ([], List.finRange 8)
  else if o = 0x19 then ([a, b], [(x.imm.extractLsb' 0 3).toFin])
  else if 0x50 ≤ o ∧ o ≤ 0x52 then ([], [pa, pb])
  else if o = 0x53 ∨ o = 0xF1 ∨ o = 0xF2 then ([], [pa])
  else if o = 0x67 then ([a, b, x.dst.toFin], [])
  else if (0x0E ≤ o ∧ o ≤ 0x10) ∨ (0x12 ≤ o ∧ o ≤ 0x18) ∨ o = 0x33 ∨ o = 0x46 ∨ o = 0x47 ∨ o = 0x55 ∨ o = 0x64 ∨ (0x68 ≤ o ∧ o ≤ 0x6B)
      ∨ o = 0xF3 ∨ o = 0xF4 then ([a], [])
  else ([a, b], [])

def guardReads (pred : BitVec 3) (gen : BitVec 1) : List (Fin 8) := if gen == 1 then [pred.toFin] else []

/-- Everything an instruction reads; a no-op reads nothing (R28). -/
def mcReads (i : McInstr) : List (Fin 32) × List (Fin 8) :=
  match i with
  | .s x => let r := sReads x; (r.1, if x.opc == 0 then [] else r.2 ++ guardReads x.pred x.gen)
  | .y x =>
    let o := x.opc.toNat
    if o = 0 then ([], []) else (if o = 0x01 ∨ o = 0x02 ∨ o = 0x09 then [] else [x.sreg.toFin], guardReads x.pred x.gen)
  | .l x => if x.opc == 0 then ([], []) else ([x.abase.toFin], guardReads x.pred x.gen)
  | .t x => if x.opc == 0 then ([], []) else ([x.abase.toFin, x.vs.toFin], guardReads x.pred x.gen)

/-- A register of the message core has no result on its way. -/
def mcLanded (m : Mc) (r : List (Fin 32) × List (Fin 8)) : Bool :=
  r.1.all (fun i => (m.flight.all fun l => match l.val with | .s j _ => j != i | _ => true)
      && m.access.all fun a => match a.op with | .load j => j != i | _ => true)
    && r.2.all fun i => m.flight.all fun l => match l.val with | .p j _ => j != i | _ => true

/-! ### What is due in a cycle -/

def mcLand (m : Mc) (l : Landing) : Mc :=
  match l.val with
  | .s i x => { m with s := m.s.set i x }
  | .p i x => { m with p := m.p.set i x }
  | _ => m

/-- The access is a read or write of the scratchpad. -/
def isAccess (a : McAccess) : Bool := match a.op with | .load _ => true | .store _ => true | _ => false
def isStore (a : McAccess) : Bool := match a.op with | .store _ => true | _ => false

/-- The page of a store is not captured yet (R353). -/
def mcBlocked (q : Square) (a : McAccess) : Bool := isStore a && q.uncapt.getLsbD (a.addr / 16384)

/-- One access in its turn, each in a bank of its own (R65); a flag write goes once no earlier store is left. -/
def mcAct (s : State) (n : SqId) (a : McAccess) (left : List McAccess) : State × List McAccess :=
  let q := s.squares[n]
  let turn := decide (nowCc s % 8 = 7 ∧ a.turn ≤ nowCc s) && !(banksUsed s n).contains (bankOf a.addr)
  match a.op with
  | .load r =>
    if turn then
      let x := BitVec.ofNat 64 (memNat q.mem a.addr 8)
      (updMc (padRead (useBank s n (bankOf a.addr)) n) n fun m => { m with flight := m.flight ++ [⟨nowCc s + 2, .s r x⟩] }, left)
    else (s, left ++ [a])
  | .store x =>
    if turn && !mcBlocked q a then (padWrite (useBank s n (bankOf a.addr)) n [(a.addr, natLe 8 x.toNat)], left)
    else (s, left ++ [a])
  | .fset f v => if left.any isStore then (s, left ++ [a]) else (doFset s n false f v, left)
  | .cflag e f v => if left.any isStore then (s, left ++ [a]) else (doCflag s n false e f v, left)

/-- Stores to private memory, accesses in their turn, and landings due in this cycle. -/
def mcBegin (s : State) (n : SqId) : State :=
  let cc := nowCc s
  let s := updMc s n fun m =>
    { m with mem := (m.stores.filter fun x => decide (x.at_ ≤ cc)).foldl (fun mem x => memWriteNat mem x.addr 8 x.data.toNat) m.mem
             stores := m.stores.filter fun x => !decide (x.at_ ≤ cc) }
  let todo := s.squares[n].mc.access
  let (s, left) := todo.foldl (fun (s, left) a => mcAct s n a left) (s, [])
  let s := updMc s n fun m => { m with access := left }
  updMc s n fun m =>
    let due := m.flight.filter fun l => decide (l.due ≤ cc)
    { due.foldl mcLand m with flight := m.flight.filter fun l => !decide (l.due ≤ cc) }

/-- A store of the core is past its turn and held by an uncaptured page. -/
def mcCremaWait (s : State) (n : SqId) : List Nat :=
  let q := s.squares[n]
  (q.mc.access.filter fun a => decide (a.turn ≤ nowCc s) && mcBlocked q a).map fun a => n.val * 2048 + a.addr / 16384

/-! ### Handler end (R212, R220) -/

/-- End of the running handler: a stream message is released, an unanswered request gets a reply that is only the trailer. -/
def mcEnd (s : State) (n : SqId) (aborted : Bool) : State :=
  let mc := s.squares[n].mc
  let s := match mc.trig with
    | some t =>
      let s := match t.reply with
        | some r => if mc.replied then s else sendReply s n r (if aborted then 2 else 1) 0 0 (nowCc s)
        | none => s
      -- a reply stays until RECV frees its slot; a request is released too (R212; log 16)
      if t.kind = 3 ∨ inKind s.squares[n].eps[epOf t.src].inc = 2 then s else releaseCount s n (epOf t.src) t.count
    | none => s
  updMc s n fun m => { m with busy := false, trig := none, replied := false, held := 0, excused := 0, entering := false }

/-! ### Instructions -/

/-- The first of the turns t, t + 8, … in which the bank is free of earlier accesses of the core. -/
def freeTurn (m : Mc) (bank : Nat) : Nat → Nat → Nat
  | 0, t => t
  | k + 1, t => if m.access.any fun a => isAccess a && a.turn == t && bankOf a.addr == bank then freeTurn m bank k (t + 8) else t

/-- First phase-B turn of the core after cycle cc in which its bank is free (R64, R65). -/
def mcTurn (m : Mc) (cc addr : Nat) : Nat := freeTurn m (bankOf addr) m.access.length (cc + 1 + (15 - (cc + 1) % 8) % 8)

def mcNext (s : State) (n : SqId) (pc : Nat) : State := updMc s n fun m => { m with pc := pc % 4096, held := 0 }

def mcFly (s : State) (n : SqId) (ls : List Landing) : State := updMc s n fun m => { m with flight := m.flight ++ ls }

def privAddr (base : Word64) (off : BitVec 25) : Nat := (base.toNat + off.toNat) % 65536 / 8 * 8

/-- A Y form: a wait holds only the message core; its T-th held cycle ends it (R195, R216). -/
def mcSync (s : State) (n : SqId) (y : YSlot) (bad : Bool) : State :=
  let m := s.squares[n].mc
  let w := m.s[y.sreg.toFin]
  if !yAssigned false y.opc.toNat then mcNext s n (m.pc + 1)
  else
    let holds := yWait s n false y w == .holds
    let t := yTimeout y w
    let timedOut := holds && t != 0 && decide (t ≤ m.held + 1)
    if holds && !timedOut then updMc s n fun m => { m with held := m.held + 1 }
    else if (y.opc.toNat = 0x01 ∨ y.opc.toNat = 0x09) ∧ m.access.any isStore then
      -- a flag write waits for the core's earlier stores (R57)
      let op := if y.opc.toNat = 0x01 then McOp.fset y.flag.toFin (y.val == 1) else McOp.cflag y.chan.toFin y.flag.toFin (y.val == 1)
      mcNext (updMc s n fun m => { m with access := m.access ++ [⟨nowCc s, 0, op⟩] }) n (m.pc + 1)
    else
      let (s, word) := yOp s n false y w timedOut bad
      let s := match word with | some x => mcFly s n [⟨nowCc s + 1, .s y.sreg.toFin x⟩] | none => s
      mcNext s n (m.pc + 1)

/-- One instruction whose sources have landed. -/
def mcExec (s : State) (n : SqId) (i : McInstr) (bad : Bool) : State :=
  let m := s.squares[n].mc
  let cc := nowCc s
  match i with
  | .s x =>
    if !guard m.p x.pred x.pneg x.gen then mcNext s n (m.pc + 1)
    else if x.opc == 0xFF then mcEnd s n false
    else if isBranchOpc x.opc then mcNext s n (if branchTaken x m.s m.p then (branchTarget x).toNat else m.pc + 1)
    else if scalarAssigned x.opc then
      let r := scalarOp x m.s m.p
      let s := setFp s n (sFlags r)
      mcNext (mcFly s n (sLanding x r cc)) n (m.pc + 1)
    else mcNext s n (m.pc + 1)
  | .y y => if y.opc == 0 || !guard m.p y.pred y.pneg y.gen then mcNext s n (m.pc + 1) else mcSync s n y bad
  | .l l =>
    let base := m.s[l.abase.toFin]
    let s := if !guard m.p l.pred l.pneg l.gen then s
      else match l.opc.toNat with
      | 0x02 =>
        let a := effAddr base l.off / 8 * 8
        updMc s n fun m => { m with access := m.access ++ [⟨mcTurn m cc a, a, .load l.vd.toFin⟩] }
      | 0x12 => mcFly s n [⟨cc + 2, .s l.vd.toFin (BitVec.ofNat 64 (memNat m.mem (privAddr base l.off) 8))⟩]
      | _ => s
    mcNext s n (m.pc + 1)
  | .t t =>
    let base := m.s[t.abase.toFin]
    let x := m.s[t.vs.toFin]
    let s := if !guard m.p t.pred t.pneg t.gen then s
      else match t.opc.toNat with
      | 0x02 =>
        let a := effAddr base t.off / 8 * 8
        updMc s n fun m => { m with access := m.access ++ [⟨mcTurn m cc a, a, .store x⟩] }
      | 0x12 => updMc s n fun m => { m with stores := m.stores ++ [⟨cc + 1, privAddr base t.off, x⟩] }
      | _ => s
    mcNext s n (m.pc + 1)

/-- The message core of square n works in this cycle. -/
def mcHere (s : State) (n : SqId) : Bool :=
  s.clk.frameOn && sqOn s n && (match ownerSq s n with | some p => s.parts[p].st == .active | none => false)

/-- It has not had its cycle yet. -/
def mcReady (s : State) (n : SqId) : Bool := mcHere s n && s.squares[n].mc.lastCc != some (nowCc s)

/-- The handler has run past its BUDGET (R220). -/
def mcOverdue (s : State) (n : SqId) : Bool :=
  let q := s.squares[n]
  q.mc.busy && decide (q.mc.startAt + 64 * hndBudget q.hnd[q.mc.current] + q.mc.excused ≤ nowCc s)

/-- Protected reads of the core (R68, R460): a word that LD.S reads with a double-bit error lands as read. -/
def mcEcc (s : State) (n : SqId) (e : Ecc) : State × Bool × Bool :=
  match e with
  | .uncorrected .scratchpad loc => (sqUncorrected s n .scratchpad loc.toNat, true, false)
  | e => plyEcc s n e

/-- The handler is entered, in the cycle of its first instruction: S2 takes the arrival count that its handle then shows and S3 says whether its sender has
been reset (R219). -/
def mcEnter (s : State) (n : SqId) : State :=
  let q := s.squares[n]
  if !q.mc.entering || decide (nowCc s < q.mc.startAt) then s
  else
    let x := match q.mc.trig with
      | some t => if t.kind = 3 then (0, ycOk)
          else ((hdlOf q (inHandle q.eps[epOf t.src].inc)).count.toNat, if q.eps[epOf t.src].sreset then ycSenderReset else ycOk)
      | none => (0, ycOk)
    updMc s n fun m => { m with entering := false, s := (m.s.set 2 (BitVec.ofNat 64 x.1)).set 3 (BitVec.ofNat 64 x.2) }

/-- MC_INSTRUCTION_ISSUE: one cycle of the message core. -/
def mcCycle (s : State) (n : SqId) (e : Ecc) : State :=
  let m := s.squares[n].mc
  if !mcReady s n || !(m.busy || !m.access.isEmpty || !m.stores.isEmpty || !m.flight.isEmpty) then s
  else
    let s := mcBegin s n
    let s := mcEnter (updMc s n fun m => { m with lastCc := some (nowCc s) }) n
    let (s, ok, bad) := mcEcc s n e
    if !ok then s
    else
      let waits := mcCremaWait s n
      if !waits.isEmpty then
        let s := countDevSq s n devCrema
        let s := updMc s n fun m => { m with excused := if m.busy then m.excused + 1 else m.excused }
        match ownerSq s n with
        | some p => updSnp s p fun x => { x with job := x.job.map fun j =>
            { j with wantPages := j.wantPages ++ waits.filter fun k => !j.wantPages.contains k } }
        | none => s
      else
        let m := s.squares[n].mc
        if !m.busy || decide (nowCc s < m.startAt) || mcOverdue s n then s
        else
          let i := decodeMc (BitVec.ofNat 128 (memNat m.mem (16 * (m.pc % 4096)) 16))
          if mcLanded m (mcReads i) then mcExec s n i bad else s

/-- The trigger R218 takes: BLITZ first, then the earliest, then the lower source. -/
def selectTrigger (q : Square) : Option Trigger :=
  let key := fun (t : Trigger) => (if hndBlitz q.hnd[t.handler] then 0 else 1, t.arose, t.src)
  let less := fun (a b : Trigger) =>
    let x := key a
    let y := key b
    decide (x.1 < y.1) || (x.1 == y.1 && (decide (x.2.1 < y.2.1) || (x.2.1 == y.2.1 && decide (x.2.2 < y.2.2))))
  q.mc.pending.foldl (fun best t => match best with
    | none => some t
    | some b => if less t b then some t else some b) none

/-- After its drain a partition's message cores dispatch nothing until the snapshot point ends (R349); nor does a square that no scoresheet
places. -/
def mcParked (s : State) (n : SqId) : Bool :=
  match ownerSq s n with
  | some p =>
    !(match s.parts[p].loaded with | some l => l.placed.getLsbD n.val | none => false)
      || (match s.snp[p].job with
        | some j => j.drained && (j.phase == .draining || j.phase == .pause)
        | none => false)
  | none => true

/-- A BLITZ entry of the square has more than one trigger pending (R377). -/
def blitzCrowd (q : Square) : Bool :=
  q.mc.pending.any fun t => hndBlitz q.hnd[t.handler] && decide (1 < (q.mc.pending.filter fun x => x.handler == t.handler).length)

/-- HANDLER_DISPATCH (R218, R219): S0 and S1 land with the first instruction, 12 cc later, when S2 and S3 are loaded. A dispatch of a BLITZ handler outside
the envelope is counted (R377). -/
def mcDispatch (s : State) (n : SqId) : State :=
  let q := s.squares[n]
  if !mcHere s n || q.mc.busy || mcParked s n then s
  else match selectTrigger q with
    | none => s
    | some t =>
      let start := nowCc s + 12
      let s0 := t.kind.toNat + 256 * (if t.kind = 3 then t.src - 32 else t.src)
      let s := match ownerSq s n with
        | some p => if hndBlitz q.hnd[t.handler] && blitzCrowd q then countBlzOver s p else s
        | none => s
      let entry := fun (i : Fin 32) (x : Nat) => (⟨start, .s i (BitVec.ofNat 64 x)⟩ : Landing)
      let s := updMc s n fun m =>
        { m with busy := true, current := t.handler, trig := some t, startAt := start, excused := 0, replied := false, held := 0, entering := true
                 pc := hndEntry q.hnd[t.handler], pending := m.pending.erase t
                 flight := m.flight ++ [entry 0 s0, entry 1 t.off] }
      trace s n 5 (t.handler.val + 256 * t.kind.toNat)

/-- HANDLER_ABORT (R220). -/
def mcAbort (s : State) (n : SqId) : State :=
  if mcHere s n && mcOverdue s n then
    let s := updMc (hwUp s (.mcAborts n) s.squares[n].mc.aborts) n fun m => { m with aborts := satInc m.aborts }
    mcEnd (raise s (srcSq n) (ownerSq s n) 0x0405 [s.squares[n].mc.current.val]) n true
  else s

def execMcInstructionIssue (sq : SqId) (ecc : Ecc) (s : State) : Host.Outcome State Fault Refusal := .next (mcCycle s sq ecc)
def execHandlerDispatch (sq : SqId) (s : State) : Host.Outcome State Fault Refusal := .next (mcDispatch s sq)
def execHandlerAbort (sq : SqId) (s : State) : Host.Outcome State Fault Refusal := .next (mcAbort s sq)

end Sys2Proof.Machine
end

