-- ==== Sys2Proof/Machine/Channel.lean ====
section
/-! DEFINITION. The commands of the mesh and the flag plane (R188, R197 to R215), over the operations of Mesh.lean. -/

namespace Sys2Proof.Machine

/-- MESH_LINE_READ (R206): a double-bit error in a source line is reported, and the line goes as read (R68, log 10). -/
def meshRead (s : State) (n : SqId) (e : Ecc) : State :=
  match e with
  | .clean => lineRead s n
  | .corrected st loc => lineRead (sqCorrected s n st loc.toNat) n
  | .uncorrected .scratchpad loc => lineRead (sqUncorrected s n .scratchpad loc.toNat) n
  | .uncorrected st loc => squareError s n st loc.toNat

/-- A step that stops at a parity error in what it reads. -/
def guarded (s : State) (n : SqId) (e : Ecc) (f : State → State) : State :=
  let (s, ok) := eccSquare s n e
  if ok then f s else s

/-- FLAG_GRANT (R188, R389): the King's firmware writes a grant (R21), which is then no longer an orphan (log 78). -/
def grantWrite (s : State) (g : GrantWr) : State :=
  if s.king.stage ≠ .running then s else
  { s with flags := { s.flags with grants := s.flags.grants.set g.n g.value, orphan := setBits s.flags.orphan g.n.val 1 0 } }

def execMeshLineRead (sq : SqId) (ecc : Ecc) (s : State) : Host.Outcome State Fault Refusal := .next (meshRead s sq ecc)
def execFlitDepart (sq : SqId) (ep : Fin 32) (net : Net) (ecc : Ecc) (s : State) : Host.Outcome State Fault Refusal :=
  .next (guarded s sq ecc fun s => flitDepart s sq ep net)
def execMeshFlitCommit (sq : SqId) (s : State) : Host.Outcome State Fault Refusal := .next (flitCommit s sq)
def execCreditReturn (sq : SqId) (ep : Fin 32) (s : State) : Host.Outcome State Fault Refusal := .next (creditReturn s sq ep)
def execCflagEffect (sq : SqId) (s : State) : Host.Outcome State Fault Refusal := .next (cflagEffect s sq)
def execFlagViewUpdate (sq : SqId) (flag : Fin 8192) (ecc : Ecc) (s : State) : Host.Outcome State Fault Refusal :=
  .next (guarded s sq ecc fun s => viewUpdate s sq flag)
def execFlagGrant (g : GrantWr) (s : State) : Host.Outcome State Fault Refusal := .next (grantWrite s g)

end Sys2Proof.Machine
end

