-- ==== Sys2Proof/Machine/LinkOps.lean ====
section
/-! DEFINITION. Parts of the links that other families use (R279 to R282, R295, R296, R305): the match's geometry, routes of copies, the queues towards a
link, the layout of frames. -/

namespace Sys2Proof.Machine

/-! ### The match (R295, R296) -/

def mMx (r : Word32) : Nat := bits r 2 0 + 1
def mMy (r : Word32) : Nat := bits r 5 3 + 1
def mMz (r : Word32) : Nat := bits r 7 6 + 1
def mLpos (r : Word32) : Byte := r.extractLsb' 8 8
def mRole (r : Word32) : Bool := bit r 16
def mRate (r : Word32) : Bool := bit r 17
def mHead (r : Word32) : Nat := bits r 31 20

def posX (p : Byte) : Nat := p.toNat % 8
def posY (p : Byte) : Nat := p.toNat / 8 % 8
def posZ (p : Byte) : Nat := p.toNat / 64

/-- Own logical position in force. -/
def ownPos (s : State) : Byte := mLpos s.mtch.inForce
/-- H in ct (R289). -/
def headCt (s : State) : Nat := mHead s.mtch.reg
/-- F: frame period in ct at the link's rate (R290). -/
def frameCt (k : Link) : Nat := if k.rate then 25 else 13

/-- Steps and direction (true: +) from a to b round a ring, the shorter way, ties to + (R305). -/
def ringWay (size a b : Nat) : Nat × Bool :=
  let d := (b + size - a % size) % size
  if d ≤ size - d then (d, true) else (size - d, false)

/-- Lower and higher link of a direction: dimension 0 x, 1 y, 2 z. -/
def dirLinks (dim : Nat) (plus : Bool) : LinkId × LinkId :=
  match dim, plus with
  | 0, true => (4, 5)
  | 0, false => (0, 1)
  | 1, true => (6, 7)
  | 1, false => (2, 3)
  | _, true => (10, 11)
  | _, false => (8, 9)

/-- Direction of a link: dimension and sense. -/
def linkDir (l : LinkId) : Nat × Bool :=
  match l.val with
  | 4 | 5 => (0, true)
  | 0 | 1 => (0, false)
  | 6 | 7 => (1, true)
  | 2 | 3 => (1, false)
  | 10 | 11 => (2, true)
  | _ => (2, false)

def inMatch (r : Word32) (p : Byte) : Bool := decide (posX p < mMx r ∧ posY p < mMy r ∧ posZ p < mMz r)

/-- Physical position of a logical one (`LNK_MAP`, R296). -/
def physPos (s : State) (pos : Byte) : Byte := s.mtch.map[pos.toFin]

/-- Way from this chip to a logical position: hops left, and the dimension and sense of the next one; none at home or outside the match. The rings are
those of the wiring, between the physical positions that `STRAP_POS` and `LNK_MAP` name (R296, R301, R305). -/
def wayTo (s : State) (pos : Byte) : Option (Nat × Nat × Bool) :=
  let r := s.mtch.inForce
  let me := s.pins.straps.pos
  let dest := physPos s pos
  if !inMatch r dest then none
  else
    let x := ringWay (mMx r) (posX me) (posX dest)
    let y := ringWay (mMy r) (posY me) (posY dest)
    let z := ringWay (mMz r) (posZ me) (posZ dest)
    let h := x.1 + y.1 + z.1
    if x.1 ≠ 0 then some (h, 0, x.2) else if y.1 ≠ 0 then some (h, 1, y.2) else if z.1 ≠ 0 then some (h, 2, z.2) else none

/-- The copy channel of a partition and class on a link. -/
def copyChannelOf (k : Link) (p : PartId) (cls : Nat) : Option (Fin 32) :=
  (List.finRange 32).find? fun c => let ch := k.ch[c]; chTx ch && chKind ch == 3 && chOwner ch == p && chClass ch == cls

/-- The copy channel of a partition and class on a link that is UP (R305). -/
def copyChannel (s : State) (l : LinkId) (p : PartId) (cls : Nat) : Option (Fin 32) :=
  if s.links[l].st ≠ .up then none else copyChannelOf s.links[l] p cls

/-- Link and channel a copy beat takes towards a position (R305). -/
def copyHop (s : State) (pos : Byte) (p : PartId) (cls : Nat) : Option (LinkId × Fin 32) :=
  match wayTo s pos with
  | none => none
  | some (_, dim, plus) =>
    let (lo, hi) := dirLinks dim plus
    match copyChannel s lo p cls with
    | some c => some (lo, c)
    | none => (copyChannel s hi p cls).map fun c => (hi, c)

/-- Why no copy beat can take the next hop towards a position, of which this chip has an UP link with a copy channel or not: 0, CLOSED where a link that
holds the channel is closing, LINK_FAULT where it is not UP, NO_LINK without a route or a channel (R305, R307, R309). -/
def routeCode (s : State) (pos : Byte) (p : PartId) (cls : Nat) : Nat :=
  if (copyHop s pos p cls).isSome then 0
  else match wayTo s pos with
    | none => 10
    | some (_, dim, plus) =>
      let (lo, hi) := dirLinks dim plus
      let held := [lo, hi].filter fun l => (copyChannelOf s.links[l] p cls).isSome
      if held.any fun l => s.links[l].st == .closing then 9 else if held.isEmpty then 10 else 11

/-- Frame slots of a channel. -/
def channelSlots (k : Link) (c : Fin 32) : Nat :=
  (k.slot.toList.filter fun r => bit r 31 && !bit r 5 && bits r 4 0 == c.val).length

/-! ### Queues towards a link -/

/-- Queue flits of channel c behind the records queued so far. -/
def queueFlits (s : State) (l : LinkId) (c : Fin 32) (lines : List Line) : State :=
  updLink s l fun k => { k with txFlits := k.txFlits ++ lines.map fun d => ⟨c, d, k.recsSent + k.txRecs.length⟩ }

/-- Queue one copy beat: COPY, COPY2 and its lines (R280, R305). -/
def queueBeat (s : State) (l : LinkId) (c : Fin 32) (epoch : Nat) (pos : Byte) (sq : SqId) (handle : Byte) (off : Nat) (last : Bool)
    (lines : List Line) : State :=
  let s := sendRecord s l 0x06 c epoch (pos.toNat + sq.val * 2 ^ 8 + handle.toNat * 2 ^ 14 + (lines.length - 1) * 2 ^ 22 + bool2nat last * 2 ^ 28)
  let s := sendRecord s l 0x07 c epoch off
  queueFlits s l c lines

/-! ### Frames (R279, R280) -/

def frameBytes (f : BitVec 10280) (lo n : Nat) : Nat := (f.toNat >>> (8 * lo)) % 2 ^ (8 * n)
def frType (f : BitVec 10280) : Nat := frameBytes f 0 1
def frSeq (f : BitVec 10280) : BitVec 16 := BitVec.ofNat 16 (frameBytes f 1 2)
def frAck (f : BitVec 10280) : BitVec 16 := BitVec.ofNat 16 (frameBytes f 3 2)
def frStrict (f : BitVec 10280) : Bool := (frameBytes f 5 1).testBit 0
def frTag (f : BitVec 10280) (k : Nat) : Byte := BitVec.ofNat 8 (frameBytes f (8 + k) 1)
def tagKind (t : Byte) : Nat := bits t 6 5
def tagLch (t : Byte) : Fin 32 := epOf (bits t 4 0)
def frFlit (f : BitVec 10280) (k : Nat) : Line := BitVec.ofNat 512 (frameBytes f (65 + 64 * k) 64)
def flitRecord (d : Line) (i : Nat) : Word64 := d.extractLsb' (64 * i) 64

/-- Records of a frame: the four of the header, then those of its control flits. -/
def frRecords (f : BitVec 10280) : List Word64 :=
  ((List.range 4).map fun i => BitVec.ofNat 64 (frameBytes f (27 + 8 * i) 8))
    ++ (List.range 19).flatMap fun k => if tagKind (frTag f k) = 2 then (List.range 8).map fun i => flitRecord (frFlit f k) i else []

/-- A record of a channel: empty places, NAK, TIME and CLOSE belong to the link. -/
def recOfChannel (r : Word64) : Bool := decide (rcType r ≠ 0 ∧ rcType r < 8)

/-- The frame carries a data flit or a record of a channel that satisfies q. -/
def frameCarries (f : BitVec 10280) (q : Fin 32 → Bool) : Bool :=
  ((List.range 19).any fun i => tagKind (frTag f i) == 1 && q (tagLch (frTag f i))) || (frRecords f).any fun r => recOfChannel r && q (rcLch r)

/-- Nothing of channel c waits to leave or to be acknowledged on a link (R293, R308). -/
def channelQuiet (k : Link) (c : Fin 32) : Bool :=
  !(k.txFlits.any fun x => x.lch == c) && !(k.txRecs.any fun r => recOfChannel r && rcLch r == c) && !(k.replay.any fun x => frameCarries x.bytes (· == c))

/-- The link rules that hold on a link are the Strict ones (R288). -/
def strictLink (s : State) (k : Link) : Bool := s.tmg.strictAny || k.partnerStrict

end Sys2Proof.Machine
end

