-- ==== Sys2Proof/Machine/Copy.lean ====
section
/-! DEFINITION. The copy engines (R63 to R67, R91 to R98, R305 to R308, R353, R373, R377): descriptor checks, start, beats, landings. -/

namespace Sys2Proof.Machine

/-! ### Descriptor fields (R91) -/

def dKind (d : Line) : Nat := bits d 7 0
def dClass (d : Line) : Nat := bits d 9 8
def dSrck (d : Line) : Nat := bits d 11 10
def dDstk (d : Line) : Nat := bits d 13 12
def dFen (d : Line) : Bool := bit d 14
def dFlag (d : Line) : Fin 8192 := flagOf (bits d 27 15)
def dTag (d : Line) : Nat := bits d 63 32
def dLength (d : Line) : Nat := bits d 95 64
def dSrc (d : Line) : Nat := bits d 191 128
def dDst (d : Line) : Nat := bits d 255 192
def dMap (d : Line) : Nat := bits d 319 256
def dEntries (d : Line) : Nat := bits d 335 320
def dVstride (d : Line) : Nat := bits d 360 336

def stBadDesc : Nat := 1
def stBadSegment : Nat := 2
def stDataError : Nat := 6
def stVarTooLarge : Nat := 7
def stNoLink : Nat := 10
def stLinkFault : Nat := 11

/-- The descriptor's own fields break R91, R94 or the job's TYPE (R418). -/
def descBad (d : Line) (src : DescSrc) : Bool :=
  let k := dKind d
  decide (bits d 31 28 ≠ 0) || decide (bits d 127 96 ≠ 0) || decide (bits d 383 361 ≠ 0) || decide (bits d 511 384 ≠ 0)
    || decide (k = 0 ∨ 4 < k) || dClass d == 3 || decide (2 ≤ dSrck d) || dDstk d == 3
    || (match src with
      | .job _ t => (t == 2 && !(k == 1 || k == 4)) || (t == 3 && !(k == 2 || k == 3))
      | .kick _ _ => false)
    || (k == 1 && (decide (dLength d % 64 ≠ 0) || decide (2 ^ 28 < dLength d)))
    || (k != 1 && dEntries d == 0)
    || (k == 4 && (decide (256 < dEntries d) || decide (dVstride d % 4096 ≠ 0) || dSrck d != 0))

/-! ### Places (R83, R87, R91, R92) -/

/-- A resolved place, or the status that refuses it and the handle concerned: that of a square, or one on another chip. -/
inductive Place where
  | ok (l : Loc)
  | bad (code : Nat) (who : Option (Option SqId × Nat))

/-- A handle of a square for partition p: `write` needs WCE, a read RCE. A write covers whole 64-bit words (R67, log 88). -/
def spPlace (s : State) (p : PartId) (sq : SqId) (h off len : Nat) (write : Bool) : Place :=
  if write ∧ off % 8 ≠ 0 then .bad stBadDesc none
  else
    let c := sqClosed s sq
    let hd := hdlOf s.squares[sq] h
    let perm := hdlOwner hd == p.val && (if write then hdlWce hd else hdlRce hd)
    let k := if c ≠ 0 then c else hdlCheck hd perm off len
    if k ≠ 0 then .bad k (some (some sq, h)) else .ok (.sp sq (hdlBase hd + off))

def hbmPlace (s : State) (p : PartId) (w off len : Nat) : Place :=
  if w / 2 ^ 38 ≠ 0 then .bad stBadDesc none
  else match hbmAt s p (field w 0 6) (field w 6 32 + off) len with
    | some a => .ok (.hbm a)
    | none => .bad stBadSegment none

/-- A place on another chip, a destination: whole 64-bit words (R67, log 88); no handle is longer than 32 MiB, so that bytes past it are past LEN (R82,
R83). -/
def remotePlace (pos sq h off len : Nat) : Place :=
  if off % 8 ≠ 0 then .bad stBadDesc none
  else if 2 ^ 25 < off + len then .bad stBounds (some (none, h)) else .ok (.remote (BitVec.ofNat 8 pos) (sqOf sq) (BitVec.ofNat 8 h) off)

/-- Address w of kind k, at a further offset. -/
def place (s : State) (p : PartId) (w k off len : Nat) (write : Bool) : Place :=
  if k = 0 then hbmPlace s p w off len
  else if k = 1 then
    if w / 2 ^ 39 ≠ 0 then .bad stBadDesc none
    else spPlace s p (sqOf (field w 0 6)) (field w 6 8) (field w 14 25 + off) len write
  else if w / 2 ^ 47 ≠ 0 then .bad stBadDesc none
  else remotePlace (field w 39 8) (field w 0 6) (field w 6 8) (field w 14 25 + off) len

/-- Part that a destination belongs to. -/
def partDst (dst : Loc) (handle : Nat) : PartDst :=
  match dst with
  | .hbm _ => .hbm
  | .sp q _ => .square q (BitVec.ofNat 8 handle)
  | .remote pos q h _ => .remote pos q h

/-- What a descriptor will move: segments with their parts, and how it ends when a bad entry stops it. -/
structure CopyPlan where
  segs : List Seg
  parts : List CePart
  /-- Lines of every entry, for L of R96. -/
  lines : Nat
  planned : Nat
  who : Option (Option SqId × Nat)

def planEmpty : CopyPlan := ⟨[], [], 0, 0, none⟩

/-- Add a run of lines to a plan; after a bad entry nothing further moves. -/
def planAdd (pl : CopyPlan) (src dst : Place) (handle hoff lines : Nat) (bad : Nat) : CopyPlan :=
  let pl := { pl with lines := pl.lines + lines }
  let stop := fun (code : Nat) (who : Option (Option SqId × Nat)) => if pl.planned = 0 then { pl with planned := code, who := who } else pl
  if bad ≠ 0 then stop bad none
  else match src, dst with
    | .bad c w, _ => stop c w
    | _, .bad c w => stop c w
    | .ok a, .ok b =>
      let key := partDst b handle
      let i := pl.parts.findIdx fun x => x.dst == key
      let parts := if i < pl.parts.length then
          pl.parts.modify i fun x => { x with ranges := x.ranges ++ [(hoff, 64 * lines)], left := x.left + lines }
        else pl.parts ++ [⟨key, [(hoff, 64 * lines)], lines, 0, false, false, []⟩]
      { pl with parts := parts, segs := if pl.planned = 0 ∧ lines ≠ 0 then pl.segs ++ [⟨a, b, lines, i⟩] else pl.segs }

/-- Entry i of a shard map at physical address a (R93). -/
def shardEntry (s : State) (a i : Nat) : Nat := hbmNat s (a + 128 + 16 * i) 16

/-- RESHARD_SCATTER and RESHARD_GATHER (R93). A bad entry, which R95 names without a code, is BAD_DESC (DESIGN CHOICE, log 98). -/
def planShard (s : State) (p : PartId) (d : Line) (map : Nat) (scatter : Bool) : CopyPlan :=
  let base := if scatter then dSrc d else dDst d
  let bk := if scatter then dSrck d else dDstk d
  let mask := hbmNat s (map + 64) 8
  (List.range (dEntries d)).foldl (fun pl i =>
    let x := shardEntry s map i
    let soff := field x 0 40
    let lines := field x 40 24
    let sq := sqOf (field x 64 6)
    let doff := field x 70 25
    let remote := x.testBit 103
    let h := hbmNat s (map + sq.val) 1
    let bad := if field x 104 24 ≠ 0 ∨ !mask.testBit sq.val ∨ (remote ∧ !scatter) then stBadDesc else 0
    let far := if remote then remotePlace (field x 95 8) sq.val h doff (64 * lines)
      else spPlace s p sq h doff (64 * lines) scatter
    let near := place s p base bk soff (64 * lines) (!scatter)
    if scatter then planAdd pl near far h doff lines bad
    else planAdd pl far near (field base 6 8) (field base 14 25 + soff) lines bad) planEmpty

/-- VGATHER (R94, R330). An index past the table and an entry that is not valid are BAD_DESC (DESIGN CHOICE, log 98). -/
def planVgather (s : State) (p : PartId) (d : Line) (list : Nat) : CopyPlan :=
  (List.range (dEntries d)).foldl (fun pl k =>
    let i := hbmNat s (list + 2 * k) 2
    let dir := hbmPlace s p (dSrc d) (16 * i) 16
    let e := match dir with | .ok (.hbm a) => hbmNat s a 16 | _ => 0
    let len := field e 64 32
    let bad := if 4096 ≤ i then stBadDesc
      else match dir with
        | .bad c _ => c
        | .ok _ =>
          if !e.testBit 127 ∨ field e 38 26 ≠ 0 ∨ field e 108 19 ≠ 0 ∨ len % 64 ≠ 0 ∨ field e 96 8 = 0 ∨ 64 < field e 96 8 then stBadDesc
          else if dVstride d < len then stVarTooLarge else 0
    let lines := if bad = 0 then len / 64 else 0
    planAdd pl (hbmPlace s p (field e 0 38) 0 (64 * lines)) (place s p (dDst d) (dDstk d) (k * dVstride d) (64 * lines) true)
      (field (dDst d) 6 8) (field (dDst d) 14 25 + k * dVstride d) lines bad) planEmpty

/-- The check in full of R95: a status that writes nothing, or the plan. -/
def planOf (s : State) (p : PartId) (d : Line) (src : DescSrc) : Nat × Option (Option SqId × Nat) × CopyPlan :=
  if descBad d src then (stBadDesc, none, planEmpty)
  else match dKind d with
    | 1 =>
      let n := dLength d
      let pl := planAdd planEmpty (place s p (dSrc d) (dSrck d) 0 n false) (place s p (dDst d) (dDstk d) 0 n true) (field (dDst d) 6 8)
        (field (dDst d) 14 25) (n / 64) 0
      (pl.planned, pl.who, pl)
    | 2 => match hbmPlace s p (dMap d) 0 (128 + 16 * dEntries d), place s p (dSrc d) (dSrck d) 0 0 false with
      | .ok (.hbm a), .ok _ => (0, none, planShard s p d a true)
      | .bad c w, _ => (c, w, planEmpty)
      | _, .bad c w => (c, w, planEmpty)
      | _, _ => (stBadDesc, none, planEmpty)
    | 3 => match hbmPlace s p (dMap d) 0 (128 + 16 * dEntries d), place s p (dDst d) (dDstk d) 0 0 true with
      | .ok (.hbm a), .ok _ => (0, none, planShard s p d a false)
      | .bad c w, _ => (c, w, planEmpty)
      | _, .bad c w => (c, w, planEmpty)
      | _, _ => (stBadDesc, none, planEmpty)
    | _ => match hbmPlace s p (dMap d) 0 (2 * dEntries d), place s p (dDst d) (dDstk d) 0 0 true with
      | .ok (.hbm a), .ok _ => (0, none, planVgather s p d a)
      | .bad c w, _ => (c, w, planEmpty)
      | _, .bad c w => (c, w, planEmpty)
      | _, _ => (stBadDesc, none, planEmpty)

/-- Envelopes of a plan: every byte touched in a square; IN when anything is written there (R77, R80). -/
def planEnvs (pl : CopyPlan) : List (SqId × SbEntry) :=
  let es := pl.segs.flatMap fun g =>
    let one := fun (l : Loc) (w : Bool) => match l with
      | .sp q a => [(q, (⟨a / 64, (a + 64 * g.lines - 1) / 64, w⟩ : SbEntry))]
      | _ => []
    one g.src false ++ one g.dst true
  allSq.filterMap fun q => (sbUnion ((es.filter fun e => e.1 == q).map (·.2))).map fun e => (q, e)

/-- Positions of the remote parts. -/
def remoteParts (parts : List CePart) : List Byte :=
  parts.filterMap fun x => match x.dst with | .remote pos _ _ => some pos | _ => none

/-- Beats of the remote parts: the runs of each that the engine's 4 KiB beats cut (R96, R305). -/
def remoteBeats (segs : List Seg) : Nat :=
  (segs.foldl (fun (a : Nat × Nat) g => (match g.dst with | .remote _ _ _ _ => a.1 + ceilDiv (a.2 % 64 + g.lines) 64 | _ => a.1, a.2 + g.lines)) (0, 0)).1

/-- Count at which a Strict sender may post the completion of its remote parts: LD + h × (H + 64) (R308). The slots of the links beyond the first hop are
not known here: k takes a free value for them (log 22). -/
def remoteDue (s : State) (p : PartId) (cls t : Nat) (parts : List CePart) (segs : List Seg) : Option Nat :=
  let ps := remoteParts parts
  if ps.isEmpty then none
  else
    let hops := ps.map fun q => match wayTo s q with | some (h, _, _) => h | none => 0
    let h := hops.foldl max 0
    let hopOf := fun (q : Byte) => copyHop s q p cls
    let k := (ps.filterMap hopOf).foldl (fun m (l, c) => min m (channelSlots s.links[l] c)) 19
    let k := ps.foldl (fun m q => match wayTo s q with | some (n, _, _) => if 1 < n then min m (Config.farSlots q.toNat p.val cls) else m | none => m) k
    let f := (ps.filterMap hopOf).foldl (fun m (l, _) => max m (frameCt s.links[l])) 13
    let ld := ctFrom s t + 1280 + ceilDiv (64 * remoteBeats segs) (max 1 k) * f + h * (headCt s + 64)
    some (ld + h * (headCt s + 64))

/-! ### Blitz envelope (R377) -/

/-- Take the tokens of a Blitz copy, or count it outside the envelope. -/
def takeTokens (s : State) (p : PartId) (len : Nat) : State :=
  let q := s.parts[p]
  let depth := envBB q.own.env * 4096 * 125
  let have' := min depth (q.tokens + (nowCt s - q.tokenAt) * envRB q.own.env * 8)
  let need := ceilDiv len 4096 * 4096 * 125
  if need ≤ have' then updPart s p fun q => { q with tokens := have' - need, tokenAt := nowCt s }
  else countBlzOver (updPart s p fun q => { q with tokens := have', tokenAt := nowCt s }) p

/-! ### Start (R95, R96, R373) -/

def ceValid (r : Word32) : Bool := bit r 31
def cePart (r : Word32) : PartId := partOf (bits r 7 4)
def ceClass (r : Word32) : Nat := bits r 1 0

/-- Lowest idle engine allotted to a pair. -/
def idleEngine (s : State) (p : PartId) (cls : Nat) : Option CeId :=
  allCe.find? fun n => let c := s.ces[n]; c.run.isNone && ceValid c.inForce && cePart c.inForce == p && ceClass c.inForce == cls

/-- A handle that engine n may not read or write: the event is the square's, or the engine's for a handle on another chip (R83). -/
def noteRefused (s : State) (n : CeId) (p : PartId) (who : Option (Option SqId × Nat)) (code : Nat) : State :=
  match who with
  | some (some q, h) => handleRefused s q h code
  | some (none, h) => raise s (srcCe n) (some p) 0x0407 [h, code]
  | none => s

/-- Descriptor of a COPY or RESHARD job: words 0 to 5 and 6 of its body, word 7 read as zero (R418). -/
def jobDesc (s : State) (p : PartId) (j : Job) : Desc :=
  { d := BitVec.ofNat 512 (j.body.toNat % 2 ^ 448), src := .job (jobId j.body) (BitVec.ofNat 8 (jobType j.body)), part := p
    epoch := s.parts[p].epoch, kickAt := 0, inLaunch := false }

/-- A COPY or RESHARD job that waits enters the copy queue once it has room (R419). -/
def enterCopy (s : State) (p : PartId) : State :=
  match s.parts[p].copyWait with
  | some j =>
    if copyLoad s p < resQdepth s.parts[p].own.res then
      enqueue (updPart s p fun q => { q with copyWait := none }) (jobDesc s p j)
    else s
  | none => s

/-- Status of a descriptor with a remote part whose route is not usable as it starts: CLOSED at a closing link, else NO_LINK (R307, R309). The chip's own
position has no route and takes NO_LINK too (log 98). -/
def startCode (s : State) (p : PartId) (cls : Nat) (parts : List CePart) : Nat :=
  let cs := (remoteParts parts).map fun pos => routeCode s pos p cls
  if cs.contains stClosed then stClosed else if cs.all (· == 0) then 0 else stNoLink

/-- COPY_DESCRIPTOR_START. A reserved CLASS has no engine of its own: the descriptor is refused as it stands first among its class (log 23). -/
def copyStart (s : State) (p : PartId) (cls : Fin 3) : State :=
  let s := enterCopy s p
  let q := s.parts[p]
  if !s.clk.frameOn || q.st ≠ .active || !domOn s domEngine then s
  else match q.queue.find? fun d => dClass d.d == cls.val || dClass d.d == 3 with
    | none => s
    | some d =>
      let take := fun (s : State) => updPart s p fun q => { q with queue := q.queue.erase d }
      let t := match d.src with | .kick _ _ => d.kickAt | .job _ _ => nowCc s
      if dClass d.d = 3 then endDesc (take s) d stBadDesc (some t) 0
      else match idleEngine s p cls.val with
        | none => s
        | some n =>
          let (code, who, pl) := planOf s p d.d d.src
          let s := take s
          if code ≠ 0 then endDesc (noteRefused s n p who code) d code (some t) 0
          else if startCode s p cls.val pl.parts ≠ 0 then endDesc s d (startCode s p cls.val pl.parts) (some t) 0
          else
            let len := 64 * pl.lines
            let s := if cls.val = 0 then takeTokens s p len else s
            let strict := s.parts[p].strict
            let r : CeRun :=
              { desc := d, start := t, land := if strict then some (t + 2048 + 64 * ceilDiv len 4096) else none
                landCount := if strict then remoteDue s p cls.val t pl.parts pl.segs else none
                segs := pl.segs, beat := none, nextAt := nowCc s + 1, waitedAt := 0, parts := pl.parts, envs := planEnvs pl
                planned := BitVec.ofNat 8 pl.planned, status := 0 }
            let s := noteRefused s n p pl.who pl.planned
            sbRefresh (updCe s n fun c => { c with run := some r }) n

/-! ### Beats (R96, R305, R353) -/

/-- Duration of a beat: twice as long in an HBM emergency (R452). -/
def beatCc (s : State) : Nat := if s.thermal.hbmEmerg then 128 else 64

/-- Split up to n lines off the front of the segments. -/
def takeLines : Nat → List Seg → List Seg × List Seg
  | _, [] => ([], [])
  | n, g :: r =>
    if n = 0 then ([], g :: r)
    else if g.lines ≤ n then
      let (a, b) := takeLines (n - g.lines) r
      (g :: a, b)
    else ([{ g with lines := n }], { g with src := advLoc g.src n, dst := advLoc g.dst n, lines := g.lines - n } :: r)

/-- Uncaptured pages and granules that writing a line would change (R353). -/
def lineBlocked (s : State) (p : PartId) (dst : Loc) : List Nat × List Nat :=
  match dst with
  | .sp q a => (([a / 16384 % 2048, (a + 63) / 16384 % 2048].filter fun k => s.squares[q].uncapt.getLsbD k).map fun k => q.val * 2048 + k, [])
  | .hbm a => match s.snp[p].job, logicalOf s p a with
    | some j, some (seg, off) => ([], [granKey seg off, granKey seg (off + 63)].filter fun k => j.grans.contains k)
    | _, _ => ([], [])
  | .remote _ _ _ _ => ([], [])

/-- The engines' phase-B turns (R64). -/
def ceTurn (s : State) : Bool := s.clk.frameOn && (nowCc s % 8 == 1 || nowCc s % 8 == 5)

/-- Take a line of a scratchpad to read or write it in this turn of a phase-B client: every bank it lies in is used, unless one already was (R63, R65).
HBM has no turns here. -/
def takeLine (s : State) (turn read : Bool) (l : Loc) : Option State :=
  match l with
  | .sp q a =>
    let bs := if a % 64 = 0 then [bankOf a] else [bankOf a, bankOf (a + 63)]
    if turn && !(bs.any fun b => (banksUsed s q).contains b) then
      let s := bs.foldl (fun s b => useBank s q b) s
      some (if read then padRead s q else s)
    else none
  | _ => some s

/-- The 64-bit words of a line written at scratchpad address a, round the end of the scratchpad (R67). -/
def lineWords (a : Nat) (x : Line) : List (Nat × List Byte) :=
  (List.range 8).map fun i => ((a + 8 * i) % spBytes, ((natLe 64 x.toNat).drop (8 * i)).take 8)

/-- Write a line at a place of this chip. -/
def writeLine (s : State) (p : PartId) (l : Loc) (x : Line) : State :=
  match l with
  | .hbm a => hbmWrite s p a (natLe 64 x.toNat)
  | .sp q a => padWrite s q (lineWords a x)
  | .remote _ _ _ _ => s

/-- Line i of a beat in this turn: it is read, and written, each in a bank that this turn has not used; otherwise the next turn moves it (R65). -/
def moveLine (p : PartId) (turn : Bool) (st : State × CeBeat) (i : Nat) (x : Loc × Loc × Nat) : State × CeBeat :=
  let (s, bt) := st
  let (src, dst, _) := x
  if bt.done.contains i then st
  else
    let c := if (bt.got.any fun e => e.1 == i) then 0 else locClosed s src
    let c := if c ≠ 0 then c else locClosed s dst
    if c ≠ 0 then (s, { bt with done := i :: bt.done, code := if bt.code = 0 then c else bt.code })
    else
      let (s, bt) := if (bt.got.any fun e => e.1 == i) then (s, bt) else
        match takeLine s turn true src with
        | some s => (s, { bt with got := bt.got ++ [(i, readLine s src)] })
        | none => (s, bt)
      match bt.got.find? fun e => e.1 == i, dst with
      | none, _ => (s, bt)
      | some _, .remote _ _ _ _ => (s, bt)
      | some (_, v), dst =>
        match takeLine s turn false dst with
        | some s => (writeLine s p dst v, { bt with done := i :: bt.done })
        | none => (s, bt)

/-- What one turn of an engine moves of its beat. -/
def beatTurn (s : State) (p : PartId) (bt : CeBeat) : State × CeBeat :=
  let turn := ceTurn s
  (beatLines bt.segs).zipIdx.foldl (fun st (x, i) => moveLine p turn st i x) (s, bt)

/-- Every line of the beat has been moved, or read for another chip. -/
def beatOver (bt : CeBeat) : Bool :=
  (beatLines bt.segs).zipIdx.all fun (x, i) => bt.done.contains i || (match x.2.1 with | .remote _ _ _ _ => bt.got.any fun e => e.1 == i | _ => false)

/-- Hand a segment of a beat to its first link. `last` marks the end of a remote part. The status of a refusal and the link
come back (R307, R309). -/
def sendSeg (s : State) (r : CeRun) (pos : Byte) (q : SqId) (h : Byte) (off : Nat) (last : Bool) (lines : List Line) :
    State × Nat × Option LinkId :=
  let p := r.desc.part
  match copyHop s pos p (dClass r.desc.d) with
  | some (l, ch) =>
    let ep := s.parts[p].epoch.toNat
    let s := queueBeat s l ch ep pos q h off last lines
    -- a FEN flag of a remote part follows its last beat (log 24)
    (if last && dFen r.desc.d then sendRecord s l 0x02 ch ep ((dFlag r.desc.d).val + 8192) else s, 0, some l)
  | none => (s, if routeCode s pos p (dClass r.desc.d) = stClosed then stClosed else stLinkFault, none)

/-- The remote segments of a beat whose lines have been read, in order: `k` lines stand before them. With the state and a refusal come the links that
the parts have taken. -/
def sendSegs (r : CeRun) (rest : List Seg) (got : List (Nat × Line)) : List Seg → Nat → State × Nat × List (Nat × LinkId) → State × Nat × List (Nat × LinkId)
  | [], _, st => st
  | g :: gs, k, (s, code, via) =>
    match g.dst with
    | .remote pos q h off =>
      let lines := (List.range g.lines).filterMap fun i => (got.find? fun e => e.1 == k + i).map (·.2)
      if lines.length = g.lines then
        let (s, c, l) := sendSeg s r pos q h off (!((gs ++ rest).any fun x => x.part == g.part)) lines
        sendSegs r rest got gs (k + g.lines) (s, if code = 0 then c else code, via ++ l.toList.map fun l => (g.part, l))
      else sendSegs r rest got gs (k + g.lines) (s, code, via)
    | _ => sendSegs r rest got gs (k + g.lines) (s, code, via)

/-- Count the moved lines in their parts, with the links they took. -/
def countLines (parts : List CePart) (gs : List Seg) (via : List (Nat × LinkId)) (cc : Nat) : List CePart :=
  parts.mapIdx fun i x =>
    let n := (gs.filter fun g => g.part == i).foldl (fun a g => a + g.lines) 0
    let on := (via.filter fun v => v.1 == i).map (·.2)
    if n = 0 then x else { x with left := x.left - n, doneAt := cc, via := x.via ++ on.filter fun l => !x.via.contains l }

/-- Every part has landed, the remote ones too: the flag, the completion (R97, log 109). -/
def finishRun (s : State) (n : CeId) (r : CeRun) : State :=
  let p := r.desc.part
  let d := r.desc.d
  let s := updCe s n fun c => { c with waiting := c.waiting.filter fun x => x != r }
  let here := r.parts.isEmpty || r.parts.any fun x => match x.dst with | .remote _ _ _ => false | _ => true
  let allowed := inRange s p (dFlag d).val || decide (flagRight s p (dFlag d).val true = FlagRight.granted)
  let s := if dFen d && here && allowed then writeFlag s (dFlag d) true (nowCc s) (rankCe n) none else s
  endDesc (sbRefresh s n) r.desc r.status.toNat (some r.start) (landedParts r)

/-- The beat leaves the engine: what it carries waits for its landing, and the engine is idle (R373). A descriptor of no lines may have landed already
(R98). -/
def releaseEngine (s : State) (n : CeId) (r : CeRun) : State :=
  let s := updCe s n fun c => { c with run := none, waiting := c.waiting ++ [r], inForce := c.allot }
  if !r.parts.isEmpty && r.parts.all (·.landed) then finishRun s n r else s

/-- The descriptor ends with a failure: what has not landed counts nothing (R95). -/
def failRun (s : State) (n : CeId) (r : CeRun) (code : Nat) : State :=
  let moving := s.ces[n].run == some r
  let s := updCe s n fun c =>
    { c with run := if moving then none else c.run, inForce := if moving then c.allot else c.inForce, waiting := c.waiting.filter fun x => x != r }
  endDesc (sbRefresh s n) r.desc code (some r.start) (landedParts r)

/-- Squares that the beat reads. -/
def beatSources (gs : List Seg) : List SqId := gs.filterMap fun g => match g.src with | .sp q _ => some q | _ => none

/-- A store error of an engine's read: corrected, DATA_ERROR in a source, or an engine fault (R68, R454, R460). A scratchpad error lies in square sq, when
the beat reads it. -/
def copyEcc (s : State) (n : CeId) (r : CeRun) (gs : List Seg) (e : Ecc) (sq : SqId) : State × Nat :=
  let p := r.desc.part
  let srcs := beatSources gs
  let srcSq := if srcs.contains sq then sq else srcs.headD 0
  match e with
  | .clean => (s, 0)
  | .corrected (.hbm t) _ => (hbmCorrected s t (some p), 0)
  | .corrected st loc => (sqCorrected s srcSq st loc.toNat, 0)
  | .uncorrected (.hbm t) loc => (hbmUncorrected s t (some p) loc.toNat, stDataError)
  | .uncorrected .copyEngine loc => (partFaultBy (raise s (srcCe n) (some p) 0x0402 [11, loc.toNat]) p fcEngine none (srcCe n) 0x0402, 0xFF)
  | .uncorrected .scratchpad loc => (sqUncorrected s srcSq .scratchpad loc.toNat, stDataError)
  | .uncorrected st loc => (squareError s srcSq st loc.toNat, 0xFF)

/-- A beat is at its end: what it carries for other chips leaves, and the next beat may begin 64 cc after this one did (R95, R96). -/
def endBeat (s : State) (n : CeId) (r : CeRun) (bt : CeBeat) : State :=
  let (s, code, via) := sendSegs r r.segs bt.got bt.segs 0 (s, bt.code, [])
  let r' := { r with beat := none, nextAt := bt.since + beatCc s, parts := countLines r.parts bt.segs via (nowCc s) }
  let r' := if code ≠ 0 ∨ r.status ≠ 0 then { r' with parts := r.parts } else r'
  let s := updCe s n fun c => { c with run := some r' }
  if code ≠ 0 then failRun s n r' code
  else if r.status ≠ 0 then failRun s n r' r.status.toNat
  else if !r.segs.isEmpty then s
  else if r.planned ≠ 0 then failRun s n r' r.planned.toNat
  else releaseEngine s n r'

/-- COPY_BEAT: engine n moves what a turn allows of its beat of 4 KiB, and begins the next one when its time has come (R63 to R65, R96, log 99). -/
def copyBeat (s : State) (n : CeId) (e : Ecc) (sq : SqId) : State :=
  match s.ces[n].run with
  | none => s
  | some r =>
    if (r.beat.isNone ∧ nowCc s < r.nextAt) ∨ !domOn s domEngine then s
    else
      let (gs, rest) := takeLines 64 r.segs
      let (bt, rest) : CeBeat × List Seg := match r.beat with | some b => (b, r.segs) | none => (⟨gs, [], [], nowCc s, 0⟩, rest)
      let p := r.desc.part
      let bl := (beatLines bt.segs).zipIdx.map fun (x, i) => if bt.done.contains i then ([], []) else lineBlocked s p x.2.1
      let pages := (bl.flatMap (·.1)).eraseDups
      let grans := (bl.flatMap (·.2)).eraseDups
      if !pages.isEmpty || !grans.isEmpty then
        if r.waitedAt = nowCc s + 1 then s
        else
          let s := countDev s [p] devCrema (srcCe n) none (dTag r.desc.d)
          let s := updCe s n fun c => { c with run := some { r with waitedAt := nowCc s + 1 } }
          -- a page may belong to a square of this partition only
          updSnp s p fun x => { x with job := x.job.map fun j =>
            { j with wantPages := j.wantPages ++ pages.filter fun k => !j.wantPages.contains k
                     wantGrans := j.wantGrans ++ grans.filter fun k => !j.wantGrans.contains k } }
      else
        let (s, ecc) := copyEcc s n r bt.segs e sq
        if ecc = 0xFF then s
        else
          let (s, bt) := beatTurn s p { bt with code := if bt.code = 0 then ecc else bt.code }
          let r := { r with segs := rest, beat := some bt }
          let s := updCe s n fun c => { c with run := some r }
          if beatOver bt then endBeat s n r bt else s

/-! ### Landing (R84, R97, R98, R308) -/

/-- Ranges in ascending order, those that follow each other without a gap joined: images that lie across two of them are whole (R154, R158). -/
def joinRanges : List (Nat × Nat) → List (Nat × Nat)
  | [] => []
  | (o, n) :: r =>
    match joinRanges r with
    | (o', n') :: t => if o + n = o' then (o, n + n') :: t else (o, n) :: (o', n') :: t
    | [] => [(o, n)]

/-- Bytes of a landed part by range, in ascending offset. -/
def partBytes (s : State) (q : SqId) (h : Nat) (ranges : List (Nat × Nat)) : List (Nat × List Byte) :=
  let base := hdlBase (hdlOf s.squares[q] h)
  let sorted := ranges.foldr (fun x l => (l.takeWhile fun y => decide (y.1 < x.1)) ++ x :: l.dropWhile fun y => decide (y.1 < x.1)) []
  (joinRanges sorted).map fun (o, n) => (o, (List.range n).map fun i => memByte s.squares[q].mem ((base + o + i) % spBytes))

/-- Part k of the descriptors of engine n that wait or move, oldest first. -/
def findPart : List CeRun → Nat → Option (CeRun × Nat)
  | [], _ => none
  | r :: l, k => if k < max 1 r.parts.length then some (r, k) else findPart l (k - max 1 r.parts.length)

/-- Replace a run by its next form, wherever the engine holds it. -/
def putRun (s : State) (n : CeId) (r r' : CeRun) : State :=
  updCe s n fun c => { c with run := c.run.map fun x => if x = r then r' else x, waiting := c.waiting.map fun x => if x = r then r' else x }

/-- After part k has landed or failed. -/
def afterPart (s : State) (n : CeId) (r : CeRun) (k : Nat) (code : Nat) : State :=
  let gone := match (r.parts[k]?).map (·.dst) with
    | some (.square q _) => r.envs.filter fun e => e.1 != q
    | _ => r.envs
  let r' := { r with parts := r.parts.modify k fun x => { x with landed := true, refused := code ≠ 0 }, envs := gone
                     status := if r.status = 0 then BitVec.ofNat 8 code else r.status }
  let s := sbRefresh (putRun s n r r') n
  if r'.segs.isEmpty && r'.parts.all (fun x => x.landed) && !(s.ces[n].run == some r') then finishRun s n r' else s

/-- COPY_LANDING of an on-chip part: in Strict in cycle L or when the part completes, in Relaxed when its last line has committed. -/
def copyLanding (s : State) (n : CeId) (k : Nat) : State :=
  let c := s.ces[n]
  match findPart (c.waiting ++ c.run.toList) k with
  | none => s
  | some (r, k) =>
    let at_ := match r.land with | some l => decide (l ≤ nowCc s) | none => true
    match r.parts[k]? with
    | none => if r.parts.isEmpty && r.segs.isEmpty && at_ && r.planned == 0 && c.waiting.contains r then finishRun s n r else s
    | some x =>
      if x.landed ∨ x.left ≠ 0 ∨ !at_ then s
      else
        let late := match r.land with | some l => decide (l < x.doneAt) | none => false
        let p := r.desc.part
        let s := if late then countDev s [p] devLate (srcCe n) none (dTag r.desc.d) else s
        match x.dst with
        | .remote _ _ _ => s
        | .hbm => afterPart s n r k 0
        | .square q h =>
          -- its lines have all crossed into the rank (R432)
          let code := sqGone s q
          if code ≠ 0 then afterPart (handleRefused s q h.toNat code) n r k code
          else afterPart (acceptWrite s q h.toNat (partBytes s q h.toNat x.ranges)) n r k 0

/-- In Relaxed the acknowledgement of a remote part is back: the links that it took have sent all of its channel and their partners have acknowledged it
(R293, R308, log 72). -/
def remoteAcked (s : State) (r : CeRun) (x : CePart) : Bool :=
  x.via.all fun l => match copyChannelOf s.links[l] r.desc.part (dClass r.desc.d) with
    | some c => channelQuiet s.links[l] c
    | none => true

/-- REMOTE_COPY_LANDING at the sender: in Strict at its count, in Relaxed when the acknowledgement is back (R308). -/
def remoteLanding (s : State) (n : CeId) (k : Nat) : State :=
  let c := s.ces[n]
  match findPart (c.waiting ++ c.run.toList) k with
  | none => s
  | some (r, k) =>
    match r.parts[k]? with
    | some x => match x.dst with
      | .remote _ _ _ =>
        let due := match r.landCount with | some t => decide (ctFrom s (nowCc s) ≥ t) | none => remoteAcked s r x
        if x.landed ∨ x.left ≠ 0 ∨ !due then s else afterPart s n r k 0
      | _ => s
    | none => s

def execCopyDescriptorStart (p : PartId) (cls : Fin 3) (s : State) : Host.Outcome State Fault Refusal := .next (copyStart s p cls)
def execCopyBeat (n : CeId) (reads : EccAt) (s : State) : Host.Outcome State Fault Refusal := .next (copyBeat s n reads.ecc reads.sq)
def execCopyLanding (n : CeId) (k : Nat) (s : State) : Host.Outcome State Fault Refusal := .next (copyLanding s n k)

end Sys2Proof.Machine
end

