-- ==== Sys2Proof/Machine/Fec.lean ====
section
/-! DEFINITION. The forward error correction of the links (R277, R279): RS(544,514) over GF(2^10) as in IEEE 802.3, two codewords interleaved symbol by
symbol and striped over the eight lanes. The field polynomial, the generator and the order of the symbols are those of IEEE 802.3 (PRESUMED, log 87). -/

namespace Sys2Proof.Machine

/-! ### GF(2^10), by x^10 + x^3 + 1 -/

def gfDbl (a : Nat) : Nat := if 512 ≤ a then (2 * a) ^^^ 0x409 else 2 * a

/-- Product of two elements, from the top bit of b down. -/
def gfMul (a b : Nat) : Nat := [9, 8, 7, 6, 5, 4, 3, 2, 1, 0].foldl (fun r i => if b.testBit i then gfDbl r ^^^ a else gfDbl r) 0

/-- α^k, α = 2. -/
def gfExp (k : Nat) : Nat := Nat.repeat gfDbl (k % 1023) 1

/-- Inverse: a^1022, by squaring a^(2^k − 1) up to k = 9. -/
def gfInv (a : Nat) : Nat := let r := Nat.repeat (fun r => gfMul (gfMul r r) a) 8 a; gfMul r r

/-- Σ p_i x^i, low coefficient first. -/
def gfEval (p : List Nat) (x : Nat) : Nat := p.foldr (fun c r => gfMul r x ^^^ c) 0

/-! ### Codewords: 514 message symbols and 30 parity symbols, the highest power first -/

/-- The low 30 coefficients of 2^b g(x), coefficient i at bits [10i+9:10i], for b from 0: g(x) is the product of (x − α^j), j from 0 to 29. -/
def rsRows : List Nat := [
  0x8fe282ece68a0011b235468f99448417ad07bd81eb9f7dcd69c5262305881fcb927880d0a0b,
  0x1dc595d9cc16402360638d1f22ad082f1a9f7b02d57eebbed2884cd60b103f9724f100a341f,
  0x3b8b2bb3982c8046c0c6187e455a105e352ed60da8fd575dad12d9ac12297f2e49e20044c3e,
  0x771647473959008d818c30bc1ab029bc2add8c1353fa3ebb5a25b348045bfe1c13e4098987c,
  0xee2c8e8a7bb2010b27186138b544527a553b3c26a7b4fd56bd4b26102cb6fe7827c812114f8,
  0xde599d34ff6642066e39c231fa88a4f4aa665c4c4d697a8d73960cb0596cfef0df9024229f0,
  0xbef32a4dfecc840cd87b8663753548eb545cb8989a92753ee62e5960b2d8ffe13f0448453e0,
  0x7fe6d4bffc9b480994f60ec67a6a90d4e8a955303764ea79c55cb2c161b9fdc2fe2c908a3c9,
  0xff8d397bf134d0030dec1d8ce4f529abd1d28e606e8954d78ab92512c372f9c5ec7d201679b,
  0xfd5a62d7eb69a0061bd83b19c9ea5255e3a518c9dd12a9ab1d704ab582edf1cbc8de402cb3f]

/-- Σ rows for the set bits of a symbol: the symbol times g(x) without its leading term. -/
def rsRow (x : Nat) : Nat := (rsRows.zipIdx).foldl (fun r (w, b) => if x.testBit b then r ^^^ w else r) 0

/-- Remainder of m(x) x^30 by g(x), as 30 symbols in one number, the highest power at the top. -/
def rsRemainder (m : List Nat) : Nat :=
  m.foldl (fun r x => (r * 1024) % 2 ^ 300 ^^^ rsRow (r / 2 ^ 290 ^^^ x)) 0

/-- Parity symbols, the highest power first. -/
def rsParity (m : List Nat) : List Nat := let r := rsRemainder m; (List.range 30).map fun i => (r >>> (10 * (29 - i))) % 1024

def rsEncode (m : List Nat) : List Nat := m ++ rsParity m

/-- The word is a codeword. -/
def rsValid (c : List Nat) : Bool := c.drop 514 == rsParity (c.take 514)

/-! ### Decoding: Berlekamp and Massey, Chien, Forney -/

/-- Syndromes c(α^j), j from 0 to 29: those of what the received parity differs by from the parity of the received message, since a codeword has none. -/
def rsSyndromes (c : List Nat) : List Nat :=
  let e := ((c.drop 514).zip (rsParity (c.take 514))).map fun (x, y) => x ^^^ y
  (List.range 30).map fun j => let x := gfExp j; e.foldl (fun r y => gfMul r x ^^^ y) 0

/-- Error locator under construction: the locator, the one before its last change of length, its length, the steps since, that discrepancy. -/
structure Locator where
  lam : List Nat
  old : List Nat
  len : Nat
  gap : Nat
  disc : Nat

def polyAdd : List Nat → List Nat → List Nat
  | [], q => q
  | p, [] => p
  | a :: p, b :: q => (a ^^^ b) :: polyAdd p q

/-- Step n of Berlekamp and Massey. -/
def locatorStep (syn : List Nat) (t : Locator) (n : Nat) : Locator :=
  let d := (t.lam.zipIdx).foldl (fun r (c, i) => if i ≤ n ∧ i ≤ t.len then r ^^^ gfMul c (syn.getD (n - i) 0) else r) 0
  if d = 0 then { t with gap := t.gap + 1 }
  else
    let k := gfMul d (gfInv t.disc)
    let lam := polyAdd t.lam (List.replicate t.gap 0 ++ t.old.map fun c => gfMul k c)
    if 2 * t.len ≤ n then ⟨lam, t.lam, n + 1 - t.len, 1, d⟩ else { t with lam := lam, gap := t.gap + 1 }

/-- Product of two polynomials below x^30. -/
def polyMul (p q : List Nat) : List Nat :=
  ((p.zipIdx).foldl (fun r (c, i) => polyAdd r (List.replicate i 0 ++ q.map fun y => gfMul c y)) []).take 30

/-- The error locator of some syndromes. -/
def rsLocator (syn : List Nat) : Locator := (List.range 30).foldl (locatorStep syn) ⟨[1], [1], 0, 1, 1⟩

/-- α^(−1) times an element. -/
def gfHalf (a : Nat) : Nat := if a % 2 = 1 then (a ^^^ 0x409) / 2 else a / 2

/-- Take the located errors out of the symbols of the powers from 0 up: x is α to that power and z its inverse. -/
def rsFix (lam omega slope : List Nat) : Nat → Nat → List Nat → List Nat
  | _, _, [] => []
  | x, z, y :: r =>
    (if gfEval lam z = 0 then y ^^^ gfMul x (gfMul (gfEval omega z) (gfInv (gfEval slope z))) else y) :: rsFix lam omega slope (gfDbl x) (gfHalf z) r

/-- The word with the errors that its syndromes locate taken out. -/
def rsCorrect (c syn lam : List Nat) : List Nat :=
  -- formal derivative: the odd coefficients
  let slope := (lam.zipIdx).drop 1 |>.map fun (y, i) => if i % 2 = 1 then y else 0
  (rsFix lam (polyMul syn lam) slope 1 1 c.reverse).reverse

/-- Symbols in which two words differ. -/
def rsDistance (a b : List Nat) : Nat := ((a.zip b).filter fun (x, y) => x != y).length

/-- What the decoder makes of a received word: the message of the codeword within 15 symbols of it and how many symbols it corrected; none where no
codeword is that near (R277). -/
def rsDecode (c : List Nat) : Option (List Nat × Nat) :=
  if rsValid c then some (c.take 514, 0)
  else
    let syn := rsSyndromes c
    let t := rsLocator syn
    -- a locator longer than 15 is that of no codeword within 15 symbols
    if 15 < t.len then none
    else
    let d := rsCorrect c syn t.lam
    let n := rsDistance c d
    if rsValid d && decide (n ≤ 15) then some (d.take 514, n) else none

/-! ### Frames on the lanes (R279) -/

/-- Symbols of a number, the lowest first. -/
def symbolsOf (n x : Nat) : List Nat := (List.range n).map fun i => (x >>> (10 * i)) % 1024
def symbolsNat : List Nat → Nat
  | [] => 0
  | x :: r => x + 1024 * symbolsNat r

/-- Every second element, from the first or the second. -/
def everyOther : List Nat → List Nat
  | [] => []
  | [x] => [x]
  | x :: _ :: r => x :: everyOther r

/-- Two lists in turn. -/
def interleave : List Nat → List Nat → List Nat
  | [], _ => []
  | x :: a, b => x :: (match b with | [] => a | y :: b => y :: interleave a b)

/-- A frame as its lanes carry it: its symbols in turn to two codewords, the codewords interleaved symbol by symbol, symbol i on lane i mod 8. -/
def wireFrame (f : BitVec 10280) : Lanes :=
  let m := symbolsOf 1028 f.toNat
  let w := interleave (rsEncode (everyOther m)) (rsEncode (everyOther (m.drop 1)))
  Vector.ofFn fun (l : Fin 8) => BitVec.ofNat 1360 (symbolsNat (((w.zipIdx).filter fun (_, i) => i % 8 == l.val).map (·.1)))

/-- The two words that the lanes carried. -/
def rxWords (r : Lanes) : List Nat × List Nat :=
  let w := (List.range 1088).map fun i => (((r[i % 8]?).getD 0).toNat >>> (10 * (i / 8))) % 1024
  (everyOther w, everyOther (w.drop 1))

/-- What the decoder finds in a received frame: the frame, none where a codeword is uncorrectable; how many codewords it corrected; how many it could not. -/
structure RxFrame where
  frame : Option (BitVec 10280)
  corrected : Nat
  lost : Nat
deriving DecidableEq, Repr

def rxFrame (r : Lanes) : RxFrame :=
  let (a, b) := rxWords r
  let x := rsDecode a
  let y := rsDecode b
  let fixed := fun (z : Option (List Nat × Nat)) => match z with | some (_, n) => bool2nat (decide (n ≠ 0)) | none => 0
  { frame := match x, y with
      | some (m, _), some (n, _) => some (BitVec.ofNat 10280 (symbolsNat (interleave m n)))
      | _, _ => none
    corrected := fixed x + fixed y
    lost := bool2nat x.isNone + bool2nat y.isNone }

end Sys2Proof.Machine
end

