-- ==== Sys2Proof/Machine/Domain.lean ====
section
/-! DEFINITION. Power domains as every family meets them (R428 to R432, R444, R445): the service level and what gating a domain loses. -/

namespace Sys2Proof.Machine

/-! ### Service level (R444, R445) -/

def ranksOn (s : State) : BitVec 8 := BitVec.ofNat 8 ((List.finRange 8).foldl (fun a r => a + (bool2nat (domOn s (domRank r)) <<< r.val)) 0)
def hbmOn (s : State) : BitVec 6 := BitVec.ofNat 6 ((List.finRange 6).foldl (fun a t => a + (bool2nat (domOn s (domHbm t)) <<< t.val)) 0)
def linksUp (s : State) : BitVec 12 := BitVec.ofNat 12 (allLink.foldl (fun a l => a + (bool2nat (s.links[l].st == .up) <<< l.val)) 0)

/-- The highest level whose needs are met. -/
def levelOf (s : State) : Nat :=
  if s.king.stage ≠ .running then 0
  else if domOn s domEngine && ranksOn s != 0 && hbmOn s != 0 then (if s.king.servingOk then 3 else 2)
  else 1

/-- The device serves its functions: DEVICE_READY has been reached and the firmware runs (R21, R441; log 91). -/
def serving (s : State) : Bool := s.king.deviceReady && s.king.stage == .running

/-- Jobs of p that wait while LEVEL is below 2 complete with CANCELLED: launches not begun, copies and snapshots not started (log 107). -/
def cancelCompute (s : State) (p : PartId) : State :=
  let q := s.parts[p]
  let kick := fun (d : Desc) => match d.src with | .kick _ _ => true | .job _ _ => false
  let s := updPart s p fun q => { q with launchQ := [], snapQ := [], copyWait := none, queue := q.queue.filter kick }
  let s := (q.launchQ ++ q.snapQ ++ q.copyWait.toList).foldl (fun s j => cancelJob s p j) s
  (q.queue.filter fun d => !kick d).foldl (fun s d => endDesc s d stCancelled none 0) s

/-- SERVE jobs of p that wait while LEVEL is below 3 complete with DISABLED. -/
def disableServes (s : State) (p : PartId) : State :=
  let w := s.srv[p].waiting
  w.foldl (fun s j => endUnstarted s p j 1) (updSrv s p fun v => { v with waiting := [] })

/-- Bring LEVEL up to date; a fall raises one event and fires vector 2 once, and the jobs that wait end as those that come (R445). -/
def noteService (s : State) : State :=
  let old := s.king.level.toNat
  let new := levelOf s
  let s := { s with king := { s.king with level := BitVec.ofNat 2 new } }
  if new < old then
    let fired := evtFires2 s
    let s := raise s srcKing none 0x0111 [old, new]
    let s := if fired then s else fireMsix s 0 2
    let s := if new < 2 then allPart.foldl cancelCompute s else s
    if new < 3 then admPick (allPart.foldl disableServes s) else s
  else s

/-- `SERVICE_LEVEL` (R445). -/
def serviceLevel (s : State) : Word32 :=
  BitVec.ofNat 32 (s.king.level.toNat + (bool2nat (linksUp s != 0) <<< 2) + (bool2nat s.king.deviceReady <<< 3) + ((ranksOn s).toNat <<< 4)
    + ((hbmOn s).toNat <<< 12) + ((linksUp s).toNat <<< 18))

/-! ### Domain states -/

def setDom (s : State) (d : DomId) (x : Dom) : State := { s with power := { s.power with dom := s.power.dom.set d x } }

/-- Segments that k healthy stacks form (R86). -/
def segmentsOf (k : Nat) : Nat := 64 * k / 6

/-- Healthy stacks are those whose domain is ON and trained; the segments are formed anew. -/
def formSegments (s : State) : State :=
  let m := hbmOn s &&& s.hbm.trained
  { s with hbm := { s.hbm with healthy := m, segments := segmentsOf (bitsOf m).length } }

/-- A link domain without power: its tables stay, everything else is as after reset (log 38). -/
def linkOff (k : Link) : Link := { linkReset with slot := k.slot, ch := k.ch, irt := k.irt, irs := k.irs, matchReg := k.matchReg }

/-- What gating a domain loses (R428, R430): the squares of a rank but for slot tables and flag view, the data of a stack, a link's state, the
flag pool and what the shared engines had in hand, which ends with CANCELLED (log 92). -/
def gateLoss (s : State) (d : DomId) : State :=
  if d.val < 8 then
    { s with squares := s.squares.mapFinIdx fun i q _ => if i / 8 = d.val then { squareReset with slots := q.slots, view := q.view } else q
             lungo := { s.lungo with ranks := setBits s.lungo.ranks d.val 1 0 } }
  else if h : d.val < 14 then
    let t : StackId := ⟨d.val - 8, by omega⟩
    formSegments { s with hbm := { s.hbm with trained := setBits s.hbm.trained t.val 1 0, mem := [] } }
  else if h : d.val < 26 then updLink s ⟨d.val - 14, by omega⟩ linkOff
  else
    let s := allPart.foldl (fun s p => srvDisable (dropRunning (dropWaiting s p) p) p) s
    { s with flags := { s.flags with pool := 0, writes := [], engine := 0 }, squares := s.squares.map fun q => { q with view := 0 }, msgs := [], credits := [] }

/-- A domain gates: the monitors check first (R432), and the request that asked for it ends. -/
def gateDomain (s : State) (d : DomId) : State :=
  let s := consRun s
  let s := gateLoss (setDom s d .gated) d
  let s := match s.power.req with
    | some r => if r.dom = d ∧ !r.ungate then { s with power := { s.power with req := none, busy := false, err := 0 } } else s
    | none => s
  noteService s

end Sys2Proof.Machine
end

