-- ==== Sys2Proof/Machine/SnapJob.lean ====
section
/-! DEFINITION. Snapshot jobs (R340 to R345, R350, R359 to R361): the areas, the register block, how a SNAPSHOT or ADJOURN job starts and ends, and the
loss of the buddy stream. The captures stand in Snapshot.lean. -/

namespace Sys2Proof.Machine

/-! ### Registers (R344) -/

def snpPhaseCode (x : SnpPhase) : Nat :=
  match x with
  | .armed => 0
  | .signalled => 0
  | .halting => 1
  | .draining => 2
  | .pause => 3
  | .background => 4
  | .buddy => 5

def genStCode (x : GenSt) : Nat :=
  match x with
  | .empty => 0
  | .open_ => 1
  | .local_ => 2
  | .complete => 3

def genReg (g : Gen) : Nat :=
  genStCode g.st + 4 * bool2nat g.adjourned + 8 * bool2nat g.unclean + 16 * bool2nat g.blost + (g.genNo.toNat <<< 32)

def bitCount {w : Nat} (x : BitVec w) : Nat := (bitsOf x).length

/-- Squares of a snapshot in ascending order, and pages of them not yet captured. -/
def jobSquares (j : SnpJob) : List SqId := allSq.filter fun n => j.squares.getLsbD n.val
def uncaptured (s : State) (j : SnpJob) : Nat := (jobSquares j).foldl (fun a n => a + bitCount s.squares[n].uncapt) 0

/-- Registers of a partition's snapshot block: 0 `SNP_CTL`, 1 `SNP_AREA`, 2 `SNP_PROT`, 3 and 4 `SNP_GEN[p][g]`, 5 `SNP_PROG`. -/
def snpReg (s : State) (p : PartId) (k : Nat) : Word64 :=
  let n := s.snp[p]
  match k with
  | 0 => BitVec.ofNat 64 (bool2nat n.en + 2 * bool2nat n.buddy + 4 * n.rate.toNat)
  | 1 => BitVec.ofNat 64 (n.afirst.toNat + (n.bfirst.toNat <<< 8) + (n.nseg.toNat <<< 16))
  | 2 => n.prot
  | 3 => BitVec.ofNat 64 (genReg n.gens[(0 : Fin 2)])
  | 4 => BitVec.ofNat 64 (genReg n.gens[(1 : Fin 2)])
  | _ => match n.job with
    | some j => BitVec.ofNat 64 (uncaptured s j + (j.grans.length <<< 18) + (snpPhaseCode j.phase <<< 35))
    | none => 0

/-- May EN be set (R344)? -/
def snpMayEnable (s : State) (p : PartId) (n : Snp) : Bool :=
  let k := n.nseg.toNat
  let a := (List.range k).map fun i => n.afirst.toNat + i
  let b := (List.range k).map fun i => n.bfirst.toNat + i
  let rates := allPart.foldl (fun x q => if q ≠ p && s.snp[q].en then x + s.snp[q].rate.toNat else x) n.rate.toNat
  k == 1 + bitCount n.prot
    && (a ++ b).all (fun g => decide (g < 64) && (physSeg s p g).isSome && !n.prot.getLsbD g)
    && a.all (fun g => !b.contains g)
    && n.rate != 0 && decide (rates ≤ 16)

/-- A write of the value `new` to register k by function fn. A segment that PROT no longer marks is tracked and captured no more (R340, R357). -/
def snpWrite (s : State) (fn : FnId) (p : PartId) (k : Nat) (new : Word64) : State :=
  let n := s.snp[p]
  if fn ≠ 0 then regPriv s fn
  else if k = 0 then
    let en := bit new 0
    if n.en then
      if bit new 1 != n.buddy || bits new 6 2 != n.rate.toNat then regPriv s fn else updSnp s p fun n => { n with en := en }
    else
      let m := { n with buddy := bit new 1, rate := BitVec.ofNat 5 (bits new 6 2) }
      if !en then { s with snp := s.snp.set p m }
      else if snpMayEnable s p m then
        let m := { m with en := true }
        { s with snp := s.snp.set p m }
      else regPriv s fn
  else if n.en then regPriv s fn
  else updSnp s p fun n => match k with
    | 1 => { n with afirst := BitVec.ofNat 6 (bits new 5 0), bfirst := BitVec.ofNat 6 (bits new 13 8), nseg := BitVec.ofNat 7 (bits new 22 16) }
    | 2 =>
      let on := fun (key : Nat) => new.getLsbD (key / 1152)
      let job := n.job.map fun (j : SnpJob) =>
        { j with grans := j.grans.filter on, wantGrans := j.wantGrans.filter on, caps := j.caps.filter fun c => c.page.isSome || on c.gran }
      { n with prot := new, job := job, gens := n.gens.map fun (g : Gen) => { g with dirty := g.dirty.filter fun e => on e.1 } }
    | _ => n

/-! ### Areas (R340, R341) -/

/-- Bytes of an area from offset `off`: none outside the partition's segments. -/
def areaAt (s : State) (p : PartId) (g : Fin 2) (off len : Nat) : Option Nat :=
  let first := if g = 0 then s.snp[p].afirst.toNat else s.snp[p].bfirst.toNat
  hbmAt s p (first + off / segBytes) (off % segBytes) len

def areaPut (s : State) (p : PartId) (g : Fin 2) (off : Nat) (b : List Byte) : State :=
  match areaAt s p g off b.length with
  | some a => hbmWrite s p a b
  | none => s

def areaZero (s : State) (p : PartId) (g : Fin 2) (off len : Nat) : State :=
  match areaAt s p g off len with
  | some a => { s with hbm := { s.hbm with mem := memZero s.hbm.mem a (a + len) } }
  | none => s

def areaNat (s : State) (p : PartId) (g : Fin 2) (off n : Nat) : Nat := optNat s (areaAt s p g off n) n

/-- Offset of the record of the i-th square, and of a page of its scratchpad. -/
def recordOff (i : Nat) : Nat := 0x1000 + i * 0x2080000
def pageOff (i k : Nat) : Nat := recordOff i + 0x80000 + k * 16384

/-- Place of a square among those of the generation's header. -/
def recordOf (j : SnpJob) (n : SqId) : Nat := ((jobSquares j).idxOf? n).getD 0

/-- Offset of the copy of a granule in an area whose header marks the segments `prot`: segment 1 + j for the j-th of them; none for another. -/
def granOff (prot : BitVec 64) (key : Nat) : Option Nat :=
  ((bitsOf prot).idxOf? (key / 1152)).map fun j => (1 + j) * segBytes + (key % 1152) * 0x200000

/-- Every granule of some segments. -/
def allGrans (prot : BitVec 64) : List Nat := (bitsOf prot).flatMap fun g => (List.range 1152).map fun k => g * 1152 + k

/-! ### Generations (R342) -/

def genDone (g : Gen) : Bool := g.st == GenSt.local_ || g.st == GenSt.complete

/-- The generation that holds the newest LOCAL or COMPLETE snapshot. -/
def newestGen (n : Snp) : Option (Fin 2) :=
  let a := n.gens[(0 : Fin 2)]
  let b := n.gens[(1 : Fin 2)]
  if genDone a then (if genDone b && decide (a.genNo.toNat < b.genNo.toNat) then some 1 else some 0)
  else if genDone b then some 1 else none

/-- The generation a new snapshot goes into, and its GEN_NO. -/
def nextGen (n : Snp) : Fin 2 × Word32 :=
  match newestGen n with
  | some 0 => (1, n.gens[(0 : Fin 2)].genNo + 1)
  | some _ => (0, n.gens[(1 : Fin 2)].genNo + 1)
  | none => (0, 1)

/-! ### Jobs (R345, R361, R363, R418) -/

def nOp (j : Job) : Nat := jobWord j.body 0 % 4
def nFull (j : Job) : Bool := (jobWord j.body 0).testBit 2
def nGen (j : Job) : Fin 2 := if (jobWord j.body 0).testBit 3 then 1 else 0
def nBtag (j : Job) : Byte := BitVec.ofNat 8 (jobWord j.body 0 / 256)
def nTmask (j : Job) : Byte := BitVec.ofNat 8 (jobWord j.body 0 / 65536)
def nSeal (j : Job) : Nat := jobWord j.body 1
def nTag (j : Job) : Nat := jobWord j.body 2

/-- A reserved bit or a bad OP (BAD_DESC). -/
def snpJobBad (j : Job) : Bool :=
  let w0 := jobWord j.body 0
  field w0 4 4 != 0 || w0 / 2 ^ 24 != 0 || (if jobType j.body = 5 then nOp j != 0 else nOp j == 3)
    || field (jobWord j.body 3) 20 12 != 0 || jobWord j.body 4 != 0 || jobWord j.body 5 != 0 || jobWord j.body 6 != 0

/-- A generation of the partition is OPEN, or a restore runs. -/
def snpBusy (n : Snp) : Bool := n.restore.isSome || n.gens[(0 : Fin 2)].st == GenSt.open_ || n.gens[(1 : Fin 2)].st == GenSt.open_

/-- Refusal of a CREMA or an adjournment, or 0. -/
def sealCheck (s : State) (p : PartId) (j : Job) (crema : Bool) : Nat :=
  if snpJobBad j ∨ nSeal j % 320 ≠ 0 then 1
  else if nSeal j < nowCt s + 640 then 2
  else if crema && s.parts[p].strict then 3
  else if !s.snp[p].en then 4
  else if snpBusy s.snp[p] then 5
  else 0

/-- The header of a generation fits the loaded placement and every placed square is LOADED (R361). -/
def restoreFits (s : State) (p : PartId) (g : Fin 2) : Bool :=
  match s.parts[p].loaded with
  | none => false
  | some l =>
    genDone s.snp[p].gens[g] && areaNat s p g 6 1 == p.val && areaNat s p g 7 1 == (match s.fuses.variant with | .m => 0 | .v => 1)
      && areaNat s p g 16 8 == l.placed.toNat && (placedOf s p).all fun n => s.squares[n].core.st == .loaded

def restoreCheck (s : State) (p : PartId) (j : Job) : Nat :=
  if snpJobBad j then 1 else if !s.snp[p].en then 4 else if snpBusy s.snp[p] then 5
  else if nOp j = 1 ∧ !restoreFits s p (nGen j) then 0xB else 0

/-- The restore's writes are under way in every placed square (R77). -/
def restoreSb (s : State) (p : PartId) (on : Bool) : State :=
  (placedOf s p).foldl (fun s n => updSq s n fun q => { q with sb := q.sb.set 32 (if on then some ⟨0, 0x7FFFF, true⟩ else none) }) s

/-- Start one SNAPSHOT or ADJOURN job, or complete it with its refusal. -/
def startSnap (s : State) (p : PartId) (j : Job) : State :=
  let id := jobId j.body
  let type := jobType j.body
  let adj := type == 5
  let refuse := fun (code : Nat) (g : Fin 2) =>
    snpComplete s p id type code s.snp[p].gens[g].genNo g.val s.snp[p].gens[g].adjourned
  if s.king.level.toNat < 2 then cancelJob s p j
  else if adj ∨ nOp j = 0 ∨ nOp j = 3 then
    let (g, no) := nextGen s.snp[p]
    let c := sealCheck s p j (!adj)
    if c ≠ 0 then snpComplete s p id type c no g.val adj
    else
      let job : SnpJob :=
        { jobId := id, type := BitVec.ofNat 8 type, adjourn := adj, count := nSeal j, btag := nBtag j, tmask := nTmask j
          tag := BitVec.ofNat 64 (nTag j), gen := g, phase := .armed, since := nowCt s, squares := s.parts[p].own.sq, prot := s.snp[p].prot
          keep := 0, grans := [], wantPages := [], wantGrans := [], drained := false, paged := [], pace := 0, caps := [], beats := [], unacked := [] }
      updSnp s p fun n => { n with job := some job }
  else
    let c := restoreCheck s p j
    if c ≠ 0 then refuse c (nGen j)
    else
      let fetch := nOp j == 2
      let no := if fetch then BitVec.ofNat 32 (jobWord j.body 3 / 2 ^ 32) else s.snp[p].gens[nGen j].genNo
      let r : RstJob := { jobId := id, gen := nGen j, full := nFull j, fetch := fetch, genNo := no, slice := 0 }
      let s := updSnp s p fun n => { n with restore := some r }
      if fetch then
        let s := areaZero s p (nGen j) 0 (s.snp[p].nseg.toNat * segBytes)
        let g : Gen := { s.snp[p].gens[nGen j] with st := .open_, adjourned := false, unclean := false, blost := false, genNo := no }
        let s := updSnp s p fun n => { n with gens := n.gens.set (nGen j) g }
        let w := jobWord j.body 3
        emit s (.fetchRequest (BitVec.ofNat 8 w) (BitVec.ofNat 8 (w >>> 8)) (partOf ((w >>> 16) % 16)) no)
      else restoreSb s p true

/-- SNAPSHOT and ADJOURN jobs start one at a time (R419); one that finds a generation OPEN or a restore running starts, and is refused with BUSY
(R342). -/
def nextSnap : List Job → State → PartId → State
  | [], s, p => updPart s p fun q => { q with snapQ := [] }
  | j :: r, s, p =>
    if (s.snp[p].job.isSome || s.snp[p].restore.isSome) && !snpBusy s.snp[p] then updPart s p fun q => { q with snapQ := j :: r }
    else nextSnap r (startSnap s p j) p

def pumpSnap (s : State) (p : PartId) : State := nextSnap s.parts[p].snapQ s p

/-- The second holds no COMPLETE generation of that number: the FETCH ends with NO_MATCH, and its generation is EMPTY (R363). -/
def fetchNoMatch (s : State) (p : PartId) : State :=
  match s.snp[p].restore with
  | none => s
  | some r =>
    let s := updSnp s p fun n => { n with restore := none, gens := n.gens.set r.gen { n.gens[r.gen] with st := .empty } }
    pumpSnap (snpComplete s p r.jobId 4 0xB r.genNo r.gen.val s.snp[p].gens[r.gen].adjourned) p

/-! ### The end of a snapshot -/

/-- Completion code of a finished generation: UNCLEAN before BUDDY_LOST (log 54). -/
def genCode (g : Gen) : Nat := if g.unclean then 9 else if g.blost then 0xA else 0

/-- The job in progress completes, and the next one starts. -/
def snpEnd (s : State) (p : PartId) (code : Nat) : State :=
  match s.snp[p].job with
  | none => s
  | some j =>
    let s := updSnp s p fun x => { x with job := none }
    pumpSnap (snpComplete s p j.jobId j.type.toNat code s.snp[p].gens[j.gen].genNo j.gen.val j.adjourn) p

/-- The buddy stream runs: BUDDY and `LNK_SECOND`.VALID are set and nothing has been lost (R358). -/
def streaming (s : State) (p : PartId) (g : Fin 2) : Bool := s.snp[p].buddy && bit s.mtch.second 31 && !s.snp[p].gens[g].blost

/-- The buddy stream of a partition is lost (R360): BLOST, one event, and the job that waits for it completes. -/
def buddyLost (s : State) (p : PartId) : State :=
  match s.snp[p].job with
  | none => s
  | some j =>
    let begun := j.phase == .pause || j.phase == .background || j.phase == .buddy
    if !s.snp[p].buddy || !begun || s.snp[p].gens[j.gen].blost then s
    else
      let s := updSnp s p fun x => { x with gens := x.gens.set j.gen { x.gens[j.gen] with blost := true } }
      let s := raise s srcSnp (some p) 0x0702 [s.snp[p].gens[j.gen].genNo.toNat]
      if j.phase = SnpPhase.buddy then snpEnd s p (genCode s.snp[p].gens[j.gen])
      else updSnp s p fun x => { x with job := some { j with beats := [], unacked := [] } }

end Sys2Proof.Machine
end

