-- ==== Sys2Proof/Machine/Link.lean ====
section
/-! DEFINITION. The links (R275 to R310): frames, hand-off, landings, training, time, closing. What a remote copy beat writes stands in Remote.lean. -/

namespace Sys2Proof.Machine

/-! ### Owners of a link's channels -/

def ownersRx (k : Link) : List PartId := allPart.filter fun p => k.ch.toList.any fun c => chRx c && chOwner c == p
def ownersTx (k : Link) : List PartId := allPart.filter fun p => k.ch.toList.any fun c => chTx c && chOwner c == p
def ownersAny (k : Link) : List PartId := allPart.filter fun p => k.ch.toList.any fun c => (chTx c || chRx c) && chOwner c == p

/-- Link faults (R454). -/
def linkFault (s : State) (l : LinkId) (ps : List PartId) (code : Nat) : State :=
  let seq := lastSeq s (srcLink l)
  ps.foldl (fun s p => partFault s p fcLink none (srcLink l) code seq) s

/-! ### Time source (R302) -/

/-- The chip is in a match: a dimension in force has a size above 1 (R295, R298). -/
def inAMatch (s : State) : Bool := decide (bits s.mtch.inForce 7 0 ≠ 0)

/-- `CHS_STATUS`.ALIGNED. -/
def isAligned (s : State) : Bool := s.clk.aligned || s.clk.master || !inAMatch s

/-- Hops from this chip to the time master, 255 unknown. -/
def ownHops (s : State) : Nat :=
  if s.clk.master then 0
  else match allLink.find? fun l => s.links[l].tsrc with
    | some l => min 255 (s.links[l].partnerHops.toNat + 1)
    | none => 255

/-- The UP link whose partner reports the fewest hops, the lower number on a tie. -/
def bestSource (s : State) : Option LinkId :=
  if s.clk.master then none
  else allLink.foldl (fun (b : Option LinkId) l =>
    if s.links[l].st == .up && s.links[l].partnerHops != 255 then
      match b with
      | none => some l
      | some x => if s.links[l].partnerHops.toNat < s.links[x].partnerHops.toNat then some l else b
    else b) none

def chooseSource (s : State) : State :=
  let b := bestSource s
  { s with links := s.links.mapFinIdx fun i k _ => { k with tsrc := (b.map (·.val)) == some i } }

/-- Partitions whose launch spans more than one chip: the loaded scoresheet uses a link. -/
def spansChips (q : Part) : Bool := match q.loaded with | some l => l.links != 0 | none => false

/-- Steer by a measured offset in eighths of a ct: within 2 ct no step is wanted any more (R240 to R242). -/
def steer (s : State) (off8 : Int) : State :=
  let off := (off8 + 4) / 8
  let s := { s with clk := { s.clk with offset := BitVec.ofInt 8 off } }
  if -16 ≤ off8 ∧ off8 ≤ 16 then
    { s with clk := { s.clk with aligned := true, stepPending := if s.clk.stepPps then s.clk.stepPending else none } }
  else
    let s := if s.clk.aligned then
        let s := raise { s with clk := { s.clk with aligned := false } } srcChess none 0x0212 [wrapInt 32 off]
        countDev s (allPart.filter fun p => s.parts[p].strict && s.parts[p].launched && spansChips s.parts[p]) devAlign srcChess none
      else s
    { s with clk := { s.clk with stepPending := some off, stepPps := false } }

/-! ### Records and frames (R279 to R281) -/

def rcEpoch (r : Word64) : BitVec 3 := r.extractLsb' 13 3
def rcStamp (r : Word64) : Nat := bits r 28 16
/-- Field of the body, numbered as in the record. -/
def rcField (r : Word64) (hi lo : Nat) : Nat := bits r hi lo

/-- Reserved bits of a record by its type; a type above 0x0A is reserved. -/
def recordBad (r : Word64) : Bool :=
  let free := fun (n : Nat) => decide (r.toNat >>> n ≠ 0)
  match rcType r with
  | 0x00 => false
  | 0x01 => free 50
  | 0x02 => free 43
  | 0x03 => free 34
  | 0x04 => free 36
  | 0x05 => free 32
  | 0x06 => free 58
  | 0x07 => free 54
  | 0x08 => free 45
  | 0x09 => false
  | 0x0A => free 29
  | _ => true

/-- CRC-32 of IEEE 802.3 over bytes. -/
def crcStep (c : Nat) : Nat := if c % 2 = 1 then (c / 2) ^^^ 0xEDB88320 else c / 2
def crcByte (c : Nat) (b : Byte) : Nat := Nat.repeat crcStep 8 (c ^^^ b.toNat)
def crc32 (b : List Byte) : Nat := (b.foldl crcByte 0xFFFFFFFF) ^^^ 0xFFFFFFFF

/-- A reserved FTYPE, KIND, RTYPE or bit. -/
def frameBad (f : BitVec 10280) : Bool :=
  decide (frType f = 0 ∨ 3 < frType f) || decide (frameBytes f 5 3 / 2 ≠ 0) || decide (frameBytes f 59 6 ≠ 0)
    || ((List.range 19).any fun k => bit (frTag f k) 7 || decide (tagKind (frTag f k) = 3)) || (frRecords f).any recordBad

def crcGood (f : BitVec 10280) : Bool := decide (crc32 (natLe 1281 f.toNat) = frameBytes f 1281 4)

/-- Lay out a frame: header fields, tags, records, flits, CRC. -/
def mkFrame (ftype : Nat) (fseq ack : BitVec 16) (strict : Bool) (tags : List Nat) (recs : List Word64) (flits : List Line) : BitVec 10280 :=
  let at_ := fun (l : List Nat) (lo w : Nat) => (l.zipIdx).foldl (fun a (x, i) => a + (x <<< (8 * (lo + w * i)))) 0
  let body := ftype + (fseq.toNat <<< 8) + (ack.toNat <<< 24) + (bool2nat strict <<< 40) + at_ tags 8 1 + at_ (recs.map (·.toNat)) 27 8
    + at_ (flits.map (·.toNat)) 65 64
  BitVec.ofNat 10280 (body + (crc32 (natLe 1281 body) <<< (8 * 1281)))

/-- A kept frame sent again: its body with a header of now; a TIME record says when this frame starts (R280). -/
def refreshFrame (f : BitVec 10280) (ack : BitVec 16) (strict : Bool) (time : Word64) : BitVec 10280 :=
  let f := (List.range 4).foldl (fun (f : BitVec 10280) i => if frameBytes f (27 + 8 * i) 1 = 9 then setBits f (8 * (27 + 8 * i)) 64 time.toNat else f) f
  let body := frType f + ((frSeq f).toNat <<< 8) + (ack.toNat <<< 24) + (bool2nat strict <<< 40) + (frameBytes f 8 1273 <<< 64)
  BitVec.ofNat 10280 (body + (crc32 (natLe 1281 body) <<< (8 * 1281)))

/-! ### FRAME_TRANSMIT (R278, R279, R282, R293, R302) -/

/-- First count of frame n, times 7: 85 n, or 170 n at 56 Gb/s. -/
def frameStart7 (k : Link) (n : Nat) : Nat := (if k.rate then 170 else 85) * n
def firstFrame (k : Link) (now : Nat) : Nat := ceilDiv (7 * now) (if k.rate then 170 else 85)

/-- What one slot carries: its tag and flit, the records left, the flits left. -/
structure SlotFill where
  tags : List Nat
  flits : List Line
  recs : List Word64
  sent : Nat
  queue : List TxFlit
  buddy : List Line

/-- Eight records as a control flit. -/
def controlFlit (l : List Word64) : Line := BitVec.ofNat 512 ((l.zipIdx).foldl (fun a (r, i) => a + (r.toNat <<< (64 * i))) 0)

/-- Control flits go in the slots that no channel owns; the records they take. -/
def fillControl (k : Link) (a : SlotFill) (i : Fin 19) : SlotFill :=
  if !bit k.slot[i] 31 && !a.recs.isEmpty then
    { a with tags := a.tags ++ [2 <<< 5], flits := a.flits ++ [controlFlit (a.recs.take 8)], recs := a.recs.drop 8
             sent := a.sent + min 8 a.recs.length }
  else { a with tags := a.tags ++ [0], flits := a.flits ++ [0] }

/-- Then each owned slot takes the next flit of its channel, once the record that announces it is in this frame or an earlier one; a BUDDY slot takes the
next flit of the buddy stream (R282, R297). -/
def fillData (k : Link) (a : SlotFill) (i : Fin 19) : SlotFill :=
  let r := k.slot[i]
  let c := epOf (bits r 4 0)
  if bit r 31 && bit r 5 then
    match a.buddy with
    | x :: rest => { a with tags := a.tags.set i.val (c.val + (1 <<< 5)), flits := a.flits.set i.val x, buddy := rest }
    | [] => a
  else if bit r 31 then
    match a.queue.find? fun x => x.lch == c with
    | some x =>
      if x.after ≤ a.sent then
        { a with tags := a.tags.set i.val (c.val + (1 <<< 5)), flits := a.flits.set i.val x.data, queue := a.queue.erase x }
      else a
    | none => a
  else a

/-- The TRAIN payload of this chip on link l in frame n (R300). What it asks of the partner's equaliser is free (log 101). -/
def trainPayload (s : State) (l : LinkId) (n : Nat) : Line :=
  let k := s.links[l]
  let ready := if k.notReady then 0 else if k.st == .time && k.timed then 2 else 1
  BitVec.ofNat 512 (ready + (s.pins.straps.pos.toNat <<< 8) + ((mLpos k.matchReg).toNat <<< 16) + (l.val <<< 24)
    + (((match s.fuses.variant with | .m => 0 | .v => 1) + 2 * bool2nat k.rate + 4 * bool2nat s.tmg.strictAny) <<< 32)
    + (ownHops s <<< 40) + (s.mtch.matchId.toNat <<< 48) + ((Config.eqRequest l.val n).toNat <<< 80))

/-- The TIME record of frame n: the count at its start. -/
def timeRecord (k : Link) (n : Nat) : Word64 :=
  let t := frameStart7 k n / 7
  BitVec.ofNat 64 (0x09 + ((t % 8192) <<< 16) + ((t % 2 ^ 35) <<< 29))

/-- Put a frame on the lanes of link l (R277, R279). -/
def sendFrame (s : State) (l : LinkId) (f : BitVec 10280) : State := emit s (.frame l (wireFrame f))

/-- Partitions that own a slot of link l's frames or a record in this one (R293). -/
def frameOwners (k : Link) (f : BitVec 10280) : List PartId :=
  allPart.filter fun p => (k.slot.toList.any fun r => bit r 31 && !bit r 5 && chOwner k.ch[epOf (bits r 4 0)] == p)
    || (frRecords f).any fun r => recOfChannel r && chOwner k.ch[rcLch r] == p

/-- The frame that link l replays next; none on a link under Strict rules (R288). -/
def nextReplay (s : State) (k : Link) : Option SentFrame :=
  if strictLink s k then none else k.replayFrom.bind fun f => k.replay.find? fun x => x.fseq == f

/-- Frame n of link l is a frame sent again: each counts one LINK_RETRY in its owners (R293). A TIME record that was due waits (R302). -/
def sendReplay (s : State) (l : LinkId) (n : Nat) (x : SentFrame) : State :=
  let k := s.links[l]
  let f := refreshFrame x.bytes k.lastGood s.tmg.strictAny (timeRecord k n)
  let more := k.replay.any fun y => y.fseq == x.fseq + 1
  let s := updLink (hwUp s (.linkFec l 2) k.retry) l fun k =>
    { k with replayFrom := if more then some (x.fseq + 1) else none, retry := satInc k.retry, timeDue := k.timeDue || n % 8192 == 0 }
  sendFrame (countDev s (frameOwners k f) devLinkRetry (srcLink l) none) l f

/-- Frame n of link l carries records and flits that wait. It is kept until its acknowledgement, under Strict rules too, where it is never sent again (R288,
R293, R308). -/
def sendNew (s : State) (l : LinkId) (n : Nat) : State :=
  let k := s.links[l]
  let time := k.timeDue || n % 8192 == 0
  let recs := (if time then [timeRecord k n] else []) ++ k.txRecs
  let a : SlotFill := ⟨[], [], recs.drop 4, k.recsSent + min 4 recs.length - min (bool2nat time) recs.length, k.txFlits, k.txBuddy⟩
  let a := (List.finRange 19).foldl (fillControl k) a
  let a := (List.finRange 19).foldl (fillData k) a
  let f := mkFrame 1 k.fseq k.lastGood s.tmg.strictAny a.tags (recs.take 4) a.flits
  let keep := k.replay ++ [⟨k.fseq, f⟩]
  let keep := keep.drop (keep.length - 1024)
  let s := updLink s l fun k =>
    { k with txRecs := a.recs, txFlits := a.queue, txBuddy := a.buddy, recsSent := a.sent, fseq := k.fseq + 1, replay := keep, replayFrom := none
             timeDue := false }
  sendFrame s l f

/-- The next DATA frame of link l. -/
def sendData (s : State) (l : LinkId) (n : Nat) : State :=
  match nextReplay s s.links[l] with
  | some x => sendReplay s l n x
  | none => sendNew s l n

/-- FRAME_TRANSMIT: the frame of link l whose period has begun. -/
def frameTransmit (s : State) (l : LinkId) : State :=
  let k := s.links[l]
  let n := k.frameNo
  let send := match k.st with | .off => false | .idle => false | _ => true
  if !send || decide (7 * nowCt s < frameStart7 k n) then s
  else
    let s := updLink s l fun k => { k with frameNo := n + 1 }
    let strict := s.tmg.strictAny
    if n % 1024 = 1023 then sendFrame s l (mkFrame 3 k.fseq k.lastGood strict [] [] [])
    else if k.st == .up || k.st == .closing then sendData s l n
    else
      let recs := if k.st == .time then [timeRecord k n] else []
      let f := mkFrame 2 k.fseq k.lastGood strict (List.replicate 19 0) recs (List.replicate 19 (trainPayload s l n))
      sendFrame (updLink s l fun k => { k with notReady := false }) l f

/-! ### LINK_FLIT_HANDOFF (R283, R289, R377) -/

/-- The link channel that takes a message's flits. -/
def handoffChannel (k : Link) (m : Msg) (l : LinkId) : Option (Fin 32) :=
  let kind := match m.kind with | .request => 1 | .reply _ => 2 | _ => (match m.net with | .request => 1 | .reply => 2 | .stream => 0)
  match m.via with
  | some (l', c) =>
    if l' = l then (if chTx k.ch[chRlch k.ch[c]] then some (chRlch k.ch[c]) else none)
    else (List.finRange 32).find? fun x => chTx k.ch[x] && chKind k.ch[x] == kind && chSrcSq k.ch[x] == m.owner && chSep k.ch[x] == m.ep
  | none => (List.finRange 32).find? fun x => chTx k.ch[x] && chKind k.ch[x] == kind && chSrcSq k.ch[x] == m.owner && chSep k.ch[x] == m.ep

/-- Flit j of a message as it travels: a reply carries its trailer in the last bytes (R212), and one that only passes through already has it. -/
def wireFlit (m : Msg) (j : Nat) : Line :=
  let d := match m.data.find? fun d => d.1 == j with | some d => d.2.2 | none => 0
  match m.kind with
  | .reply code => if j + 1 = m.flits ∧ m.rec_.isNone then setBits d 448 64 (code.toNat + 256 * m.lines) else d
  | _ => d

/-- One flit of m enters the link engine in cycle a. -/
def handoffFlit (s : State) (l : LinkId) (m : Msg) (a : Nat) : State × Msg :=
  let k := s.links[l]
  let j := m.committed
  let m' := { m with committed := j + 1 }
  if m.refuse.isSome then (s, m')
  else
    let code := if j ≠ 0 then 0 else match k.st with
      | .up => if (handoffChannel k m l).isNone then stNoLink else 0
      | .closing => stClosed
      | .off => stClosed
      | _ => stNoLink
    if code ≠ 0 then (refuseAtLink s m code, { m' with refuse := some (BitVec.ofNat 6 code) })
    else
      let c := (handoffChannel k m l).getD 0
      -- the epoch is the sending partition's, on the chips it passes too (R280)
      let ep := match m.rec_ with | some e => e.toNat | none => m.epoch.toNat
      let rec' := fun (t body : Nat) => updLink s l fun k => { k with txRecs := k.txRecs ++ [mkRecord t c ep (ctFrom s a) body] }
      match m.kind with
      | .cflag flag val => (rec' 0x02 (flag.val + bool2nat val * 8192), m')
      | _ =>
        let s := if j = 0 then rec' 0x01 (m.flits - 1 + (m.doff / 64) * 4) else s
        -- a message that leaves the chip is on its way until its credit returns (R391)
        let s := if j = 0 ∧ m.via.isNone ∧ m.net ≠ .reply then updEp s m.owner m.ep fun x => { x with away := x.away + 1 } else s
        let ahead := (s.links[l].txFlits.filter fun x => x.lch == c).length
        let p := chOwner k.ch[c]
        let s := if j + 1 = m.flits ∧ chClass k.ch[c] = 0 ∧ envLburst s.parts[p].own.env < ahead then
            countBlzOver s p
          else s
        (queueFlits s l c [wireFlit m j], m')

/-- Hand off the flits of m that have reached the port by now. -/
def handoffMsg : Nat → State → LinkId → Msg → State × Msg
  | 0, s, _, m => (s, m)
  | fuel + 1, s, l, m =>
    match m.arrive[m.committed]? with
    | some a => if a ≤ nowCc s then let (s, m) := handoffFlit s l m a; handoffMsg fuel s l m else (s, m)
    | none => (s, m)

/-- LINK_FLIT_HANDOFF. -/
def linkHandoff (s : State) (l : LinkId) : State :=
  let ms := s.msgs
  let (s, out) := ms.foldl (fun ((s, out) : State × List Msg) m =>
    if m.link == some l then
      let (s, m) := handoffMsg m.flits s l m
      (s, if m.committed = m.flits then out else out ++ [m])
    else (s, out ++ [m])) (s, [])
  { s with msgs := out ++ s.msgs.drop ms.length }

/-! ### Link going down (R292, R294, R310, R360) -/

/-- A link is one of the two buddy links. -/
def isBuddyLink (s : State) (l : LinkId) : Bool :=
  bit s.mtch.second 31 && (bits s.mtch.second 11 8 == l.val || bits s.mtch.second 15 12 == l.val)

/-- A descriptor that an engine carries has a remote part under way whose beats took link l. -/
def partsOver (l : LinkId) (r : CeRun) : Bool := r.parts.any fun x => !x.landed && x.via.contains l

/-- The descriptors with a remote part over link l end with LINK_FAULT (R307). -/
def failOver (s : State) (l : LinkId) : State :=
  let hit := allCe.flatMap fun n => ((s.ces[n].waiting ++ s.ces[n].run.toList).filter (partsOver l)).map fun r => (n, r)
  hit.foldl (fun s (n, r) => failRun s n r stLinkFault) s

/-- Beats that only pass this chip and were under way over link l: their senders learn of the fault on the links they came by (R306, R307). -/
def failTransit (s : State) (l : LinkId) : State :=
  let hit := s.links[l].transit.filter fun t => !channelQuiet s.links[l] t.1
  (hit.map (·.2)).eraseDups.foldl (fun s (l2, c) => answerRecord s l2 c 0x04 stLinkFault) s

/-- Links that the buddy stream uses: towards the second, and towards the peer whose hold area this chip keeps (R297, R359). -/
def buddyWays (s : State) : List LinkId :=
  (allLink.filter (isBuddyLink s)) ++ allPart.flatMap fun p =>
    let h := s.snp[p].hold
    if bit h 63 then match wayTo s (BitVec.ofNat 8 (bits h 20 13)) with
      | some (_, dim, plus) => [(dirLinks dim plus).1, (dirLinks dim plus).2]
      | none => []
    else []

/-- The King writes the BUDDY slots as the second, the hold areas and the channels change: which of the slots that no channel owns, and under which LCH that
no channel has, is its own choice (R282, R297; log 71). -/
def kingBuddy (s : State) : State :=
  let ways := buddyWays s
  { s with links := s.links.mapFinIdx fun i k h =>
      { k with slot := k.slot.mapFinIdx fun j w _ =>
          let b := Config.buddySlot i j
          let w' : Word32 := if bit w 31 && bit w 5 then 0 else w
          if ways.contains ⟨i, h⟩ && !bit w' 31 && bit b 5 && !chTx k.ch[epOf (bits b 4 0)] then BitVec.ofNat 32 (2 ^ 31 + 2 ^ 5 + bits b 4 0)
          else w' } }

/-- The link is DOWN: what is in flight on it is discarded, and the owners of its channels fault. -/
def linkDown (s : State) (l : LinkId) (code : Nat) : State :=
  let s := failTransit (failOver s l) l
  let s := updLink s l fun k =>
    { k with st := .down, tsrc := false, awaiting := none, replay := [], replayFrom := none, fails := 0, losses := [], txRecs := [], txFlits := []
             recsSent := 0, landing := [], places := landingCapacity, arrivals := [], beats := [], copyRec := none, rxEpoch := Vector.replicate 32 none, fseq := 0, lastGood := 0xFFFF
             timed := false, strictOk := false, timeDue := false, txBuddy := [], rxBuddy := [], transit := [], closeSent := false, closeRcvd := false }
  let s := { s with mtch := { s.mtch with remote := s.mtch.remote.filter fun r => r.link != l } }
  let s := chooseSource s
  let s := linkFault s l (ownersAny s.links[l]) code
  -- acknowledgements on their way over it are lost
  if isBuddyLink s l then allPart.foldl (fun s p => updSnp (buddyLost s p) p fun n => { n with stale := [] }) s else s

/-- LNK_DOWN. -/
def lnkDown (s : State) (l : LinkId) : State :=
  match s.links[l].st with
  | .off => s
  | .idle => s
  | .down => s
  | _ => linkDown (raise s (srcLink l) none 0x0A0B []) l 0x0A0B

/-! ### DATA_FRAME (R277 to R281, R288, R292 to R294, R304, R310) -/

/-- Count a stamp means: the one within ±4,096 of the receiver's count (R281). -/
def extendStamp (now st : Nat) : Nat :=
  let base := now / 8192 * 8192 + st
  if now + 4096 < base then base - 8192 else if base + 4096 ≤ now then base + 8192 else base

/-- Hmin of a link (R290). -/
def hMin (k : Link) : Nat := k.d.toNat + 2 * frameCt k + 8

/-- A frame is lost: discarded with a link fault in Strict, awaited again in Relaxed. Only a DATA frame has a number of its own. -/
def frameLost (s : State) (l : LinkId) (numbered : Bool := true) : State :=
  let k := s.links[l]
  let want := k.lastGood + 1
  if strictLink s k then
    let s := raise s (srcLink l) none 0x0A10 [want.toNat, 1]
    let losses := nowCt s :: k.losses.filter fun t => decide (nowCt s < t + 1000000)
    let s := updLink s l fun k => { k with losses := losses, lastGood := if numbered then want else k.lastGood }
    let s := linkFault s l (ownersRx k) 0x0A10
    if 16 ≤ losses.length then linkDown s l 0x0A10 else s
  else
    -- frames lost before the replay can have come are among those that are discarded (log 100)
    if k.awaiting.isSome && decide (nowCt s < k.nakAt) then s
    else
      let fails := if k.awaiting.isSome then k.fails + 1 else 0
      if 16 ≤ fails then linkDown (raise s (srcLink l) none 0x0A11 [want.toNat]) l 0x0A11
      else
        let s := updLink s l fun k => { k with awaiting := some want, fails := fails, nakAt := nowCt s + 2 * k.d.toNat }
        sendRecord s l 0x08 0 0 want.toNat

/-- SRESET at the inbound endpoint that channel c feeds, or passed on by a route that goes further (R310, R382). Messages held from the reset
partition stay, and their release returns no credit (R385). A copy channel feeds no endpoint: the parts under way on it are dropped (R382, R386). -/
def sresetAt (s : State) (l : LinkId) (c : Fin 32) (ep : Nat) : State :=
  let r := s.links[l].irt[c]
  if chKind s.links[l].ch[c] = 3 then
    { s with mtch := { s.mtch with remote := s.mtch.remote.filter fun x => !(x.link == l && x.lch == c) } }
  else if !rtValid r then s
  else if rtRemote r then
    let l2 := rtLink r
    match (List.finRange 32).find? fun x => chTx s.links[l2].ch[x] && chSrcSq s.links[l2].ch[x] == linkSquare l && chSep s.links[l2].ch[x] == c with
    | some x => sendRecord s l2 0x05 x ep ep
    | none => s
  else updEp (hwMark s (.chnStat (rtDsq r) (rtDep r)) (1 <<< 16)) (rtDsq r) (rtDep r) fun e =>
    { e with sreset := true, held := e.held.map fun h => if h.link == some (l, c) then { h with dead := true } else h }

/-- The position of a COPY record can be reached from here (R310). -/
def beatRoutable (s : State) (l : LinkId) (c : Fin 32) (pos : Byte) : Bool :=
  let ch := s.links[l].ch[c]
  pos == ownPos s || (copyHop s pos (chOwner ch) (chClass ch)).isSome

/-- One record takes effect on arrival, or waits for its landing (R280, R289, R309, R310). -/
def recordArrives (s : State) (l : LinkId) (r : Word64) : State :=
  let k := s.links[l]
  let c := rcLch r
  let ch := k.ch[c]
  let t := rcType r
  let st := extendStamp (nowCt s) (rcStamp r)
  let put := fun (s : State) (kind : ArrKind) (data : Option Nat) (drop : Bool) =>
    updLink s l fun k => { k with arrivals := k.arrivals ++ [⟨c, kind, rcEpoch r, st, [], data, drop⟩] }
  let msg := fun (s : State) (drop : Bool) => put s (.msg (rcField r 30 29 + 1) (64 * rcField r 49 31)) none drop
  let newBeat := fun (s : State) (drop : Bool) => match k.copyRec with
    | some a => updLink s l fun k =>
        { k with copyRec := none
                 beats := k.beats ++ [{ lch := c, pos := BitVec.ofNat 8 (rcField a 36 29), sq := sqOf (rcField a 42 37)
                                        handle := BitVec.ofNat 8 (rcField a 50 43), off := rcField r 53 29, lines := rcField a 56 51 + 1
                                        last := bit a 57, epoch := rcEpoch a, data := [], done := [], at_ := nowCt s, drop := drop, flag := none }] }
    | none => s
  -- a record that is dropped keeps its place, so that its flits are dropped too
  let drop := fun (s : State) => if t = 1 then msg s true else if t = 7 then newBeat s true else s
  let nochan := fun (s : State) =>
    let s := raise s (srcLink l) none 0x0A04 [c.val]
    drop (if t = 4 then s else sendRecord s l 0x04 c 0 stNoHandle)
  if t = 0 ∨ t = 9 then s
  else if t = 8 then
    if strictLink s k then raise s (srcLink l) none 0x0A07 [rcField r 44 29]
    else updLink s l fun k => { k with replayFrom := some (BitVec.ofNat 16 (rcField r 44 29)) }
  else if t = 10 then
    let s := if k.closeSent then s else sendRecord s l 0x0A 0 0 0
    let s := chooseSource (updLink s l fun k => { k with closeRcvd := true, closeSent := true, st := .closing })
    if domOn s (domLink l) then setDom s (domLink l) .closing else s
  else if t = 3 ∨ t = 4 then
    if !chTx ch && !((List.finRange 32).any fun x => chTx k.ch[x] && chKind k.ch[x] == 1 && chRlch k.ch[x] == c) then nochan s
    -- an answer of an old epoch changes nothing (R386)
    else if k.rxEpoch[c].isSome && k.rxEpoch[c] != some (rcEpoch r) then
      countOldEpoch (raise s (srcLink l) (some (chOwner ch)) 0x0A09 [c.val, (rcEpoch r).toNat]) (chOwner ch)
    else if t = 3 then put s (.credit (rcField r 33 29)) (some (nowCt s)) false
    else put s (.refuse (BitVec.ofNat 8 (rcField r 35 29))) (some (nowCt s)) false
  else if !chRx ch then nochan s
  else if t = 5 then
    let e := rcField r 31 29
    sresetAt (updLink s l fun k => { k with rxEpoch := k.rxEpoch.set c (some (BitVec.ofNat 3 e)) }) l c e
  else if t = 6 then updLink s l fun k => { k with copyRec := some r }
  else if k.rxEpoch[c].isSome && k.rxEpoch[c] != some (rcEpoch r) then
    let p := chOwner ch
    let s := raise s (srcLink l) (some p) 0x0A09 [c.val, (rcEpoch r).toNat]
    drop (sresetAt (countOldEpoch s p) l c (k.rxEpoch[c].getD 0).toNat)
  else if k.closeRcvd then
    drop (answerRecord (raise s (srcLink l) (some (chOwner ch)) 0x0A0C [c.val]) l c 0x04 stClosed)
  else if t = 1 then msg s false
  else if t = 2 then
    let f := flagOf (rcField r 41 29)
    let v := bit r 42
    if chKind ch = 3 then
      -- the flag goes with the newest beat of its channel (log 24)
      let i := k.beats.length - 1 - (k.beats.reverse.findIdx fun b => b.lch == c)
      updLink s l fun k => { k with beats := k.beats.modify i fun b => { b with flag := some (f, v) } }
    else put s (.flag f v) (some (nowCt s)) false
  else match k.copyRec with
    | none => s
    | some a =>
      let pos := BitVec.ofNat 8 (rcField a 36 29)
      if beatRoutable s l c pos then newBeat s false
      else
        let code := routeCode s pos (chOwner ch) (chClass ch)
        newBeat (answerRecord (if code = stNoLink then raise s (srcLink l) (some (chOwner ch)) 0x0A0A [c.val, pos.toNat] else s) l c 0x04 code) true

/-- One data flit joins the oldest message or beat of its channel that still wants lines. -/
def flitArrives (s : State) (l : LinkId) (c : Fin 32) (d : Line) : State :=
  let k := s.links[l]
  let now := nowCt s
  let i := k.arrivals.findIdx fun a => a.lch == c && a.done.isNone
  let b := k.beats.findIdx fun a => a.lch == c && decide (a.data.length < a.lines)
  if i < k.arrivals.length then
    updLink s l fun k => { k with arrivals := k.arrivals.modify i fun a =>
      let full := match a.kind with | .msg n _ => decide (a.data.length + 1 = n) | _ => true
      { a with data := a.data ++ [d], done := if full then some now else none } }
  else if b < k.beats.length then
    updLink s l fun k => { k with beats := k.beats.modify b fun a => { a with data := a.data ++ [d], at_ := now } }
  else if !chRx k.ch[c] then sendRecord (raise s (srcLink l) none 0x0A04 [c.val]) l 0x04 c 0 stNoHandle
  else s

/-- What was to be dropped goes once its flits have come. -/
def sweepDropped (k : Link) : Link :=
  { k with arrivals := k.arrivals.filter fun a => !(a.drop && a.done.isSome)
           beats := k.beats.filter fun b => !(b.drop && decide (b.lines ≤ b.data.length)) }

/-- A flit in slot i on channel c belongs to the partner's buddy stream: its King gives the slot of its link to the stream under an LCH that no channel has
(R282, R297; log 71). -/
def fromBuddy (k : Link) (i : Fin 19) (c : Fin 32) : Bool :=
  let b := Config.buddySlot k.nlink.toNat i.val
  bit b 5 && bits b 4 0 == c.val && !chRx k.ch[c]

/-- A frame takes a place of the landing buffer, which holds every frame of the last 2,048 ct (R286); older ones give theirs back. -/
def holdFrame (k : Link) (now : Nat) : Link :=
  let keep := k.landing.filter fun t => decide (t ≤ now ∧ now < t + 2048)
  { k with landing := keep ++ [now], places := k.places + (k.landing.length - keep.length) - 1 }

/-- A good DATA frame. -/
def goodFrame (s : State) (l : LinkId) (f : BitVec 10280) : State :=
  let q := frSeq f
  let s := updLink s l fun k =>
    { holdFrame k (nowCt s) with
             lastGood := q, awaiting := none, fails := 0
             -- ACKSEQ acknowledges every frame up to it (R293)
             replay := k.replay.filter fun x => decide (32768 ≤ (frAck f - x.fseq).toNat) }
  let s := updLink s l fun k => { k with transit := k.transit.filter fun t => !channelQuiet k t.1 }
  let s := (frRecords f).foldl (fun s r => recordArrives s l r) s
  let s := (List.finRange 19).foldl (fun s i =>
    if tagKind (frTag f i.val) ≠ 1 then s
    else if fromBuddy s.links[l] i (tagLch (frTag f i.val)) then updLink s l fun k => { k with rxBuddy := k.rxBuddy ++ [frFlit f i.val] }
    else flitArrives s l (tagLch (frTag f i.val)) (frFlit f i.val)) s
  updLink s l sweepDropped

/-- A record's stamp lies more than H + 256 ct ahead (R310). -/
def stampAhead (s : State) (f : BitVec 10280) : Bool :=
  (frRecords f).any fun r => decide (rcType r ≠ 0) && decide (nowCt s + headCt s + 256 < extendStamp (nowCt s) (rcStamp r))

/-- A decoded frame on a link that carries traffic. -/
def frameArrives (s : State) (l : LinkId) (f : BitVec 10280) : State :=
  if frameBad f then frameLost (raise s (srcLink l) none 0x0A03 [frType f]) l
  else if frType f ≠ 1 then s
  else
    let s := updLink s l fun k => { k with partnerStrict := frStrict f }
    let k := s.links[l]
    let strict := strictLink s k
    let behind := decide ((k.lastGood - frSeq f).toNat < 1024)
    -- in Relaxed a frame already taken, or one after a lost frame, is discarded
    if !strict && (behind || (match k.awaiting with | some w => frSeq f != w | none => false)) then s
    else if stampAhead s f then frameLost (raise s (srcLink l) none 0x0A08 []) l
    else goodFrame s l f

/-- `LNK_FEC` counts corrected codewords, and uncorrectable codewords and CRC failures (R304). -/
def countFec (s : State) (l : LinkId) (corr bad : Nat) : State :=
  let s := if corr = 0 then s else updLink (hwUp s (.linkFec l 0) s.links[l].corr corr) l fun k => { k with corr := satInc k.corr corr }
  if bad = 0 then s else updLink (hwUp s (.linkFec l 1) s.links[l].uncorr bad) l fun k => { k with uncorr := satInc k.uncorr bad }

/-- DATA_FRAME (R277, R279, R304): what the lanes carried, decoded and checked. Before UP it is discarded, its codewords counted all the same. -/
def dataFrame (s : State) (l : LinkId) (rx : Lanes) : State :=
  let x := rxFrame rx
  match s.links[l].st with
  | .off => s
  | .up | .closing =>
    let s := countFec s l x.corrected x.lost
    match x.frame with
    | none => frameLost s l
    | some f => if crcGood f then frameArrives s l f else frameLost (countFec s l 0 1) l
  | _ =>
    let s := countFec s l x.corrected (x.lost + match x.frame with | some f => bool2nat !(crcGood f) | none => 0)
    let s := if s.links[l].early then s else raise s (srcLink l) none 0x0A02 []
    updLink s l fun k => { k with early := true, notReady := true }

/-! ### LINK_LANDING (R284, R286, R289, R291, R293) -/

/-- The slot for a reply on inbound channel c of link l: the oldest owed to a request endpoint of the square whose replies return on that channel (R211,
R282). -/
def owedSlot (s : State) (l : LinkId) (c : Fin 32) (n : SqId) (ep : Endpoint) : Option Nat :=
  let k := s.links[l]
  let mine := fun (e : Fin 32) => (List.finRange 32).any fun x =>
    chTx k.ch[x] && chKind k.ch[x] == 1 && chRlch k.ch[x] == c && chSrcSq k.ch[x] == n && chSep k.ch[x] == e
  (ep.owed.find? fun o => mine o.1).map (·.2)

/-- A message or flag write from channel c sets out on the ingress route in this cycle. -/
def ingressMsg (s : State) (l : LinkId) (c : Fin 32) (a : Arrival) : Option Msg :=
  let ch := s.links[l].ch[c]
  let r := s.links[l].irt[c]
  let at_ := linkSquare l
  let cc := nowCc s
  let ep := s.squares[rtDsq r].eps[rtDep r]
  let base : Msg :=
    { kind := .stream, net := (match chKind ch with | 1 => .request | 2 => .reply | _ => .stream), part := chOwner ch
      epoch := s.parts[chOwner ch].epoch, owner := at_, ep := c, via := some (l, c), at_ := at_
      dst := if rtRemote r then linkSquare (rtLink r) else rtDsq r, dep := rtDep r, link := if rtRemote r then some (rtLink r) else none
      dpos := rtDpos r, hops := rtHops r, doff := 0, soff := 0, lines := 0, flits := 1, readFrom := cc, data := [], arrive := [], committed := 0
      reply := none, asker := none, rec_ := some a.epoch, refuse := none, late := none }
  match a.kind with
  | .msg n doff =>
    let data := (a.data.zipIdx).map fun (d, i) => (i, cc, d)
    let m := { base with lines := n, flits := n, doff := doff, data := data }
    match chKind ch with
    | 1 => some { m with kind := .request, reply := some { sq := at_, ep := c, rep := 0, off := 0, hops := rtHops r, link := some (l, c), asker := none } }
    | 2 =>
      let t := ((a.data.getLast?).getD 0).extractLsb' 448 64
      let lines := min n (bits t 15 8)
      let code := BitVec.ofNat 8 (bits t 7 0)
      if rtRemote r then some { m with kind := .reply code }
      else
        -- it lands in the slot that its request reserved (R211, R212); the trailer of a short reply is no line
        some { m with kind := .reply code, lines := lines, doff := (owedSlot s l c (rtDsq r) ep).getD 0, data := data.take lines }
    | _ => some m
  | .flag f v => some { base with kind := .cflag f v }
  | _ => none

/-- The outbound endpoint or the inbound channel that a credit or refusal on channel c is for (R286). -/
def creditTarget (s : State) (l : LinkId) (c : Fin 32) : Option (SqId × Fin 32) :=
  let k := s.links[l]
  match (List.finRange 32).find? fun x => chTx k.ch[x] && chKind k.ch[x] == 1 && chRlch k.ch[x] == c with
  | some x => some (chSrcSq k.ch[x], chSep k.ch[x])
  | none => if chTx k.ch[c] then some (chSrcSq k.ch[c], chSep k.ch[c]) else none

/-- The inbound channel whose ingress route starts at this endpoint, for traffic that only passes through (R284). -/
def passesFrom (s : State) (n : SqId) (e : Fin 32) : Option LinkId :=
  allLink.find? fun l => linkSquare l == n && chRx s.links[l].ch[e] && rtRemote s.links[l].irt[e]

/-- A REFUSE on a copy channel ends the oldest descriptor of its partition and class with a remote part under way (R306, log 25); on a chip that only
forwards, it goes back on the inbound copy channel of the same partition and class. -/
def refuseCopy (s : State) (l : LinkId) (c : Fin 32) (code : Nat) (ep : BitVec 3) : State :=
  let ch := s.links[l].ch[c]
  let p := chOwner ch
  let open_ := fun (r : CeRun) => r.desc.part == p && dClass r.desc.d == chClass ch
    && r.parts.any fun x => !x.landed && (match x.dst with | .remote _ _ _ => true | _ => false)
  match allCe.findSome? fun n => ((s.ces[n].waiting ++ s.ces[n].run.toList).find? open_).map fun r => (n, r) with
  | some (n, r) =>
    -- a beat under way goes to its end (R95)
    if s.ces[n].run == some r && r.beat.isSome then
      updCe s n fun c => { c with run := some { r with status := if r.status = 0 then BitVec.ofNat 8 code else r.status } }
    else failRun s n r code
  | none =>
    -- a FETCH whose generation the second does not hold (R363, log 56)
    if (s.snp[p].restore.map (·.fetch)) == some true then fetchNoMatch s p
    else match allLink.findSome? fun l2 => if l2 = l then none else
        ((List.finRange 32).find? fun x => let y := s.links[l2].ch[x]; chRx y && chKind y == 3 && chOwner y == p && chClass y == chClass ch).map
          fun x => (l2, x) with
    | some (l2, x) => answerRecord s l2 x 0x04 code (some ep)
    | none => s

/-- A credit record lands: what exceeds the initial credits is ignored (R310). One that only passes goes on with its epoch (R280). -/
def creditLands (s : State) (l : LinkId) (c : Fin 32) (k : Nat) (ep : BitVec 3) : State :=
  match creditTarget s l c with
  | none => s
  | some (n, e) =>
    match passesFrom s n e with
    | some l2 => answerRecord s l2 e 0x03 k (some ep)
    | none =>
      let x := s.squares[n].eps[e]
      let room := outCred x.outc - x.credits.toNat
      let s := if room < k then raise s (srcLink l) (ownerSq s n) 0x0A06 [e.val, k - room] else s
      updEp s n e fun x => { x with credits := x.credits + BitVec.ofNat 5 (min k room), away := x.away - k }

/-- A refusal lands at the sender (R208). -/
def refuseLands (s : State) (l : LinkId) (c : Fin 32) (code : Nat) (ep : BitVec 3) : State :=
  if chTx s.links[l].ch[c] && chKind s.links[l].ch[c] == 3 then refuseCopy s l c code ep
  else match creditTarget s l c with
    | none => s
    | some (n, e) =>
      match passesFrom s n e with
      | some l2 => answerRecord s l2 e 0x04 code (some ep)
      | none =>
        let s := updEp (hwMark s (.chnStat n e) (1 <<< 17)) n e fun x => { x with refused := true, lastCode := BitVec.ofNat 6 code }
        raise s (srcSq n) (ownerSq s n) 0x0408 [e.val, code]

def isCredit (a : Arrival) : Bool := match a.kind with | .credit _ => true | .refuse _ => true | _ => false

/-- What lands next on channel c. On a Strict chip messages with the flag writes behind them, and credits with refusals, land apart, each at its own count
(R289); on a Relaxed one everything in order (R293). -/
def nextLanding (s : State) (k : Link) (c : Fin 32) : Option Arrival :=
  let mine := k.arrivals.filter fun a => a.lch == c && !a.drop
  if s.tmg.strictAny then
    ((mine.find? fun a => !isCredit a).toList ++ (mine.find? isCredit).toList).find? fun a => a.done.isSome && decide (a.stamp + headCt s ≤ nowCt s)
  else mine.head?.filter fun a => a.done.isSome

/-- LINK_LANDING: what lands next on channel c, when its landing count has come; one that came after it lands late (R289, R291, R293). -/
def linkLanding (s : State) (l : LinkId) (c : Fin 32) : State :=
  let k := s.links[l]
  match nextLanding s k c with
  | none => s
  | some a =>
    if !s.clk.frameOn then s
    else
      let s := updLink s l fun k => { k with arrivals := k.arrivals.erase a }
      let late := s.tmg.strictAny && decide (a.stamp + headCt s < a.done.getD 0)
      let s := if late then countDev s [chOwner k.ch[c]] devLate (srcLink l) none c.val else s
      match a.kind with
      | .credit n => creditLands s l c n a.epoch
      | .refuse code => refuseLands s l c code.toNat a.epoch
      -- the channel may have lost its route meanwhile (R384)
      | _ => if !rtValid k.irt[c] then sendRecord (raise s (srcLink l) none 0x0A04 [c.val]) l 0x04 c 0 stNoHandle else match ingressMsg s l c a with
        | some m =>
          let s := { s with msgs := s.msgs ++ [m] }
          match m.kind, m.link with
          | .reply _, none => updEp s m.dst m.dep fun x => { x with owed := x.owed.filter fun o => o.2 != m.doff }
          | _, _ => s
        | none => s

/-! ### Training (R298 to R304) -/

/-- LINK_TRAIN_START: once the King's firmware runs, from IDLE; from DOWN the link retrains. -/
def trainStart (s : State) (l : LinkId) : State :=
  let k := s.links[l]
  if (k.st == .idle || k.st == .down) && s.king.stage == .running && domOn s (domLink l) then
    let r := s.mtch.reg
    let s := { s with mtch := { s.mtch with inForce := r } }
    updLink s l fun k =>
      let k := { k with st := .train, rate := mRate r, matchReg := r, early := false, timed := false, strictOk := false
                        partnerHops := 255, partnerStrict := false, npos := 0, nlink := 0 }
      { k with frameNo := firstFrame k (nowCt s) }
  else s

/-- RETRAIN: a link that is on leaves its state for training (R299); what it holds to send or to land stays (log 39). -/
def retrainLink (s : State) (l : LinkId) : State :=
  match s.links[l].st with
  | .off => s
  | .idle => s
  | .closing => s
  | _ => trainStart (chooseSource (updLink s l fun k => { k with st := .idle })) l

/-- One step along a link's direction round the ring of its dimension (R295). -/
def stepPos (r : Word32) (l : LinkId) (p : Byte) : Byte :=
  let (dim, plus) := linkDir l
  let mv := fun (size x : Nat) => if plus then (x + 1) % size else (x % size + size - 1) % size
  let x := if dim = 0 then mv (mMx r) (posX p) else posX p
  let y := if dim = 1 then mv (mMy r) (posY p) else posY p
  let z := if dim = 2 then mv (mMz r) (posZ p) else posZ p
  BitVec.ofNat 8 (x + 8 * y + 64 * z)

/-- Link numbers of the opposite direction (R301). -/
def partnerLinks (l : LinkId) : LinkId × LinkId := let (dim, plus) := linkDir l; dirLinks dim (!plus)

/-- Size of the dimension of a link. -/
def dimSize (r : Word32) (l : LinkId) : Nat := match (linkDir l).1 with | 0 => mMx r | 1 => mMy r | _ => mMz r

/-- Fields of a received TRAIN payload. -/
def tpByte (x : Line) (i : Nat) : Byte := x.extractLsb' (8 * i) 8

/-- The partner is the one the cabling promises (R301). A dimension of size 1 uses no link (R295). -/
def partnerGood (s : State) (l : LinkId) (x : Line) : Bool :=
  let k := s.links[l]
  let (a, b) := partnerLinks l
  x.extractLsb' 48 32 == s.mtch.matchId && bit (tpByte x 4) 1 == k.rate && tpByte x 1 == stepPos k.matchReg l s.pins.straps.pos
    && ((tpByte x 3).toNat == a.val || (tpByte x 3).toNat == b.val) && decide (1 < dimSize k.matchReg l)

/-- TRAIN_FRAME: equalised when polarity, equalisation, FEC and frame lock hold on all eight lanes (R276, R300). -/
def trainFrame (s : State) (l : LinkId) (x : Line) (equalised : Bool) : State :=
  let k := s.links[l]
  let bad := decide (bits (tpByte x 4) 7 3 ≠ 0) || decide (x.toNat >>> (8 * 42) ≠ 0) || decide (2 < (tpByte x 0).toNat)
  match k.st with
  | .off => s
  | .idle => s
  | _ =>
    -- handled as an uncorrectable frame (R310)
    if bad then frameLost (raise s (srcLink l) none 0x0A03 [2]) l false
    else
      let s := updLink s l fun k => { k with partnerHops := tpByte x 5, partnerStrict := bit (tpByte x 4) 2 }
      let s := if k.st == .up then chooseSource s else s
      match k.st with
      | .train => if equalised then updLink s l fun k => { k with st := .ident } else s
      | .ident =>
        let s := updLink s l fun k => { k with npos := tpByte x 1, nlink := BitVec.ofNat 4 (tpByte x 3).toNat }
        if partnerGood s l x then updLink s l fun k => { k with st := .time }
        else raise (updLink s l fun k => { k with st := .miswired }) (srcLink l) none 0x0A01 [(tpByte x 1).toNat, (tpByte x 3).toNat]
      | _ => s

/-- ADAPT_FRAME (R278): equalisation is no state of this model. -/
def adaptFrame (s : State) (_l : LinkId) : State := s

def strictOkOf (s : State) (k : Link) : Bool := decide (hMin k ≤ headCt s)

/-- LINK_TIME_EXCHANGE (R290, R302): D rounded up, the offset, STRICT_OK, and the clock when this is the time source. -/
def timeExchange (s : State) (l : LinkId) (t : TimeStamps) : State :=
  let k := s.links[l]
  let go := match k.st with | .time => true | .up => true | .closing => true | _ => false
  if !go then s
  else
    let d16 := ((t.t2 - t.t1) + (t.t4 - t.t3)).toNat
    let off8 := ((t.t2 - t.t1) - (t.t4 - t.t3)) / 2
    let s := updLink s l fun k => { k with d := BitVec.ofNat 12 (min 4095 (ceilDiv d16 16)), offset8 := off8, timed := true }
    let s := updLink s l fun k => { k with strictOk := strictOkOf s k }
    if s.links[l].tsrc && !s.clk.master then steer s off8 else s

/-- LINK_UP: identity and time are done. -/
def linkUp (s : State) (l : LinkId) : State :=
  let k := s.links[l]
  if k.st == .time && k.timed then
    let s := chooseSource (updLink s l fun k => { k with st := .up })
    if s.links[l].tsrc then steer s k.offset8 else s
  else s

/-! ### Closing (R309) -/

/-- A link starts to close: CLOSE goes to the partner. A link that is not UP has no partner to wait for (log 39). -/
def closeLink (s : State) (l : LinkId) : State :=
  let go := fun (s : State) => setDom s (domLink l) .closing
  match s.links[l].st with
  | .off => s
  | .closing => s
  | .up =>
    let s := sendRecord s l 0x0A 0 0 0
    go (chooseSource (updLink s l fun k => { k with st := .closing, closeSent := true }))
  | _ => go (updLink s l fun k => { k with st := .closing, closeSent := true, closeRcvd := true, txRecs := [], txFlits := [] })

/-- LINK_GATE. -/
def linkGate (s : State) (l : LinkId) : State :=
  let k := s.links[l]
  if k.st == .closing && k.closeRcvd && k.arrivals.isEmpty && k.beats.isEmpty && k.txRecs.isEmpty && k.txFlits.isEmpty then
    gateDomain s (domLink l)
  else s

/-! ### COPY_BEAT_FORWARD (R305) -/

/-- The oldest whole beat on link l that is (or is not) for this chip. -/
def firstBeat (s : State) (l : LinkId) (here : Bool) : Option CopyBeat :=
  s.links[l].beats.find? fun b => (b.pos == ownPos s) == here && !b.drop && decide (b.lines ≤ b.data.length)

/-- COPY_BEAT_FORWARD: 64 ct after it came, on the next hop's copy channel. -/
def beatForward (s : State) (l : LinkId) : State :=
  match firstBeat s l false with
  | none => s
  | some b =>
    if nowCt s < b.at_ + 64 ∨ !domOn s domEngine then s
    else
      let ch := s.links[l].ch[b.lch]
      let s := updLink s l fun k => { k with beats := k.beats.erase b }
      match copyHop s b.pos (chOwner ch) (chClass ch) with
      | some (l2, c) =>
        let s := queueBeat s l2 c b.epoch.toNat b.pos b.sq b.handle b.off b.last b.data
        let s := updLink s l2 fun k => { k with transit := (c, l, b.lch) :: k.transit.filter (· != (c, l, b.lch)) }
        match b.flag with
        | some (f, v) => sendRecord s l2 0x02 c b.epoch.toNat (f.val + 8192 * bool2nat v)
        | none => s
      | none =>
        -- a route that was there when the beat came (R307, R309)
        let code := routeCode s b.pos (chOwner ch) (chClass ch)
        answerRecord (if code = stNoLink then raise s (srcLink l) (some (chOwner ch)) 0x0A0A [b.lch.val, b.pos.toNat] else s) l b.lch 0x04 code

def execFrameTransmit (l : LinkId) (s : State) : Host.Outcome State Fault Refusal := .next (frameTransmit s l)
def execLinkFlitHandoff (l : LinkId) (s : State) : Host.Outcome State Fault Refusal := .next (linkHandoff s l)
def execDataFrame (l : LinkId) (low high : HalfLanes) (s : State) : Host.Outcome State Fault Refusal := .next (dataFrame s l (low ++ high))
def execTrainFrame (l : LinkId) (payload : Line) (equalised : Bool) (s : State) : Host.Outcome State Fault Refusal :=
  .next (trainFrame s l payload equalised)
def execAdaptFrame (l : LinkId) (s : State) : Host.Outcome State Fault Refusal := .next (adaptFrame s l)
def execLinkLanding (l : LinkId) (c : Fin 32) (s : State) : Host.Outcome State Fault Refusal := .next (linkLanding s l c)
def execLinkTrainStart (l : LinkId) (s : State) : Host.Outcome State Fault Refusal := .next (trainStart s l)
def execLinkUp (l : LinkId) (s : State) : Host.Outcome State Fault Refusal := .next (linkUp s l)
def execLinkTimeExchange (l : LinkId) (t : TimeStamps) (s : State) : Host.Outcome State Fault Refusal := .next (timeExchange s l t)
def execLnkDown (l : LinkId) (s : State) : Host.Outcome State Fault Refusal := .next (lnkDown s l)
def execLinkGate (l : LinkId) (s : State) : Host.Outcome State Fault Refusal := .next (linkGate s l)
def execCopyBeatForward (l : LinkId) (s : State) : Host.Outcome State Fault Refusal := .next (beatForward s l)

end Sys2Proof.Machine
end

