-- ==== Sys2Proof/Machine/Loader.lean ====
section
/-! DEFINITION. The loader (R38, R60, R82, R133, R174, R189, R204, R210, R284, R285): its checks and what a load writes. -/

namespace Sys2Proof.Machine

/-! ### Lookups in a scoresheet -/

def sheetSq (sh : Sheet) (n : SqId) : Option SheetSquare := sh.squares.find? fun x => x.sq == n
def sheetPlaced (sh : Sheet) : BitVec 64 := sh.squares.foldl (fun m x => m ||| BitVec.ofNat 64 (1 <<< x.sq.val)) 0
def sheetPlies (x : SheetSquare) : List Ply := x.image.map decodePly
def sheetRecipes (x : SheetSquare) : Sparse Word128 := x.recipes.foldl (fun m (n, w) => sset 0 m n w) []

/-- Outbound and inbound endpoint e of square n as they will stand: the sheet's on a placed square, else the present one. -/
def nextOut (s : State) (sh : Sheet) (n : SqId) (e : Fin 32) : Word64 × Word32 :=
  match sheetSq sh n with
  | some x => match x.outs.find? fun o => o.1 == e with | some o => o.2 | none => (0, 0)
  | none => (s.squares[n].eps[e].route, s.squares[n].eps[e].outc)
def nextIn (s : State) (sh : Sheet) (n : SqId) (e : Fin 32) : Word32 :=
  match sheetSq sh n with
  | some x => match x.ins.find? fun o => o.1 == e with | some o => o.2 | none => 0
  | none => s.squares[n].eps[e].inc

/-- Handle table entry of square n as it will stand; a loaded handle is owned by the loading partition (R82). -/
def sheetHandle (p : PartId) (h : SheetHandle) : Handle :=
  ⟨h.base, h.len, BitVec.ofNat 32 (bits h.ctl 8 4 * 16 + p.val), 0⟩
def nextHandle (s : State) (sh : Sheet) (p : PartId) (n : SqId) (h : Nat) : Handle :=
  match sheetSq sh n with
  | some x => match x.handles.find? fun y => y.n.val == h with | some y => sheetHandle p y | none => hdlDefault
  | none => hdlOf s.squares[n] h

/-! ### Paths and slots (R200 to R204) -/

/-- The square one step away; none off the board. -/
def stepSquare (n : SqId) (d : Nat) : Option SqId :=
  let f := fileOf n
  let r := (rankIx n).val
  match d with
  | 0 => if f < 7 then some (sqOf (n.val + 1)) else none
  | 1 => if 0 < f then some (sqOf (n.val - 1)) else none
  | 2 => if r < 7 then some (sqOf (n.val + 8)) else none
  | _ => if 0 < r then some (sqOf (n.val - 8)) else none

/-- Squares left by each hop with the output taken, and the square at the end. -/
def walkPath : Nat → SqId → List Nat → Option (List (SqId × Nat) × SqId)
  | 0, n, _ => some ([], n)
  | k + 1, n, d :: ds => match stepSquare n d with
    | some m => (walkPath k m ds).map fun (l, e) => ((n, d) :: l, e)
    | none => none
  | _ + 1, n, [] => some ([], n)

def rtSteps (r : Word64) : List Nat := (List.range 15).map fun i => rtStep r i
def backStep (d : Nat) : Nat := match d with | 0 => 1 | 1 => 0 | 2 => 3 | _ => 2

/-- A route to check: where it starts, whose slots it uses, its registers, whether it is a link's ingress route. -/
structure Route where
  start : SqId
  ep : Fin 32
  reg : Word64
  out : Word32
  ingress : Option LinkId
  net : Nat
deriving DecidableEq, Repr

/-- The path of a route ends where it must. -/
def routeEnd (r : Route) : Option (List (SqId × Nat) × SqId) :=
  match walkPath (rtHops r.reg) r.start (rtSteps r.reg) with
  | some (l, e) => if e = (if rtRemote r.reg then linkSquare (rtLink r.reg) else rtDsq r.reg) then some (l, e) else none
  | none => none

/-- An owned slot: square, output, slot number, table word (R202). -/
abbrev Owned := SqId × Nat × Nat × Word32

def slotWord (n : SqId) (e : Fin 32) (net : Nat) : Word32 := BitVec.ofNat 32 (n.val + (e.val <<< 6) + (net <<< 11) + 2 ^ 31)

/-- Slots of one chain from each base slot. -/
def chain (outs : List (SqId × Nat)) (base : Nat) (w : Word32) : List Owned :=
  (bitsOf (BitVec.ofNat 16 base)).flatMap fun b => (outs.zipIdx).map fun ((n, d), i) => (n, d, (b + 2 * i) % 16, w)

/-- Every slot a route owns: its own chain, and for a request the reply's on the reversed path (R203). -/
def routeSlots (r : Route) : List Owned :=
  match routeEnd r with
  | none => []
  | some (l, e) =>
    let base := (outSlots r.out).toNat
    let fwd := chain (l ++ [(e, if rtRemote r.reg then 5 else 4)]) base (slotWord r.start r.ep r.net)
    if r.net = 1 ∧ !rtRemote r.reg then
      -- hop i leaves square x (i + 1) by the opposite direction
      let back := (l.zipIdx).reverse.map fun ((_, d), i) => ((match l[i + 1]? with | some x => x.1 | none => e), backStep d)
      fwd ++ chain (back ++ [(r.start, if r.ingress.isSome then 5 else 4)]) base (slotWord r.start r.ep 2)
    else fwd

/-- Routes of the sheet: those of its squares and the ingress routes of its links. -/
def sheetRoutes (sh : Sheet) : List Route :=
  (sh.squares.flatMap fun x => x.outs.filterMap fun (e, r, o) =>
    if rtValid r then some ⟨x.sq, e, r, o, none, if rtRequest r then 1 else 0⟩ else none)
  ++ sh.links.flatMap fun k => k.ingress.filterMap fun (c, r, o) =>
    if rtValid r then
      let kind := match k.chans.find? fun y => y.1 == c with | some y => chKind y.2 | none => 0
      some ⟨linkSquare k.link, c, r, o, some k.link, kind⟩
    else none

/-- A slot entry in force belongs to what this load replaces: a placed square's endpoint, or an inbound channel of the partition on a link that the sheet
names; the tables of other links stay in force. -/
def slotReplaced (s : State) (sh : Sheet) (p : PartId) (w : Word32) : Bool :=
  let n := slotSrc w
  let e := epOf (bits w 10 6)
  let viaLink := allLink.find? fun l => linkSquare l == n && chRx s.links[l].ch[e]
  match viaLink with
  | some l => chOwner s.links[l].ch[e] == p && sh.links.any fun k => k.link == l
  | none => (sheetPlaced sh).getLsbD n.val

/-- Slots of everything the load leaves in force. -/
def slotsKept (s : State) (sh : Sheet) (p : PartId) : List Owned :=
  allSq.flatMap fun n => s.squares[n].slots.toList.zipIdx.filterMap fun (w, i) =>
    if bit w 31 && !slotReplaced s sh p w then some (n, i / 16, i % 16, w) else none

def samePlace (a b : Owned) : Bool := a.1 == b.1 && a.2.1 == b.2.1 && a.2.2.1 == b.2.2.1
def ownedTwice : List Owned → Bool
  | [] => false
  | a :: r => (r.any fun b => samePlace a b) || ownedTwice r

/-- The sheet's `MSH_SLOT` entries of its squares are those of its routes. -/
def slotsMatch (sh : Sheet) (own : List Owned) : Bool :=
  let given := sh.squares.flatMap fun x => x.slots.filterMap fun (d, sl, w) => if bit w 31 then some ((x.sq, d.val, sl.val, w) : Owned) else none
  given.all (fun g => own.contains g) && own.all fun o => !(sheetPlaced sh).getLsbD o.1.val || given.contains o

/-! ### Route checks (R204, R210, R284, R285) -/

/-- The endpoint at the end of a route on this chip: in force, of the right kind, on a square that exists, its handle writable. -/
def routeTarget (s : State) (sh : Sheet) (p : PartId) (r : Route) : Bool :=
  if rtRemote r.reg then true
  else
    let n := rtDsq r.reg
    let i := nextIn s sh n (rtDep r.reg)
    let h := nextHandle s sh p n (inHandle i)
    inValid i && decide (inKind i = r.net) && !sqFused s n && decide (hdlLen h ≠ 0)
      && (match r.ingress with
        | some _ => hdlWlink h
        | none => meshPerm h p)

/-- A request route's reply endpoint is in force and takes replies. -/
def replyTarget (s : State) (sh : Sheet) (r : Route) : Bool :=
  r.net != 1 || r.ingress.isSome || (let i := nextIn s sh r.start (outRep r.out); inValid i && decide (inKind i = 2))

/-- HEN with a handler entry that is not valid. -/
def henBad (x : SheetSquare) : Bool :=
  x.ins.any fun (_, i) => inValid i && inHen i && !((x.handlers.find? fun h => h.1 == inHandler i).map (fun h => hndValid h.2)).getD false

/-- Ingress routes in force after the load: channel word, `LNK_IRT`, `LNK_IRS`. The sheet's links replace the partition's own channels. -/
def nextIngress (s : State) (sh : Sheet) (p : PartId) : List (Word64 × Word64 × Word32) :=
  let cur := allLink.flatMap fun l => (List.finRange 32).filterMap fun c =>
    let k := s.links[l]
    if (sh.links.any fun t => t.link == l) && chOwner k.ch[c] == p then none else some (k.ch[c], k.irt[c], k.irs[c])
  cur ++ sh.links.flatMap fun t => t.ingress.filterMap fun (c, r, o) => (t.chans.find? fun y => y.1 == c).map fun y => (y.2, r, o)

/-- Request routes in force after the load, by where they end, with their credits: from squares, and from links. -/
def requestRoutes (s : State) (sh : Sheet) (p : PartId) : List (SqId × Fin 32 × Nat) :=
  (allSq.flatMap fun n => (List.finRange 32).filterMap fun e =>
    let (r, o) := nextOut s sh n e
    if rtValid r && rtRequest r && !rtRemote r then some (rtDsq r, rtDep r, outCred o) else none)
  ++ (nextIngress s sh p).filterMap fun (ch, r, o) =>
    if chRx ch && chKind ch == 1 && rtValid r && !rtRemote r then some (rtDsq r, rtDep r, outCred o) else none

/-- Credits of the request routes to an endpoint against the messages its handle holds at 256 bytes. -/
def requestRoom (s : State) (sh : Sheet) (p : PartId) : Bool :=
  let rs := requestRoutes s sh p
  rs.all fun (n, e, _) =>
    let total := (rs.filter fun x => x.1 == n && x.2.1 == e).foldl (fun a x => a + x.2.2) 0
    decide (total ≤ hdlLen (nextHandle s sh p n (inHandle (nextIn s sh n e))) / 256)

/-- Edges of the stream graph (R210). -/
def streamEdges (s : State) (sh : Sheet) : List (Nat × Nat) :=
  allSq.flatMap fun n => (List.finRange 32).filterMap fun e =>
    let r := (nextOut s sh n e).1
    if rtValid r && !rtRequest r && !rtRemote r then some (n.val, (rtDsq r).val) else none

/-- Take away edges into nodes without edges of their own, 64 times over: a graph is acyclic when nothing is left. -/
def acyclic (es : List (Nat × Nat)) : Bool :=
  ((List.range 64).foldl (fun (es : List (Nat × Nat)) _ => es.filter fun x => es.any fun y => y.1 == x.2) es).isEmpty

/-- Link tables of the sheet: channels of the loading partition only, in places that no other partition holds; an inbound channel and the outbound
endpoint of its number are not both in force; ingress slots are enough. -/
def linkTables (s : State) (sh : Sheet) (p : PartId) (k : SheetLink) : Bool :=
  let cur := s.links[k.link]
  let free := fun (c : Fin 32) => !(chTx cur.ch[c] || chRx cur.ch[c]) || chOwner cur.ch[c] == p
  let n := linkSquare k.link
  k.chans.all (fun (c, w) => chOwner w == p && decide (chClass w < 3) && free c
    && !(chRx w && !sqFused s n && rtValid (nextOut s sh n c).1))
  && k.slots.all (fun (i, w) => !bit w 31 || !bit cur.slot[i] 31 || (!bit cur.slot[i] 5 && chOwner cur.ch[epOf (bits cur.slot[i] 4 0)] == p))
  && k.ingress.all (fun (c, r, o) =>
    -- the slots per frame in which the partner sends the channel (R285)
    let owned := ((k.rxSlots.find? fun x => x.1 == c).map (·.2)).getD 0
    !rtValid r || (free c && decide (owned ≤ (bitsOf (outSlots o)).length)))

/-- A placed outbound endpoint does not meet an inbound channel of its number that the load leaves in force (R284). -/
def attachFree (s : State) (sh : Sheet) (p : PartId) : Bool :=
  sh.squares.all fun x => x.outs.all fun (e, r, _) =>
    !rtValid r || allLink.all fun l => linkSquare l != x.sq || !chRx s.links[l].ch[e]
      || (chOwner s.links[l].ch[e] == p && sh.links.any fun k => k.link == l)

def routesLegal (s : State) (sh : Sheet) (p : PartId) : Bool :=
  let rs := sheetRoutes sh
  let own := rs.flatMap routeSlots
  rs.all (fun r => (routeEnd r).isSome && outSlots r.out != 0 && routeTarget s sh p r && replyTarget s sh r)
    && !ownedTwice (own ++ slotsKept s sh p) && slotsMatch sh own && !(sh.squares.any henBad) && requestRoom s sh p
    && acyclic (streamEdges s sh) && sh.links.all (fun k => linkTables s sh p k) && attachFree s sh p

/-! ### Resources (R189) -/

def flagAllowed (s : State) (p : PartId) (flag : Nat) (signal : Bool) : Bool :=
  decide (flagRight s p flag signal = FlagRight.own) || decide (flagRight s p flag signal = FlagRight.granted)
    || decide (flagRight s p flag signal = FlagRight.orphan)

/-- Flags that a ply names; a CFLAG on a remote route names a flag of another chip (log 41). -/
def plyFlags (s : State) (sh : Sheet) (p : PartId) (n : SqId) (y : YSlot) : Bool :=
  let f := y.flag.toNat
  match y.opc.toNat with
  | 0x01 => flagAllowed s p f true
  | 0x02 | 0x03 => flagAllowed s p f false
  | 0x09 => rtRemote (nextOut s sh n y.chan.toFin).1 || flagAllowed s p f true
  | _ => true

/-- The message core's private memory as a load leaves it. -/
def loadedMcMem (x : SheetSquare) (q : Square) : Memory := x.mcMem.foldl (fun m (a, b) => memWrite m (a % 65536) b) q.mc.mem
/-- Where the code of a square's valid handler entries begins. -/
def handlerEntries (x : SheetSquare) : List Nat := x.handlers.filterMap fun (_, h) => if hndValid h then some (hndEntry h) else none

/-- Flags that an instruction of a handler names: its Y operations are those of a ply. -/
def mcFlags (s : State) (sh : Sheet) (p : PartId) (n : SqId) (w : Word128) : Bool :=
  match decodeMc w with
  | .y y => plyFlags s sh p n y
  | _ => true

def resourcesLegal (s : State) (sh : Sheet) (p : PartId) : Bool :=
  sh.squares.all (fun x =>
    (sheetPlies x).all (fun q => plyFlags s sh p x.sq q.y)
    && handlerAll (mcFlags s sh p x.sq) (loadedMcMem x s.squares[x.sq]) 16384 (handlerEntries x) 0
    && x.handles.all (fun h => decide (hdlBase (sheetHandle p h) + hdlLen (sheetHandle p h) ≤ spBytes))
    && x.watches.all (fun (_, w) => !wtValid w || flagAllowed s p (wtFlag w).val false))
  && sh.flags.all (fun (f, w) => flagAllowed s p f.val w)
  && sh.segments.all (fun g => (physSeg s p g.val).isSome)
  && (sh.copyCount == 0 || (hbmAddr s p sh.copyTable.toNat (64 * sh.copyCount)).isSome)

/-! ### The checks in order (R60) -/

/-- Plies, recipe steps, and the handler code that can run from the valid handler entries (R60, R69, R191; log 32). -/
def encodingLegal (s : State) (sh : Sheet) : Bool :=
  sh.squares.all fun x =>
    let rcp := sheetRecipes x
    x.recipes.all (fun (n, w) => decide (n < 1024) && decide (bits w 63 23 = 0))
      && (sheetPlies x).all (fun q => plyLegal s.fuses.variant sh.class22 rcp q)
      && handlerAll mcLegal (loadedMcMem x s.squares[x.sq]) 16384 (handlerEntries x) 0

/-- The code of the block checks (R40, R42, R37): that of the first placed square whose image fails one (DESIGN CHOICE, log 111). -/
def blockCode (s : State) (sh : Sheet) : Nat :=
  sh.squares.foldl (fun c x => if c ≠ 0 then c else imageCheck s.fuses.variant sh.class22 (sheetRecipes x) (sheetPlies x) x.entry) 0

/-- Latency class against the result mode: 22 cc for Ristretto. -/
def modeFits (q : Part) (class22 : Bool) : Bool := class22 == (q.result == 0)

/-- A placed square is RUNNING or STALLED: the loader may not write it (R35). -/
def loadBusy (s : State) (sh : Sheet) : Bool := sh.squares.any fun x => let t := s.squares[x.sq].core.st; t == .running || t == .stalled

/-- Reason code of a refusal, or 0. Of several checks that fail R60 does not say which is reported: the lowest code is (DESIGN CHOICE, log 111). -/
def loadCheck (s : State) (p : PartId) (sh : Sheet) : Nat :=
  let q := s.parts[p]
  if sh.variant ≠ s.fuses.variant then 1
  else if sh.squares.any fun x => sqFused s x.sq then 2
  else if sh.squares.any fun x => !ownsSq s p x.sq then 3
  else if loadBusy s sh then 4
  else if !modeFits q sh.class22 then 5
  else if sh.fixedLandings && !q.strict then 6
  else if sh.squares.any fun x => decide (8192 < x.image.length) || decide (x.image.length ≤ x.entry) then 7
  else if !encodingLegal s sh then 8
  else if blockCode s sh ≠ 0 then blockCode s sh
  else if !resourcesLegal s sh p then 11
  else if !routesLegal s sh p then 12
  else 0

/-! ### Loading -/

/-- What a load makes of one placed square: S, P, V and the matrix engine at zero, tables as the sheet has them (R38, R85, R133, R174). Plies of the store
beyond the image are zero, which no rule says (DESIGN CHOICE, log 96). That the folds disarm and `MX_FOLD` reads zero, EXCEEDED too, R133 does not list
(DESIGN CHOICE, log 102). -/
def loadedSquare (p : PartId) (x : SheetSquare) (q : Square) : Square :=
  let eps := Vector.ofFn fun (e : Fin 32) =>
    let (r, o) := (x.outs.find? fun y => y.1 == e).map (·.2) |>.getD (0, 0)
    let i := (x.ins.find? fun y => y.1 == e).map (·.2) |>.getD 0
    { endpointReset with route := r, outc := o, inc := i, credits := BitVec.ofNat 5 (outCred o), freeSlots := if inKind i = 2 then inDepth i else 0 }
  { q with
    core := { coreReset with st := .loaded, idx := BitVec.ofNat 13 x.entry, entry := BitVec.ofNat 13 x.entry, plyCount := q.core.plyCount }
    mx := mxReset
    mc := { q.mc with mem := loadedMcMem x q, pending := [] }
    eps := eps
    hnd := Vector.ofFn fun (n : Fin 64) => (x.handlers.find? fun y => y.1 == n).map (·.2) |>.getD 0
    watch := Vector.ofFn fun (n : Fin 16) => (x.watches.find? fun y => y.1 == n).map (·.2) |>.getD 0
    plies := (x.image.zipIdx).foldl (fun m (l, i) => sset 0 m i l) []
    recipes := sheetRecipes x
    hdl := x.handles.foldl (fun m h => sset hdlDefault m h.n.val (sheetHandle p h)) [] }

/-- Link tables that the sheet writes (R282, R284). -/
def loadedLink (p : PartId) (k : Link) (t : SheetLink) : Link :=
  let k := clearLink p k
  { k with slot := t.slots.foldl (fun v (i, w) => v.set i w) k.slot
           ch := t.chans.foldl (fun v (c, w) => v.set c w) k.ch
           irt := t.ingress.foldl (fun v (c, r, _) => v.set c r) k.irt
           irs := t.ingress.foldl (fun v (c, _, o) => v.set c o) k.irs }

/-- Links that the routes of a sheet take. -/
def sheetLinks (sh : Sheet) : BitVec 12 :=
  (sheetRoutes sh).foldl (fun m r =>
    let m := if rtRemote r.reg then m ||| BitVec.ofNat 12 (1 <<< (rtLink r.reg).val) else m
    match r.ingress with | some l => m ||| BitVec.ofNat 12 (1 <<< l.val) | none => m) 0

/-- Everything a load writes; a gated square takes nothing (R430). -/
def loadSheet (s : State) (p : PartId) (sh : Sheet) : State :=
  let drop := fun (w : Word32) => if bit w 31 && slotReplaced s sh p w then (0 : Word32) else w
  let own := (sheetRoutes sh).flatMap routeSlots
  let s := { s with squares := s.squares.map fun (q : Square) => { q with slots := q.slots.map drop } }
  let s := sh.squares.foldl (fun s x => if sqOn s x.sq then updSq s x.sq (loadedSquare p x) else s) s
  let s := own.foldl (fun s (n, d, sl, w) => updSq s n fun q =>
    { q with slots := if h : 16 * d + sl < 96 then q.slots.set (16 * d + sl) w h else q.slots }) s
  let s := kingBuddy (sh.links.foldl (fun s t => updLink s t.link fun k => loadedLink p k t) s)
  let ld : Loaded :=
    { placed := sheetPlaced sh, class22 := sh.class22, fixedLandings := sh.fixedLandings, tag := sh.tag, copyTable := sh.copyTable
      copyCount := sh.copyCount, links := sheetLinks sh }
  updPart s p fun q => { q with loaded := some ld }

end Sys2Proof.Machine
end

