-- ==== Sys2Proof/Machine/Lungo.lean ====
section
/-! DEFINITION. Lungo's rail (R255 to R264, R272 to R274): the effective level and its caps, rail moves, rank switches, droop alarms. -/

namespace Sys2Proof.Machine

def lungoPart (q : Part) : Bool := decide (q.st ≠ .absent) && q.result == 2

/-- Smallest LEVEL latched among the Lungo partitions, 0 with none (R256). -/
def lungoWanted (s : State) : Nat :=
  let l := (allPart.filter fun p => lungoPart s.parts[p]).map fun p => s.parts[p].lgoLatched.toNat
  match l with
  | [] => 0
  | a :: r => r.foldl min a

/-- Offset of a level below `VDD_CORE`, in mV (R255). -/
def levelMv (l : Nat) : Nat := 25 * l

/-- Highest level that keeps `VDD_LGO` at or above 0.45 V (R257). -/
def floorLevel (vcore : Nat) : Nat := min 7 ((vcore - 450) / 25)

/-- A Lungo partition has LAUNCHED set. -/
def lungoLaunched (s : State) : Bool := allPart.any fun p => lungoPart s.parts[p] && s.parts[p].launched

/-- Level under the three caps in `caps` [2:0]: THERMAL 3, EMERGENCY 0, AVS the droop cap (R272). -/
def cappedLevel (s : State) (caps : BitVec 3) : Nat :=
  let l := lungoWanted s
  let l := if bit caps 0 then min l 3 else l
  let l := if bit caps 1 then 0 else l
  match s.lungo.droop with
  | some (d, _) => if bit caps 2 then min l d.toNat else l
  | none => l

/-- Bring `VDD_LGO` to `VDD_CORE` less the offset of the effective level: the rail moves and settles later (R257, R259). -/
def lgoRail (s : State) : State :=
  let v := BitVec.ofNat 10 (s.avs.vcore.toNat - levelMv s.lungo.effective.toNat)
  if v = s.avs.vlgo then s
  else emit { s with avs := { s.avs with vlgo := v }, lungo := { s.lungo with moving := true } } (.avsWrite 1 v.toNat)

/-- Apply caps and level: a change that raises the rail at once, one that lowers it only while no Lungo partition has LAUNCHED set (R256 to R259); a
change of CAP raises one event (R274). -/
def lgoUpdate (s : State) (caps : BitVec 3) : State :=
  let lim := cappedLevel s caps
  let fl := if s.avs.vcore = 0 then lim else floorLevel s.avs.vcore.toNat
  let target := min lim fl
  let all : BitVec 4 := BitVec.ofNat 4 (caps.toNat + (bool2nat (decide (fl < lim)) <<< 3))
  let old := s.lungo.caps
  let eff := s.lungo.effective.toNat
  let new := if target < eff then target else if !lungoLaunched s then target else eff
  let s := lgoRail { s with lungo := { s.lungo with caps := all, effective := BitVec.ofNat 3 new } }
  if all = old then s else raise s srcPwr none 0x0301 [all.toNat, new]

/-- The three stored caps as they stand. -/
def lgoCaps (s : State) : BitVec 3 := s.lungo.caps.extractLsb' 0 3
def lgoRetarget (s : State) : State := lgoUpdate s (lgoCaps s)
def lgoSetCap (s : State) (n : Nat) (b : Bool) : State := lgoUpdate s (setBits (lgoCaps s) n 1 (bool2nat b))

/-- LGO_RAIL_SETTLED (R259). -/
def lgoSettled (s : State) : State :=
  if s.lungo.moving then
    { s with lungo := { s.lungo with moving := false, offset := BitVec.ofNat 8 (s.avs.vcore.toNat - s.avs.vlgo.toNat) } }
  else s

/-- LGO_DROOP_ALARM (R272): one below the effective level at the alarm. -/
def droopAlarm (s : State) : State :=
  let l := s.lungo.effective - 1
  let d : BitVec 3 := if s.lungo.effective = 0 then 0 else l
  lgoSetCap { s with lungo := { s.lungo with droop := some (d, nowCt s) } } 2 true

/-- DROOP_CAP_LIFT (R272): 1 ms without a further alarm. -/
def droopLift (s : State) : State :=
  match s.lungo.droop with
  | some (_, t) => if t + 1000000 ≤ nowCt s then lgoSetCap { s with lungo := { s.lungo with droop := none } } 2 false else s
  | none => s

/-! ### Rank switches (R262, R263) -/

def rankSquares (r : Fin 8) : List SqId := allSq.filter fun n => rankIx n == r

/-- The rank is to take `VDD_LGO`. -/
def rankWants (s : State) (r : Fin 8) : Bool :=
  let sq := (rankSquares r).filter fun n => !sqFused s n
  !sq.isEmpty && domOn s (domRank r)
    && sq.all fun n => match ownerSq s n with | some p => s.parts[p].result == 2 | none => false

/-- The release of a halted square waits for its ranks (R263). -/
def resumeWaits (s : State) (n : SqId) : Bool := match ownerSq s n with | some p => s.parts[p].resumeWait.getLsbD n.val | none => false

/-- No square of the rank is RUNNING, STALLED or HALTED; one whose release waits for the switch does not hold it (log 42). -/
def rankQuiet (s : State) (r : Fin 8) : Bool :=
  (rankSquares r).all fun n => let t := s.squares[n].core.st; !(t == .running || t == .stalled || t == .halted && !resumeWaits s n)

/-- A partition waits for the rank to return to `VDD_CORE`. -/
def rankDue (s : State) (r : Fin 8) : Bool := allPart.any fun p => s.parts[p].railDue.getLsbD r.val

/-- The switch of a rank: a rank that has to return does so first (R263). -/
def switchRank (s : State) (r : Fin 8) : State :=
  if rankQuiet s r then
    let v := rankWants s r && !rankDue s r
    { s with lungo := { s.lungo with ranks := setBits s.lungo.ranks r.val 1 (bool2nat v) }
             parts := s.parts.map fun (q : Part) => { q with railDue := setBits q.railDue r.val 1 0 } }
  else s

/-- A partition's ranks return to `VDD_CORE`: at once where the switch may change, else before its squares run again (R263). -/
def dropRanks (s : State) (p : PartId) : State :=
  (List.finRange 8).foldl (fun s r =>
    if !((rankSquares r).any fun n => ownsSq s p n) then s
    else if rankQuiet s r then { s with lungo := { s.lungo with ranks := setBits s.lungo.ranks r.val 1 0 } }
    else if bit s.lungo.ranks r.val then updPart s p fun q => { q with railDue := setBits q.railDue r.val 1 1 }
    else s) s

/-- Ranks that may no longer take `VDD_LGO` return to `VDD_CORE` where the switch may change (R262, R263). -/
def settleRanks (s : State) : State :=
  (List.finRange 8).foldl (fun s r =>
    if bit s.lungo.ranks r.val && !rankWants s r && rankQuiet s r then
      { s with lungo := { s.lungo with ranks := setBits s.lungo.ranks r.val 1 0 } } else s) s

/-- The ranks of a partition's squares are on the rail that they run on: none has still to return, and none is on `VDD_LGO` against R262. -/
def railReady (s : State) (p : PartId) : Bool :=
  (List.finRange 8).all fun r => !((rankSquares r).any fun n => ownsSq s p n)
    || (!bit s.parts[p].railDue r.val && (!bit s.lungo.ranks r.val || rankWants s r))

/-! ### Release of halted squares (R246, R263, R474) -/

/-- Release the halted squares of a list; the watchdog goes on counting (R462). -/
def releaseSquares (s : State) (l : List SqId) : State :=
  l.foldl (fun s n =>
    if s.squares[n].core.st == .halted then
      let s := updCore s n fun c => { c with st := .running, stall := 0, lastCc := none, held := 0, skipBreak := true, haltReq := false
                                             saved := false, sealTag := none }
      trace s n 3 (1 + ((s.squares[n].core.plyCount.toNat % 2 ^ 48) <<< 16))
    else s) s

/-- A resume of a partition by broadcast: in Strict timing it counts one RELAUNCH deviation (R246). Squares whose ranks are not on the rail that they run
on wait for the switch (R263). -/
def resumeBroadcast (s : State) (p : PartId) (l : List SqId) : State :=
  let l := l.filter fun n => s.squares[n].core.st == .halted
  if l.isEmpty then s
  else if !railReady s p then
    updPart s p fun q => { q with resumeWait := l.foldl (fun m n => m ||| BitVec.ofNat 64 (1 <<< n.val)) q.resumeWait }
  else releaseSquares (if s.parts[p].strict then countDev s [p] devRelaunch srcKing none else s) l

/-- The releases that waited for a switch go ahead where it has been made. -/
def resumeReady (s : State) : State :=
  allPart.foldl (fun s p =>
    if s.parts[p].resumeWait ≠ 0 ∧ railReady s p then
      let l := allSq.filter fun n => s.parts[p].resumeWait.getLsbD n.val
      resumeBroadcast (updPart s p fun q => { q with resumeWait := 0 }) p l
    else s) s

/-- RANK_RAIL_SWITCH. -/
def rankSwitch (s : State) (r : Fin 8) : State := resumeReady (switchRank s r)

/-- `LGO_STATUS`. -/
def lgoStatus (s : State) : Word32 :=
  BitVec.ofNat 32 (s.lungo.effective.toNat + (bool2nat s.lungo.moving <<< 3) + (s.lungo.caps.toNat <<< 4) + (s.lungo.offset.toNat <<< 8)
    + (s.lungo.ranks.toNat <<< 16))

def execLgoRailMove (s : State) : Host.Outcome State Fault Refusal := .next (lgoRetarget s)
def execLgoRailSettled (s : State) : Host.Outcome State Fault Refusal := .next (lgoSettled s)
def execRankRailSwitch (r : Fin 8) (s : State) : Host.Outcome State Fault Refusal := .next (rankSwitch s r)
def execLgoDroopAlarm (s : State) : Host.Outcome State Fault Refusal := .next (droopAlarm s)
def execDroopCapLift (s : State) : Host.Outcome State Fault Refusal := .next (droopLift s)

end Sys2Proof.Machine
end

