-- ==== Sys2Proof/Machine/Launch.lean ====
section
/-! DEFINITION. LAUNCH jobs (R222 to R247, R351, R419, R420): the loader's job, the checks of a run, counted and barrier launches, the end of a launch,
and the timing mode registers. -/

namespace Sys2Proof.Machine

/-! ### Status codes of a LAUNCH -/

def lsBadDesc : Nat := 0x10
def lsLate : Nat := 0x11
def lsLinkUnready : Nat := 0x12
def lsNoRef : Nat := 0x13
def lsUnaligned : Nat := 0x14
def lsNotLoaded : Nat := 0x15
def lsNoResume : Nat := 0x16
def lsAdjourned : Nat := 0x17

def lOp (j : Job) : Nat := bits j.body 1 0
def lResume (j : Job) : Bool := bit j.body 2
def lCount (j : Job) : Nat := jobWord j.body 1
def lSheet (j : Job) : Nat := jobWord j.body 2
def lArg0 (j : Job) : Word64 := BitVec.ofNat 64 (jobWord j.body 3)
def lArg1 (j : Job) : Word64 := BitVec.ofNat 64 (jobWord j.body 4)

/-! ### Checks of a run (R223, R238, R242, R243, R290) -/

/-- The square may start: loaded or done, or with RESUME halted at a saved ply index. -/
def startable (s : State) (p : PartId) (resume : Bool) (n : SqId) : Bool :=
  let c := s.squares[n].core
  ownsSq s p n && (if resume then c.st == .halted && c.saved else c.st == .loaded || c.st == .done)

/-- A link of the launch's routes cannot keep Strict landings. -/
def linkUnready (s : State) (p : PartId) : Bool :=
  match s.parts[p].loaded with
  | some l => allLink.any fun k => l.links.getLsbD k.val && !s.links[k].strictOk
  | none => false

/-- The launch spans more than one chip: its routes use a link. -/
def spansLinks (s : State) (p : PartId) : Bool := match s.parts[p].loaded with | some l => l.links != 0 | none => false

/-- Status that refuses a run, or 0, in the order of this list. -/
def runCheck (s : State) (p : PartId) (j : Job) : Nat :=
  let q := s.parts[p]
  let c := lCount j
  if c % 320 ≠ 0 then lsBadDesc
  else match q.loaded with
    | none => lsNotLoaded
    | some l =>
      if !modeFits q l.class22 then 5
      else if l.fixedLandings && !q.strict then 6
      else if !((placedOf s p).all fun n => startable s p (lResume j) n) then (if lResume j then lsNoResume else lsNotLoaded)
      else if !s.clk.refOk && (decide (c ≠ 0) || q.strict) then lsNoRef
      else if c ≠ 0 ∧ spansLinks s p ∧ !isAligned s then lsUnaligned
      else if c ≠ 0 ∧ linkUnready s p then lsLinkUnready
      else if c ≠ 0 ∧ c < nowCt s + 640 then lsLate
      else 0

/-! ### Begin and end -/

/-- The launch begins: the latched Lungo level, in force before LAUNCHED (log 44); the launch's own counts; orphans of the owner's grants (R231, R258,
R389). -/
def launchBegin (s : State) (p : PartId) : State :=
  let s := lgoRetarget (updPart s p fun q => { q with launched := false, lgoLatched := q.lgoLevel, lgoQLatched := q.lgoQuality })
  let s := updPart s p fun q =>
    { q with launched := true, resumeWait := 0, dev := { q.dev with firstValid := false }
             launch := q.launch.map fun l => { l with devs := 0, causes := 0 } }
  let mine := (List.finRange 64).foldl (fun (m : BitVec 64) n =>
    if grOwner s.flags.grants[n] = p then m ||| BitVec.ofNat 64 (1 <<< n.val) else m) 0
  { s with flags := { s.flags with orphan := s.flags.orphan &&& ~~~mine } }

/-- A square starts: the argument words, PLY_COUNT, and its per-launch status (R38, R59, R131, R189, R268). -/
def startSquare (j : Job) (q : Square) : Square :=
  let r := lResume j
  { q with
    fp := 0, cupSeen := 0, cupAdmit := 0
    core := { q.core with
      st := .running, stall := 0, idx := if r then q.core.idx else q.core.entry, plyCount := 0, lastCc := none, empty := 0, held := 0
      s := (q.core.s.set 30 (lArg0 j)).set 31 (lArg1 j), denied := [], ending := false, saved := false
      skipBreak := r, blockStart := if r then q.core.blockStart else true } }


/-- Start a run that passed its checks: armed on its count, or broadcast. -/
def armRun (s : State) (p : PartId) (j : Job) : State :=
  let l : Launch :=
    { jobId := jobId j.body, job := j, phase := if lCount j = 0 then .broadcast else .armed
      todo := (match s.parts[p].loaded with | some x => x.placed | none => 0), first := none, devs := 0, causes := 0 }
  let s := updPart s p fun q => { q with launch := some l }
  if lCount j = 0 then launchBegin s p else s

/-- Check a run and arm it, or complete it with its refusal. -/
def tryRun (s : State) (p : PartId) (j : Job) : State :=
  let c := runCheck s p j
  if c = 0 then armRun s p j else launchComplete (updPart s p fun q => { q with launch := none }) p j.body c 0 none

/-- What the loader answers for a job: reason code of a refusal, or 0. -/
def loadOf (s : State) (p : PartId) (j : Job) : Nat :=
  match j.sheet with
  | some sh => loadCheck s p sh
  | none => if (hbmAddr s p (lSheet j) 64).isSome then 8 else 11

/-- Start a LAUNCH job (R60, R419, R445): the loader goes to work, or the run is checked. -/
def startLaunch (s : State) (p : PartId) (j : Job) : State :=
  if s.king.level.toNat < 2 then cancelJob s p j
  else if lOp j = 2 then tryRun s p j
  else
    let c := loadOf s p j
    if c ≠ 0 then launchComplete (raise s srcLoader (some p) 0x0902 [c]) p j.body c 0 none
    else
      let l : Launch := { jobId := jobId j.body, job := j, phase := .loading, todo := 0, first := none, devs := 0, causes := 0 }
      updPart s p fun q => { q with launch := some l }

/-- LAUNCH jobs start one at a time, in order. -/
def nextLaunch : List Job → State → PartId → State
  | [], s, p => updPart s p fun q => { q with launchQ := [] }
  | j :: r, s, p =>
    if s.parts[p].launch.isSome then updPart s p fun q => { q with launchQ := j :: r }
    else nextLaunch r (startLaunch s p j) p

/-- Start what can start of the waiting LAUNCH jobs. -/
def pumpLaunch (s : State) (p : PartId) : State := nextLaunch s.parts[p].launchQ s p

/-- The launch of p ends with a status; its completion carries its deviations and its launch cycle (R233, R423). -/
def finishLaunch (s : State) (p : PartId) (status : Nat) : State :=
  match s.parts[p].launch with
  | none => s
  | some l =>
    -- images that have arrived count in this launch (R156, R230)
    let s := settlePart s p
    let l := s.parts[p].launch.getD l
    let s := updPart s p fun q => { q with launch := none, launched := false }
    pumpLaunch (launchComplete s p l.job.body status l.devs.toNat l.first) p

def setPhase (s : State) (p : PartId) (x : LPhase) : State :=
  updPart s p fun q => { q with launch := q.launch.map fun l => { l with phase := x } }

/-- SCORESHEET_LOADED (R60, R420): the sheet's tables are in force; a LOAD completes, a LOAD then RUN goes on. -/
def sheetLoaded (s : State) (p : PartId) : State :=
  match s.parts[p].launch with
  | some l =>
    if l.phase ≠ .loading then s
    -- a square that has come to run since the check is not written (R35, R60, R174)
    else if (match l.job.sheet with | some sh => loadBusy s sh | none => false) then
      pumpLaunch (launchComplete (raise (updPart s p fun q => { q with launch := none }) srcLoader (some p) 0x0902 [4]) p l.job.body 4 0 none) p
    else
      let s := match l.job.sheet with | some sh => loadSheet s p sh | none => s
      if lOp l.job = 1 then finishLaunch s p 0
      else pumpLaunch (tryRun s p l.job) p
  | none => s

/-- LAUNCH_SIGNAL (R244): at count C − 320 the comparator raises the signal. -/
def launchSignal (s : State) (p : PartId) : State :=
  match s.parts[p].launch with
  | some l => if l.phase = .armed ∧ lCount l.job ≤ nowCt s + 320 then setPhase s p .signalled else s
  | none => s

/-- Tag of the quiet points at which the squares of p halt: a seal has come and its snapshot point has not ended (R346). -/
def sealOf (s : State) (p : PartId) : Option (Byte × Byte) :=
  (s.snp[p].job.filter fun j => j.phase == .halting).map fun j => (j.btag, j.tmask)

/-- Start the squares of a list; one that resumes traces it (R476). -/
def startSquares (s : State) (j : Job) (l : List SqId) : State :=
  l.foldl (fun s n =>
    let t := updCore (updSq s n (startSquare j)) n fun c => { c with sealTag := (ownerSq s n).bind (sealOf s) }
    if lResume j then trace t n 3 (1 + ((t.squares[n].core.plyCount.toNat % 2 ^ 48) <<< 16)) else t) s

/-- LAUNCH_CYCLE (R244): every placed square starts in the core cycle at count C. A square that cannot start any more, or whose
rank is still on the wrong rail (R263), ends the launch (log 42). -/
def launchCycle (s : State) (p : PartId) : State :=
  match s.parts[p].launch with
  | some l =>
    if l.phase ≠ .signalled ∨ !s.clk.frameOn ∨ nowCc s < ccFrom s (lCount l.job) then s
    else if !(railReady s p && (placedOf s p).all fun n => startable s p (lResume l.job) n) then finishLaunch s p lsNotLoaded
    else
      let s := launchBegin s p
      let s := startSquares s l.job (placedOf s p)
      updPart s p fun q => { q with launch := q.launch.map fun l => { l with phase := .running, first := some (nowCc s), todo := 0 } }
  | none => s

/-- BARRIER_LAUNCH (R245): the broadcast reaches square n; it waits while a rank of the partition has to change rails (R263). -/
def barrierLaunch (s : State) (n : SqId) : State :=
  match ownerSq s n with
  | none => s
  | some p =>
    match s.parts[p].launch with
    | some l =>
      if l.phase ≠ .broadcast ∨ !l.todo.getLsbD n.val ∨ !s.clk.frameOn ∨ !railReady s p then s
      else if !startable s p (lResume l.job) n then finishLaunch s p lsNotLoaded
      else
        let s := if l.first.isNone && s.parts[p].strict then countDev s [p] devRelaunch srcKing none else s
        let s := startSquares s l.job [n]
        let todo := setBits l.todo n.val 1 0
        updPart s p fun q => { q with launch := q.launch.map fun l =>
          { l with todo := todo, first := some (l.first.getD (nowCc s)), phase := if todo = 0 then .running else .broadcast } }
    | none => s

/-- Every descriptor that the launch issued has landed. -/
def descsLanded (s : State) (p : PartId) : Bool :=
  !(s.parts[p].queue.any fun d => d.inLaunch)
    && allCe.all fun n => !((s.ces[n].run.toList ++ s.ces[n].waiting).any fun r => r.desc.part == p && r.desc.inLaunch)

/-- LAUNCH_END (R420). -/
def launchEnd (s : State) (p : PartId) : State :=
  match s.parts[p].launch with
  | some l =>
    if l.phase = .running ∧ (placedOf s p).all (fun n => s.squares[n].core.st == .done) ∧ descsLanded s p then finishLaunch s p 0 else s
  | none => s

/-! ### Timing modes (R221 to R225) -/

def anyLaunched (s : State) : Bool := allPart.any fun p => s.parts[p].launched

/-- A partition that exists is in Strict timing, partition p counted as `m`. -/
def strictWith (s : State) (p : PartId) (m : Bool) : Bool :=
  allPart.any fun q => decide (s.parts[q].st ≠ .absent) && (if q = p then m else s.parts[q].strict)

def strictNow (s : State) : Bool := allPart.any fun q => decide (s.parts[q].st ≠ .absent) && s.parts[q].strict

/-- STRICT_ANY_CHANGE (R225): deferred MODE writes apply and the chip-wide state follows, once no partition has LAUNCHED set. -/
def strictAnyChange (s : State) : State :=
  if anyLaunched s then s
  else
    let s := { s with parts := s.parts.map fun (q : Part) => { q with strict := q.modeWait.getD q.strict, modeWait := none } }
    { s with tmg := { s.tmg with strictAny := strictNow s } }

/-- The partition is busy for R222: a square runs, is stalled or halted, or a descriptor is queued or in progress. -/
def modeLocked (s : State) (p : PartId) : Bool :=
  ((squaresOf s p).any fun n => let t := s.squares[n].core.st; t == .running || t == .stalled || t == .halted) || descriptorsOf s p

/-- Value `TMG_CTL` reads. -/
def tmgCtlValue (q : Part) : Word32 := BitVec.ofNat 32 (bool2nat q.strict + (q.result.toNat <<< 1) + (bool2nat q.launched <<< 3))

/-- A write of `TMG_CTL` (R222, R225): new is the register's value with the enabled bytes replaced. -/
def tmgWrite (s : State) (fn : FnId) (p : PartId) (new : Nat) : State :=
  let q := s.parts[p]
  let mode := new.testBit 0
  let result := field new 1 2
  let cur := q.modeWait.getD q.strict
  if fn.val ≠ 0 ∨ result = 3 then regPriv s fn
  else if (mode != cur || result != q.result.toNat) && modeLocked s p then regPriv s fn
  else
    let s := if q.result = 2 ∧ result ≠ 2 then dropRanks s p else s
    let s := updPart s p fun q => { q with result := BitVec.ofNat 2 result }
    let s := if result = q.result.toNat then s else lgoRetarget s
    if strictWith s p mode != s.tmg.strictAny && anyLaunched s then
      updPart s p fun q => { q with modeWait := if mode = q.strict then none else some mode }
    else
      let s := updPart s p fun q => { q with strict := mode, modeWait := none }
      if anyLaunched s then s else { s with tmg := { s.tmg with strictAny := strictNow s } }

/-- `TMG_CHIP` (R225). -/
def tmgChip (s : State) : Word32 :=
  BitVec.ofNat 32 (bool2nat s.tmg.strictAny + (bool2nat (allPart.any fun p => s.parts[p].modeWait.isSome) <<< 1))

def execScoresheetLoaded (p : PartId) (s : State) : Host.Outcome State Fault Refusal := .next (sheetLoaded s p)
def execLaunchSignal (p : PartId) (s : State) : Host.Outcome State Fault Refusal := .next (launchSignal s p)
def execLaunchCycle (p : PartId) (s : State) : Host.Outcome State Fault Refusal := .next (launchCycle s p)
def execBarrierLaunch (sq : SqId) (s : State) : Host.Outcome State Fault Refusal := .next (barrierLaunch s sq)
def execLaunchEnd (p : PartId) (s : State) : Host.Outcome State Fault Refusal := .next (launchEnd s p)
def execStrictAnyChange (s : State) : Host.Outcome State Fault Refusal := .next (strictAnyChange s)

end Sys2Proof.Machine
end

