-- ==== Sys2Proof/Machine/Clock.lean ====
section
/-! DEFINITION. The Chess Clock, its reference, PPS and the core frame counter (R234 to R242). -/

namespace Sys2Proof.Machine

/-- CHESS_CLOCK_START (R234): with power good, reset released and the PLL locked, the count runs. -/
def clockStart (s : State) : State :=
  if s.pins.pwrOk && s.pins.resetN && !s.clk.counting then
    { s with clk := { s.clk with counting := true, locked := true, refOk := true } }
  else s

/-- Core cycles of a grain (R236). -/
def grainCc (s : State) : Nat := match s.fuses.variant with | .m => 560 | .v => 512

/-- The Chess Clock is settled (R237). -/
def settled (s : State) : Bool := s.clk.counting && s.clk.locked && isAligned s

/-- FRAME_COUNTER_START (R237): at a grain boundary of the settled clock. Core cycles already counted are rounded up to a grain (log 40). -/
def frameCounterStart (s : State) : State :=
  if settled s && !s.clk.frameOn && decide (nowCt s % 320 = 0) then
    let c := ceilDiv s.clk.cc (grainCc s) * grainCc s
    { s with clk := { s.clk with frameOn := true, frameStart := s.clk.count, cc := c, base := c } }
  else s

/-- REF_LOST (R238). -/
def refLost (s : State) : State :=
  if s.clk.refOk then
    raise { s with clk := { s.clk with refOk := false, holdover := true, refLostAt := some (nowCt s : Int), expired := false } } srcChess none 0x0210 []
  else s

/-- REF_BACK (R238): the holdover time in µs is reported. -/
def refBack (s : State) : State :=
  match s.clk.refLostAt with
  | some t =>
    raise { s with clk := { s.clk with refOk := true, holdover := false, refLostAt := none, expired := false } } srcChess none 0x0211
      [((nowCt s : Int) - t).toNat / 1000]
  | none => s

/-- REF_EXPIRED (R238, R454): 10 ms without the reference end every launch in progress with a clock fault. -/
def refExpired (s : State) : State :=
  match s.clk.refLostAt with
  | some t =>
    if s.clk.expired || decide ((nowCt s : Int) < t + 10000000) then s
    else
      let s := raise { s with clk := { s.clk with expired := true } } srcChess none 0x0214 []
      let seq := lastSeq s srcChess
      (allPart.filter fun p => s.parts[p].launched).foldl (fun s p => partFault s p fcClock none srcChess 0x0214 seq) s
  | none => s

/-- Count at an edge modulo 10⁹, read as signed (R239). -/
def ppsError (c : Nat) : Int :=
  let r := c % 1000000000
  if r < 500000000 then (r : Int) else (r : Int) - 1000000000

/-- PPS_EDGE (R239): the first edge after PPS_EN asks for a step to the nearest multiple of 10⁹ (log 43); later ones measure. -/
def ppsEdge (s : State) : State :=
  if !s.clk.master || !s.clk.ppsEn || !s.clk.counting then s
  else
    let e := ppsError (nowCt s)
    if !s.clk.ppsStepped then { s with clk := { s.clk with ppsStepped := true, stepPending := some (-e), stepPps := true } }
    else
      let s := { s with clk := { s.clk with ppsErr := BitVec.ofInt 32 e } }
      if e.natAbs ≤ 100 then s else raise s srcChess none 0x0213 [wrapInt 32 e]

/-- A launch count or a sealed count is armed (R240). -/
def countArmed (s : State) : Bool :=
  allPart.any fun p =>
    (match s.parts[p].launch with | some l => l.phase == .armed || l.phase == .signalled | none => false)
    || (match s.snp[p].job with | some j => j.phase == SnpPhase.armed || j.phase == SnpPhase.signalled | none => false)

/-- CHESS_CLOCK_STEP (R240): a step that waits takes place, to PPS or to the time source; the frame counter restarts, and each link's frames go on at the
new count (R278); the count of a lost reference moves with it, so that holdover lasts its 10 ms (R238). -/
def clockStep (s : State) : State :=
  match s.clk.stepPending with
  | some d =>
    if anyLaunched s || countArmed s then s
    else
      let count := s.clk.count + BitVec.ofInt 64 d
      { s with clk := { s.clk with count := count, stepPending := none, stepPps := false, frameOn := false
                                   refLostAt := s.clk.refLostAt.map (· + d)
                                   ppsLocked := s.clk.ppsLocked || s.clk.stepPps, aligned := s.clk.aligned || !s.clk.stepPps }
               links := s.links.map fun k => { k with frameNo := firstFrame k count.toNat } }
  | none => s

/-- A write of `CHS_CTL`: MASTER and PPS_EN; setting PPS_EN begins anew. A step to PPS that waits is withdrawn with MASTER or PPS_EN, one to the time source
as MASTER is set; the time source is chosen anew, and a master has none (R239, R241, R302). -/
def chsCtlWrite (s : State) (new : Nat) : State :=
  let en := new.testBit 1
  let master := new.testBit 0
  let keep := if s.clk.stepPps then master && en else !master
  chooseSource { s with clk := { s.clk with
    master := master, ppsEn := en, ppsStepped := s.clk.ppsStepped && s.clk.ppsEn && en && (keep || !s.clk.stepPps)
    stepPending := if keep then s.clk.stepPending else none, stepPps := s.clk.stepPps && keep } }

/-- `CHS_STATUS`. -/
def chsStatus (s : State) : Word32 :=
  BitVec.ofNat 32 (bool2nat s.clk.refOk + (bool2nat s.clk.locked <<< 1) + (bool2nat s.clk.ppsLocked <<< 2) + (bool2nat (isAligned s) <<< 3)
    + (bool2nat s.clk.holdover <<< 4) + (s.clk.offset.toNat <<< 16))

def execChessClockStart (s : State) : Host.Outcome State Fault Refusal := .next (clockStart s)
def execFrameCounterStart (s : State) : Host.Outcome State Fault Refusal := .next (frameCounterStart s)
def execRefLost (s : State) : Host.Outcome State Fault Refusal := .next (refLost s)
def execRefBack (s : State) : Host.Outcome State Fault Refusal := .next (refBack s)
def execRefExpired (s : State) : Host.Outcome State Fault Refusal := .next (refExpired s)
def execPpsEdge (s : State) : Host.Outcome State Fault Refusal := .next (ppsEdge s)
def execChessClockStep (s : State) : Host.Outcome State Fault Refusal := .next (clockStep s)

end Sys2Proof.Machine
end

