-- ==== Sys2Proof/Machine/Thermal.lean ====
section
/-! DEFINITION. Temperature, throttling, HBM refresh and the AVS loop (R88 to R90, R446 to R453). -/

namespace Sys2Proof.Machine

/-! ### Emergency throttle (R449, R451 to R453) -/

/-- Duty that the causes of an emergency throttle impose, 8 when none. -/
def emergDuty (s : State) : Nat :=
  let four := fun (b : Bool) => if b then 4 else 8
  min s.thermal.junctionDuty.val (min (four s.thermal.hbmEmerg) (min (four s.avs.stuck) (min (four s.avs.alert) (four s.avs.limit))))

/-- Partitions with a throttled square (R230). -/
def throttledParts (s : State) : List PartId := allPart.filter fun p => decide (s.parts[p].st ≠ .absent) && decide (s.parts[p].own.sq ≠ 0)

/-- Follow the causes of the emergency throttle: a new episode counts one THROTTLE deviation and sets the EMERGENCY cap, its end lifts it; a smaller
duty is reported (R451). `old` is the emergency duty before. -/
def noteEmergency (s : State) (old : Nat) : State :=
  let new := emergDuty s
  let begins := new < 8 && !s.thermal.emerg
  let ends := new = 8 && s.thermal.emerg
  let s := { s with thermal := { s.thermal with emerg := decide (new < 8) } }
  let s := if new < old then raise s srcThm none 0x0113 [new] else s
  let s := if begins then lgoSetCap (countDev s (throttledParts s) devThrottle srcThm none) 1 true else s
  if ends then lgoSetCap s 1 false else s

/-- Change the causes and follow them. -/
def setEmergency (s : State) (f : State → State) : State := noteEmergency (f s) (emergDuty s)

/-! ### Junction ladder (R451) -/

/-- Junction duty of the ladder: 1 at 105 °C until below 100 °C, then 4 until below 95 °C; at 100 °C duty 4 unless the scheduled duty is 4 or less. -/
def ladderDuty (s : State) (deg : Nat) : Fin 9 :=
  let j := s.thermal.junctionDuty
  if 105 ≤ deg then 1
  else if j = 1 then (if 100 ≤ deg then 1 else if 95 ≤ deg then 4 else 8)
  else if j = 4 then (if 95 ≤ deg then 4 else 8)
  else if 100 ≤ deg ∧ 4 < s.thermal.schedDuty.val then 4
  else 8

/-- Follow the hottest junction sensor. -/
def ladderStep (s : State) (deg : Nat) : State :=
  let therm := if 100 ≤ deg then true else bit (lgoCaps s) 0 && decide (95 ≤ deg)
  let s := if therm == bit (lgoCaps s) 0 then s else lgoSetCap s 0 therm
  setEmergency s fun s => { s with thermal := { s.thermal with junctionDuty := ladderDuty s deg } }

/-- THERMAL_LADDER: the King reads the sensors. -/
def thermalLadder (s : State) (sensor deg : BitVec 8) : State :=
  if s.king.stage ≠ .running then s
  else
    let d := deg.toNat
    let warned := s.thermal.warn
    let warn := if 95 ≤ d then true else warned && decide (93 ≤ d)
    let s := { s with thermal := { s.thermal with maxj := deg, warn := warn, live := true } }
    let s := if warn && !warned then raise s srcThm none 0x0112 [sensor.toNat, d] else s
    ladderStep s d

/-! ### Scheduled throttle (R450) -/

/-- A write of `THM_SCHED`: DUTY, and with ARM (in force when `whole`) an arming at `THM_SCHED_AT`. A value or an arming that is not allowed leaves the
register as it was. -/
def thmSchedWrite (s : State) (fn : FnId) (new : Nat) (whole : Bool) : State :=
  let d := field new 0 4
  if h : 1 ≤ d ∧ d ≤ 8 then
    let arm := whole && new.testBit 8
    let c := s.thermal.schedAt.toNat
    if arm && (decide (c % 320 ≠ 0) || decide (c < nowCt s + 640)) then regPriv s fn
    else
      { s with thermal := { s.thermal with schedReg := BitVec.ofNat 4 d
                                           armed := if arm then s.thermal.armed ++ [(c, ⟨d, by omega⟩)] else s.thermal.armed } }
  else regPriv s fn

/-- SCHEDULED_THROTTLE_START: every square takes the duty of the last arming whose count is reached. -/
def schedStart (s : State) : State :=
  let due := s.thermal.armed.filter fun a => decide (a.1 ≤ nowCt s)
  match due.foldl (fun (b : Option (Nat × Fin 9)) a => match b with
      | none => some a
      | some x => if x.1 ≤ a.1 then some a else b) none with
  | none => s
  | some (_, d) =>
    let s := { s with thermal := { s.thermal with schedDuty := d, live := true, armed := s.thermal.armed.filter fun a => !decide (a.1 ≤ nowCt s) } }
    if s.king.stage = .running then ladderStep s s.thermal.maxj.toNat else s

/-- `THM_STATUS`; DUTY reads 0 until the King's loops or a schedule have set one (log 1). -/
def thmStatus (s : State) : Word32 :=
  let duty := if s.thermal.live then min s.thermal.schedDuty.val (emergDuty s) else 0
  BitVec.ofNat 32 (s.thermal.maxj.toNat + (s.thermal.maxhbm.toNat <<< 8) + (duty <<< 16) + (bool2nat s.thermal.emerg <<< 20)
    + (bool2nat (decide (s.thermal.schedDuty.val < 8)) <<< 21) + (bool2nat s.thermal.warn <<< 22) + (bool2nat s.thermal.tripped <<< 23))

/-! ### HBM temperature and refresh (R89, R90, R452) -/

/-- HBM_TEMP_READ. -/
def hbmTempRead (s : State) (t : Vector (BitVec 8) 6) : State :=
  let deg := fun (i : StackId) => if domOn s (domHbm i) then t[i].toNat else 0
  let all := List.finRange 6
  let maxd := all.foldl (fun a i => max a (deg i)) 0
  let cool := all.all fun i => decide (deg i < 83)
  let fresh := all.filter fun i => decide (85 < deg i) && !s.hbm.hot.getLsbD i.val
  let hot := if cool then 0 else fresh.foldl (fun (m : BitVec 6) i => m ||| BitVec.ofNat 6 (1 <<< i.val)) s.hbm.hot
  let s := { s with hbm := { s.hbm with temps := t, hot := hot }, thermal := { s.thermal with maxhbm := BitVec.ofNat 8 maxd, live := true } }
  let s := fresh.foldl (fun s i => raise s (srcHbm i) none 0x0115 [deg i]) s
  setEmergency s fun s => { s with thermal := { s.thermal with
    hbmEmerg := if 95 ≤ maxd then true else s.thermal.hbmEmerg && decide (90 ≤ maxd) } }

/-- `HBM_STATUS`. -/
def hbmStatus (s : State) : Word32 :=
  let hot := (List.finRange 6).any fun i => domOn s (domHbm i) && decide (85 < s.hbm.temps[i].toNat)
  BitVec.ofNat 32 (s.hbm.healthy.toNat + (bool2nat hot <<< 6) + (s.hbm.segments <<< 7))

/-- Opening count of the slot in which count c lies, for a slot that opens at `ph` in every 3,900 and lasts 350 ct. -/
def slotOpening (c ph : Nat) : Option Nat :=
  let k := (c % 3900 + 3900 - ph) % 3900
  if k < 350 ∧ k ≤ c then some (c - k) else none

/-- Partitions that own an HBM segment (R230). -/
def segOwners (s : State) : List PartId := allPart.filter fun p => decide (s.parts[p].st ≠ .absent) && decide (s.parts[p].own.seg ≠ 0)

/-- REFRESH_SLOT (R89, R452): the ordinary slot, or above 85 °C the extra one, which counts a REFRESH deviation. -/
def refreshSlot (s : State) (t : StackId) : State :=
  if !s.tmg.strictAny || !domOn s (domHbm t) then s
  else
    let ph := 650 * t.val
    match slotOpening (nowCt s) ph with
    | some o => { s with hbm := { s.hbm with slot := s.hbm.slot.set t (some o) } }
    | none =>
      match slotOpening (nowCt s) ((ph + 1950) % 3900) with
      | some o =>
        if !s.hbm.hot.getLsbD t.val || s.hbm.extra[t] == some o then s
        else countDev { s with hbm := { s.hbm with extra := s.hbm.extra.set t (some o) } } (segOwners s) devRefresh (srcHbm t) none
      | none => s

/-- ADAPTIVE_REFRESH (R90): a refresh in Relaxed timing; its interval is the stack's own. -/
def adaptiveRefresh (s : State) (t : StackId) : State :=
  if s.tmg.strictAny || !domOn s (domHbm t) then s
  else { s with hbm := { s.hbm with slot := s.hbm.slot.set t (some (nowCt s)) } }

/-! ### AVS loop (R446 to R449) -/

def strictLaunched (s : State) : List PartId := allPart.filter fun p => s.parts[p].strict && s.parts[p].launched

/-- Set `VDD_CORE` to a value, `VDD_LGO` following in the order of R260, and count the step. -/
def setVcore (s : State) (mv : Nat) : State :=
  let old := s.avs.vcore.toNat
  let put := fun (s : State) =>
    let s := hwUp s .avsSteps s.avs.steps
    emit { s with avs := { s.avs with vcore := BitVec.ofNat 10 mv, steps := satInc s.avs.steps, lastStep := some (nowCt s), deferred := false } }
      (.avsWrite 0 mv)
  if mv = old then s
  else if mv < old then
    -- the rail below falls first
    let low := BitVec.ofNat 10 (mv - levelMv s.lungo.effective.toNat)
    let s := emit { s with avs := { s.avs with vlgo := low }, lungo := { s.lungo with moving := true } } (.avsWrite 1 low.toNat)
    lgoRetarget (put s)
  else lgoRetarget (lgoRail (put s))

/-- AVS_LOOP_TICK. `below` mV is demanded by a monitor; without a demand the loop moves towards `lowest`. -/
def avsTick (s : State) (below lowest : Nat) : State :=
  if s.king.stage ≠ .running ∨ s.avs.stuck then s
  else
    let v := s.avs.vcore.toNat
    let s := setEmergency s fun s => { s with avs := { s.avs with limit := decide (0 < below ∧ 850 < v + below) } }
    if 0 < below then
      let new := min 850 (v + min 25 (5 * ceilDiv below 5))
      let ps := strictLaunched s
      let s' := setVcore s new
      if new ≠ v ∧ !ps.isEmpty then countDev s' ps devAvs srcPwr none else s'
    else
      let want := max 650 (min 850 lowest)
      if want = v then { s with avs := { s.avs with deferred := false } }
      else if !(strictLaunched s).isEmpty then { s with avs := { s.avs with deferred := true } }
      else
        let due := match s.avs.lastStep with | some t => decide (t + 1000000 ≤ nowCt s) | none => true
        if !due then s
        else if want < v then (if v < want + 5 then s else setVcore s (v - 5))
        else setVcore s (min 850 (v + 5))

/-- AVS_NOACK (R453): three retries have failed; the loop freezes. -/
def avsNoack (s : State) : State :=
  if s.avs.stuck then s
  else setEmergency (raise s srcPwr none 0x0101 []) fun s => { s with avs := { s.avs with stuck := true, missed := false, missedLgo := false } }

/-- Target of a rail, and whether its last read-back missed it (R446). -/
def railTarget (a : Avs) (r : Fin 2) : Nat := if r = 0 then a.vcore.toNat else a.vlgo.toNat
def railMissed (a : Avs) (r : Fin 2) : Bool := if r = 0 then a.missed else a.missedLgo
def noteMissed (a : Avs) (r : Fin 2) (b : Bool) : Avs := if r = 0 then { a with missed := b } else { a with missedLgo := b }

/-- AVS_MISMATCH (R453): the target of the rail is written again; a second miss is no acknowledgement. -/
def avsMismatch (s : State) (x : RailRead) : State :=
  let v := railTarget s.avs x.rail
  if absDiff v x.mv ≤ 20 then { s with avs := noteMissed s.avs x.rail false }
  else if railMissed s.avs x.rail then avsNoack s
  else emit (raise { s with avs := noteMissed s.avs x.rail true } srcPwr none 0x0102 []) (.avsWrite x.rail v)

/-- AVS_ALERT (R453). -/
def avsAlert (s : State) (e : AlertEdge) : State :=
  match e with
  | .raised => if s.avs.alert then s else setEmergency (raise s srcPwr none 0x0103 []) fun s => { s with avs := { s.avs with alert := true } }
  | .cleared => setEmergency s fun s => { s with avs := { s.avs with alert := false } }

/-- `AVS_STATUS`. -/
def avsStatus (s : State) : Word32 :=
  BitVec.ofNat 32 (s.avs.vcore.toNat + (s.avs.vlgo.toNat <<< 10) + (bool2nat s.avs.deferred <<< 20) + (bool2nat s.avs.stuck <<< 21)
    + (s.avs.steps.toNat <<< 24))

def execHbmTempRead (temps : Vector (BitVec 8) 6) (s : State) : Host.Outcome State Fault Refusal := .next (hbmTempRead s temps)
def execRefreshSlot (t : StackId) (s : State) : Host.Outcome State Fault Refusal := .next (refreshSlot s t)
def execAdaptiveRefresh (t : StackId) (s : State) : Host.Outcome State Fault Refusal := .next (adaptiveRefresh s t)
def execThermalLadder (sensor deg : BitVec 8) (s : State) : Host.Outcome State Fault Refusal := .next (thermalLadder s sensor deg)
def execScheduledThrottleStart (s : State) : Host.Outcome State Fault Refusal := .next (schedStart s)
def execAvsLoopTick (below lowest : Nat) (s : State) : Host.Outcome State Fault Refusal := .next (avsTick s below lowest)
def execAvsNoack (s : State) : Host.Outcome State Fault Refusal := .next (avsNoack s)
def execAvsMismatch (readBack : RailRead) (s : State) : Host.Outcome State Fault Refusal := .next (avsMismatch s readBack)
def execAvsAlert (e : AlertEdge) (s : State) : Host.Outcome State Fault Refusal := .next (avsAlert s e)

end Sys2Proof.Machine
end

