-- ==== Sys2Proof/Machine/Boot.lean ====
section
/-! DEFINITION. Power domains, resets and the first second (R427 to R445, R459, R487 to R489): gating requests, resets, boot, the King's watchdog. -/

namespace Sys2Proof.Machine

/-! ### Gating requests (R429 to R432) -/

def peOk : Nat := 0
def peBad : Nat := 1
def peBusy : Nat := 2
def peOwned : Nat := 3
def peDepend : Nat := 4

def setErr (s : State) (e : Nat) : State := { s with power := { s.power with err := BitVec.ofNat 3 e } }
def engineOff (s : State) : Bool := !domOn s domEngine

/-- The fused rank's domain (R3, R428). -/
def fusedDom (f : Fuses) (d : DomId) : Bool := match f.fused with | some r => decide (d.val = r.val) | none => false

/-- A launch in progress uses link l. -/
def linkLaunched (s : State) (l : LinkId) : Bool :=
  allPart.any fun p => s.parts[p].launched && (match s.parts[p].loaded with | some x => x.links.getLsbD l.val | none => false)

/-- ERR of a GATE request (R429). -/
def gateErr (s : State) (d : DomId) : Nat :=
  let x := s.power.dom[d]
  if d.val = 27 ∨ x = .failed ∨ fusedDom s.fuses d then peBad
  else if x ≠ .on then peOk
  else if h : d.val < 8 then
    if (rankSquares ⟨d.val, h⟩).all fun n => sqFused s n || (let t := s.squares[n].core.st; t == .idle || t == .loaded || t == .done)
    then peOk else peBusy
  else if d.val < 14 then
    if allPart.all fun p => (decide (s.parts[p].st = .absent) || s.parts[p].own.seg == 0) && !bit s.snp[p].hold 63 then peOk else peOwned
  else if h : d.val < 26 then (if linkLaunched s ⟨d.val - 14, by omega⟩ then peBusy else peOk)
  else if (List.finRange 28).all fun (e : DomId) =>
      decide (e.val ≥ 26) || (decide (8 ≤ e.val) && decide (e.val < 14)) || s.power.dom[e] == .gated || s.power.dom[e] == .failed
    then peOk else peDepend

/-- Ranks and links come up only beside the engine domain (R429, R430). -/
def needsEngine (d : DomId) : Bool := decide (d.val < 8) || (decide (14 ≤ d.val) && decide (d.val < 26))

/-- ERR of an UNGATE request (R429, R430); after a thermal trip nothing comes back (R437). -/
def ungateErr (s : State) (d : DomId) : Nat :=
  let x := s.power.dom[d]
  if d.val = 27 ∨ x = .failed ∨ fusedDom s.fuses d ∨ s.thermal.tripped then peBad
  else if needsEngine d ∧ engineOff s then peDepend
  else peOk

/-- A whole write of `PWR_CTL`: OP 1 GATE, 2 UNGATE. The firmware does the work: without it nothing happens (R21, log 91). -/
def pwrCtl (s : State) (fn : FnId) (new : Nat) : State :=
  if s.king.stage ≠ .running then s
  else if s.power.busy then regPriv s fn
  else
    let n := field new 0 5
    let op := field new 5 2
    if h : n < 28 then
      let d : DomId := ⟨n, h⟩
      if op = 1 then
        let e := gateErr s d
        if e ≠ 0 ∨ s.power.dom[d] ≠ .on then setErr s e
        else
          let s := { s with power := { s.power with busy := true, req := some ⟨d, false⟩ } }
          let s := if hl : 14 ≤ d.val ∧ d.val < 26 then closeLink s ⟨d.val - 14, by omega⟩ else setDom s d .closing
          noteService s
      else if op = 2 then
        let e := ungateErr s d
        if e ≠ 0 ∨ s.power.dom[d] ≠ .gated then setErr s e
        else { s with power := { s.power with busy := true, req := some ⟨d, true⟩ } }
      else setErr s peBad
    else setErr s peBad

/-- A copy part whose lines have all crossed into a rank and which has not landed there (R432). -/
def partCrossed (s : State) (d : DomId) : Bool :=
  allCe.any fun n => (s.ces[n].run.toList ++ s.ces[n].waiting).any fun r =>
    r.parts.any fun x => x.left == 0 && !x.landed && (match x.dst with | .square q _ => decide (q.val / 8 = d.val) | _ => false)

/-- A packet accepted before CLOSING is still committing in a rank (R432). -/
def rankDraining (s : State) (d : DomId) : Bool :=
  (s.msgs.any fun m => m.refuse.isNone && decide (0 < m.committed) && decide (m.committed < m.flits) && decide (m.dst.val / 8 = d.val))
    || partCrossed s d || s.mtch.remote.any fun r => r.whole.isSome && decide (r.sq.val / 8 = d.val)

/-- DOMAIN_GATED (R432). A link gates as R309 says. -/
def domainGated (s : State) (d : DomId) : State :=
  if s.power.dom[d] ≠ .closing then s
  else if d.val < 8 ∧ rankDraining s d then s
  else if h : 14 ≤ d.val ∧ d.val < 26 then linkGate s ⟨d.val - 14, by omega⟩
  else gateDomain s d

/-- What a domain that comes back ON brings (R429). -/
def domainUp (s : State) (d : DomId) : State :=
  if h : 8 ≤ d.val ∧ d.val < 14 then
    formSegments { s with hbm := { s.hbm with trained := setBits s.hbm.trained (d.val - 8) 1 1 } }
  else if h : 14 ≤ d.val ∧ d.val < 26 then updLink s ⟨d.val - 14, by omega⟩ fun k => { k with st := .idle }
  else s

/-- The boot brings up what is GATED, from the firmware's start to DEVICE_READY (R440, R441). -/
def booting (s : State) : Bool := s.king.stage == .running && !s.king.deviceReady && !s.thermal.tripped

/-- DOMAIN_READY (R428, R429): an ungated domain is ON, or FAILED when its training or self-test failed. The King does the work (R21), in the boot too,
where a rank or link waits for the engine domain (R429, R440); the serving engines in that domain have a self-test of their own (R444; log 37). -/
def domainReady (s : State) (d : DomId) (r : DomainTest) : State :=
  let asked := s.king.stage == .running && (match s.power.req with | some r => r.dom == d && r.ungate | none => false)
  let ok := decide (r ≠ .failed)
  if !(asked || booting s) || fusedDom s.fuses d || s.power.dom[d] != .gated || (ok && needsEngine d && engineOff s) then s
  else
    let s := if ok then domainUp (setDom s d .on) d else setDom s d .failed
    let s := if d = domEngine then { s with king := { s.king with servingOk := decide (r = .passed) } } else s
    let s := if asked then { s with power := { s.power with busy := false, req := none, err := if ok then 0 else 1 } } else s
    noteService s

/-- HBM_TRAIN_DONE (R441). -/
def hbmTrainDone (s : State) (t : StackId) (ok : Bool) : State := domainReady s (domHbm t) (if ok then .passed else .failed)

/-! ### King's boot (R433, R436, R441 to R443) -/

/-- Boot source that a reset chooses: NEXTBOOT where it names one, else the strap; strap 3 is 2. -/
def bootSource (s : State) : Nat :=
  let n := s.king.nextBoot.toNat
  if 1 ≤ n ∧ n ≤ 3 then n - 1 else min 2 s.pins.straps.boot.toNat

/-- The King starts from its ROM towards the boot source that the last reset chose. -/
def startBoot (s : State) : State :=
  let src := s.king.bootSel
  { s with king := { s.king with stage := if src = 2 then .recovery else .loading, source := src, image := false, pushGo := false } }

/-- A reset chooses the boot source (R433). -/
def chooseBoot (s : State) : State := { s with king := { s.king with bootSel := BitVec.ofNat 2 (bootSource s) } }

/-- FIRMWARE_START (R443): an image from the boot source in use has passed its check and runs; the AVS loop starts from 0.80 V (R486). -/
def firmwareStart (s : State) (src : ImageSource) (ver : BitVec 16) : State :=
  let fits := match src with
    | .flashLow => s.king.stage == .loading && s.king.source == 0
    | .flashHigh => s.king.stage == .loading && s.king.source == 0
    | .hostPush => s.king.stage == .loading && s.king.source == 1 && s.king.pushGo
    | .smbus => s.king.stage == .recovery
  if !fits then s
  else
    let low := match src with | .flashLow => true | .smbus => true | _ => false
    let s := { s with king := { s.king with stage := .running, image := !low, fwver := ver, pushGo := false } }
    let s := if s.avs.vcore = 0 then { s with avs := { s.avs with vcore := 800, vlgo := 800 } } else s
    noteService s

/-- A write of `KNG_PUSH_LEN`; GO counts when `whole` (R443). -/
def pushLenWrite (s : State) (fn : FnId) (new : Nat) (whole : Bool) : State :=
  let len := BitVec.ofNat 24 (new % 2 ^ 24)
  if whole && new.testBit 31 then
    if s.king.stage = .loading ∧ s.king.source = 1 then
      emit { s with king := { s.king with pushLen := len, pushGo := true } } (.imageFetch s.king.pushAddr len.toNat)
    else regPriv s fn
  else { s with king := { s.king with pushLen := len } }

/-- BOOT_SPI_FAIL (R443, R453). -/
def bootSpiFail (s : State) : State :=
  if s.king.stage = .loading ∧ s.king.source = 0 then
    raise { s with king := { s.king with stage := .recovery, source := 2 } } srcKing none 0x0104 []
  else s

/-- BOOT_PUSH_FAIL (R453): the image that a GO asked for fails; STAGE stays LOADING, and another GO is accepted. -/
def bootPushFail (s : State) : State :=
  if s.king.stage = .loading ∧ s.king.source = 1 ∧ s.king.pushGo then
    raise { s with king := { s.king with pushGo := false } } srcKing none 0x0105 []
  else s

/-- PCIE_LINK_UP (R436, R440). -/
def pcieLinkUp (s : State) : State :=
  if s.pins.resetN && s.pins.pwrOk && s.king.stage != .test then { s with king := { s.king with pcieUp := true } } else s

/-- Every stack is trained or FAILED, and every rank that can come up has been scrubbed or is FAILED (R441). Without the engine domain no rank comes up. -/
def bootDone (s : State) : Bool :=
  (List.finRange 14).all fun i =>
    let d : DomId := ⟨i.val, by have := i.isLt; omega⟩
    fusedDom s.fuses d || s.power.dom[d] == .on || s.power.dom[d] == .failed || (needsEngine d && s.power.dom[domEngine] == .failed)

/-- DEVICE_READY (R366, R441): PART_0 owns every segment formed. -/
def deviceReady (s : State) : State :=
  if !booting s || !bootDone s then s
  else
    let seg := BitVec.ofNat 64 (2 ^ s.hbm.segments - 1)
    let s := { s with king := { s.king with deviceReady := true, retry := false, romOnly := false } }
    let s := updPart s 0 fun q => { q with cfg := { q.cfg with seg := seg }, own := { q.own with seg := seg } }
    let s := noteService s
    raise s srcKing none 0x0110 [(serviceLevel s).toNat]

/-- ROM_RECOVERY_TIMEOUT (R442). -/
def romTimeout (s : State) : State :=
  if s.king.stage = .running ∨ !s.pins.resetN then s else { s with king := { s.king with retry := false, romOnly := !s.king.deviceReady } }

/-- A message of the King to the BMC: `SMB_ALERT_N` is asserted until the BMC has read it (R482; log 106). -/
def mctpAnswer (s : State) (ready : Bool) : State := emit { s with pins := { s.pins with smbAlertN := false } } (.mctp ready)

/-- MCTP_REQUEST (R436, R440, R453): discovery and identity are always answered, an update where an image may come over SMBus, the rest by firmware. -/
def mctpRequest (s : State) (r : MctpReq) : State :=
  if !s.pins.resetN then s
  else match r with
    | .malformed => raise s srcKing none 0x0106 []
    | .discovery => mctpAnswer s true
    | .identity => mctpAnswer s true
    | .firmwareUpdate => mctpAnswer s (s.king.stage == .running || s.king.stage == .recovery)
    | .resetRequest => mctpAnswer s (s.king.stage == .running)
    | .other => mctpAnswer s (s.king.stage == .running)
    | .collect => { s with pins := { s.pins with smbAlertN := true } }

/-! ### Resets (R437 to R439) -/

/-- Keep what is the model's own over a reset. -/
def keepOwn (s n : State) : State := { n with pending := s.pending, out := s.out, free := s.free }

/-- Everything but the fuses is cleared (R437). -/
def fullReset (s : State) (pwrOk : Bool) : State := keepOwn s { stateReset s.fuses with pins := ⟨pwrOk, false, true, true, strapsReset⟩ }

def powerOnReset (s : State) (e : PwrEdge) : State :=
  match e with
  | .rises => fullReset s true
  | .falls => fullReset s false

/-- PIN_RESET. -/
def pinReset (s : State) : State := if s.pins.pwrOk then fullReset s true else { s with pins := { s.pins with resetN := false } }

/-- Links stand in IDLE with their domains ON (R440), which a thermal trip forbids (R437, R451). -/
def linksIdle (s : State) : State :=
  if s.thermal.tripped then s else
  let s := allLink.foldl (fun s l => setDom s (domLink l) .on) s
  { s with links := s.links.map fun (k : Link) => { k with st := .idle } }

/-- The partitions, timing modes and match take the strap defaults (R366, R433). -/
def takeStraps (s : State) (st : StrapPins) : State :=
  { s with parts := partsReset s.fuses st 0, mtch := matchReset st, tmg := { s.tmg with strictAny := st.timing } }

/-- RESET_N_RISE (R433, R436, R489). -/
def resetRise (s : State) (st : StrapPins) : State :=
  if !s.pins.pwrOk || s.pins.resetN then s
  else
    let s := { s with pins := { s.pins with resetN := true, straps := st } }
    let s := linksIdle (takeStraps s st)
    if st.test then raise { s with king := { s.king with stage := .test } } srcKing none 0x0108 []
    else
      let s := startBoot (chooseBoot s)
      if st.boot = 3 then raise s srcKing none 0x0107 [] else s

/-- A chip reset (R437, R439; log 46): the rank, engine, HBM and link domains, every partition and every ring. -/
def chipReset (s : State) : State :=
  let b := stateReset s.fuses
  let n : State :=
    { b with
      pins := s.pins, avs := s.avs, thermal := s.thermal, ev := s.ev, cons := s.cons
      king := { s.king with deviceReady := false, vfEnable := false }
      clk := { s.clk with frameOn := false }
      hbm := { b.hbm with temps := s.hbm.temps, hot := s.hbm.hot }
      funcs := b.funcs.set 0 { s.funcs[(0 : FnId)] with latch := none }
      tmg := s.tmg, lungo := { s.lungo with ranks := 0 } }
  let n := linksIdle (takeStraps (keepOwn s n) s.pins.straps)
  let n := lgoRetarget n
  let n := chooseBoot n
  let n := if s.king.held ∨ s.king.nextBoot ≠ 0 then startBoot { n with king := { n.king with held := false, expiries := [] } } else n
  noteService n

/-- CHIPRST: what it comes from but a write of `KNG_CTL`, which goes through the register. -/
def chipRstEvent (s : State) (fromMctp : Bool) : State :=
  if !s.pins.resetN || s.king.stage == .test then s
  else if fromMctp && s.king.stage != .running then s
  else chipReset s

/-- The partition fault of a thermal trip; it ends the launch of a partition whose fault is pending too (R437, R455). -/
def tripFault (s : State) (p : PartId) (seq : Nat) : State :=
  let pending := s.parts[p].flt.pending
  let s := partFault s p fcTrip none srcThm 0x0114 seq
  if pending then quiesce s p true else s

/-- THERMAL_TRIP (R437, R451): every ACTIVE partition faults, every domain but the always-on one gates. -/
def thermalTrip (s : State) (sensor deg : BitVec 8) : State :=
  if deg.toNat < 110 ∨ s.thermal.tripped then s
  else
    let s := raise s srcThm none 0x0114 [sensor.toNat, deg.toNat]
    let seq := lastSeq s srcThm
    let s := { s with thermal := { s.thermal with tripped := true, maxj := deg }, pins := { s.pins with thermTripN := false } }
    let s := emit s .thermTrip
    let s := allPart.foldl (fun s p => if s.parts[p].st = .active then tripFault s p seq else s) s
    let s := (List.finRange 28).foldl (fun (s : State) (d : DomId) =>
      if d.val = 27 ∨ s.power.dom[d] = .failed then s else gateLoss (setDom s d .gated) d) s
    noteService { s with power := { s.power with busy := false, req := none } }

/-- KING_WDOG (R459, R463). -/
def kingWdog (s : State) : State :=
  if s.king.stage ≠ .running then s
  else
    let recent := nowCt s :: s.king.expiries.filter fun t => decide (nowCt s < t + 10000000000)
    let s := raise { s with king := { s.king with expiries := recent } } srcKing none 0x0904 [recent.length]
    let s := chipFault s srcKing 0x0904
    let s := if 2 ≤ recent.length then { s with king := { s.king with stage := .rom, held := true } } else startBoot s
    noteService s

/-- A write of `KNG_CTL`: NEXTBOOT, and CHIPRST when `whole` (R437, R443). -/
def kngCtlWrite (s : State) (fn : FnId) (new : Nat) (whole : Bool) : State :=
  let n := field new 1 3
  if 3 < n then regPriv s fn
  else
    let s := { s with king := { s.king with nextBoot := BitVec.ofNat 3 n } }
    if whole && new.testBit 0 then chipReset s else s

def stageNo (k : Stage) : Nat := match k with | .rom => 0 | .loading => 1 | .running => 2 | .recovery => 3 | .test => 4

/-- `KNG_STATUS`. -/
def kngStatus (s : State) : Word32 :=
  BitVec.ofNat 32 (stageNo s.king.stage + (s.king.source.toNat <<< 3) + (bool2nat s.king.image <<< 5) + (s.king.fwver.toNat <<< 16))

def domNo (d : Dom) : Nat := match d with | .on => 0 | .closing => 1 | .gated => 2 | .failed => 3

/-- `PWR_STATE`. -/
def pwrState (s : State) : Word64 :=
  BitVec.ofNat 64 ((List.finRange 28).foldl (fun a (d : DomId) => a + (domNo s.power.dom[d] <<< (2 * d.val))) 0)

/-- `PWR_STATUS`. -/
def pwrStatus (s : State) : Word32 := BitVec.ofNat 32 (bool2nat s.power.busy + (s.power.err.toNat <<< 1))

/-- `STRAP_VAL`. -/
def strapVal (t : StrapPins) : Word32 :=
  BitVec.ofNat 32 (t.boot.toNat + (bool2nat t.timing <<< 2) + (bool2nat t.result <<< 3) + (t.pos.toNat <<< 4) + (bool2nat t.linkRate <<< 12)
    + (bool2nat t.pcieWidth <<< 13) + (bool2nat t.test <<< 14))

/-- `CHIP_ID`. -/
def chipId (f : Fuses) : Word32 :=
  BitVec.ofNat 32 ((match f.variant with | .m => 0 | .v => 1) + (match gradeOf f with | .a => 0 | .b => 2) + (fusedRankNo f <<< 2))

def execDomainGated (d : DomId) (s : State) : Host.Outcome State Fault Refusal := .next (domainGated s d)
def execDomainReady (d : DomId) (r : DomainTest) (s : State) : Host.Outcome State Fault Refusal := .next (domainReady s d r)
def execPowerOnReset (e : PwrEdge) (s : State) : Host.Outcome State Fault Refusal := .next (powerOnReset s e)
def execPinReset (s : State) : Host.Outcome State Fault Refusal := .next (pinReset s)
def execResetNRise (straps : StrapPins) (s : State) : Host.Outcome State Fault Refusal := .next (resetRise s straps)
def execThermalTrip (sensor deg : BitVec 8) (s : State) : Host.Outcome State Fault Refusal := .next (thermalTrip s sensor deg)
def execFirmwareStart (src : ImageSource) (ver : BitVec 16) (s : State) : Host.Outcome State Fault Refusal := .next (firmwareStart s src ver)
def execHbmTrainDone (t : StackId) (ok : Bool) (s : State) : Host.Outcome State Fault Refusal := .next (hbmTrainDone s t ok)
def execDeviceReady (s : State) : Host.Outcome State Fault Refusal := .next (deviceReady s)
def execRomRecoveryTimeout (s : State) : Host.Outcome State Fault Refusal := .next (romTimeout s)
def execMctpRequest (r : MctpReq) (s : State) : Host.Outcome State Fault Refusal := .next (mctpRequest s r)
def execKingWdog (s : State) : Host.Outcome State Fault Refusal := .next (kingWdog s)
def execBootSpiFail (s : State) : Host.Outcome State Fault Refusal := .next (bootSpiFail s)
def execBootPushFail (s : State) : Host.Outcome State Fault Refusal := .next (bootPushFail s)
def execPcieLinkUp (s : State) : Host.Outcome State Fault Refusal := .next (pcieLinkUp s)

end Sys2Proof.Machine
end

