-- ==== Sys2Proof/Machine/Partition.lean ====
section
/-! DEFINITION. Partition operations (R365 to R371, R381 to R383), engine allotment (R373) and the conservation checks (R391 to R393). -/

namespace Sys2Proof.Machine

/-! ### SET checks (R369) -/

def peTaken : Nat := 3
def peSetBusy : Nat := 4
def peEnvelope : Nat := 5
def peFused : Nat := 2

/-- A span of numbers, none when its enable is clear. -/
def flagSpan (r : Word64) : Option (Nat × Nat) := if resFen r then some (resFirst r, resLast r) else none
def linkSpan (r : Word64) : Option (Nat × Nat) := if resLen r then some (resLfirst r, resLlast r) else none
def spansMeet (a b : Option (Nat × Nat)) : Bool :=
  match a, b with
  | some (x, y), some (u, v) => decide (x ≤ v ∧ u ≤ y)
  | _, _ => false

def setBad (s : State) (p : PartId) (c : PartCfg) : Bool :=
  let depth := allPart.foldl (fun a q => a + (if q = p then resQdepth c.res else if s.parts[q].st = .absent then 0 else resQdepth s.parts[q].own.res)) 0
  decide (resLast c.res < resFirst c.res) || decide (resLlast c.res < resLfirst c.res) || decide (c.seg.toNat >>> s.hbm.segments ≠ 0)
    || decide (4096 < depth)

/-- A resource that p would gain belongs to another partition, or a segment to a hold area. -/
def setTaken (s : State) (p : PartId) (c : PartCfg) : Bool :=
  let old := s.parts[p].own
  let sq := c.sq &&& ~~~old.sq
  let seg := c.seg &&& ~~~old.seg
  (allPart.any fun q => decide (q ≠ p) && decide (s.parts[q].st ≠ .absent) &&
    (let o := s.parts[q].own
     o.sq &&& sq != 0 || o.seg &&& seg != 0 || spansMeet (flagSpan o.res) (flagSpan c.res) || spansMeet (linkSpan o.res) (linkSpan c.res)))
  || allPart.any fun q => holdSegs s q &&& seg != 0

/-- Squares change hands while they work, or segments, flags or channels change while p works. -/
def setBusy (s : State) (p : PartId) (c : PartCfg) : Bool :=
  let q := s.parts[p]
  let moved := c.seg != q.own.seg || flagSpan c.res != flagSpan q.own.res || linkSpan c.res != linkSpan q.own.res
  (allSq.any fun n => (c.sq ^^^ q.own.sq).getLsbD n.val && (let t := s.squares[n].core.st; t == .running || t == .stalled || t == .halted))
    || (moved && (q.launched || descriptorsOf s p))

/-! ### Blitz envelope (R380, R381) -/

/-- The partition has a Blitz turn at the admission unit. -/
def blitzTurns (s : State) (q : PartId) : Bool :=
  (List.range 16).any fun i => let t := (s.turns[16 + i]?).getD 0; bit t 31 && bits t 1 0 == 0 && bits t 7 4 == q.val

/-- Engines allotted to the Blitz class of p. -/
def blitzEngines (s : State) (p : PartId) : Nat :=
  (allCe.filter fun n => let r := s.ces[n].allot; ceValid r && cePart r == p && ceClass r == 0).length

/-- A formula of R380 exceeds its bound, RB exceeds the rate of the engines, or NB comes without BVIS. `c` is the configuration asked for p. Times in
units of 1/ratio ns, so that cc and ns are whole. -/
def envelopeBad (s : State) (p : PartId) (c : PartCfg) : Bool :=
  let env := fun (q : PartId) => if q = p then c.env else if s.parts[q].st = .absent then 0 else s.parts[q].own.env
  let k := ratioCc s
  let copyBad := fun (e : Word64) => decide (25000 * k < 2000 * k + ratioCt s * (2048 + 64 * (16 + envBB e)))
  let f := if mRate s.mtch.reg then 25 else 13
  let linkBad := fun (e : Word64) => decide (3000 < headCt s + f * (2 + envLburst e))
  let adm := allPart.foldl (fun a q => if blitzTurns s q then a + envNB (env q) * (400 + 25 * envBvis (env q)) else a) 0
  let clock := match s.fuses.variant with | .m => 1750 | .v => 1600
  (allPart.any fun q => copyBad (env q) || linkBad (env q)) || decide (5000 < 2025 + adm)
    || decide (blitzEngines s p * clock < envRB c.env) || (envNB c.env != 0 && envBvis c.env == 0)

/-- ERR of a SET, in the order of the table. -/
def setErrOf (s : State) (p : PartId) (c : PartCfg) : Nat :=
  if setBad s p c then peBad
  else if c.sq &&& ~~~sqMap s != 0 then peFused
  else if setTaken s p c then peTaken
  else if setBusy s p c then peSetBusy
  else if envelopeBad s p c then peEnvelope
  else 0

/-! ### Effects of SET (R370) -/

/-- Write a physical segment with zeros. -/
def zeroSegment (s : State) (g : Nat) : State := { s with hbm := { s.hbm with mem := sclear s.hbm.mem (g * segBytes) ((g + 1) * segBytes) } }

/-- What is under way at lost squares ends: their messages are dropped, those for them refused with NO_HANDLE, the requests they had still to answer are
answered by the device, and the credits of others return (R16, R208, R370, R384). -/
def endTraffic (s : State) (lost : BitVec 64) : State :=
  let from_ := fun (m : Msg) => m.via.isNone && m.net != .reply && lost.getLsbD m.owner.val
  let into := fun (m : Msg) => m.link.isNone && m.refuse.isNone && lost.getLsbD m.dst.val && (match m.kind with | .cflag _ _ => false | _ => true)
  -- a reply that has not begun to leave has nothing to carry but its trailer
  let cut := fun (m : Msg) => if m.net == .reply && lost.getLsbD m.at_.val && m.arrive.isEmpty then
      { m with kind := .reply 3, lines := 0, flits := 1, data := [] } else m
  let refused := s.msgs.filter fun m => into m && !from_ m
  let replies := orphanReplies s lost
  let s := { s with msgs := (s.msgs.filter fun m => !from_ m && !into m).map cut }
  let s := refused.foldl (fun s m => refuseMsg s m stNoHandle) s
  let s := replies.foldl (fun s (n, r) => sendReply s n r 3 0 0 (nowCc s)) s
  let s := (allSq.filter fun n => lost.getLsbD n.val).foldl (fun s n => returnAll s lost n) s
  deadMessages s lost

/-- Squares a partition loses are scrubbed and left IDLE, and no route starts or ends at one of them any more (R16, R370). -/
def loseSquares (s : State) (lost : BitVec 64) : State :=
  if lost = 0 then s else
  let s := endTraffic s lost
  let into := fun (r : Word64) => rtValid r && !rtRemote r && lost.getLsbD (rtDsq r).val
  let s := dropSlots s fun n e => match ingressOf s n e with
    | some _ => allLink.any fun l => linkSquare l == n && into s.links[l].irt[e]
    | none => lost.getLsbD n.val || into s.squares[n].eps[e].route
  let s := { s with links := s.links.map fun (k : Link) =>
    { k with irt := k.irt.map fun r => if into r then 0 else r
             irs := k.irs.mapFinIdx fun c x _ => if into ((k.irt[c]?).getD 0) then 0 else x } }
  { s with squares := s.squares.mapFinIdx fun i (q : Square) _ =>
      if lost.getLsbD i then scrubSquare q
      else { q with eps := q.eps.map fun x => if into x.route then { x with route := 0 } else x } }

/-- Flags of the old range outside the new one become 0. -/
def loseFlags (s : State) (old new : Option (Nat × Nat)) : State :=
  match old with
  | none => s
  | some (a, b) => match new with
    | none => clearFlags s a b
    | some (x, y) =>
      if b < x ∨ y < a then clearFlags s a b
      else
        let s := if a < x then clearFlags s a (x - 1) else s
        if y < b then clearFlags s (y + 1) b else s

/-- Link channels of p outside the new span are cleared with their slots and ingress routes, in the mesh too. -/
def loseChannels (s : State) (p : PartId) (new : Option (Nat × Nat)) : State :=
  let stays := fun (c : Nat) => match new with | some (x, y) => decide (x ≤ c ∧ c ≤ y) | none => false
  let s := dropSlots s fun n e => match ingressOf s n e with | some ch => chOwner ch == p && !stays e.val | none => false
  { s with links := s.links.map fun (k : Link) =>
      let gone := fun (c : Nat) => (k.ch[c]?.map chOwner).getD 0 == p && !stays c
      { k with slot := k.slot.map fun r => if bit r 31 && !bit r 5 && gone (bits r 4 0) then 0 else r
               irt := k.irt.mapFinIdx fun c x _ => if gone c then 0 else x
               irs := k.irs.mapFinIdx fun c x _ => if gone c then 0 else x
               ch := k.ch.mapFinIdx fun c x _ => if gone c then 0 else x } }

/-- Apply a configuration: what p loses is cleared, an ABSENT partition becomes ACTIVE with the strap defaults (R369, R370, R434). -/
def applySet (s : State) (p : PartId) (c : PartCfg) : State :=
  let q := s.parts[p]
  let lostSeg := q.own.seg &&& ~~~c.seg
  let s := loseSquares s (q.own.sq &&& ~~~c.sq)
  let s := loseFlags s (flagSpan q.own.res) (flagSpan c.res)
  let s := loseChannels s p (linkSpan c.res)
  let s := (bitsOf lostSeg).foldl zeroSegment s
  let s := updPart s p fun q =>
    let free := resQdepth c.res + (if q.st = .absent then 0 else q.qFree - resQdepth q.own.res)
    let q := if q.st = .absent then
        { q with st := .active, strict := s.pins.straps.timing, result := if s.pins.straps.result then 1 else 0, modeWait := none }
      else q
    { q with own := c, cfg := c, qFree := free, tokens := envBB c.env * 4096 * 125, tokenAt := nowCt s }
  let s := settleRanks s
  if anyLaunched s then s else { s with tmg := { s.tmg with strictAny := strictNow s } }

/-! ### PART_CTL (R368, R371) -/

def partBusy (s : State) : Bool := allPart.any fun p => s.parts[p].busy

def beginOp (s : State) (p : PartId) (op err : Nat) : State :=
  updPart s p fun q => { q with busy := true, op := some ⟨BitVec.ofNat 2 op, BitVec.ofNat 3 err⟩ }

/-- Start a partition reset: steps 1 to 6 are done, and STATE shows them until the next core cycle; step 7 runs until the operation's end (log 36). A
reset under way goes on. -/
def startReset (s : State) (p : PartId) (op : Nat) : State :=
  if s.parts[p].st ≠ .active then s
  else
    quiesce (beginOp (updPart s p fun q => { q with st := .quiescing }) p op 0) p false

/-- A whole write of `PART_CTL` by the physical function. -/
def partCtl (s : State) (fn : FnId) (new : Nat) : State :=
  if partBusy s then regPriv s fn
  else
    let p := partOf (field new 0 4)
    let op := field new 4 2
    let q := s.parts[p]
    if op = 1 then
      let e := setErrOf s p q.cfg
      let s := beginOp s p 1 e
      if e = 0 then applySet s p q.cfg else updPart s p fun q => { q with cfg := q.own }
    else if op = 0 ∨ q.st = .absent ∨ (op = 3 ∧ p = 0) then beginOp s p op peBad
    else startReset s p op

/-- The grants p made go with its flags (R365): none of them is an orphan any more (R389). -/
def withdrawGrants (s : State) (p : PartId) : State :=
  let mine := fun (n : Fin 64) => grValid s.flags.grants[n] && grOwner s.flags.grants[n] == p
  { s with flags := { s.flags with
      grants := Vector.ofFn fun n => if mine n then 0 else s.flags.grants[n]
      orphan := (List.finRange 64).foldl (fun (m : BitVec 64) n => if mine n then setBits m n.val 1 0 else m) s.flags.orphan } }

/-- The engine time of p goes: copy engines and turns allotted to it (R365). -/
def freeEngines (s : State) (p : PartId) : State :=
  let s := allCe.foldl (fun s n => if ceValid s.ces[n].allot && cePart s.ces[n].allot == p then
      updCe s n fun c => { c with allot := 0, inForce := if c.run.isNone then 0 else c.inForce } else s) s
  { s with turns := s.turns.map fun r => if bit r 31 && partOf (bits r 7 4) == p then (0 : Word32) else r }

/-- Free everything that p owns (R371). -/
def freeAll (s : State) (p : PartId) : State :=
  let own := s.parts[p].own
  let s := freeEngines (withdrawGrants s p) p
  let s := loseChannels s p none
  let s := (bitsOf own.seg).foldl zeroSegment s
  let s := updPart s p fun q => { q with st := .absent, own := cfgReset, cfg := cfgReset, qFree := 0, modeWait := none }
  let s := updSnp s p fun x => { snpReset with hold := x.hold, held := x.held, send := x.send, stale := x.stale }
  let s := { s with srv := s.srv.set p srvReset }
  if anyLaunched s then s else { s with tmg := { s.tmg with strictAny := strictNow s } }

/-- PART_OP_COMPLETE (R368, R382 step 7, R424): what is left of the operation, BUSY, ERR, vector 2. It waits for the King's firmware (R21, log 91). -/
def partOpComplete (s : State) (p : PartId) : State :=
  if s.king.stage ≠ .running then s else
  match s.parts[p].op with
  | none => s
  | some o =>
    let s := if o.op ≠ 1 ∧ o.err = 0 then
        let s := dropRanks (scrub s p) p
        if o.op = 3 then freeAll s p else s
      else s
    fireMsix (updPart s p fun q => { q with busy := false, err := o.err, op := none }) 0 2

/-! ### Other registers of the chapter -/

/-- A write of `CE_ALLOT[n]`: in force when the engine is idle (R373). -/
def allotWrite (s : State) (n : CeId) (new : Nat) : State :=
  let w := BitVec.ofNat 32 (new % 2 ^ 32) &&& 0x800000F3
  updCe s n fun c => { c with allot := w, inForce := if c.run.isNone then w else c.inForce }

/-- CONSERVATION_CHECK (R392): at every count that is a multiple of 10⁶. -/
def conservationCheck (s : State) : State := if nowCt s % 1000000 = 0 then consRun s else s

/-- A write of `CONS_STATUS`: each 1 clears its bit when `whole`. -/
def consWrite (s : State) (x : Nat) : State :=
  { s with cons := { s.cons with fail := s.cons.fail &&& ~~~(BitVec.ofNat 11 (w1c s .consFail x)) } }

/-- `CONS_LAST`. -/
def consLast (s : State) : Word64 :=
  BitVec.ofNat 64 (s.cons.check.toNat + (s.cons.part.toNat <<< 4) + (bool2nat s.cons.chip <<< 8) + (s.cons.stamp.toNat <<< 16))

def pstateNo (x : PState) : Nat := match x with | .absent => 0 | .active => 1 | .quiescing => 2 | .scrubbing => 3

/-- `PART_STATUS`. -/
def partStatus (q : Part) : Word32 :=
  BitVec.ofNat 32 (pstateNo q.st + (bool2nat q.busy <<< 2) + (q.err.toNat <<< 4) + (q.epoch.toNat <<< 16))

def execPartOpComplete (p : PartId) (s : State) : Host.Outcome State Fault Refusal := .next (partOpComplete s p)
def execConservationCheck (s : State) : Host.Outcome State Fault Refusal := .next (conservationCheck s)

end Sys2Proof.Machine
end

