-- ==== Sys2Proof/Machine/Serving.lean ====
section
/-! DEFINITION. The serving engines (11): registers and enable, start-up scan, admission, service frames, the opening book and the release of
requests. The sampler stands in Sampler.lean. -/

namespace Sys2Proof.Machine

/-! ### Registers (R312) -/

/-- Registers of a partition's serving block: 0 `SRV_CTL`, 1 `SRV_KV`, 2 `SRV_BOOK`, 3 `SRV_VAR`, 4 `SRV_REQ`, 5 `SRV_BATCH`, 6 `SRV_SAMP`,
7 `SRV_BUDGET`, 8 `SRV_FRAMES`, 9 `SRV_STAT`, 10 `SRV_CNT`. -/
def srvFrameNo (s : State) (p : PartId) : Nat :=
  let v := s.srv[p]
  if v.en && v.frameLen != 0 then nowCt s / (320 * v.frameLen.toNat) else v.frameNo.toNat

def srvReg (s : State) (p : PartId) (k : Nat) : Word64 :=
  let v := s.srv[p]
  match k with
  | 0 => BitVec.ofNat 64 (bool2nat v.en + 2 * bool2nat v.book_ + 4 * v.ppb.toNat + 32 * bool2nat v.ready + 256 * v.frameLen.toNat)
  | 1 => v.kv.zeroExtend 64
  | 2 => v.book
  | 3 => v.var
  | 4 => v.req
  | 5 => v.batch
  | 6 => v.samp
  | 7 => v.budget
  | 8 => BitVec.ofNat 64 (srvFrameNo s p)
  | 9 => BitVec.ofNat 64 (v.free.length % 2 ^ 24 + (v.slots.length % 2 ^ 13) * 2 ^ 24)
  | _ => BitVec.ofNat 64 (v.overrun.toNat + (v.bookFull.toNat <<< 8) + (v.collide.toNat <<< 16) + (v.repFull.toNat <<< 24))

/-- An HBM table of `len` bytes lies inside the partition's segments. -/
def tableIn (s : State) (p : PartId) (base len : Nat) : Bool := (hbmAddr s p base len).isSome

/-- Bytes of one batch buffer (R318). -/
def batchStride (v : Srv) : Nat := ceilDiv (576 + 64 * reqSlots v) 4096 * 4096

/-- May EN be set with these registers (R312)? LOG2 and RSLOTS outside their ranges count as a table that has no place (log 48). -/
def srvMayEnable (s : State) (p : PartId) (v : Srv) : Bool :=
  v.frameLen != 0
    && (List.range (ceilDiv (kvPages v) 36864)).all (fun i => (physSeg s p (kvSeg v + i)).isSome)
    && (!v.book_ || (decide (10 ≤ bookLog2 v ∧ bookLog2 v ≤ 22) && tableIn s p (bookBase v) (128 * 2 ^ bookLog2 v)))
    && tableIn s p (varBase v) 65536
    && decide (1 ≤ reqSlots v ∧ reqSlots v ≤ 4096) && tableIn s p (reqBase v) (256 * reqSlots v + 4 * kvPages v)
    && tableIn s p (batchBase v) (2 * batchStride v)
    && tableIn s p (sampBase v) 16
    && inRange s p (batchFflag v) && inRange s p (sampSflag v) && inRange s p (sampDflag v)

/-- A write of the value `new` to register k by function fn (R312, R314). -/
def srvWrite (s : State) (fn : FnId) (p : PartId) (k : Nat) (new : Word64) : State :=
  let v := s.srv[p]
  if fn ≠ 0 then regPriv s fn
  else if k = 0 then
    let en := bit new 0
    if v.en then
      if bit new 1 != v.book_ || bits new 4 2 != v.ppb.toNat || bits new 31 8 != v.frameLen.toNat then regPriv s fn
      else if en then s else srvDisable { s with srv := s.srv.set p { v with frameNo := BitVec.ofNat 64 (srvFrameNo s p) } } p
    else
      let w := { v with book_ := bit new 1, ppb := BitVec.ofNat 3 (bits new 4 2), frameLen := BitVec.ofNat 24 (bits new 31 8) }
      if !en then { s with srv := s.srv.set p w }
      else if srvMayEnable s p w then
        let w := { w with en := true, ready := false, opened := some (nowCt s / (320 * w.frameLen.toNat)) }
        { s with srv := s.srv.set p w }
      else regPriv s fn
  else if v.en then regPriv s fn
  else updSrv s p fun v => match k with
    | 1 => { v with kv := BitVec.ofNat 32 (bits new 29 0) }
    | 2 => { v with book := BitVec.ofNat 64 (bits new 42 0 + (bits new 63 48 <<< 48)) }
    | 3 => { v with var := BitVec.ofNat 64 (bits new 37 0) }
    | 4 => { v with req := BitVec.ofNat 64 (bits new 50 0) }
    | 5 => { v with batch := BitVec.ofNat 64 (bits new 50 0) }
    | 6 => { v with samp := new }
    | 7 => { v with budget := BitVec.ofNat 64 (bits new 43 0) }
    | _ => v

/-! ### Engines: errors, turns, writers that wait -/

/-- The outcome of a serving engine's protected reads: a double-bit error is an engine fault of the partition (R454, R460). -/
def eccEngine (s : State) (p : PartId) (e : Ecc) : State × Bool :=
  match e with
  | .corrected (.hbm t) _ => (hbmCorrected s t (some p), true)
  | .uncorrected (.hbm t) loc => (partFaultBy (hbmUncorrected s t (some p) loc.toNat) p fcEngine none (srcHbm t) 0x0402, false)
  | _ => (s, true)

/-- Granules that a serving operation writes: those whose dirty bits it sets (R357). -/
def granulesWritten (s : State) (p : PartId) (f : State → State) : List Nat :=
  let clean := updSnp s p fun n => { n with gens := n.gens.map fun (g : Gen) => { g with dirty := [] } }
  (f clean).snp[p].gens[(0 : Fin 2)].dirty.map (·.1)

/-- Granules that an operation would write and that an open generation has not captured (R353). -/
def heldGrans (s : State) (p : PartId) (f : State → State) : List Nat :=
  match s.snp[p].job with
  | none => []
  | some j => if j.grans.isEmpty then [] else (granulesWritten s p f).filter fun k => j.grans.contains k

/-- A writer waits for pages and granules: they are captured next (R354). -/
def wantCaptures (s : State) (p : PartId) (pages grans : List Nat) : State :=
  updSnp s p fun n =>
    let job := n.job.map fun (j : SnpJob) =>
      { j with wantPages := j.wantPages ++ pages.filter fun k => !j.wantPages.contains k
               wantGrans := j.wantGrans ++ grans.filter fun k => !j.wantGrans.contains k }
    { n with job := job }

/-- Run a serving operation, unless it would write a granule that an open generation has not captured: then it waits (R353). -/
def unlessHeld (s : State) (p : PartId) (f : State → State) : State :=
  let held := heldGrans s p f
  if held.isEmpty then f s else wantCaptures s p [] held

/-- An operation of a partition and class that needs `need` visits of the walker: each command of it makes one visit, in the walker's turn, and with the last
one the operation takes effect (R374, R375; log 108). One that needs none takes effect at once. -/
def walkFor (s : State) (p : PartId) (c : Fin 3) (k : WalkKind) (need : Nat) (e : Ecc) (f : State → State) : State :=
  let w := walkOp s p c k need
  if w.left = 0 then
    let (s, ok) := eccEngine s p e
    if ok then unlessHeld s p f else s
  else
    let s := walkEnter s w
    match walkTurn s w with
    | none => s
    | some s =>
      let (s, ok) := eccEngine s p e
      if !ok then s
      else if w.left = 1 then unlessHeld s p fun s => f { s with walk := s.walk.erase w }
      else walkVisited s w

/-! ### The start-up scan (R314) -/

/-- A part of an operation: the state after it, and whether every access was in reach. One that is not ends the operation with BAD_SEGMENT, and what came
before it stands (R311; log 104). -/
abbrev Part1 := State × Bool

/-- The next part of an operation, unless it has ended. -/
def andThen (r : Part1) (f : State → Part1) : Part1 := if r.2 then f r.1 else r

/-- A part for each element of a list, in order. -/
def eachPart {α : Type} (l : List α) (f : State → α → Part1) (s : State) : Part1 := l.foldl (fun r x => andThen r fun s => f s x) (s, true)

/-- A part that needs `ok`: without it the operation ends there. -/
def ifReach (ok : Bool) (s : State) (f : State → State) : Part1 := if ok then (f s, true) else (s, false)

/-- Scan of node i: its REFS becomes 0, or the node is emptied. State, pages named so far, nodes emptied. -/
def scanNode (p : PartId) (acc : State × List Nat × Nat) (i : Nat) : State × List Nat × Nat :=
  let (s, named, bad) := acc
  if !nodeValid s p i then acc
  else
    let pages := nodePages s p i
    if pages.any fun x => decide (kvPages s.srv[p] ≤ x) || named.contains x then (nodeSet s p i 14 1 0, named, bad + 1)
    else (nodeSet s p i 12 2 0, named ++ pages, bad)

/-- Everything the start-up scan reaches: each node, and the free list. -/
def scanReach (s : State) (p : PartId) : Bool :=
  let v := s.srv[p]
  (!v.book_ || reaches s p (bookBase v) 0 (128 * 2 ^ bookLog2 v)) && freeReach s p (kvPages v)

def startupScan (s : State) (p : PartId) : State :=
  let v := s.srv[p]
  let nodes := if v.book_ then List.range (2 ^ bookLog2 v) else []
  let (s, named, bad) := nodes.foldl (scanNode p) (s, [], 0)
  let s := if bad = 0 then s else raise s srcWalker (some p) 0x0802 [bad]
  let s := updSrv s p fun v => { v with free := [], slots := [], cursor := 0 }
  let s := returnPages s p ((List.range (kvPages v)).filter fun x => !named.contains x)
  updSrv s p fun v => { v with ready := true }

/-- STARTUP_SCAN_DONE: with EN set and READY clear; each node is a visit of the walker, in a Classical turn of the partition, and a scan of no node takes one
turn (R374; log 108). A scan that ends with BAD_SEGMENT sets no READY. -/
def scanDone (s : State) (p : PartId) (e : Ecc) : State :=
  let v := s.srv[p]
  if !v.en || v.ready || !domOn s domEngine then s
  else walkFor s p 2 .scan (if v.book_ then 2 ^ bookLog2 v else 1) e fun s => if scanReach s p then startupScan s p else s

/-! ### Book keys and searches (R325 to R327) -/

def crc64Poly : Nat := 0xC96C5795D7870F42
def crc64Bit (c : Nat) : Nat := if c % 2 = 1 then (c / 2) ^^^ crc64Poly else c / 2
def crc64Byte (c b : Nat) : Nat := crc64Bit (crc64Bit (crc64Bit (crc64Bit (crc64Bit (crc64Bit (crc64Bit (crc64Bit (c ^^^ b))))))))
/-- CRC-64 with the ECMA-182 polynomial taken reflected, all-ones start and final exclusive-OR. -/
def crc64 (l : List Byte) : Nat := l.foldl (fun c b => crc64Byte c b.toNat) (2 ^ 64 - 1) ^^^ (2 ^ 64 - 1)
/-- h_k of a block after h_(k−1). -/
def blockKey (prev : Nat) (toks : List Nat) : Nat := crc64 (natLe 8 prev ++ toks.flatMap (natLe 4))

/-- The tokens of a node as one number, token i in bits [18i + 17 : 18i]. -/
def packTokens (toks : List Nat) : Nat := (List.zipIdx toks).foldl (fun a (t, i) => a + ((t % 2 ^ 18) <<< (18 * i))) 0

/-- A node matches (R326). -/
def nodeMatches (s : State) (p : PartId) (i key parent : Nat) (toks : List Nat) : Bool :=
  nodeGet s p i 0 8 == key && nodeParent s p i == parent && toks.all (fun t => decide (t < 2 ^ 18)) && nodeGet s p i 56 72 == packTokens toks
    && nodeNpages s p i == srvP s.srv[p]

/-- What a probe finds: the matching node, the first empty or tombstone node, visits and collisions, and whether every visit was in reach. -/
structure Probe where
  hit : Option Nat
  slot : Option Nat
  visits : Nat
  coll : Nat
  ok : Bool
deriving DecidableEq, Repr

/-- Probe from index i for at most n visits. -/
def probe (s : State) (p : PartId) (key parent : Nat) (toks : List Nat) : Nat → Nat → Probe
  | 0, _ => ⟨none, none, 0, 0, true⟩
  | n + 1, i =>
    let st := nodeState s p i
    let next := (i + 1) % 2 ^ bookLog2 s.srv[p]
    if !nodeReach s p i then ⟨none, none, 0, 0, false⟩
    else if st = 0 then ⟨none, some i, 1, 0, true⟩
    else if st = 1 ∧ nodeMatches s p i key parent toks then ⟨some i, none, 1, 0, true⟩
    else
      let r := probe s p key parent toks n next
      { r with slot := if st = 2 then some i else r.slot, visits := r.visits + 1, coll := r.coll + bool2nat (st = 1 && nodeGet s p i 0 8 == key) }

/-- What a lookup finds: the matched nodes in order, visits and collisions, and whether every visit was in reach. -/
structure Found where
  nodes : List Nat
  visits : Nat
  coll : Nat
  ok : Bool
deriving DecidableEq, Repr

/-- The lookup of a prompt (R327, R378). `lim` bounds the visits of a Blitz lookup. -/
def lookup (s : State) (p : PartId) : List (List Nat) → Nat → Nat → Option Nat → Found
  | [], _, _, _ => ⟨[], 0, 0, true⟩
  | toks :: rest, prev, parent, lim =>
    let key := blockKey prev toks
    let r := probe s p key parent toks (match lim with | some l => min l 16 | none => 16) (key % 2 ^ bookLog2 s.srv[p])
    match r.hit with
    | none => ⟨[], r.visits, r.coll, r.ok⟩
    | some i =>
      let f := lookup s p rest key i (lim.map (· - r.visits))
      ⟨i :: f.nodes, r.visits + f.visits, r.coll + f.coll, f.ok⟩

/-! ### Request records -/

def rRid (r : BitVec 1024) : Nat := rcdF r 0 8
def rModel (r : BitVec 1024) : Nat := rcdF r 16 8
def rPrompt (r : BitVec 1024) : Nat := rcdF r 24 8
def rPlen (r : BitVec 1024) : Nat := rcdF r 32 4
def rMaxnew (r : BitVec 1024) : Nat := rcdF r 36 4
def rVar (r : BitVec 1024) : Nat := rcdF r 40 2
def rMaskKind (r : BitVec 1024) : Nat := rcdF r 43 1
def rDeadline (r : BitVec 1024) : Nat := rcdF r 44 4
def rOut (r : BitVec 1024) : Nat := rcdF r 48 8
def rMask (r : BitVec 1024) : Nat := rcdF r 56 8
def rTemp (r : BitVec 1024) : Nat := rcdF r 64 4
def rTopp (r : BitVec 1024) : Nat := rcdF r 68 4
def rTopk (r : BitVec 1024) : Nat := rcdF r 72 2
def rNlist (r : BitVec 1024) : Nat := rcdF r 74 2
def rEos (r : BitVec 1024) : Nat := rcdF r 76 4
def rPres (r : BitVec 1024) : Nat := rcdF r 80 4
def rFreq (r : BitVec 1024) : Nat := rcdF r 84 4
def rPtab (r : BitVec 1024) : Nat := rcdF r 88 8
def rRepc (r : BitVec 1024) : Nat := rcdF r 96 8
def rVocab (r : BitVec 1024) : Nat := rcdF r 104 4
/-- B: blocks of 32 tokens that the request may fill (R320). -/
def rBlocks (r : BitVec 1024) : Nat := ceilDiv (rPlen r + rMaxnew r) 32

/-- Tokens i to i + n − 1 of the prompt. -/
def promptTokens (s : State) (p : PartId) (r : BitVec 1024) (i n : Nat) : List Nat :=
  (List.range n).map fun k => optNat s (tableAt s p (rPrompt r) (4 * (i + k)) 4) 4

/-- Full prompt blocks in order. -/
def promptBlocks (s : State) (p : PartId) (r : BitVec 1024) : List (List Nat) :=
  (List.range (rPlen r / 32)).map fun k => promptTokens s p r (32 * k) 32

/-- Tokens of the allowed list. -/
def listTokens (s : State) (p : PartId) (r : BitVec 1024) : List Nat :=
  (List.range (rNlist r)).map fun k => optNat s (tableAt s p (rMask r) (4 * k) 4) 4

/-- BAD_SEGMENT: an address of the record outside the partition, or in a closing stack (R319, R431); the extent of each array is tested where the lengths
are in range, and one byte at a MASK that no mask uses (log 49). -/
def rcdInside (s : State) (p : PartId) (r : BitVec 1024) : Bool :=
  let sane := decide (rPlen r + rMaxnew r ≤ 2097120)
  let ext := fun (n : Nat) => if sane then max n 4 else 4
  reaches s p (rPrompt r) 0 (ext (4 * rPlen r)) && reaches s p (rOut r) 0 (ext (4 * rMaxnew r)) && reaches s p (rPtab r) 0 (ext (32 * rBlocks r))
    && reaches s p (rRepc r) 0 32768
    && (match rMaskKind r with
        | 1 => reaches s p (rMask r) 0 (max 4 (4 * min 4096 (rNlist r)))
        | 2 => reaches s p (rMask r) 0 (16 * (rNlist r + 1))
        | _ => reaches s p (rMask r) 0 1)

/-- BAD_RECORD (R319). -/
def rcdSound (s : State) (p : PartId) (r : BitVec 1024) : Bool :=
  let temp := fpDecode .b32 (rTemp r)
  let tempOk := match temp with
    | .fin neg m _ => !neg || m == 0
    | _ => false
  rcdF r 108 20 == 0 && decide (1 ≤ rPlen r) && decide (1 ≤ rMaxnew r) && decide (rPlen r + rMaxnew r ≤ 2097120)
    && decide (rTopk r ≤ 256) && decide (rClass r < 3) && decide (rMaskKind r < 3) && (rMaskKind r != 1 || decide (rNlist r ≤ 4096))
    && decide (1 ≤ rVocab r ∧ rVocab r ≤ 262144) && decide (rEos r < rVocab r) && tempOk
    && fpDecode .b32 (rPres r) != .nan && fpDecode .b32 (rFreq r) != .nan && fpDecode .b32 (rTopp r) != .nan
    && (rMaskKind r != 1 || (listTokens s p r).all fun t => decide (t < rVocab r))

/-- BAD_VARIATION: the entry of the variation directory is valid (R330). -/
def rcdVarOk (s : State) (p : PartId) (r : BitVec 1024) : Bool :=
  rVar r == 0xFFFF || (decide (rVar r < 4096) && (optNat s (tableAt s p (varBase s.srv[p]) (16 * rVar r) 16) 16).testBit 127)

/-! ### Admission (R319 to R323) -/

/-- A FINISH (R323). -/
def finishJob (s : State) (p : PartId) (j : Job) : State :=
  let n := jobWord j.body 1 % 4096
  if s.srv[p].slots.any fun r => r.slot == n then
    let s := updSrv s p fun v => { v with slots := v.slots.map fun r => if r.slot == n && r.ended.isNone then { r with ended := some 4 } else r }
    complete s p (jobId j.body) 0x06 0 0 n
  else complete s p (jobId j.body) 0x06 5 0 n

/-- FINISH jobs at the front of the partition's SERVE jobs act (R419: ring order); n bounds how many. -/
def takeFinishes (p : PartId) : Nat → State → State
  | 0, s => s
  | n + 1, s =>
    match s.srv[p].waiting with
    | j :: rest => if srvCode j = 2 then takeFinishes p n (finishJob (updSrv s p fun v => { v with waiting := rest }) p j) else s
    | [] => s

/-- Prefill tokens still to run for admitted requests of this or a higher class (R321). -/
def prefillAhead (v : Srv) (cls : Nat) : Nat :=
  (v.slots.filter fun r => decide (rClass r.rcd ≤ cls)).foldl (fun a r => a + (rPlen r.rcd - r.done)) 0

/-- The first token falls beyond DEADLINE (R321); with no prefill budget a prompt that needs one never runs. -/
def tooLate (v : Srv) (r : BitVec 1024) (m : Nat) : Bool :=
  let q := prefillAhead v (rClass r) + (rPlen r - 32 * m)
  rDeadline r != 0 && (if budPrefill v = 0 then q != 0 else decide (rDeadline r < ceilDiv q (budPrefill v)))

/-- Lowest free slot. -/
def freeSlot (v : Srv) : Option Nat := (List.range (reqSlots v)).find? fun n => !(v.slots.any fun r => r.slot == n)

/-- Write the pages of block b into the page table. -/
def ptabSet (s : State) (p : PartId) (r : BitVec 1024) (b : Nat) (pages : List Nat) : State :=
  (List.zipIdx pages).foldl (fun s (x, i) => optWrite s p (tableAt s p (rPtab r) (32 * b + 4 * i) 4) 4 x) s

/-- Take a slot, the pages and the references (R322), with matched nodes `ns`. -/
def takeRequest (s : State) (p : PartId) (id : Word32) (r : BitVec 1024) (slot : Nat) (ns : List Nat) : State :=
  let v := s.srv[p]
  let m := ns.length
  let need := srvP v * (rBlocks r - m)
  let fresh := v.free.take need
  let frame := srvFrameNo s p
  let s := ns.foldl (fun s i => nodeSet (nodeSet s p i 12 2 (nodeRefs s p i + 1)) p i 16 4 (frame % 2 ^ 32)) s
  let s := setFree s p (v.free.drop need)
  let s := optWrite s p (tableAt s p (reqBase v) (256 * slot) 128) 128 r.toNat
  let shared := ns.flatMap fun i => nodePages s p i
  let pages := shared ++ fresh
  let s := (List.range (rBlocks r)).foldl (fun s b => ptabSet s p r b ((pages.drop (srvP v * b)).take (srvP v))) s
  let s := optWrite s p (tableAt s p (rRepc r) 0 32768) 32768 0
  let (s, lst) := draw s
  let q : Req := { slot := slot, rcd := r, jobId := id, pos := rPlen r, ngen := 0, last := lst % 2 ^ 32, gstate := rNlist r, ended := none
                   order := v.nextOrder, frame := frame, m := m, done := min (rPlen r) (32 * m), chunk := none, blocks := m, noMore := false
                   nodes := ns, pages := pages, priv := fresh, late := false }
  let s := updSrv s p fun v => { v with slots := v.slots ++ [q], nextOrder := v.nextOrder + 1 }
  updRingOf s p fun g => { g with promised := g.promised + 1 }

/-- What an admission writes lies in reach: the slot, and the free list (R311). -/
def takeReach (s : State) (p : PartId) (slot : Nat) : Bool :=
  reaches s p (reqBase s.srv[p]) (256 * slot) 128 && freeReach s p s.srv[p].free.length

/-- The checks of R319 that come before the lookup, in order: the code of the first that fails, or 0. An access out of reach is BAD_SEGMENT (R311, R431). -/
def earlyCode (s : State) (p : PartId) (r : Option (BitVec 1024)) : Nat :=
  let v := s.srv[p]
  if !v.en || !v.ready then 1
  else match r with
  | none => 2
  | some r =>
    if !rcdInside s p r then 2
    else if !rcdSound s p r then 3
    else if rVar r < 4096 && !reaches s p (varBase v) (16 * rVar r) 16 then 2
    else if !rcdVarOk s p r then 4
    else if (freeSlot v).isNone then 5
    else 0

/-- The lookup of a request's prompt: none where the partition has no book. -/
def lookupOf (s : State) (p : PartId) (r : BitVec 1024) : Found :=
  if s.srv[p].book_ then
    lookup s p (promptBlocks s p r) (rModel r) nodeNone (if rClass r = 0 then some (envBvis s.parts[p].own.env) else none)
  else ⟨[], 0, 0, true⟩

/-- Visits that a decision needs: those of its lookup, none where it is refused before (R319, R326). -/
def decisionVisits (s : State) (p : PartId) (r : Option (BitVec 1024)) : Nat :=
  match r with
  | some x => if earlyCode s p r = 0 then (lookupOf s p x).visits else 0
  | none => 0

/-- The checks of R319 in order and what follows: the state, the code and the slot. A lookup or a write out of reach ends the decision with BAD_SEGMENT
(R311, R431). -/
def decideOne (s : State) (p : PartId) (id : Word32) (r : Option (BitVec 1024)) : State × Nat × Nat :=
  let v := s.srv[p]
  match earlyCode s p r, r, freeSlot v with
  | 0, some r, some slot =>
    let f := lookupOf s p r
    let s := countSrv s p 2 f.coll
    let m := f.nodes.length
    if !f.ok || !takeReach s p slot then (s, 2, 0)
    else if v.free.length < srvP v * (rBlocks r - m) then (s, 6, 0)
    else if tooLate v r m then (s, 7, 0)
    else (takeRequest s p id r slot f.nodes, 0, slot)
  | c, _, _ => (s, c, 0)

/-- A decision in place b ends: the job's completion, and the unit takes the next (R322). -/
def decide1 (b : Fin 2) (p : PartId) (j : Job) (s : State) : State :=
  let r := rcdAt s p j
  let s := updSrv s p fun v => { v with waiting := v.waiting.erase j }
  let (s, code, slot) := decideOne s p (jobId j.body) r
  let s := complete s p (jobId j.body) 0x06 code (match r with | some r => rRid r | none => 0) slot
  let s := { s with deciding := s.deciding.set b none }
  admPick (takeFinishes p s.srv[p].waiting.length s)

/-- ADMISSION_DECISION: the decision that the unit holds in its Blitz place or in the other. Each visit of its lookup is one of the walker's, which Blitz
decisions have first, so that another pauses at a visit (R374, R375; log 108); with the last visit, or without one, the decision ends. -/
def admissionDecision (s : State) (p : PartId) (blitz : Bool) (e : Ecc) : State :=
  let b : Fin 2 := if blitz then 0 else 1
  match s.deciding[b] with
  | none => s
  | some (q, c) =>
    if q ≠ p ∨ !domOn s domEngine then s
    else match admJob s p c with
      | none => s
      | some j => walkFor s p c .lookup (decisionVisits s p (rcdAt s p j)) e (decide1 b p j)

/-- A SERVE job reaches the admission unit (R377, R419): an ADMIT before READY is rejected at once; Blitz work outside the envelope is counted. -/
def serveArrives (s : State) (p : PartId) (j : Job) : State :=
  let v := s.srv[p]
  if srvCode j = 1 ∧ (!v.en || !v.ready) then
    complete s p (jobId j.body) 0x06 1 (match rcdAt s p j with | some r => rRid r | none => 0) 0
  else
    let blz := srvCode j == 1 && admClass s p j == 0
    let queued := (v.waiting.filter fun x => srvCode x == 1 && admClass s p x == 0).length
    let s := if blz && decide (envNB s.parts[p].own.env ≤ queued) then countBlzOver s p else s
    let s := updSrv s p fun v => { v with waiting := v.waiting ++ [j] }
    admPick (takeFinishes p s.srv[p].waiting.length s)

/-! ### The work of a frame boundary (R316 to R318, R328, R329, R331) -/

/-- Step 1: the chunks of the last frame are done. -/
def closeChunks (s : State) (p : PartId) : State :=
  updSrv s p fun v => { v with slots := v.slots.map fun (r : Req) => match r.chunk with
    | some (a, n) => { r with done := a + n, chunk := none }
    | none => r }

/-- Step 2. -/
def releaseEnded (s : State) (p : PartId) : Part1 :=
  eachPart s.srv[p].slots (fun s r => match r.ended with
    | some c => ifReach (r.nodes.all (nodeReach s p) && freeReach s p (s.srv[p].free.length + r.priv.length)) s fun s => endRequest s p r c.toNat
    | none => (s, true)) s

def updReq (s : State) (p : PartId) (slot : Nat) (f : Req → Req) : State :=
  updSrv s p fun v => { v with slots := v.slots.map fun r => if r.slot == slot then f r else r }

/-- The place that a probe gives block b: a node takes it, or nothing is inserted (R328). -/
def placeBlock (s : State) (p : PartId) (r : Req) (b key parent : Nat) (toks : List Nat) (frame : Nat) (hit slot : Option Nat) : State :=
  match hit, slot with
  | some _, _ => updReq s p r.slot fun r => { r with noMore := true, blocks := b + 1 }
  | none, none =>
    let s := countSrv s p 1 1
    updReq s p r.slot fun r => { r with noMore := true, blocks := b + 1 }
  | none, some i =>
    let n := srvP s.srv[p]
    let pages := (r.pages.drop (n * b)).take n
    let s := nodeSet s p i 0 8 key
    let s := nodeSet s p i 8 4 parent
    let s := nodeSet s p i 12 2 1
    let s := nodeSet s p i 14 1 1
    let s := nodeSet s p i 15 1 n
    let s := nodeSet s p i 16 4 (frame % 2 ^ 32)
    let s := nodeSet s p i 20 2 0
    let s := nodeSet s p i 22 2 ((b + 1) % 65536)
    let s := (List.zipIdx pages).foldl (fun s (x, k) => nodeSet s p i (24 + 4 * k) 4 x) s
    let s := nodeSet s p i 56 72 (packTokens toks)
    let s := if b = 0 then s else nodeSet s p parent 20 2 (nodeChildren s p parent + 1)
    updReq s p r.slot fun r => { r with nodes := r.nodes ++ [i], priv := r.priv.filter fun x => !pages.contains x, blocks := b + 1 }

/-- Insert block b of a request, its key and tokens given (R328). -/
def insertBlock (s : State) (p : PartId) (r : Req) (b key : Nat) (toks : List Nat) (frame : Nat) : Part1 :=
  let parent := if b = 0 then nodeNone else r.nodes.getD (b - 1) nodeNone
  let f := probe s p key parent toks 16 (key % 2 ^ bookLog2 s.srv[p])
  let s := updSrv (countSrv s p 2 f.coll) p fun v => { v with visits := v.visits + f.visits }
  ifReach (f.ok && (b == 0 || nodeReach s p parent)) s fun s =>
    placeBlock s p r b key parent toks frame f.hit f.slot

/-- Step 3 for one request: each complete prompt block from M on that has not been considered, in order. -/
def insertBlocks (s : State) (p : PartId) (slot frame : Nat) : Part1 :=
  match s.srv[p].slots.find? fun r => r.slot == slot with
  | none => (s, true)
  | some r =>
    if !reaches s p (rPrompt r.rcd) 0 (4 * rPlen r.rcd) then (s, false) else
    let blocks := promptBlocks s p r.rcd
    let keys := blocks.foldl (fun (acc : List Nat × Nat) t => let k := blockKey acc.2 t; (acc.1 ++ [k], k)) ([], rModel r.rcd)
    eachPart (List.range (min (r.done / 32) blocks.length)) (fun s b =>
      match s.srv[p].slots.find? fun r => r.slot == slot with
      | some r => if b < r.blocks || r.noMore then (s, true) else insertBlock s p r b (keys.1.getD b 0) (blocks.getD b []) frame
      | none => (s, true)) s

/-- A request has a complete block that has not been considered. -/
def toInsert (r : Req) : Bool := !r.noMore && decide (r.blocks < min (r.done / 32) (rPlen r.rcd / 32))

def insertAll (s : State) (p : PartId) (frame : Nat) : Part1 :=
  if s.srv[p].book_ then eachPart (s.srv[p].slots.filter toInsert) (fun s r => insertBlocks s p r.slot frame) s else (s, true)

/-- A request's prefill is complete: its entries are decode entries. -/
def inDecode (r : Req) : Bool := r.done == rPlen r.rcd

/-- Requests in class order, those left out of the last frame first, then those in decode, then in the order of admission (R318, R331; log 51). -/
def reqBefore (a b : Req) : Bool :=
  let key := fun (r : Req) => 4 * rClass r.rcd + 2 * bool2nat (!r.late) + bool2nat (!inDecode r)
  decide (key a < key b) || (key a == key b && decide (a.order ≤ b.order))

/-- Insert into an ordered list of requests. -/
def reqInsert (r : Req) : List Req → List Req
  | [] => [r]
  | x :: xs => if reqBefore r x then r :: x :: xs else x :: reqInsert r xs

/-- The frame's plan: decode entries, prefill entries with their first token and count, the variations in use, requests left out, budget left. -/
structure Plan where
  dec : List Req
  pre : List (Req × Nat × Nat)
  vars : List Nat
  late : List Nat
  left : Nat
deriving DecidableEq, Repr

/-- The variations with one more; none when it would be the 257th. -/
def varAdd (vars : List Nat) (x : Nat) : Option (List Nat) :=
  if x = 0xFFFF ∨ vars.contains x then some vars else if vars.length < 256 then some (vars ++ [x]) else none

/-- Take a request into the plan: its decode entry, or a chunk of min(remaining, budget left) tokens; one whose VAR has no place is left out. -/
def planReq (pl : Plan) (r : Req) : Plan :=
  let n := min (rPlen r.rcd - r.done) pl.left
  if !inDecode r ∧ n = 0 then pl
  else match varAdd pl.vars (rVar r.rcd) with
  | none => { pl with late := pl.late ++ [r.slot] }
  | some vs =>
    if inDecode r then { pl with dec := pl.dec ++ [r], vars := vs }
    else { pl with pre := pl.pre ++ [(r, r.done, n)], vars := vs, left := pl.left - n }

/-- The plan of frame f: requests whose decision was posted before its boundary. -/
def planFrame (v : Srv) (f : Nat) : Plan :=
  let live := (v.slots.filter fun r => r.ended.isNone && decide (r.frame < f)).foldl (fun l r => reqInsert r l) []
  live.foldl planReq ⟨[], [], [], [], budPrefill v⟩

/-- The variation list: each VAR once, in the order in which the table's entries use it (R331). -/
def varList (pl : Plan) : List Nat := (((pl.dec ++ pl.pre.map (·.1)).map fun r => rVar r.rcd).filter (· != 0xFFFF)).eraseDups

/-- VSLOT of an entry: the position of its VAR in the list; a free value for a request without a variation. -/
def vslotOf (s : State) (r : Req) (vars : List Nat) : State × Nat :=
  if rVar r.rcd = 0xFFFF then let (s, x) := draw s; (s, x % 65536) else (s, (vars.idxOf? (rVar r.rcd)).getD 0)

/-- Bytes of a decode entry. -/
def decEntry (r : Req) (vs : Nat) : List Byte := natLe 2 r.slot ++ natLe 2 vs ++ natLe 4 r.pos ++ natLe 4 r.last ++ natLe 4 0 ++ natLe 8 (rPtab r.rcd) ++ natLe 8 0
/-- Bytes of a prefill entry; an HBM address carries its byte offset from bit 6 (R91). -/
def preEntry (r : Req) (vs first n : Nat) : List Byte :=
  natLe 2 r.slot ++ natLe 2 vs ++ natLe 4 first ++ natLe 4 n ++ natLe 4 0 ++ natLe 8 (rPrompt r.rcd + 64 * (4 * first)) ++ natLe 8 (rPtab r.rcd)

/-- The batch table of frame f (R318): the header with the list, and the entries from byte 576 on. Places of the list beyond NVAR are not written. -/
def batchBytes (s : State) (pl : Plan) (f : Nat) : State × List Byte × List Byte :=
  let vars := varList pl
  let head := natLe 8 f ++ natLe 2 pl.dec.length ++ natLe 2 pl.pre.length ++ natLe 2 vars.length ++ natLe 50 0 ++ vars.flatMap (natLe 2)
  let (s, ents) := pl.dec.foldl (fun ((s, o) : State × List Byte) r => let (s, vs) := vslotOf s r vars; (s, o ++ decEntry r vs)) (s, [])
  let (s, ents) := pl.pre.foldl (fun ((s, o) : State × List Byte) (r, a, n) => let (s, vs) := vslotOf s r vars; (s, o ++ preEntry r vs a n)) (s, ents)
  (s, head, ents)

/-- Step 4: the batch table of frame f and FFLAG. -/
def writeBatch (s : State) (p : PartId) (f : Nat) : Part1 :=
  let v := s.srv[p]
  let flag := flagOf (batchFflag v)
  let s := if s.flags.pool.getLsbD flag.val then
      raise (countSrv s p 0 1) srcAdmission (some p) 0x0801 [f] else s
  let pl := planFrame v f
  let (s, head, ents) := batchBytes s pl f
  match tableAt s p (batchBase v) ((f % 2) * batchStride v) (576 + ents.length) with
  | none => (s, false)
  | some a =>
    let s := updSrv (hbmWrite (hbmWrite s p a head) p (a + 576) ents) p fun v => { v with slots := v.slots.map fun (r : Req) =>
      { r with chunk := (pl.pre.find? fun x => x.1.slot == r.slot).map (·.2), late := pl.late.contains r.slot } }
    (writeFlag s flag true (nowCc s) 400000 none, true)

/-- Step 5: one visit of the eviction scan (R329): the state, and whether the scan goes on. -/
def evictVisit (s : State) (p : PartId) (frame : Nat) : Part1 :=
  let v := s.srv[p]
  let i := v.cursor % 2 ^ bookLog2 v
  if !nodeReach s p i then (s, false)
  else
    let s := updSrv s p fun v => { v with cursor := (i + 1) % 2 ^ bookLog2 v }
    let age := (frame + 2 ^ 32 - nodeGet s p i 16 4) % 2 ^ 32
    if nodeValid s p i && nodeRefs s p i == 0 && nodeChildren s p i == 0 && decide (bookAge v ≤ age) then
      let pages := nodePages s p i
      let parent := nodeParent s p i
      if !(parent == nodeNone || nodeReach s p parent) || !freeReach s p (v.free.length + pages.length) then (s, false) else
      let s := nodeSet s p i 14 1 2
      let s := if parent = nodeNone then s else nodeSet s p parent 20 2 (nodeChildren s p parent - 1)
      (returnPages s p pages, true)
    else (s, true)

/-- The eviction scan has visits to make: FREE has not reached RESERVE. -/
def evictWants (s : State) (p : PartId) : Bool := s.srv[p].book_ && decide (s.srv[p].free.length < budReserve s.srv[p])

/-- Visits of the inserts at the boundary that opens frame f (R316 step 3), from the tables as they are. -/
def insertVisits (s : State) (p : PartId) (f : Nat) : Nat :=
  (andThen (releaseEnded (closeChunks s p) p) fun s => insertAll s p f).1.srv[p].visits - s.srv[p].visits

/-- Steps 1 to 4 of the boundary that opens frame f; step 5 begins, for at most 4,096 visits. -/
def boundaryWork (s : State) (p : PartId) (f : Nat) : State :=
  let s := updSrv s p fun v => { v with opened := some f, frameNo := BitVec.ofNat 64 f }
  if !s.srv[p].ready then s
  else
    let r := andThen (releaseEnded (closeChunks s p) p) fun s => insertAll s p f
    let (s, ok) := andThen r fun s => writeBatch s p f
    if ok && evictWants s p then walkEnter s ⟨p, 2, .evict, 4096⟩ else s

/-- One visit of the eviction scan under way; it ends once FREE has reached RESERVE, at an access out of reach, or after its visits. -/
def evictGo (s : State) (p : PartId) (w : WalkOp) (e : Ecc) : State :=
  match walkTurn s w with
  | none => s
  | some s =>
    let (s, ok) := eccEngine s p e
    if !ok then s
    else unlessHeld s p fun s =>
      let (s, more) := evictVisit s p (s.srv[p].opened.getD 0)
      if more && evictWants s p && decide (1 < w.left) then walkVisited s w else { s with walk := s.walk.erase w }

/-- FRAME_BOUNDARY: the eviction scan of the last boundary goes on (R316 step 5); else, where the next boundary has been reached and the partition is at no
snapshot point (R348), its work is done once the walker has made the visits of its inserts, in Classical turns of the partition; without one it takes
one turn (R374; log 108). -/
def frameBoundary (s : State) (p : PartId) (e : Ecc) : State :=
  let v := s.srv[p]
  match s.walk.find? fun w => w.part == p && w.kind == .evict with
  | some w => if domOn s domEngine then evictGo s p w e else s
  | none =>
    match v.opened with
    | none => s
    | some g =>
      if !v.en || decide (nowCt s < (g + 1) * (320 * v.frameLen.toNat)) || atSnapshotPoint s p || !domOn s domEngine then s
      else walkFor s p 2 .frame (max 1 (insertVisits s p (g + 1))) e (boundaryWork · p (g + 1))

/-! ### Meanings -/

def execStartupScanDone (p : PartId) (e : Ecc) (s : State) : Host.Outcome State Fault Refusal := .next (scanDone s p e)
def execAdmissionDecision (p : PartId) (blitz : Bool) (e : Ecc) (s : State) : Host.Outcome State Fault Refusal := .next (admissionDecision s p blitz e)
def execFrameBoundary (p : PartId) (e : Ecc) (s : State) : Host.Outcome State Fault Refusal := .next (frameBoundary s p e)

end Sys2Proof.Machine
end

