-- ==== Sys2Proof/Machine/Sampler.lean ====
section
/-! DEFINITION. The sampler (R332 to R339): penalties in binary32, the exponential and the sums in binary64, Philox4×32-10, repetition counts and
grammars. Every arithmetic step is exact and rounded once under RNE. -/

namespace Sys2Proof.Machine

/-! ### Arithmetic -/

def to32 (v : FVal) : FVal := fpDecode .b32 (fpEncode .b32 .rne v).1
def to64 (v : FVal) : FVal := fpDecode .b64 (fpEncode .b64 .rne v).1

/-- Fraction bits of the fixed-point exponential. -/
def expBits : Nat := 1500

/-- Taylor terms of e^(−y), y at `expBits` fraction bits: n terms left, k the next index, t the last term, acc the sum. -/
def expTerms (y : Nat) : Nat → Nat → Nat → Int → Int
  | 0, _, _, acc => acc
  | n + 1, k, t, acc =>
    let t := ((t * y) >>> expBits) / k
    expTerms y n (k + 1) t (if k % 2 = 1 then acc - t else acc + t)

/-- Squaring n times. -/
def expSquare : Nat → Nat → Nat
  | 0, v => v
  | n + 1, v => expSquare n ((v * v) >>> expBits)

/-- exp of a finite value that is not positive, rounded once into binary64 (R334 step 7): computed with an error far below the last bit. -/
def expNonPos (m : Nat) (e : Int) : FVal :=
  if m = 0 then .fin false 1 0
  else
    let x := if 0 ≤ e + expBits then m <<< (e + expBits).toNat else m >>> (e + expBits).natAbs
    if 800 <<< expBits < x then .fin false 0 0
    else
      let v := expSquare 10 (expTerms (x >>> 10) 300 1 (2 ^ expBits) (2 ^ expBits : Nat)).toNat
      to64 (.fin false (2 * v + 1) (-(expBits : Int) - 1))

/-- exp(a − b) for b at least a, both finite. -/
def expDiff (a b : FVal) : FVal :=
  match (fvAdd a (fvNeg b)).1 with
  | .fin _ m e => expNonPos m e
  | .inf _ => .fin false 0 0
  | .nan => .nan

/-! ### Philox4×32-10 (R335) -/

def philoxRound (c : Nat × Nat × Nat × Nat) (k : Nat × Nat) : Nat × Nat × Nat × Nat :=
  let a := 0xD2511F53 * c.1
  let b := 0xCD9E8D57 * c.2.2.1
  ((b / 2 ^ 32) ^^^ c.2.1 ^^^ k.1, b % 2 ^ 32, (a / 2 ^ 32) ^^^ c.2.2.2 ^^^ k.2, a % 2 ^ 32)

def philoxGo : Nat → Nat × Nat × Nat × Nat → Nat × Nat → Nat × Nat × Nat × Nat
  | 0, c, _ => c
  | n + 1, c, k => philoxGo n (philoxRound c k) ((k.1 + 0x9E3779B9) % 2 ^ 32, (k.2 + 0xBB67AE85) % 2 ^ 32)

/-- u of a request at a position, in [0, 1). -/
def sampleU (seed pos : Nat) : FVal :=
  let x := philoxGo 10 (pos % 2 ^ 32, 0, 0, 0) (seed % 2 ^ 32, seed / 2 ^ 32 % 2 ^ 32)
  .fin false ((x.2.1 * 2 ^ 32 + x.1) / 2 ^ 11) (-53)

/-! ### The pick (R334) -/

/-- A candidate: token and value. -/
abbrev Cand := Nat × FVal

/-- Comes before in the order of step 6: larger value, then lower token. -/
def candBefore (a b : Cand) : Bool := fvLt b.2 a.2 || (!fvLt a.2 b.2 && decide (a.1 ≤ b.1))

/-- Insert into an ordered list that keeps at most k. -/
def candInsert (k : Nat) (x : Cand) : List Cand → List Cand
  | [] => if k = 0 then [] else [x]
  | y :: ys => if k = 0 then [] else if candBefore x y then (x :: y :: ys).take k else y :: candInsert (k - 1) x ys

/-- The K first candidates in order. -/
def topCands (k : Nat) (l : List Cand) : List Cand := l.foldl (fun acc x => candInsert k x acc) []

/-- Steps 4 to 9. `fr` is a free value, used only where a candidate is +∞, to which the exponential of step 7 gives no value (log 52). -/
def pickToken (r : BitVec 1024) (pos fr : Nat) (cands : List Cand) : Option Nat :=
  let temp := fpDecode .b32 (rTemp r)
  let zero := match temp with
    | .fin _ m _ => m == 0
    | _ => false
  if zero then (topCands 1 cands).head?.map (·.1)
  else
    let ys := cands.map fun c => (c.1, to32 (fvDiv c.2 temp).1)
    let k := if rTopk r = 0 then 256 else rTopk r
    let ordered := (topCands k ys).filter fun c => c.2 != .inf true
    match ordered with
    | [] => none
    | c0 :: _ =>
      if c0.2 = .inf false then (ordered[fr % ordered.length]?).map (·.1)
      else
        let sums := (ordered.foldl (fun ((acc, c) : List FVal × FVal) x =>
          let c := to64 (fvAdd c (expDiff x.2 c0.2)).1
          (acc ++ [c], c)) ([], .fin false 0 0)).1
        let n := ordered.length
        let cn := sums.getD (n - 1) .nan
        let topp := fpDecode .b32 (rTopp r)
        let m := if fvLt (.fin false 0 0) topp && fvLt topp (.fin false 1 0) then
            let lim := to64 (fvMul topp cn).1
            (((List.range n).find? fun i => !fvLt (sums.getD i .nan) lim).getD (n - 1)) + 1
          else n
        let t := to64 (fvMul (sampleU (rcdF r 8 8) pos) (sums.getD (m - 1) .nan)).1
        let i := ((List.range m).find? fun i => fvLt t (sums.getD i .nan)).getD (m - 1)
        (ordered[i]?).map (·.1)

/-! ### Tables of a request -/

/-- Entry i of the repetition-count table: valid, token, count (R337). -/
def repEntry (s : State) (p : PartId) (r : BitVec 1024) (i : Nat) : Bool × Nat × Nat :=
  let x := optNat s (tableAt s p (rRepc r) (8 * i) 8) 8
  (x.testBit 31, field x 0 24, field x 32 16)

/-- Count one more of a token: found or placed within 32 probes from token mod 4,096. -/
def repProbe (s : State) (p : PartId) (r : BitVec 1024) (tok : Nat) : Nat → Nat → Option (Nat × Nat)
  | 0, _ => none
  | n + 1, i =>
    let (v, t, c) := repEntry s p r i
    if !v then some (i, 0) else if t = tok then some (i, c) else repProbe s p r tok n ((i + 1) % 4096)

def repCount (s : State) (p : PartId) (r : BitVec 1024) (tok : Nat) : State :=
  match repProbe s p r tok 32 (tok % 4096) with
  | some (i, c) => optWrite s p (tableAt s p (rRepc r) (8 * i) 8) 8 (tok % 2 ^ 24 + 2 ^ 31 + (min 65535 (c + 1) <<< 32))
  | none => countSrv s p 3 1

/-- A grammar state: its transitions' address, their number, ACCEPT; none outside the partition (R338). -/
def gramState (s : State) (p : PartId) (r : BitVec 1024) (g : Nat) : Option (Nat × Nat × Bool) :=
  (tableAt s p (rMask r) (16 * g) 16).map fun a =>
    let x := hbmNat s a 16
    (field x 0 64, field x 64 13, x.testBit 77)

/-- No way forward: more than 4,096 transitions, or none and not ACCEPT. -/
def gramDead (x : Nat × Nat × Bool) : Bool := decide (4096 < x.2.1) || (x.2.1 == 0 && !x.2.2)

/-- The transitions of a state: token and next state; none when one lies outside the partition. -/
def gramTrans (s : State) (p : PartId) (x : Nat × Nat × Bool) : Option (List (Nat × Nat)) :=
  (List.range x.2.1).mapM fun k => (tableAt s p x.1 (8 * k) 8).map fun a => (hbmNat s a 4, hbmNat s (a + 4) 2)

/-- Tokens each once, in order. -/
def dedupTokens (l : List Nat) : List Nat := l.foldl (fun acc t => if acc.contains t then acc else acc ++ [t]) []

/-- What the mask leaves (step 2): an address outside the partition, a dead grammar state, or the candidate tokens. -/
inductive MaskRes where
  | outside
  | dead
  | tokens (l : List Nat)
deriving DecidableEq, Repr

def maskTokens (s : State) (p : PartId) (q : Req) : MaskRes :=
  match rMaskKind q.rcd with
  | 0 => .tokens (List.range (rVocab q.rcd))
  | 1 => if reaches s p (rMask q.rcd) 0 (4 * rNlist q.rcd) then .tokens (dedupTokens (listTokens s p q.rcd)) else .outside
  | _ => match gramState s p q.rcd q.gstate with
    | none => .outside
    | some x =>
      if gramDead x then .dead
      else match gramTrans s p x with
        | none => .outside
        | some l => .tokens (dedupTokens ((l.map (·.1)).filter (fun t => decide (t < rVocab q.rcd)) ++ (if x.2.2 then [rEos q.rcd] else [])))

/-- Logit of a token: format 0 binary32, 1 bfloat16, a NaN taken as −∞; another format gives a free value (log 52). -/
def logitOf (s : State) (p : PartId) (fmt base tok fr : Nat) : Option FVal :=
  let n := if fmt = 1 then 2 else 4
  (tableAt s p base (n * tok) n).map fun a =>
    let v := if fmt = 0 then fpDecode .b32 (hbmNat s a 4) else if fmt = 1 then fpDecode .bf16 (hbmNat s a 2) else fpDecode .b32 (fr % 2 ^ 32)
    if v = .nan then .inf true else v

/-- Step 3: the penalties of the table's entries for a token; ∞ − ∞ leaves a free value (log 52). -/
def penalise (r : BitVec 1024) (ents : List (Bool × Nat × Nat)) (fr : Nat) (c : Cand) : Cand :=
  let pres := fvNeg (fpDecode .b32 (rPres r))
  let freq := fvNeg (fpDecode .b32 (rFreq r))
  let z := (ents.filter fun e => e.1 && e.2.1 == c.1).foldl (fun z e =>
    to32 (fvAdd (fvAdd z pres).1 (fvMul freq (.fin false e.2.2 0)).1).1) c.2
  let alt := fpDecode .b32 (fr % 2 ^ 32)
  (c.1, if z = .nan then (if alt = .nan then .inf true else alt) else z)

/-! ### A step entry (R333, R336) -/

/-- The request's slot samples in this frame: in decode, or in its last prefill chunk (R333). -/
def sampling (q : Req) : Bool :=
  (q.ended.isNone || q.ended == some 4)
    && (q.done == rPlen q.rcd || match q.chunk with
      | some (a, n) => a + n == rPlen q.rcd
      | none => false)

/-- What follows a pick (R336, R323). An access out of reach ends the step there (R311): in OUT before the token counts, in the record of the next grammar
state after the request has moved to it. -/
def afterPick (s : State) (p : PartId) (q : Req) (entry tok : Nat) : Part1 :=
  if !reaches s p (rOut q.rcd) (4 * q.ngen) 4 then (s, false) else
  let s := optWrite s p (tableAt s p (rOut q.rcd) (4 * q.ngen) 4) 4 tok
  let s := optWrite s p (tableAt s p (sampBase s.srv[p]) (entry + 4) 4) 4 tok
  let s := repCount s p q.rcd tok
  let next := if rMaskKind q.rcd = 2 then
      match gramState s p q.rcd q.gstate with
      | some x => (((gramTrans s p x).getD []).find? fun t => t.1 == tok).map (·.2)
      | none => none
    else none
  let g := next.getD q.gstate
  let ok := rMaskKind q.rcd != 2 || (gramState s p q.rcd g).isSome
  let dead := rMaskKind q.rcd == 2 && (match gramState s p q.rcd g with | some x => gramDead x | none => false)
  let ended : Option (BitVec 8) :=
    if tok = rEos q.rcd then some 0 else if q.ngen + 1 = rMaxnew q.rcd then some 1 else if dead then some 2 else q.ended
  (updReq s p q.slot fun q => { q with last := tok, pos := q.pos + 1, ngen := q.ngen + 1, gstate := g, ended := ended }, ok)

/-- One entry at byte offset `entry` of the step table. False: an address out of reach ended the operation (R311). -/
def sampleEntry (s : State) (p : PartId) (entry : Nat) : Part1 :=
  let base := sampBase s.srv[p]
  match tableAt s p base entry 16 with
  | none => (s, false)
  | some a =>
    match s.srv[p].slots.find? fun q => q.slot == hbmNat s a 2 && sampling q with
    | none => (optWrite s p (some (a + 4)) 4 0xFFFFFFFF, true)
    | some q =>
      match maskTokens s p q with
      | .outside => (s, false)
      | .dead => (updReq s p q.slot fun q => { q with ended := some 2 }, true)
      | .tokens toks =>
        let fr := s.free
        let logits := toks.mapM fun t => (logitOf s p (hbmNat s (a + 2) 1) (hbmNat s (a + 8) 8) t (Config.freeNat (fr + 2 * t + 1))).map fun z => (t, z)
        match if reaches s p (rRepc q.rcd) 0 32768 then logits else none with
        | none => (s, false)
        | some cs =>
          let ents := (List.range 4096).map (repEntry s p q.rcd)
          let cs := cs.map fun c => penalise q.rcd ents (Config.freeNat (fr + 2 * c.1 + 2)) c
          let s := { s with free := fr + 2 ^ 20 }
          match pickToken q.rcd q.pos (Config.freeNat fr) cs with
          | some t => afterPick s p q entry t
          | none => (updReq s p q.slot fun q => { q with ended := some 3 }, true)

/-- Class of a step: the CLASS byte of its header. -/
def stepClass (s : State) (a : Nat) : Option (Fin 3) :=
  match hbmNat s (a + 4) 1 with
  | 0 => some 0
  | 1 => some 1
  | 2 => some 2
  | _ => none

/-- The header of a partition's step table, read as a step that starts: its class and its entries. -/
def stepHeader (s : State) (p : PartId) : Option SampStep :=
  (tableAt s p (sampBase s.srv[p]) 0 16).bind fun a => (stepClass s a).map fun c => ⟨c, 16, hbmNat s a 4⟩

/-- The step that the sampler is at for a partition: the one in progress, else the one that its view of SFLAG asks for (R332). -/
def stepOf (s : State) (p : PartId) : Option SampStep :=
  let v := s.srv[p]
  if !v.en then none
  else v.step.orElse fun _ => if engineView s (flagOf (sampSflag v)) then stepHeader s p else none

/-- The sampler has an entry of that partition and class to take. -/
def stepPending (s : State) (p : PartId) (c : Fin 3) : Bool := match stepOf s p with | some t => t.cls == c | none => false

/-- One turn of a step: taking it clears SFLAG; the turn takes one entry, and after the last one DFLAG is set. An access out of reach ends the step
without it (R311, R332, R374). -/
def samplerTurn (s : State) (p : PartId) (t : SampStep) : State :=
  let v := s.srv[p]
  let s := if v.step.isSome then s else writeFlag s (flagOf (sampSflag v)) false (nowCc s) rankSampler none
  let (s, ok) := if t.left = 0 then (s, true) else sampleEntry s p t.next
  let s := updSrv s p fun v => { v with step := if ok ∧ 1 < t.left then some { t with next := t.next + 16, left := t.left - 1 } else none }
  if ok ∧ t.left ≤ 1 then writeFlag s (flagOf (sampDflag v)) true (nowCc s) rankSampler none else s

/-- SAMPLER_STEP: the sampler's next turn, when the rotation gives it to this partition (R374). -/
def samplerStep (s : State) (p : PartId) (e : Ecc) : State :=
  if !domOn s domEngine then s
  else match engineTurn s 2 (stepPending s), stepOf s p with
  | some (i, q, _), some t =>
    if q ≠ p then s
    else
      let (s, ok) := eccEngine s p e
      if !ok then s else unlessHeld s p fun s => samplerTurn (setTurn s 2 i) p t
  | _, _ => s

def execSamplerStep (p : PartId) (e : Ecc) (s : State) : Host.Outcome State Fault Refusal := .next (samplerStep s p e)

end Sys2Proof.Machine
end

