-- ==== Sys2Proof/Machine/Snapshot.lean ====
section
/-! DEFINITION. The snapshot engine (12): the snapshot point, captures, the Crema pause, the buddy stream, restore. -/

namespace Sys2Proof.Machine

/-- The snapshot point ends: the squares it halted resume, but for those for which a halt request waited (R474). -/
def endPoint (s : State) (p : PartId) (j : SnpJob) : State :=
  let stop := s.parts[p].haltWait
  let s := updPart s p fun q => { q with haltWait := false }
  let mine := (placedOf s p).filter fun n => j.squares.getLsbD n.val
  let free := mine.filter fun n => !j.keep.getLsbD n.val && !s.squares[n].core.haltLate
  let s := mine.foldl (fun s n => updCore s n fun c =>
    { c with sealTag := none, haltLate := false, haltReq := c.haltReq || ((stop || c.haltLate) && (c.st == .running || c.st == .stalled)) }) s
  if stop then s else resumeBroadcast s p free

/-- The generation being written is given up. -/
def dropGen (s : State) (p : PartId) (g : Fin 2) : State := updSnp s p fun n => { n with gens := n.gens.set g { n.gens[g] with st := .empty } }

/-! ### The snapshot point (R345 to R349) -/

def sealSignal (s : State) (p : PartId) : State :=
  match s.snp[p].job with
  | some j =>
    if j.phase == .armed && decide (j.count ≤ nowCt s + 320) then
      let j := { j with phase := .signalled }
      updSnp s p fun n => { n with job := some j }
    else s
  | none => s

/-- Squares that stay as they are after the snapshot point: those that have stopped at the seal, or with a halt already asked for. One that a launch has
still to start is halted as it runs, and goes on then (R346). -/
def keptSquares (s : State) (p : PartId) : BitVec 64 :=
  (squaresOf s p).foldl (fun m n =>
    let c := s.squares[n].core
    if (c.st == .running || c.st == .stalled || c.st == .loaded) && !c.haltReq && !c.stepReq then m else m ||| BitVec.ofNat 64 (1 <<< n.val)) 0

/-- SEAL_CYCLE: the core cycle at the sealed count. The generation opens; an EMPTY one takes every granule (R346, R357). A job that waited behind this
one is refused now (R342). -/
def sealCycle (s : State) (p : PartId) : State :=
  match s.snp[p].job with
  | none => s
  | some j =>
    if j.phase != .signalled || !s.clk.frameOn || decide (nowCc s < ccFrom s j.count) then s
    else
      let (_, no) := nextGen s.snp[p]
      let old := s.snp[p].gens[j.gen]
      let dirty : Sparse Bool := if old.st = .empty then (allGrans s.snp[p].prot).foldl (fun d k => sset false d k true) old.dirty else old.dirty
      let g : Gen := { st := .open_, adjourned := j.adjourn, unclean := false, blost := false, genNo := no, dirty := dirty }
      let j := { j with phase := .halting, since := nowCt s, keep := keptSquares s p }
      let s := updSnp s p fun n => { n with job := some j, gens := n.gens.set j.gen g }
      let s := (placedOf s p).foldl (fun s n => updCore s n fun c =>
        if c.st == .running || c.st == .stalled then { c with sealTag := some (j.btag, j.tmask) } else c) s
      pumpSnap (snpAdvance s p) p

/-- HALT_TIMEOUT: a square has not halted within 1 s of the seal cycle (R347). -/
def haltTimeout (s : State) (p : PartId) : State :=
  match s.snp[p].job with
  | some j =>
    if j.phase == .halting && !allStopped s p && decide (j.since + 1000000000 ≤ nowCt s) then
      snpEnd (endPoint (dropGen s p j.gen) p j) p 6
    else s
  | none => s

/-- Nothing of the partition is in flight on the links: no flit or record of its channels waits or has arrived without
landing, and no frame that carries one is still to be acknowledged. NAK, TIME and CLOSE records belong to the link. -/
def linksQuiet (s : State) (p : PartId) : Bool :=
  allLink.all fun l =>
    let k := s.links[l]
    let mine := fun (c : Fin 32) => chOwner k.ch[c] == p
    !(k.txFlits.any fun x => mine x.lch) && !(k.arrivals.any fun x => mine x.lch) && !(k.beats.any fun x => mine x.lch)
      && !(k.txRecs.any fun w => recOfChannel w && mine (rcLch w))
      && !(k.replay.any fun x => frameCarries x.bytes mine)

/-- Half a COPY record pair of the partition has arrived, or parts of its remote copies have still to land. -/
def copiesArriving (s : State) (p : PartId) : Bool :=
  (allLink.any fun l => match s.links[l].copyRec with | some r => chOwner s.links[l].ch[rcLch r] == p | none => false)
    || s.mtch.remote.any fun r => chOwner s.links[r.link].ch[r.lch] == p

/-- The drain is over (R348): descriptors and serving operations that an engine has accepted, a step of the sampler and the walker's operations too, have
completed, and nothing is in flight or runs. -/
def drainedNow (s : State) (p : PartId) : Bool :=
  s.srv[p].step.isNone && !(s.walk.any fun w => w.part == p) && !copiesArriving s p && allCe.all (fun n => !((s.ces[n].run.toList ++ s.ces[n].waiting).any fun r => r.desc.part == p))
    && s.deciding.toList.all (fun d => match d with | some (q, _) => q != p | none => true)
    && !(s.msgs.any fun m => m.part == p) && linksQuiet s p
    && (squaresOf s p).all fun n => !s.squares[n].mc.busy && s.squares[n].mc.pending.isEmpty

/-! ### Images (R341) -/

/-- The fold and segment registers as register values. -/
def segReg (x : BitVec 6 × BitVec 4) : Nat := x.1.toNat + (x.2.toNat <<< 8)
def foldReg (f : Fold) : Nat := f.left.toNat + (f.handle.toNat <<< 16) + (bool2nat f.armed <<< 24) + (bool2nat f.exceeded <<< 25) + (bool2nat f.order <<< 26)
def predByte (v : Vector Bool 8) : Nat := (List.finRange 8).foldl (fun a i => a + (bool2nat v[i] <<< i.val)) 0

/-- Bytes of one V register. -/
def vBytes (s : State) : Nat := match s.fuses.variant with | .m => 512 | .v => 1024

/-- The register image as pieces: offset and bytes; every other byte is zero. The layout of the first 4 KiB and of the second is the model's
(log 53). -/
def regPieces (s : State) (q : Square) : List (Nat × List Byte) :=
  let c := q.core
  [(0x000, (List.finRange 32).flatMap fun i => natLe 8 c.s[i].toNat),
   (0x100, natLe 1 (predByte c.p)), (0x108, natLe 2 c.idx.toNat), (0x110, natLe 1 q.fp.toNat),
   (0x118, (List.finRange 8).flatMap fun i => natLe 2 (segReg q.mx.seg[i])),
   (0x128, (List.finRange 2).flatMap fun i => natLe 4 (foldReg q.mx.fold[i])),
   (0x200, (List.finRange 32).flatMap fun i => natLe 8 q.mc.s[i].toNat), (0x300, natLe 1 (predByte q.mc.p))]
    ++ q.hdl.map (fun (k, h) => (0x1000 + 4 * k, natLe 4 h.count.toNat))
    ++ (List.finRange 32).map (fun e => (0x1400 + 2 * e.val, natLe 1 q.eps[e].credits.toNat ++ natLe 1 q.eps[e].held.length))
    ++ (List.finRange 16).map (fun i => (0x2000 + 128 * i.val, natLe 128 (ledgerImage q.mx.ledgers[i]).toNat))
    ++ q.mx.cells.map (fun (k, x) => (0x4000 + 16 * k, wImage x))
    ++ (List.finRange 32).map (fun i => (0x8000 + vBytes s * i.val, natLe (vBytes s) c.v[i].toNat))
    ++ q.mc.mem.map (fun (a, b) => (0x10000 + a, [b]))
    ++ q.mx.w.map (fun (k, x) => (0x20000 + 16 * ((k / 16 % 128) * 64 + (k / 2048) * 16 + k % 16), wImage x))
    ++ q.mx.stat.map (fun (k, x) => (0x40000 + 32 * k, natLe 32 x.toNat))

/-- Parts written to the area join the buddy stream, 4 KiB to a beat (R358). -/
def queueBeats (s : State) (p : PartId) (off len : Nat) : State :=
  match s.snp[p].job with
  | some j =>
    if streaming s p j.gen then
      let j := { j with beats := j.beats ++ (List.range (ceilDiv len 4096)).map fun i => (off + 4096 * i, min 64 (ceilDiv (len - 4096 * i) 64)) }
      updSnp s p fun n => { n with job := some j }
    else s
  | none => s

/-- Write the register image of a square. -/
def captureRegs (p : PartId) (j : SnpJob) (s : State) (n : SqId) : State :=
  let g := j.gen
  let off := recordOff (recordOf j n)
  let s := areaZero s p g off 0x80000
  let s := (regPieces s s.squares[n]).foldl (fun s (o, b) => areaPut s p g (off + o) b) s
  queueBeats s p off 0x80000

/-- Bit image of the partition's flag range. -/
def flagImage (s : State) (p : PartId) : List Byte :=
  let r := s.parts[p].own.res
  if resFen r then natLe 1024 (bits s.flags.pool (resLast r) (resFirst r)) else natLe 1024 0

/-- Write the header with the UNCLEAN of now. -/
def captureHeader (s : State) (p : PartId) (j : SnpJob) : State :=
  let g := s.snp[p].gens[j.gen]
  let b := natLe 4 g.genNo.toNat ++ natLe 1 (bool2nat j.adjourn) ++ natLe 1 (bool2nat g.unclean) ++ natLe 1 p.val
    ++ natLe 1 (match s.fuses.variant with | .m => 0 | .v => 1) ++ natLe 8 j.count ++ natLe 8 j.squares.toNat ++ natLe 8 j.prot.toNat
    ++ natLe 4 (ownPos s).toNat ++ natLe 4 s.mtch.matchId.toNat ++ natLe 8 j.tag.toNat
  areaPut (areaZero s p j.gen 0 1024) p j.gen 0 b

/-- Chess ticks that a capture of so many bytes takes at the partition's RATE × 64 GB/s, a tick being 1 ns (R354). -/
def rateTicks (s : State) (p : PartId) (bytes : Nat) : Nat := ceilDiv bytes (64 * s.snp[p].rate.toNat)

/-- Chess count up to which a capture that begins now uses RATE, after the earlier ones. -/
def paceOf (s : State) (p : PartId) (j : SnpJob) (bytes : Nat) : Nat := max (nowCt s) j.pace + rateTicks s p bytes

/-- Capture of the header, the flag image and every register image. The square's folds settle first: an image whose arrival is counted is in them
(R158). -/
def captureState (s : State) (p : PartId) (j : SnpJob) : State :=
  let s := settlePart s p
  let s := captureHeader s p j
  let s := areaPut s p j.gen 1024 (flagImage s p)
  let s := areaZero s p j.gen 2048 2048
  let s := (jobSquares j).foldl (captureRegs p j) s
  let due := paceOf s p j (4096 + 0x80000 * (jobSquares j).length)
  updSnp s p fun x => { x with job := x.job.map fun j => { j with pace := due } }

/-- Capture of one scratchpad page: the monitor's count of captured pages follows (R355). -/
def capturePage (s : State) (p : PartId) (j : SnpJob) (n : SqId) (k : Nat) : State :=
  let off := pageOff (recordOf j n) k
  let key := n.val * 2048 + k
  let s := areaPut s p j.gen off (memBytes s.squares[n].mem (16384 * k) 16384)
  let s := updSq s n fun q => { q with uncapt := setBits q.uncapt k 1 0 }
  let s := updSnp s p fun x => { x with job := x.job.map fun j =>
    { j with wantPages := j.wantPages.filter (· != key), caps := j.caps.filter fun c => c.page != some key
             paged := j.paged.map fun e => if e.1 = n.val then (e.1, e.2 + 1) else e } }
  queueBeats s p off 16384

/-- Capture of one granule: the bit of generation g clears (R357). -/
def captureGran (s : State) (p : PartId) (j : SnpJob) (key : Nat) : State :=
  let g := j.gen
  let off := granOff j.prot key
  let s := match off, hbmAt s p (key / 1152) (key % 1152 * 0x200000) 0x200000 with
    | some o, some a => areaPut s p g o (hbmBytes s a 0x200000)
    | _, _ => s
  let s := updSnp s p fun n =>
    let x := { n.gens[g] with dirty := sset false n.gens[g].dirty key false }
    let job := n.job.map fun (j : SnpJob) =>
      { j with grans := j.grans.filter (· != key), wantGrans := j.wantGrans.filter (· != key)
               caps := j.caps.filter fun c => c.page.isSome || c.gran != key }
    { n with gens := n.gens.set g x, job := job }
  match off with
  | some o => queueBeats s p o 0x200000
  | none => s

/-- Pages that an open handle of the partition overlaps (R352). -/
def landingPages (s : State) (n : SqId) : List Nat :=
  let hs := s.squares[n].hdl.filter fun e => decide (hdlLen e.2 ≠ 0) && (hdlWmesh e.2 || hdlWgrant e.2 || hdlWlink e.2)
  (List.range 2048).filter fun k => hs.any fun e => decide (hdlBase e.2 < 16384 * (k + 1) ∧ 16384 * k < hdlBase e.2 + hdlLen e.2)

/-! ### Drain, captures, the end (R348 to R356) -/

/-- When nothing is left to capture the generation is LOCAL: an adjournment ends its launch, the header takes its last form, and the job completes
or waits for the buddy stream (R342, R350, R359). -/
def finishCapture (s : State) (p : PartId) : State :=
  match s.snp[p].job with
  | none => s
  | some j =>
    if !(j.phase == .pause || j.phase == .background) || uncaptured s j != 0 || !j.grans.isEmpty then s
    else
      let s := captureHeader s p j
      let s := queueBeats s p 0 4096
      let g := s.snp[p].gens[j.gen]
      let s := if g.unclean then raise s srcSnp (some p) 0x0701 [g.genNo.toNat] else s
      let wait := streaming s p j.gen
      let lost := s.snp[p].buddy && !wait
      let g := { g with st := if s.snp[p].buddy then GenSt.local_ else GenSt.complete, blost := lost }
      let s := updSnp s p fun n =>
        let job := n.job.map fun (j : SnpJob) => { j with phase := .buddy, drained := false, since := nowCt s }
        { n with gens := n.gens.set j.gen g, job := job }
      let s := if j.adjourn then finishLaunch (updPart s p fun q => { q with launched := false, haltWait := false }) p 0x17 else s
      if wait then s else snpEnd s p (genCode g)

/-- DRAIN_COMPLETE: the generation's pages and granules are those of this moment; an adjournment captures the state at once. -/
def drainComplete (s : State) (p : PartId) : State :=
  match s.snp[p].job with
  | none => s
  | some j =>
    if j.phase != .draining || !drainedNow s p then s
    else
      let j := { j with phase := .pause, since := nowCt s, drained := true, squares := s.parts[p].own.sq, prot := s.snp[p].prot
                        grans := s.snp[p].gens[j.gen].dirty.map (·.1), paged := (squaresOf s p).map fun n => (n.val, 0) }
      let s := updSnp s p fun n => { n with job := some j }
      let s := (squaresOf s p).foldl (fun s n => updSq s n fun q => { q with uncapt := BitVec.allOnes 2048 }) s
      finishCapture (if j.adjourn then captureState s p j else s) p

/-- DRAIN_TIMEOUT: draining has lasted 10 ms. -/
def drainTimeout (s : State) (p : PartId) : State :=
  match s.snp[p].job with
  | some j =>
    if j.phase == .draining && decide (j.since + 10000000 ≤ nowCt s) then snpEnd (endPoint (dropGen s p j.gen) p j) p 7
    else s
  | none => s

/-- The outcome of the protected reads of a capture: a double-bit error sets UNCLEAN and raises an event, and the capture goes on (R356). -/
def captureEcc (s : State) (p : PartId) (g : Fin 2) (n : SqId) (e : Ecc) : State :=
  match e with
  | .corrected (.hbm t) _ => hbmCorrected s t (some p)
  | .corrected .scratchpad loc => sqCorrected s n .scratchpad loc.toNat
  | .uncorrected st loc =>
    let s := match st with
      | .hbm t => hbmUncorrected s t (some p) loc.toNat
      | .scratchpad => sqUncorrected s n .scratchpad loc.toNat
      | _ => s
    updSnp s p fun x => { x with gens := x.gens.set g { x.gens[g] with unclean := true } }
  | _ => s

/-- Landing pages not yet captured. -/
def landingLeft (s : State) (n : SqId) : List Nat := (landingPages s n).filter fun k => s.squares[n].uncapt.getLsbD k

/-- Chess count before which the pause cannot end: what the captures and the image of the state take of RATE (R352, R354). -/
def pauseDue (s : State) (p : PartId) (j : SnpJob) : Nat := max j.since j.pace + rateTicks s p (4096 + 0x80000 * (jobSquares j).length)

/-- CREMA_PAUSE_END: the landing pages have been captured; with the header, flags and registers the squares resume (R352). -/
def cremaPauseEnd (s : State) (p : PartId) (e : Ecc) (sq : SqId) : State :=
  match s.snp[p].job with
  | none => s
  | some j =>
    if j.phase != .pause || j.adjourn || (jobSquares j).any (fun n => !(landingLeft s n).isEmpty) || decide (nowCt s < pauseDue s p j) then s
    else
      let s := captureEcc s p j.gen sq e
      let s := captureState s p j
      let s := updSnp s p fun n =>
        let job := n.job.map fun (j : SnpJob) => { j with phase := .background, drained := false, since := nowCt s, pace := nowCt s }
        { n with job := job }
      finishCapture (endPoint s p j) p

/-- No capture of the page's square, or of any granule for a granule, is under way. -/
def captureFree (j : SnpJob) (page : Option Nat) : Bool :=
  j.caps.all fun c => c.page.map (· / 2048) != page.map (· / 2048)

/-- The pages to capture in ascending order: in the pause of a Crema the landing pages alone (R352). -/
def pagesLeft (s : State) (j : SnpJob) : List Nat :=
  (jobSquares j).filterMap fun n =>
    if captureFree j (some (n.val * 2048)) then
      ((if j.phase == .pause && !j.adjourn then landingLeft s n else (List.range 2048).filter fun k => s.squares[n].uncapt.getLsbD k).head?).map fun k => n.val * 2048 + k
    else none

/-- What is captured next: the page or granule that a writer waits for, then the pages, then the granules (R354). A page takes at least 64 cc. -/
def nextCapture (s : State) (p : PartId) (j : SnpJob) : Option Capture :=
  let floor := nowCt s + ceilDiv (64 * ratioCt s) (ratioCc s)
  let page := fun (k : Nat) => (⟨some k, 0, List.range 256, max floor (paceOf s p j 16384)⟩ : Capture)
  let gran := fun (k : Nat) => (⟨none, k, [], paceOf s p j 0x200000⟩ : Capture)
  let pages := j.wantPages.filter fun k => captureFree j (some k)
  let pause := j.phase == .pause && !j.adjourn
  match pages, j.wantGrans with
  | k :: _, _ => some (page k)
  | [], k :: _ => if captureFree j none then some (gran k) else none
  | [], [] => match pagesLeft s j with
    | k :: _ => some (page k)
    | [] => if pause || !j.caps.isEmpty then none else j.grans.head?.map gran

/-- The snapshot engine's phase-B turn (R64). -/
def snpTurn (s : State) : Bool := s.clk.frameOn && nowCc s % 8 == 3

/-- In a turn of the engine each bank that no client has used gives one line of a page (R63 to R65). -/
def captureLines (s : State) (c : Capture) : State × Capture :=
  match c.page with
  | none => (s, c)
  | some k => c.todo.foldl (fun (st : State × Capture) i =>
      match takeLine st.1 (snpTurn st.1) true (.sp (sqOf (k / 2048)) (16384 * (k % 2048) + 64 * i)) with
      | some s => (s, { st.2 with todo := st.2.todo.erase i })
      | none => st) (s, c)

/-- Each capture under way gets its lines of this turn. -/
def captureAll (s : State) (cs : List Capture) : State × List Capture :=
  cs.foldl (fun (st : State × List Capture) c => let (s, c) := captureLines st.1 c; (s, st.2 ++ [c])) (s, [])

/-- Captures whose lines have been read and whose time has come are complete. -/
def captureDone (s : State) (p : PartId) (j : SnpJob) (c : Capture) : State :=
  if !c.todo.isEmpty || decide (nowCt s < c.due) then s
  else match c.page with
    | some k => capturePage s p j (sqOf (k / 2048)) (k % 2048)
    | none => captureGran s p j c.gran

/-- PAGE_CAPTURE: in this turn the captures under way go on, and the next one begins once RATE allows it (R354). -/
def pageCapture (s : State) (p : PartId) (e : EccAt) : State :=
  match s.snp[p].job with
  | none => s
  | some j =>
    if !(j.phase == .background || j.phase == .pause) then s
    else
      let begins := if nowCt s < j.pace then none else nextCapture s p j
      let pace := match begins with | some c => paceOf s p j (if c.page.isSome then 16384 else 0x200000) | none => j.pace
      let s := captureEcc s p j.gen e.sq e.ecc
      let (s, cs) := captureAll s (j.caps ++ begins.toList)
      let s := updSnp s p fun x => { x with job := x.job.map fun j => { j with caps := cs, pace := pace } }
      finishCapture (cs.foldl (fun s c => captureDone s p j c) s) p

/-! ### The buddy stream (R358 to R360) -/

/-- The header flit of a buddy beat. -/
def buddyHdr (ack : Bool) (p : Nat) (g : Nat) (bad : Bool) (genNo off lines : Nat) : Line :=
  BitVec.ofNat 512 ((if ack then 2 else 1) + (p <<< 8) + (g <<< 16) + (bool2nat bad <<< 24) + ((genNo % 2 ^ 32) <<< 32) + ((off % 2 ^ 64) <<< 64)
    + ((lines % 2 ^ 16) <<< 128))

def hdrByte (h : Line) (i : Nat) : Nat := bits h (8 * i + 7) (8 * i)

/-- The two buddy links towards the second. -/
def buddyLinks (s : State) : List LinkId := [bits s.mtch.second 11 8, bits s.mtch.second 15 12].filterMap fun x => if h : x < 12 then some ⟨x, h⟩ else none

/-- The next beat of the stream enters the BUDDY slots of a buddy link, the two taking turns; with neither UP the stream is lost. -/
def streamBeat (s : State) (p : PartId) : State :=
  match s.snp[p].job with
  | none => s
  | some j =>
    if !streaming s p j.gen then s
    else match j.beats with
    | [] => s
    | (off, lines) :: rest =>
      let ups := (buddyLinks s).filter fun l => s.links[l].st == .up
      match ups[j.unacked.length % 2]?.orElse fun _ => ups.head? with
      | none => buddyLost s p
      | some l =>
        let data := match areaAt s p j.gen off (64 * lines) with
          | some a => (List.range lines).map fun i => memLine s.hbm.mem (a + 64 * i)
          | none => List.replicate lines 0
        let j := { j with beats := rest, unacked := j.unacked ++ [off] }
        let s := updSnp s p fun n => { n with job := some j }
        let hdr := buddyHdr false p.val j.gen.val false s.snp[p].gens[j.gen].genNo.toNat off lines
        updLink s l fun k => { k with txBuddy := k.txBuddy ++ hdr :: data }

/-- Bytes of one image of the hold area of p: half of its segments. -/
def holdBytes (s : State) (p : PartId) : Nat := bits s.snp[p].hold 12 6 / 2 * segBytes

/-- Physical place of `len` bytes of an image in the hold area of p: area A first, area B after it. -/
def holdAt (s : State) (p : PartId) (g off len : Nat) : Option Nat :=
  let h := s.snp[p].hold
  let seg := bits h 5 0 + g * (bits h 12 6 / 2) + off / segBytes
  if bit h 63 && decide (off < holdBytes s p) && decide (seg < s.hbm.segments) && decide (off % segBytes + len ≤ segBytes) then
    some (seg * segBytes + off % segBytes)
  else none

/-- Place of a beat that a link brings: the partner at its other end is the peer. -/
def holdPlace (s : State) (l : LinkId) (p : PartId) (g off len : Nat) : Option Nat :=
  let pos := (List.finRange 256).find? fun q => s.mtch.map[q] == s.links[l].npos
  if (pos.map (·.val)) == some (bits s.snp[p].hold 20 13) then holdAt s p g off len else none

/-- A beat of generation number `no` at offset `off` has gone into image g: the header's beat is the last of a generation (log 56). -/
def heldAfter (old : Option (Word32 × Bool)) (no : Word32) (off : Nat) : Option (Word32 × Bool) :=
  match old with
  | some (n, whole) => if n = no then some (no, whole || off == 0) else some (no, off == 0)
  | none => some (no, off == 0)

/-- The oldest beat that has come whole in the BUDDY slots of a link: its header, its data, and what follows it. A flit that cannot be a header is
discarded (log 71). -/
def frontBeat : List Line → Option (Line × List Line × List Line)
  | [] => none
  | h :: r =>
    let n := bits h 143 128
    if (hdrByte h 0 = 1 ∨ hdrByte h 0 = 2 ∧ n = 0) ∧ n ≤ 64 then (if n ≤ r.length then some (h, r.take n, r.drop n) else none)
    else frontBeat r

/-- BUDDY_BEAT_RECEIVE: the second writes the oldest data beat into the hold area and acknowledges it on the same link; without a valid area it
acknowledges with byte 3 set (R359, R360). -/
def buddyReceive (s : State) (l : LinkId) (p : PartId) (g : Fin 2) : State :=
  match frontBeat s.links[l].rxBuddy with
  | none => s
  | some (hdr, data, rest) =>
    if hdrByte hdr 0 ≠ 1 ∨ partOf (hdrByte hdr 1) ≠ p ∨ hdrByte hdr 2 % 2 ≠ g.val ∨ s.links[l].st ≠ .up then s
    else
      let off := bits hdr 127 64
      let place := holdPlace s l p g.val off (64 * data.length)
      let ack := buddyHdr true p.val g.val place.isNone (bits hdr 63 32) off 0
      let s := updLink s l fun k => { k with rxBuddy := rest, txBuddy := k.txBuddy ++ [ack] }
      match place with
      | none => s
      | some a =>
        let s := { s with hbm := { s.hbm with mem := (List.zipIdx data).foldl (fun m (x, i) => memWriteLine m (a + 64 * i) x) s.hbm.mem } }
        updSnp s p fun n => { n with held := n.held.set g (heldAfter n.held[g] (BitVec.ofNat 32 (bits hdr 63 32)) off) }

/-! ### A FETCH at the second (R363; log 56) -/

/-- The generation of the hold area of p that holds GEN_NO whole. -/
def heldGen (s : State) (p : PartId) (no : Word32) : Option (Fin 2) := [(0 : Fin 2), 1].find? fun g => s.snp[p].held[g] == some (no, true)

/-- A FETCH request: the image of that generation, from the chip that stood at FPOS, starts on its way; without one the FETCH is refused on a copy channel of
the partition. -/
def fetchAsked (s : State) (r : FetchReq) : State :=
  let p := r.part
  match (if bit s.snp[p].hold 63 && bits s.snp[p].hold 20 13 == r.fpos.toNat then heldGen s p r.genNo else none) with
  | some g => updSnp s p fun n => { n with send := some ⟨r.reserve, g, 0⟩ }
  | none =>
    match allLink.findSome? fun l => ((List.finRange 32).find? fun c =>
        let x := s.links[l].ch[c]; chRx x && chKind x == 3 && chOwner x == p).map fun c => (l, c) with
    | some (l, c) => answerRecord s l c 0x04 0xB
    | none => s

/-- The next remote copy beat of the image being sent for p; it waits where no link of the way is UP with a copy channel (R305). -/
def imageBeat (s : State) (p : PartId) : State :=
  match s.snp[p].send with
  | none => s
  | some x =>
    match (List.range 3).findSome? (fun c => copyHop s x.reserve p c), holdAt s p x.gen.val x.off 4096 with
    | some (l, c), some a =>
      let data := (List.range 64).map fun i => memLine s.hbm.mem (a + 64 * i)
      let last := decide (holdBytes s p ≤ x.off + 4096)
      let s := updSnp s p fun n => { n with send := if last then none else some { x with off := x.off + 4096 } }
      queueBeat s l c s.parts[p].epoch.toNat x.reserve (sqOf (x.off / 2 ^ 33)) (BitVec.ofNat 8 (x.off / 2 ^ 25)) (x.off % 2 ^ 25) last data
    | _, _ => s

/-- BUDDY_BEAT. -/
def buddyBeat (s : State) (t : BuddyTurn) : State :=
  match t with
  | .stream p => streamBeat s p
  | .fetch r => fetchAsked s r
  | .image p => imageBeat s p

/-- A beat of a snapshot that a reset ended is acknowledged: its epoch is old (R386, R387). -/
def staleAck (s : State) (p : PartId) (hdr : Line) : Option State :=
  let e := (finOf 2 (hdrByte hdr 2) (by decide), BitVec.ofNat 32 (bits hdr 63 32), bits hdr 127 64)
  if s.snp[p].stale.contains e then some (countOldEpoch (updSnp s p fun n => { n with stale := n.stale.erase e }) p) else none

/-- BUDDY_ACK: the oldest beat that has come is an acknowledgement; the last one makes the generation COMPLETE (R359). One for a beat of an old epoch is
dropped and counted; it has left the second before any for the new epoch (R386). -/
def buddyAck (s : State) (l : LinkId) (p : PartId) : State :=
  match frontBeat s.links[l].rxBuddy with
  | none => s
  | some (hdr, _, rest) =>
    if hdrByte hdr 0 ≠ 2 ∨ partOf (hdrByte hdr 1) ≠ p then s
    else
      let s := updLink s l fun k => { k with rxBuddy := rest }
      match staleAck s p hdr, s.snp[p].job with
      | some t, _ => t
      | none, none => s
      | none, some j =>
        if !isBuddyLink s l ∨ hdrByte hdr 2 ≠ j.gen.val ∨ bits hdr 63 32 ≠ s.snp[p].gens[j.gen].genNo.toNat ∨ !j.unacked.contains (bits hdr 127 64) then s
        else if hdrByte hdr 3 ≠ 0 then buddyLost s p
        else
          let j := { j with unacked := j.unacked.erase (bits hdr 127 64) }
          let s := updSnp s p fun n => { n with job := some j }
          if j.phase == .buddy && j.beats.isEmpty && j.unacked.isEmpty then
            let g := { s.snp[p].gens[j.gen] with st := GenSt.complete }
            let s := updSnp s p fun n => { n with gens := n.gens.set j.gen g }
            snpEnd s p (genCode g)
          else s

/-! ### Restore (R361, R362) -/

/-- Sender on this chip of messages to an inbound endpoint, by the routes of the squares. -/
def senderOf (s : State) (n : SqId) (e : Fin 32) : Option (SqId × Fin 32) :=
  allSq.findSome? fun m => ((List.finRange 32).find? fun f =>
    let r := s.squares[m].eps[f].route
    rtValid r && !rtRemote r && rtDsq r == n && rtDep r == e).map fun f => (m, f)

/-- Put k held messages back at an endpoint. Where in its handle each lies the image does not say: a free value (log 53). -/
def restoreHeld (s : State) (n : SqId) (e : Fin 32) (k : Nat) : State :=
  let ep := s.squares[n].eps[e]
  let src := senderOf s n e
  let cnt := (hdlOf s.squares[n] (inHandle ep.inc)).count
  (List.range k).foldl (fun s i =>
    let (s, off) := draw s
    let m : HeldMsg := { off := off, count := cnt - BitVec.ofNat 32 (k - 1 - i), src := src
                         hops := (match src with | some (m, _) => hopsBetween m n | none => 0), link := none, dead := false }
    updEp s n e fun x => { x with held := x.held ++ [m] }) s

/-- Write register image i back into a square, which stands HALTED at its saved ply index. The offsets already folded into each cell (R156) are not in the
image: after a restore there are none (DESIGN CHOICE, log 114). -/
def restoreRegs (s : State) (p : PartId) (g : Fin 2) (i : Nat) (n : SqId) : State :=
  let off := recordOff i
  let rd := fun (o k : Nat) => areaNat s p g (off + o) k
  let w32 := fun (o : Nat) => Vector.ofFn fun (i : Fin 32) => BitVec.ofNat 64 (rd (o + 8 * i.val) 8)
  let preds := fun (o : Nat) => Vector.ofFn fun (i : Fin 8) => (rd o 1).testBit i.val
  let vb := vBytes s
  let mx := s.squares[n].mx
  let mx := { mx with
    seg := Vector.ofFn fun (i : Fin 8) => (BitVec.ofNat 6 (rd (0x118 + 2 * i.val) 1), BitVec.ofNat 4 (rd (0x119 + 2 * i.val) 1))
    fold := Vector.ofFn fun (i : Fin 2) =>
      let x := rd (0x128 + 4 * i.val) 4
      { foldReset with left := BitVec.ofNat 16 x, handle := BitVec.ofNat 8 (x >>> 16), armed := x.testBit 24, exceeded := x.testBit 25, order := x.testBit 26 }
    ledgers := Vector.ofFn fun (i : Fin 16) => ledgerOfImage (BitVec.ofNat 1024 (rd (0x2000 + 128 * i.val) 128))
    cells := (List.range 512).foldl (fun m k => sset 0 m k (BitVec.ofNat 80 (rd (0x4000 + 16 * k) 10))) []
    w := (List.range 8192).foldl (fun m k => sset 0 m k (BitVec.ofNat 80 (rd (0x20000 + 16 * ((k / 16 % 128) * 64 + (k / 2048) * 16 + k % 16)) 10))) []
    stat := (List.range 8192).foldl (fun m k => sset 0 m k (BitVec.ofNat 256 (rd (0x40000 + 32 * k) 32))) []
    foldIn := [] }
  let s := updSq s n fun q =>
    let core := { q.core with
      st := .halted, saved := true, stall := 0, s := w32 0, p := preds 0x100, idx := BitVec.ofNat 13 (rd 0x108 2)
      v := Vector.ofFn fun (i : Fin 32) => BitVec.ofNat 8192 (rd (0x8000 + vb * i.val) vb), flight := [], loads := [], stores := [], empty := 0 }
    let mem := (List.range 65536).foldl (fun m a => memSetByte m a (BitVec.ofNat 8 (rd (0x10000 + a) 1))) []
    { q with
      core := core, mx := mx, fp := BitVec.ofNat 6 (rd 0x110 1)
      mc := { q.mc with s := w32 0x200, p := preds 0x300, mem := mem }
      hdl := q.hdl.map fun (k, h) => (k, { h with count := BitVec.ofNat 32 (rd (0x1000 + 4 * k) 4) })
      eps := q.eps.mapFinIdx fun e x _ => { x with credits := BitVec.ofNat 5 (rd (0x1400 + 2 * e) 1), held := [] } }
  (List.finRange 32).foldl (fun s e => restoreHeld s n e (rd (0x1401 + 2 * e.val) 1)) s

/-- Slices of a scratchpad: 32 lines, one of each bank. -/
def padSlices : Nat := 16384

/-- Write slice k of scratchpad image i back, in a turn of the snapshot engine (R63, R64). -/
def restoreSlice (p : PartId) (g : Fin 2) (k : Nat) (s : State) (x : SqId × Nat) : State :=
  match areaAt s p g (pageOff x.2 0 + 2048 * k) 2048 with
  | some a =>
    let s := (List.range 32).foldl (fun s b => useBank s x.1 b) s
    padWrite s x.1 [(2048 * k, hbmBytes s a 2048)]
  | none => s

/-- No client has used a bank of these squares in this turn. -/
def slicesFree (s : State) (sqs : List SqId) : Bool := sqs.all fun n => (banksUsed s n).isEmpty

/-- Write the flag image back: the values stand in the pool and in every view. -/
def restoreFlags (s : State) (p : PartId) (g : Fin 2) : State :=
  let r := s.parts[p].own.res
  if !resFen r then s
  else
    let lo := resFirst r
    let n := resLast r + 1 - lo
    let v := areaNat s p g 1024 1024
    let s := clearFlags s lo (resLast r)
    { s with flags := { s.flags with pool := setBits s.flags.pool lo n v, engine := setBits s.flags.engine lo n v }, squares := s.squares.map fun (q : Square) => { q with view := setBits q.view lo n v } }

/-- Write granules back from the area. -/
def restoreGran (p : PartId) (g : Fin 2) (prot : BitVec 64) (s : State) (key : Nat) : State :=
  match (granOff prot key).bind fun o => areaAt s p g o 0x200000, hbmAt s p (key / 1152) (key % 1152 * 0x200000) 0x200000 with
  | some a, some b => { s with hbm := { s.hbm with mem := memWrite s.hbm.mem b (hbmBytes s a 0x200000) } }
  | _, _ => s

/-- Protected segments of a generation: the header's mask (R341). -/
def headerProt (s : State) (p : PartId) (g : Fin 2) : BitVec 64 := BitVec.ofNat 64 (areaNat s p g 24 8)

/-- Squares of a generation in the order of its records: the header's mask (R341). -/
def headerSquares (s : State) (p : PartId) (g : Fin 2) : List SqId :=
  let m := BitVec.ofNat 64 (areaNat s p g 16 8)
  allSq.filter fun n => m.getLsbD n.val

/-- Everything a restore writes but the scratchpads. A segment that the header does not mark, or PROT no longer, is not restored (R340). -/
def restoreAll (s : State) (p : PartId) (g : Fin 2) (full : Bool) : State :=
  let sqs := headerSquares s p g
  let s := restoreFlags s p g
  let s := sqs.zipIdx.foldl (fun s (n, i) => restoreRegs s p g i n) s
  let prot := headerProt s p g
  let keys := if full then allGrans s.snp[p].prot else s.snp[p].gens[g].dirty.map (·.1)
  let s := keys.foldl (restoreGran p g prot) s
  updSnp s p fun n =>
    let o : Fin 2 := 1 - g
    { n with gens := (n.gens.set o { n.gens[o] with st := .empty }).set g { n.gens[g] with dirty := [] } }

/-- SNAPSHOT_RESTORE_DONE: each turn of the snapshot engine writes one slice of every scratchpad back; with the last the squares are HALTED, the other
generation is EMPTY, g's bitmap is clear and the job completes. A fetch ends with its last beat instead. -/
def restoreDone (s : State) (p : PartId) : State :=
  match s.snp[p].restore with
  | none => s
  | some r =>
    let sqs := headerSquares s p r.gen
    if r.fetch || !snpTurn s || !slicesFree s sqs then s
    else
      let s := sqs.zipIdx.foldl (restoreSlice p r.gen r.slice) s
      if r.slice + 1 < padSlices then updSnp s p fun n => { n with restore := some { r with slice := r.slice + 1 } } else
      let s := restoreSb (restoreAll s p r.gen r.full) p false
      let s := updSnp s p fun n => { n with restore := none }
      pumpSnap (snpComplete s p r.jobId 4 0 s.snp[p].gens[r.gen].genNo r.gen.val s.snp[p].gens[r.gen].adjourned) p

/-- A host write of a serving register (R312). One that would write an uncaptured granule of the serving tables is held in the endpoint, in front of the
accesses that wait there, until it is captured (R353; log 61). -/
def srvHostWrite (s : State) (fn : FnId) (p : PartId) (k : Nat) (new : Word64) : State :=
  let held := if fn = 0 then heldGrans s p fun s => srvWrite s 0 p k new else []
  if held.isEmpty then srvWrite s fn p k new
  else
    let s := wantCaptures s p [] held
    { s with apt := ⟨fn, .srvWrite p k new, []⟩ :: s.apt }

/-- The host writes `SRV_CTL[p]`: behind the accesses that wait in the endpoint, if there are any (R407). -/
def servingCtl (s : State) (p : PartId) (new : Word64) : State :=
  if s.apt.isEmpty then srvHostWrite s 0 p 0 new else { s with apt := s.apt ++ [⟨0, .srvWrite p 0 new, []⟩] }

/-! ### Meanings -/

/-- SERVING_ENABLE: the host sets EN and leaves the other fields (R312, R314). -/
def execServingEnable (p : PartId) (s : State) : Host.Outcome State Fault Refusal := .next (servingCtl s p (srvReg s p 0 ||| 1))
/-- SERVING_DISABLE: the host clears EN (R314). -/
def execServingDisable (p : PartId) (s : State) : Host.Outcome State Fault Refusal := .next (servingCtl s p (srvReg s p 0 &&& ~~~1))

def execSealSignal (p : PartId) (s : State) : Host.Outcome State Fault Refusal := .next (sealSignal s p)
def execSealCycle (p : PartId) (s : State) : Host.Outcome State Fault Refusal := .next (sealCycle s p)
def execHaltTimeout (p : PartId) (s : State) : Host.Outcome State Fault Refusal := .next (haltTimeout s p)
def execDrainComplete (p : PartId) (s : State) : Host.Outcome State Fault Refusal := .next (drainComplete s p)
def execDrainTimeout (p : PartId) (s : State) : Host.Outcome State Fault Refusal := .next (drainTimeout s p)
def execCremaPauseEnd (e : PauseEnd) (s : State) : Host.Outcome State Fault Refusal := .next (cremaPauseEnd s e.part e.reads.ecc e.reads.sq)
def execPageCapture (p : PartId) (ecc : EccAt) (s : State) : Host.Outcome State Fault Refusal := .next (pageCapture s p ecc)
def execBuddyBeat (t : BuddyTurn) (s : State) : Host.Outcome State Fault Refusal := .next (buddyBeat s t)
def execBuddyBeatReceive (l : LinkId) (p : PartId) (g : Fin 2) (s : State) : Host.Outcome State Fault Refusal := .next (buddyReceive s l p g)
def execBuddyAck (l : LinkId) (p : PartId) (s : State) : Host.Outcome State Fault Refusal := .next (buddyAck s l p)
def execSnapshotRestoreDone (p : PartId) (s : State) : Host.Outcome State Fault Refusal := .next (restoreDone s p)

end Sys2Proof.Machine
end

