-- ==== Sys2Proof/Machine/Remote.lean ====
section
/-! DEFINITION. Remote copy beats at their destination chip, and the landing of their parts (R305, R306, R308, R363). -/

namespace Sys2Proof.Machine

/-- Place of a fetch's beat in the area: the 41 bits of square, handle and offset as one byte offset (log 56). -/
def fetchOff (b : CopyBeat) : Nat := b.off + 2 ^ 25 * b.handle.toNat + 2 ^ 33 * b.sq.val

/-- The whole image of a fetch has landed: the generation is LOCAL and the job completes (R363). -/
def fetchLands (s : State) (p : PartId) : State :=
  match s.snp[p].restore.filter (·.fetch) with
  | none => s
  | some r =>
    let g := s.snp[p].gens[r.gen]
    let g := { g with st := GenSt.local_, adjourned := areaNat s p r.gen 4 1 == 1, unclean := areaNat s p r.gen 5 1 % 2 == 1, genNo := r.genNo }
    let s := updSnp s p fun n => { n with restore := none, gens := n.gens.set r.gen g }
    pumpSnap (snpComplete s p r.jobId 4 0 r.genNo r.gen.val g.adjourned) p

/-- A beat of a fetch: written to the reserve's area; with the last beat the image stands whole: it lands, in Strict at LD (R308, R363). -/
def fetchBeat (s : State) (l : LinkId) (p : PartId) (r : RstJob) (b : CopyBeat) : State :=
  let s := areaPut s p r.gen (fetchOff b) (b.data.flatMap fun d => natLe 64 d.toNat)
  if !b.last then s
  else if s.parts[p].strict then
    let x : RemotePart := { link := l, lch := b.lch, sq := b.sq, handle := b.handle, ranges := [], whole := some (nowCc s), flag := none, fetched := true }
    { s with mtch := { s.mtch with remote := s.mtch.remote ++ [x] } }
  else fetchLands s p

/-- Status of a beat at its handle: the square must take writes, whole 64-bit words, the handle belong to the partition and carry WCE and WLINK (R67, R83,
R92, R306; log 88). -/
def beatCheck (s : State) (p : PartId) (b : CopyBeat) : Nat :=
  let c := sqClosed s b.sq
  let h := hdlOf s.squares[b.sq] b.handle.toNat
  if c ≠ 0 then c else if b.off % 8 ≠ 0 then stBadDesc else hdlCheck h (hdlOwner h == p.val && hdlWce h && hdlWlink h) b.off (64 * b.lines)

/-- The flag that travels with the last beat of a part, under the rights of R215. -/
def beatFlag (s : State) (l : LinkId) (c : Fin 32) (sq : SqId) (flag : Option (Fin 8192 × Bool)) : State :=
  let p := chOwner s.links[l].ch[c]
  match flag with
  | none => s
  | some (f, v) =>
    if cflagRight s (ownerSq s sq) (some p) f then writeFlag s f v (nowCc s) (rankRemote l sq) none
    else answerRecord (raise s (srcLink l) (some p) 0x0A05 [c.val, stDenied]) l c 0x04 stDenied

/-- Write a line of a beat in this turn, in a bank that the turn has not used (R63 to R65, R306). -/
def writeBeatLine (b : CopyBeat) (base : Nat) (st : State × List Nat) (i : Nat) : State × List Nat :=
  let (s, done) := st
  if done.contains i then st
  else
    let a := (base + b.off + 64 * i) % spBytes
    match takeLine s (ceTurn s) false (.sp b.sq a), b.data[i]? with
    | some s, some x => (padWrite s b.sq (lineWords a x), i :: done)
    | _, _ => (s, done)

/-- A part is written whole and lands: its one count, its flag (R84, R306, R308). -/
def landRemote (s : State) (r : RemotePart) : State :=
  if r.fetched then fetchLands s (chOwner s.links[r.link].ch[r.lch]) else
  -- it has crossed into the rank whole (R432)
  let code := sqGone s r.sq
  if code ≠ 0 then
    let p := chOwner s.links[r.link].ch[r.lch]
    answerRecord (handleRefused (raise s (srcLink r.link) (some p) 0x0A05 [r.lch.val, code]) r.sq r.handle.toNat code) r.link r.lch 0x04 code
  else beatFlag (acceptWrite s r.sq r.handle.toNat (partBytes s r.sq r.handle.toNat r.ranges)) r.link r.lch r.sq r.flag

/-- A beat has been written whole: its part goes on, or waits for LD in Strict and lands at once in Relaxed (R308). -/
def beatWritten (s : State) (l : LinkId) (b : CopyBeat) : State :=
  let s := updLink s l fun k => { k with beats := k.beats.erase b }
  let mine := fun (r : RemotePart) => r.link == l && r.lch == b.lch && r.sq == b.sq && r.handle == b.handle && r.whole.isNone
  let old := (s.mtch.remote.find? mine).map (·.ranges) |>.getD []
  let rest := s.mtch.remote.filter fun r => !mine r
  let r : RemotePart := { link := l, lch := b.lch, sq := b.sq, handle := b.handle, ranges := old ++ [(b.off, 64 * b.lines)], whole := none, flag := b.flag, fetched := false }
  if !b.last then { s with mtch := { s.mtch with remote := rest ++ [r] } }
  else if s.parts[chOwner s.links[l].ch[b.lch]].strict then
    { s with mtch := { s.mtch with remote := rest ++ [{ r with whole := some (nowCc s) }] } }
  else landRemote { s with mtch := { s.mtch with remote := rest } } r

/-- REMOTE_COPY_BEAT_WRITE: what this turn of the copy engines allows of the oldest whole beat for this chip that link l has brought (R306). -/
def remoteBeat (s : State) (l : LinkId) : State :=
  match firstBeat s l true with
  | none => s
  | some b =>
    if !domOn s domEngine then s
    else
      let p := chOwner s.links[l].ch[b.lch]
      match s.snp[p].restore.filter (·.fetch) with
      | some r => fetchBeat (updLink s l fun k => { k with beats := k.beats.erase b }) l p r b
      | none =>
        let code := beatCheck s p b
        if code ≠ 0 then
          let s := updLink s l fun k => { k with beats := k.beats.erase b }
          let mine := fun (r : RemotePart) => r.link == l && r.lch == b.lch && r.sq == b.sq && r.handle == b.handle && r.whole.isNone
          let s := { s with mtch := { s.mtch with remote := s.mtch.remote.filter fun r => !mine r } }
          answerRecord (handleRefused (raise s (srcLink l) (some p) 0x0A05 [b.lch.val, code]) b.sq b.handle.toNat code) l b.lch 0x04 code
        else
          let base := hdlBase (hdlOf s.squares[b.sq] b.handle.toNat)
          let (s, done) := (List.range b.lines).foldl (writeBeatLine b base) (s, b.done)
          let b' := { b with done := done }
          let s := updLink s l fun k => { k with beats := k.beats.map fun x => if x = b then b' else x }
          if b.lines ≤ done.length then beatWritten s l b' else s

/-- REMOTE_COPY_LANDING at a destination in Strict: the k-th part that stands whole lands in the first cycle at or after LD; one that came later counts
LATE_LANDING (R308, log 55). -/
def remoteArrival (s : State) (k ld : Nat) : State :=
  match (s.mtch.remote.filter fun r => r.whole.isSome)[k]? with
  | none => s
  | some r =>
    if nowCt s < ld ∨ !s.clk.frameOn then s
    else
      let s := { s with mtch := { s.mtch with remote := s.mtch.remote.erase r } }
      let late := decide (ccFrom s ld < r.whole.getD 0)
      let s := if late then countDev s [chOwner s.links[r.link].ch[r.lch]] devLate (srcLink r.link) none r.lch.val else s
      landRemote s r

/-- REMOTE_COPY_LANDING. -/
def remoteEnd (s : State) (e : RemoteEnd) (k : Nat) : State :=
  match e with
  | .sender n => remoteLanding s n k
  | .destination ld => remoteArrival s k ld

def execRemoteCopyBeatWrite (l : LinkId) (s : State) : Host.Outcome State Fault Refusal := .next (remoteBeat s l)
def execRemoteCopyLanding (e : RemoteEnd) (k : Nat) (s : State) : Host.Outcome State Fault Refusal := .next (remoteEnd s e k)

end Sys2Proof.Machine
end

