-- ==== Sys2Proof/Machine/Debug.lean ====
section
/-! DEFINITION. Event rings, fault status, breaks and trace as the host sets them up (R458, R467 to R477). -/

namespace Sys2Proof.Machine

/-! ### Event rings (R467 to R469) -/

/-- A write of `EVT_CFG[p]`, under the rules of completion rings (R413). -/
def evtCfgWrite (s : State) (fn : FnId) (p : PartId) (new : Nat) : State :=
  let r := s.rings[p]
  let en := new.testBit 8
  let log := BitVec.ofNat 5 new
  let irq := new.testBit 9
  if r.en && en then regPriv s fn
  else if !r.en && en then
    if s.parts[p].st ≠ .active ∨ log.toNat < 4 ∨ 14 < log.toNat then logViol s fn 0x0F06
    else updEvt s p fun r => { r with log := log, irqen := irq, en := true, tail := 0, head := 0, phase := true }
  else updEvt s p fun r => { r with log := log, irqen := irq, en := false }

/-- A write of `EVT_BASE[p]`: locked while EN is set (R413). -/
def evtBaseWrite (s : State) (fn : FnId) (p : PartId) (new : Nat) : State :=
  if s.rings[p].en then regPriv s fn else updEvt s p fun r => { r with base := BitVec.ofNat 64 (new / 4096 * 4096) }

/-- A whole write of `EVT_HEAD[p]` (R414, R469). -/
def evtHeadWrite (s : State) (fn : FnId) (p : PartId) (new : Nat) : State :=
  let r := s.rings[p]
  let size := 2 ^ r.log.toNat
  let h := new % 65536
  if !r.en || decide (size ≤ h) || decide ((r.tail + size - r.head) % size < (h + size - r.head) % size) then logViol s fn 0x0F05
  else
    let s := updEvt s p fun r => { r with head := h, fired := false }
    if p = 0 then { s with ev := { s.ev with fired2 := false } } else s

def evtCfgReg (r : EvtRing) : Nat := r.log.toNat + (bool2nat r.en <<< 8) + (bool2nat r.irqen <<< 9)
def evtTailReg (r : EvtRing) : Nat := r.tail + (bool2nat r.phase <<< 16)

/-- Word k of the selected record of the history (R470). -/
def histWord (s : State) (k : Nat) : Nat :=
  match s.ev.history[s.ev.histIdx.toNat]? with
  | some e => field (eventBits e false false).toNat (32 * k) 32
  | none => 0

/-! ### Faults (R458) -/

def fltReg (f : FltPart) : Nat :=
  bool2nat f.pending + (f.cls.toNat <<< 1) + (f.square.toNat <<< 4) + (bool2nat f.nosq <<< 10) + (f.code.toNat <<< 16)

/-- A whole write of `FLT_PART[p]`: a one clears PENDING. -/
def fltWrite (s : State) (p : PartId) (x : Nat) : State :=
  let x := w1c s (.fltPending p) x
  updPart s p fun q => { q with flt := { q.flt with pending := q.flt.pending && !x.testBit 0 } }

/-! ### Breaks and halts (R471 to R475) -/

def dbgCtlReg (d : Dbg) : Nat :=
  d.tagVal.toNat + (d.tagMask.toNat <<< 8) + (bool2nat d.tagEn <<< 16) + (bool2nat d.cntEn <<< 17) + (bool2nat d.bcast <<< 18)
    + (bool2nat d.trace <<< 19) + (d.vsel.val <<< 20) + (bool2nat d.hit <<< 30)

/-- A write of `DBG_CTL`: the rw fields from `new`; a one in a whole write clears HIT. -/
def dbgCtlWrite (s : State) (n : SqId) (new x : Nat) (whole : Bool) : State :=
  let seen := hwBits s (.dbgHit n) ≠ 0
  updSq s n fun q =>
    { q with dbg := { q.dbg with tagVal := BitVec.ofNat 8 new, tagMask := BitVec.ofNat 8 (new / 256), tagEn := new.testBit 16, cntEn := new.testBit 17
                                 bcast := new.testBit 18, trace := new.testBit 19, vsel := epOf (field new 20 5)
                                 hit := q.dbg.hit && (seen || !(whole && x.testBit 30)) } }

/-- HALT (R472, R474): a halt request at every square, or one that waits for the end of a snapshot point. -/
def hostHalt (s : State) (p : PartId) : State :=
  if atSnapshotPoint s p then updPart s p fun q => { q with haltWait := true }
  else (squaresOf s p).foldl requestHalt (updPart s p fun q => { q with resumeWait := 0 })

/-- RESUME and STEP (R474). During a snapshot point they withdraw the halt requests that wait for its end, and the squares halted before it resume with the
others, each with the second halt of a STEP (log 58). -/
def hostResume (s : State) (p : PartId) (step : Bool) : State :=
  let s := (squaresOf s p).foldl (fun s n => updCore s n fun c =>
    { c with haltLate := false, stepReq := if c.st == .halted then step else c.stepReq }) s
  if atSnapshotPoint s p then
    let s := updPart s p fun q => { q with haltWait := false }
    let halted := (squaresOf s p).foldl (fun (m : BitVec 64) n => if s.squares[n].core.st == .halted then m ||| BitVec.ofNat 64 (1 <<< n.val) else m) 0
    updSnp s p fun x =>
      let job := x.job.map fun (j : SnpJob) => { j with keep := j.keep &&& ~~~halted }
      { x with job := job }
  else resumeBroadcast s p (squaresOf s p)

/-- A whole write of `DBG_PART[p]`; more than one of the three is ignored and logged. -/
def dbgPartWrite (s : State) (fn : FnId) (p : PartId) (x : Nat) : State :=
  match x % 8 with
  | 0 => s
  | 1 => hostHalt s p
  | 2 => hostResume s p false
  | 4 => hostResume s p true
  | _ => regPriv s fn

/-- `DBG_PART[p]`.HALTED: every placed square is halted. -/
def dbgPartReg (s : State) (p : PartId) : Nat :=
  let l := placedOf s p
  bool2nat (!l.isEmpty && l.all fun n => s.squares[n].core.st == .halted) <<< 8

/-- What the debug registers of a halted square show (R475). -/
def whenHalted (q : Square) (x : Nat) : Nat := if q.core.st = .halted then x else 0

/-! ### Trace (R476, R477) -/

def trcCtlReg (t : Trace) : Nat := t.log.toNat + (bool2nat t.en <<< 8) + (bool2nat t.wrap <<< 9) + (t.types.toNat <<< 10)
def trcStatReg (t : Trace) : Nat := t.next % 2 ^ 27 + (bool2nat t.wrapped <<< 27)

/-- A write of `TRC_CTL[p]`: EN is refused when the buffer is not a legal place in the partition's segments; setting it starts the buffer anew
(log 59). -/
def trcCtlWrite (s : State) (fn : FnId) (p : PartId) (new : Nat) : State :=
  let t := s.parts[p].trc
  let log := BitVec.ofNat 5 new
  let en := new.testBit 8
  let fits := decide (12 ≤ log.toNat ∧ log.toNat ≤ 27) && decide (field t.base.toNat 6 12 = 0) && (hbmAddr s p t.base.toNat (16 * 2 ^ log.toNat)).isSome
  if en && !fits then regPriv s fn
  else
    let fresh := en && !t.en
    updPart s p fun q =>
      { q with trc := { q.trc with log := log, en := en, wrap := new.testBit 9, types := BitVec.ofNat 6 (field new 10 6)
                                   next := if fresh then 0 else q.trc.next, wrapped := q.trc.wrapped && !fresh } }

end Sys2Proof.Machine
end

