-- ==== Sys2Proof/Machine/Rings.lean ====
section
/-! DEFINITION. Job and completion rings (R413 to R426), function level resets (R399) and the vectors of a function (R424, R425). -/

namespace Sys2Proof.Machine

/-! ### Configuration (R413) -/

def ringCfgReg (r : Ring) : Nat := r.sqlog.toNat + (r.cqlog.toNat <<< 8) + (bool2nat r.en <<< 16) + (bool2nat r.irqen <<< 17)
def ringStatusReg (r : Ring) : Nat := r.sqHead + (bool2nat r.stopped <<< 16) + (r.cause.toNat <<< 17)

/-- A write of `RING_CFG`. The bases hold no reserved bits, so they are always 4 KiB-aligned. -/
def ringCfgWrite (s : State) (fn : FnId) (p : PartId) (new : Nat) : State :=
  let r := s.parts[p].ring
  let en := new.testBit 16
  let sl := BitVec.ofNat 5 new
  let cl := BitVec.ofNat 5 (new / 256)
  let irq := new.testBit 17
  let ok := fun (l : BitVec 5) => decide (4 ≤ l.toNat ∧ l.toNat ≤ 16)
  if r.en then
    if en ∨ r.outstanding ≠ 0 ∨ r.promised ≠ 0 then regPriv s fn
    else updRingOf s p fun r => { r with sqlog := sl, cqlog := cl, irqen := irq, en := false }
  else if en then
    if s.parts[p].st ≠ .active ∨ !ok sl ∨ !ok cl then logViol s fn 0x0F06
    else updRingOf s p fun r =>
      { r with sqlog := sl, cqlog := cl, irqen := irq, en := true, sqHead := 0, tail := 0, cqTail := 0, head := 0, phase := true
               stopped := false, cause := 0, armed := false }
  else updRingOf s p fun r => { r with sqlog := sl, cqlog := cl, irqen := irq }

/-- A write of a ring base: locked while EN is set. -/
def ringBaseWrite (s : State) (fn : FnId) (p : PartId) (cq : Bool) (new : Nat) : State :=
  if s.parts[p].ring.en then regPriv s fn
  else
    let b := BitVec.ofNat 64 (new / 4096 * 4096)
    updRingOf s p fun r => if cq then { r with cqBase := b } else { r with sqBase := b }

/-! ### Doorbells (R414, R425) -/

/-- Jobs pending when the tail stands at t. -/
def jobsPending (r : Ring) (t : Nat) : Nat := let n := 2 ^ r.sqlog.toNat; (t + n - r.sqHead) % n

/-- A whole write of `SQ_DB`. -/
def sqDbWrite (s : State) (fn : FnId) (p : PartId) (x : Nat) : State :=
  let r := s.parts[p].ring
  let t := x % 65536
  if !r.en || decide (2 ^ r.sqlog.toNat ≤ t) || decide (jobsPending r t < jobsPending r r.tail) then logViol s fn 0x0F05
  else updRingOf s p fun r => { r with tail := t }

/-- A whole write of `CQ_DB`; ARM arms the ring, which fires at once when an unread entry stands. -/
def cqDbWrite (s : State) (fn : FnId) (p : PartId) (x : Nat) : State :=
  let r := s.parts[p].ring
  let n := 2 ^ r.cqlog.toNat
  let h := x % 65536
  if !r.en || decide (n ≤ h) || decide ((r.cqTail + n - r.head) % n < (h + n - r.head) % n) then logViol s fn 0x0F05
  else
    let armed := r.armed || x.testBit 16
    let fire := x.testBit 16 && r.irqen && decide (r.cqTail ≠ h)
    let s := updRingOf s p fun r => { r with head := h, armed := armed && !fire }
    postHeld (if fire then fireMsix s p 0 else s) p

/-! ### Job checks (R418, R426) -/

def jkReserved (j : Line) : Bool :=
  let w := jobWord j
  let tail := w 2 != 0 || w 3 != 0 || w 4 != 0 || w 5 != 0 || w 6 != 0
  bits j 479 456 != 0 || match jobType j with
    | 1 => w 0 / 8 != 0 || w 2 / 2 ^ 38 != 0 || w 5 != 0 || w 6 != 0
    | 2 => false
    | 3 => false
    | 4 => false
    | 5 => false
    | 6 => !(w 0 == 1 || w 0 == 2) || (w 0 == 1 && w 1 / 2 ^ 38 != 0) || (w 0 == 2 && w 1 / 4096 != 0) || tail
    | 7 => w 0 != 0 || w 1 != 0 || tail
    | _ => true

/-- A LAUNCH with OP 0, or RESUME without RUN. -/
def jkLaunchBad (j : Line) : Bool := let w := jobWord j 0; w % 4 == 0 || (w.testBit 2 && w % 4 != 2)

/-- Reserved bits of an address word of a copy descriptor: 0 HBM, 1 a scratchpad, 2 one on another chip (R91). -/
def addrReserved (w k : Nat) : Bool := w >>> (match k with | 0 => 38 | 1 => 39 | _ => 47) != 0

/-- Reserved bits and codes of a copy descriptor in a job, the addresses its KIND uses among them (R91). -/
def jkCopyReserved (d : Line) : Bool :=
  (dKind d != 3 && addrReserved (dSrc d) (dSrck d)) || (dKind d != 2 && addrReserved (dDst d) (dDstk d)) || (dKind d != 1 && addrReserved (dMap d) 0) ||
  bits d 31 28 != 0 || bits d 127 96 != 0 || bits d 447 361 != 0 || dKind d == 0 || decide (4 < dKind d) || dClass d == 3
    || decide (2 ≤ dSrck d) || dDstk d == 3

/-! ### Fetching (R415 to R420) -/

/-- The device may fetch the next job of ring p. -/
def mayFetch (s : State) (p : PartId) : Bool :=
  let q := s.parts[p]
  let r := q.ring
  serving s && r.en && !r.stopped && q.st == .active && q.fence.isNone && q.copyWait.isNone && jobsPending r r.tail != 0
    && decide (r.promised < cqFree r) && !atSnapshotPoint s p

def jobBad (s : State) (p : PartId) : State := logViol s p 0x0F09

/-- A fetched job goes to its engine, or completes at once (R419, R445). -/
def takeJob (s : State) (p : PartId) (j : Job) : State :=
  let b := j.body
  let id := jobId b
  let ty := jobType b
  if jkReserved b then endUnstarted (jobBad s p) p j jsBadJob
  else match ty with
    | 1 =>
      if jkLaunchBad b then endUnstarted (jobBad s p) p j lsBadDesc
      else pumpLaunch (updPart s p fun q => { q with launchQ := q.launchQ ++ [j] }) p
    | 6 =>
      if s.king.level.toNat < 3 then endUnstarted s p j 1 else serveArrives s p j
    | 7 => if s.parts[p].ring.outstanding = 1 then complete s p id 7 0 0 0 else updPart s p fun q => { q with fence := some id }
    | _ =>
      if ty = 4 ∨ ty = 5 then
        let s := if snpJobBad j then jobBad s p else s
        pumpSnap (updPart s p fun q => { q with snapQ := q.snapQ ++ [j] }) p
      else
        let s := if jkCopyReserved b then jobBad s p else s
        if s.king.level.toNat < 2 then cancelJob s p j
        else enterCopy (updPart s p fun q => { q with copyWait := some j }) p

/-- JOB_FETCH: one entry is promised and one job outstanding before the job is looked at. -/
def jobFetch (s : State) (p : PartId) (job : Line) (sheet : Option Sheet) : State :=
  let s := enterCopy s p
  if !mayFetch s p then s
  else
    let s := updRingOf s p fun r =>
      { r with sqHead := (r.sqHead + 1) % 2 ^ r.sqlog.toNat, outstanding := r.outstanding + 1, promised := r.promised + 1 }
    takeJob s p ⟨job, sheet⟩

/-- RING_FETCH_ERR (R416). -/
def ringFetchErr (s : State) (p : PartId) (e : FetchErr) : State :=
  if !mayFetch s p then s
  else
    let cause : BitVec 2 := match e with | .poisoned => 2 | _ => 1
    logViol (emit (updRingOf s p fun r => { r with stopped := true, cause := cause }) (.aer p)) p 0x0F07

/-! ### Vectors (R425) -/

/-- The host writes the mask bit of a vector: a pending vector fires when it is unmasked. -/
def vectorMask (s : State) (fn : FnId) (v : Fin 8) (m : Bool) : State :=
  if fn.val ≠ 0 ∧ 2 ≤ v.val then s
  else
    let f := s.funcs[fn]
    let s := updFunc s fn fun f => { f with mask := setBits f.mask v.val 1 (bool2nat m) }
    if f.pend.getLsbD v.val && !m then emit (updFunc s fn fun f => { f with pend := setBits f.pend v.val 1 0 }) (.msix fn v) else s

/-! ### Function level resets (R399) -/

/-- `RING_CFG` cleared: the ring is gone, and with it what waits for a free entry of it. -/
def clearRingCfg (s : State) (p : PartId) : State :=
  updRingOf s p fun r => { r with en := false, irqen := false, sqlog := 0, cqlog := 0, armed := false, outstanding := 0, promised := 0, held := [] }

/-- Every configuration register of a partition's rings (log 60). -/
def clearRings (s : State) (p : PartId) : State :=
  let s := updRingOf (clearRingCfg s p) p fun r => { r with sqBase := 0, cqBase := 0 }
  updEvt s p fun r => { r with base := 0, log := 0, en := false, irqen := false }

/-- FUNCTION_LEVEL_RESET: the partition is reset, whose completions are posted, and then the rings are cleared (R399, R422; log 60). The function's accesses
that wait in the endpoint are gone with it; the physical function's reset ends every virtual function. -/
def functionReset (s : State) (fn : FnId) : State :=
  if !s.king.pcieUp || s.king.retry then s
  else if fn ≠ 0 then
    let s := clearRingCfg (startReset s fn 2) fn
    { s with funcs := s.funcs.set fn funcReset, apt := s.apt.filter fun h => h.fn != fn }
  else
    let s := allPart.foldl (fun s p => startReset s p 2) s
    let s := allPart.foldl clearRings s
    { s with funcs := Vector.replicate 16 funcReset, apt := [], king := { s.king with vfEnable := false } }

def execJobFetch (p : PartId) (job : Line) (sheet : Option Sheet) (s : State) : Host.Outcome State Fault Refusal := .next (jobFetch s p job sheet)
def execRingFetchErr (p : PartId) (e : FetchErr) (s : State) : Host.Outcome State Fault Refusal := .next (ringFetchErr s p e)
def execMsixUnmask (fn : FnId) (v : Fin 8) (mask : Bool) (s : State) : Host.Outcome State Fault Refusal := .next (vectorMask s fn v mask)
def execFunctionLevelReset (fn : FnId) (s : State) : Host.Outcome State Fault Refusal := .next (functionReset s fn)

end Sys2Proof.Machine
end

