-- ==== Sys2Proof/Machine/Aperture.lean ====
section
/-! DEFINITION. The BAR2 aperture (R407 to R412) and what the host reaches before DEVICE_READY (R439 to R442). -/

namespace Sys2Proof.Machine

/-- The PCI Express link answers accesses of function fn at all. -/
def hostUp (s : State) (fn : FnId) : Bool := s.king.pcieUp && !s.king.retry && (serving s || fn == 0)

/-- An access of a virtual function reaches the device: the bus has set VF Enable (R399; log 86). -/
def noteVf (s : State) (fn : FnId) : State := if fn = 0 then s else { s with king := { s.king with vfEnable := true } }

/-! ### Where an access goes (R409, R410, R431) -/

/-- A run of bytes of an access: in HBM at a physical address, or in a square's scratchpad. -/
inductive AptRun where
  | hbm (seg off addr len : Nat)
  | sp (sq : SqId) (addr len : Nat)
deriving DecidableEq, Repr

/-- Linear HBM: an access may run from one segment into the next. -/
def linearRun (s : State) (p : PartId) (a len : Nat) : Option AptRun :=
  match hbmLinear s p a len with
  | some x => match stackOfAddr s x with
    | some t => if domOn s (domHbm t) then some (.hbm (a / segBytes) (a % segBytes) x len) else none
    | none => none
  | none => none

def spRun (s : State) (p : PartId) (a len : Nat) : Option AptRun :=
  if a / 0x2000000 < 64 then
    let n := sqOf (a / 0x2000000)
    if s.parts[p].own.sq.getLsbD n.val && sqOn s n then some (.sp n (a % 0x2000000) len) else none
  else none

/-- Runs of an access of `len` bytes at `a`, cut at multiples of `unit`; none when any byte is refused. -/
def cutRuns (run : Nat → Nat → Option AptRun) (unit a len : Nat) : Option (List AptRun) :=
  let first := min len (unit - a % unit)
  match run a first with
  | none => none
  | some x => if first = len then some [x] else (run (a + first) (len - first)).map fun y => [x, y]

/-- The runs that aperture bytes off to off + len reach; none where R410 or R431 refuses them. -/
def aptRuns (s : State) (p : PartId) (off len : Nat) : Option (List AptRun) :=
  let q := s.parts[p]
  if q.st = .absent ∨ 2 ^ 32 < off + len then none
  else if len = 0 then some []
  else if q.aptKind then
    if q.aptBase ≠ 0 then none else cutRuns (spRun s p) 0x2000000 off len
  else cutRuns (linearRun s p) segBytes (q.aptBase.toNat * 65536 + off) len

/-! ### Accesses in the endpoint (R407, R411, R412; log 61)

Host accesses keep their order of arrival. One to HBM acts as it comes. One to a scratchpad waits for the copy engines' phase-B turns of R64, after the
engines, one line to a bank; a write to an uncaptured page or granule waits for its capture (R353). What comes behind a waiting access waits too. -/

/-- Lines of a run in a scratchpad: square, first byte, bytes. -/
def runLines (r : AptRun) : List (SqId × Nat × Nat) :=
  match r with
  | .hbm _ _ _ _ => []
  | .sp q a n => (List.range ((a % 64 + n + 63) / 64)).map fun i =>
      let lo := max a (a / 64 * 64 + 64 * i)
      (q, lo, min (a + n) (a / 64 * 64 + 64 * (i + 1)) - lo)

/-- The engines have left the bank of this line free in one of their turns: the access takes it. -/
def hostLine (s : State) (read : Bool) (q : SqId) (a : Nat) : Option State := takeLine s (ceTurn s) read (.sp q (a / 64 * 64))

def runBytes (s : State) (r : AptRun) : List Byte :=
  match r with
  | .hbm _ _ a n => hbmBytes s a n
  | .sp q a n => memBytes s.squares[q].mem a n

/-! ### Reads (R411, R412) -/

/-- The read is answered, with the outcome of its protected reads (R412). -/
def answerRead (s : State) (fn : FnId) (rs : List AptRun) (b : List Byte) (e : Ecc) : State :=
  let sq := rs.findSome? fun r => match r with | .sp q _ _ => some q | .hbm _ _ _ _ => none
  match e with
  | .clean => emit s (.readData fn b)
  | .corrected (.hbm t) _ => emit (hbmCorrected s t (some fn)) (.readData fn b)
  | .corrected st loc => emit (match sq with | some q => sqCorrected s q st loc.toNat | none => s) (.readData fn b)
  | .uncorrected (.hbm t) loc => emit (hbmUncorrected s t (some fn) loc.toNat) (.readPoisoned fn b)
  | .uncorrected st loc => emit (match sq with | some q => sqUncorrected s q st loc.toNat | none => s) (.readPoisoned fn b)

/-- The lines that this cycle gives a read: those it still lacks, by number. -/
def hostReads (s : State) (moved : List (Nat × List Byte)) (ls : List (SqId × Nat × Nat)) : State × List (Nat × List Byte) :=
  ls.zipIdx.foldl (fun (st : State × List (Nat × List Byte)) ((q, a, n), i) =>
    if st.2.any fun m => m.1 == i then st
    else match hostLine st.1 true q a with
      | some s => (s, st.2 ++ [(i, memBytes s.squares[q].mem a n)])
      | none => st) (s, moved)

/-- A BAR2 read: its effect, and what still waits of it. -/
def serveRead (s : State) (h : HostAccess) (off len : Nat) (e : Ecc) : State × Option HostAccess :=
  let fn := h.fn
  if !hostUp s fn || !serving s then (emit s (.unsupportedRequest fn), none)
  else
    let s := noteVf s fn
    match aptRuns s fn off len with
    | none => (emit (logViol s fn 0x0F03) (.unsupportedRequest fn), none)
    | some rs =>
      let ls := rs.flatMap runLines
      if ls.isEmpty then (answerRead s fn rs (rs.flatMap (runBytes s)) e, none)
      else
        let (s, moved) := hostReads s h.moved ls
        if moved.length < ls.length then (s, some { h with moved := moved })
        else (answerRead s fn rs ((List.range ls.length).flatMap fun i => ((moved.find? fun m => m.1 == i).map (·.2)).getD []) e, none)

/-! ### Writes (R353, R411, R412) -/

/-- Enabled bytes cover whole aligned 8-byte words. -/
def wholeWords (off : Nat) (bytes : List (Option Byte)) : Bool :=
  let on := fun (i : Nat) => decide (off ≤ i) && ((bytes[i - off]?).getD none).isSome
  (List.range bytes.length).all fun k => !on (off + k) || (List.range 8).all fun j => on ((off + k) / 8 * 8 + j)

/-- Runs of enabled bytes: offset and data. -/
def enabledRuns : Nat → List (Option Byte) → List (Nat × List Byte)
  | _, [] => []
  | o, none :: r => enabledRuns (o + 1) r
  | o, some b :: r =>
    match enabledRuns (o + 1) r with
    | (x, l) :: t => if x = o + 1 then (o, b :: l) :: t else (o, [b]) :: (x, l) :: t
    | [] => [(o, [b])]

/-- The runs of a write with their bytes. -/
def writeRuns (s : State) (p : PartId) (runs : List (Nat × List Byte)) : List (AptRun × List Byte) :=
  runs.flatMap fun r => match aptRuns s p r.1 r.2.length with
    | some l => (l.foldl (fun (acc : List (AptRun × List Byte) × List Byte) x =>
        let n := match x with | .hbm _ _ _ n => n | .sp _ _ n => n
        (acc.1 ++ [(x, acc.2.take n)], acc.2.drop n)) ([], r.2)).1
    | none => []

/-- Granules of a run that an open generation has not captured (R353). -/
def runGrans (s : State) (p : PartId) (r : AptRun) : List Nat :=
  match r, s.snp[p].job with
  | .hbm seg off _ n, some j =>
    ((List.range ((off % 0x200000 + n + 0x1FFFFF) / 0x200000)).map fun i => granKey seg off + i).filter fun k => j.grans.contains k
  | _, _ => []

/-- Lines of a run in a scratchpad with the bytes for each. -/
def lineBytes (x : AptRun × List Byte) : List (SqId × Nat × List Byte) :=
  match x.1 with
  | .hbm _ _ _ _ => []
  | .sp _ a _ => (runLines x.1).map fun (q, lo, n) => (q, lo, (x.2.drop (lo - a)).take n)

/-- The lines that this cycle lets a write move: one in an uncaptured page waits for its capture. -/
def hostWrites (s : State) (p : PartId) (moved : List (Nat × List Byte)) (ls : List (SqId × Nat × List Byte)) : State × List (Nat × List Byte) :=
  ls.zipIdx.foldl (fun (st : State × List (Nat × List Byte)) ((q, a, b), i) =>
    if st.2.any fun m => m.1 == i then st
    else if st.1.squares[q].uncapt.getLsbD (a / 16384) then (wantCaptures st.1 p [q.val * 2048 + a / 16384] [], st.2)
    else match hostLine st.1 false q a with
      | some s => (padWrite s q [(a, b)], st.2 ++ [(i, [])])
      | none => st) (s, moved)

/-- A BAR2 write: its effect, and what still waits of it. -/
def serveWrite (s : State) (h : HostAccess) (off : Nat) (bytes : List (Option Byte)) (how : BusWrite) : State × Option HostAccess :=
  let fn := h.fn
  if !hostUp s fn || !serving s then (s, none)
  else
    let s := noteVf s fn
    match how with
    | .poison => (logViol (emit s (.aer fn)) fn 0x0F08, none)
    | .sound =>
      let runs := enabledRuns off bytes
      if runs.any fun r => (aptRuns s fn r.1 r.2.length).isNone then (logViol s fn 0x0F03, none)
      else if !wholeWords off bytes then (logViol s fn 0x0F04, none)
      else
        let xs := writeRuns s fn runs
        let held := xs.flatMap fun x => runGrans s fn x.1
        if !held.isEmpty then (wantCaptures s fn [] held, some h)
        else
          let s := xs.foldl (fun s x => match x.1 with | .hbm _ _ a _ => hbmWrite s fn a x.2 | .sp _ _ _ => s) s
          let ls := xs.flatMap lineBytes
          let (s, moved) := hostWrites s fn h.moved ls
          if moved.length < ls.length then (s, some { h with moved := moved }) else (s, none)

/-! ### Arrival -/

/-- The access is one to a scratchpad, which waits for its turns. -/
def padAccess (s : State) (fn : FnId) : Bool := s.parts[fn].aptKind

/-- A BAR2 access arrives: behind others, or to a scratchpad, it waits; another acts at once. -/
def bar2Arrives (s : State) (h : HostAccess) (f : State → State × Option HostAccess) : State :=
  if !s.apt.isEmpty || (hostUp s h.fn && serving s && padAccess s h.fn) then { s with apt := s.apt ++ [h] }
  else
    let (s, w) := f s
    { s with apt := w.toList }

/-- BAR2_READ. -/
def bar2Read (s : State) (fn : FnId) (off len : Nat) (e : Ecc) : State :=
  let h : HostAccess := ⟨fn, .read off len e, []⟩
  bar2Arrives s h fun s => serveRead s h off len e

/-- BAR2_WRITE. -/
def bar2Write (s : State) (fn : FnId) (off : Nat) (bytes : List (Option Byte)) (how : BusWrite) : State :=
  let h : HostAccess := ⟨fn, .write off bytes how, []⟩
  bar2Arrives s h fun s => serveWrite s h off bytes how

def execBar2Read (fn : FnId) (off len : Nat) (ecc : Ecc) (s : State) : Host.Outcome State Fault Refusal := .next (bar2Read s fn off len ecc)
def execBar2Write (fn : FnId) (off : Nat) (bytes : List (Option Byte)) (how : BusWrite) (s : State) : Host.Outcome State Fault Refusal :=
  .next (bar2Write s fn off bytes how)

end Sys2Proof.Machine
end

