-- ==== Sys2Proof/Machine/RegMap.lean ====
section
/-! DEFINITION. The register map of BAR0 and BAR4: what each register reads, and what a write of it does. -/

namespace Sys2Proof.Machine

/-! ### Registers (R8, R9, R400) -/

/-- Who sees a register (R398). -/
inductive RegAcc where
  | all
  | pf
  | own (p : PartId)
  /-- The window of a square: the partition that owns it. -/
  | sq (n : SqId)
  /-- A register of that window that the physical function alone sees. -/
  | sqPf (n : SqId)
  /-- A doorbell or vector of the accessing function itself. -/
  | self
deriving DecidableEq, Repr

/-- One register. `wr s fn new x whole` is the effect of a write: `new` is the register's value with the enabled bytes replaced, `x` the bytes as written
with zeros elsewhere, `whole` that every byte of the register (of an atomic-64 register all eight) was written. -/
structure Reg where
  acc : RegAcc
  rd : State → Nat
  wr : State → FnId → Nat → Nat → Bool → State := fun s _ _ _ _ => s
  /-- A LO/HI pair. -/
  wide : Bool := false
  atomic : Bool := false
  /-- It holds *(whole)* fields. -/
  hasWhole : Bool := false
  /-- Its rc fields: first byte, bytes, the field, and its next value put in. -/
  rc : List (Nat × Nat × HwField × (State → Nat → State)) := []
  /-- The bytes that hold a writable field: a write of others alone changes nothing (R9, R404). -/
  body : Nat := 255

def ro (a : RegAcc) (f : State → Nat) : Reg := { acc := a, rd := f }
def ro64 (a : RegAcc) (f : State → Nat) : Reg := { acc := a, rd := f, wide := true }
/-- A register of rw fields only. -/
def rw (a : RegAcc) (f : State → Nat) (g : State → FnId → Nat → State) : Reg := { acc := a, rd := f, wr := fun s fn new _ _ => g s fn new }
def rw64 (a : RegAcc) (f : State → Nat) (g : State → FnId → Nat → State) : Reg :=
  { acc := a, rd := f, wr := fun s fn new _ _ => g s fn new, wide := true }
/-- A register whose writable fields are all (whole). -/
def whole (a : RegAcc) (f : State → Nat) (g : State → FnId → Nat → State) : Reg :=
  { acc := a, rd := f, wr := fun s fn _ x w => if w then g s fn x else s, hasWhole := true }

/-- Index of an array of n registers of `size` bytes that starts at `base`. -/
def arrIx (off base size n : Nat) : Option (Fin n) :=
  if h : base ≤ off ∧ (off - base) % size = 0 ∧ (off - base) / size < n then some ⟨(off - base) / size, h.2.2⟩ else none

def masked {w : Nat} (x : BitVec w) (m : Nat) : Nat := x.toNat &&& m

/-! ### Chip blocks -/

def regKng (o : Nat) : Option Reg :=
  match o with
  | 0x00 => some (ro .all fun s => (kngStatus s).toNat)
  | 0x08 => some { acc := .pf, rd := fun s => s.king.nextBoot.toNat * 2, wr := fun s fn new _ w => kngCtlWrite s fn new w, hasWhole := true }
  | 0x10 => some (rw64 .pf (fun s => s.king.pushAddr.toNat) fun s _ new => { s with king := { s.king with pushAddr := BitVec.ofNat 64 new } })
  | 0x18 => some { acc := .pf, rd := fun s => s.king.pushLen.toNat, wr := fun s fn new _ w => pushLenWrite s fn new w, hasWhole := true }
  | _ => none

def avsReg (s : State) : Nat := (avsStatus s).toNat

def regPwr (o : Nat) : Option Reg :=
  match o with
  | 0x00 => some (ro .all fun s => (strapVal s.pins.straps).toNat)
  | 0x04 => some (ro .all fun s => (chipId s.fuses).toNat)
  | 0x08 => some (ro64 .all fun s => (sqMap s).toNat)
  | 0x10 => some (ro .all fun s => (serviceLevel s).toNat)
  | 0x20 => some (whole .pf (fun _ => 0) pwrCtl)
  | 0x24 => some (ro .pf fun s => (pwrStatus s).toNat)
  | 0x28 => some (ro64 .all fun s => (pwrState s).toNat)
  | 0x40 => some { acc := .all, rd := avsReg, rc := [(3, 1, .avsSteps, fun s k => { s with avs := { s.avs with steps := BitVec.ofNat 8 k } })] }
  | 0x50 => some (ro .all fun s => (thmStatus s).toNat)
  | 0x60 => some (rw64 .pf (fun s => s.thermal.schedAt.toNat) fun s _ new => { s with thermal := { s.thermal with schedAt := BitVec.ofNat 64 new } })
  | 0x68 => some { acc := .pf, rd := fun s => s.thermal.schedReg.toNat, wr := fun s fn new _ w => thmSchedWrite s fn new w, hasWhole := true }
  | _ => none

/-- Count as a read that crosses into the Chess domain sees it, to within one tick: which of the three is a free value (log 8). -/
def chsNow (s : State) : Nat := (s.clk.count + BitVec.ofNat 64 (Config.freeNat s.free % 3) - 1).toNat

/-- A whole write of `DEV_CHIP_CAUSE` (R229). -/
def devChipCauseClear (s : State) (x : Nat) : State := { s with tmg := { s.tmg with devCause := s.tmg.devCause &&& ~~~(BitVec.ofNat 10 (w1c s .devChipCause x)) } }

def regChs (o : Nat) : Option Reg :=
  match o with
  | 0x00 => some { acc := .all, rd := chsNow, wide := true, atomic := true }
  | 0x08 => some (ro .all fun s => (chsStatus s).toNat)
  | 0x0C => some (rw .pf (fun s => bool2nat s.clk.master + 2 * bool2nat s.clk.ppsEn) fun s _ new => chsCtlWrite s new)
  | 0x10 => some (ro .all fun s => s.clk.ppsErr.toNat)
  | 0x18 => some (ro64 .all fun s => s.clk.frameStart.toNat)
  | 0x20 => some (ro64 .pf fun s => s.tmg.devCount.toNat)
  | 0x28 => some (whole .pf (fun s => s.tmg.devCause.toNat) fun s _ x => devChipCauseClear s x)
  | 0x30 => some (ro .all fun s => (tmgChip s).toNat)
  | _ => none

/-! ### Events, faults, debug, trace -/

def regEvtRing (p : PartId) (o : Nat) : Option Reg :=
  match o with
  | 0x00 => some (rw64 (.own p) (fun s => s.rings[p].base.toNat) fun s fn new => evtBaseWrite s fn p new)
  | 0x08 => some { rw (.own p) (fun s => evtCfgReg s.rings[p]) (fun s fn new => evtCfgWrite s fn p new) with body := 3 }
  | 0x0C => some (ro (.own p) fun s => evtTailReg s.rings[p])
  | 0x10 => some (whole (.own p) (fun _ => 0) fun s fn x => evtHeadWrite s fn p x)
  | 0x14 => some { acc := .own p, rd := fun s => s.rings[p].lost.toNat, rc := [(0, 4, (.evtLost p), fun s k => updEvt s p fun r => { r with lost := BitVec.ofNat 32 k })] }
  | _ => none

def updTrc (s : State) (p : PartId) (f : Trace → Trace) : State := updPart s p fun q => { q with trc := f q.trc }

def regTrc (p : PartId) (o : Nat) : Option Reg :=
  match o with
  | 0x00 => some (rw64 (.own p) (fun s => s.parts[p].trc.base.toNat) fun s _ new => updTrc s p fun t => { t with base := BitVec.ofNat 64 (new % 2 ^ 38) })
  | 0x08 => some (rw (.own p) (fun s => trcCtlReg s.parts[p].trc) fun s fn new => trcCtlWrite s fn p new)
  | 0x0C => some (ro (.own p) fun s => trcStatReg s.parts[p].trc)
  | 0x10 => some { acc := .own p, rd := fun s => s.parts[p].trc.lost.toNat, rc := [(0, 4, (.trcLost p), fun s k => updTrc s p fun t => { t with lost := BitVec.ofNat 32 k })] }
  | _ => none

def regEvt (o : Nat) : Option Reg :=
  if o < 0x200 then regEvtRing (partOf (o / 0x20)) (o % 0x20)
  else if 0x600 ≤ o ∧ o < 0x800 then regTrc (partOf (o / 0x20)) (o % 0x20)
  else if o = 0x300 then
    some (rw .pf (fun s => s.ev.histIdx.toNat) fun s _ new => { s with ev := { s.ev with histIdx := BitVec.ofNat 12 new } })
  else match arrIx o 0x200 4 16, arrIx o 0x240 4 16, arrIx o 0x320 4 8, arrIx o 0x400 4 16 with
    | some p, _, _, _ => some (whole (.own p) (fun s => fltReg s.parts[p].flt) fun s _ x => fltWrite s p x)
    | _, some p, _, _ => some (rw (.own p) (fun s => s.parts[p].wdgLimit.toNat) fun s _ new => updPart s p fun q => { q with wdgLimit := BitVec.ofNat 16 new })
    | _, _, some k, _ => some (ro .pf fun s => histWord s k.val)
    | _, _, _, some p => some (whole (.own p) (fun s => dbgPartReg s p) fun s fn x => dbgPartWrite s fn p x)
    | _, _, _, _ => none

/-! ### Partitions, flags, copy engines, snapshots, HBM -/

def updCfg (s : State) (p : PartId) (f : PartCfg → PartCfg) : State := updPart s p fun q => { q with cfg := f q.cfg }

def regPart (o : Nat) : Option Reg :=
  if o = 0 then some (whole .pf (fun _ => 0) partCtl)
  else if o = 0x800 then some (whole .pf (fun s => s.cons.fail.toNat) fun s _ x => consWrite s x)
  else if o = 0x808 then some (ro64 .pf fun s => (consLast s).toNat)
  else if 0x100 ≤ o ∧ o < 0x500 then
    let p := partOf ((o - 0x100) / 0x40)
    match o % 0x40 with
    | 0x00 => some (rw64 .pf (fun s => s.parts[p].cfg.sq.toNat) fun s _ new => updCfg s p fun c => { c with sq := BitVec.ofNat 64 new })
    | 0x08 => some (rw64 .pf (fun s => s.parts[p].cfg.seg.toNat) fun s _ new => updCfg s p fun c => { c with seg := BitVec.ofNat 64 new })
    | 0x10 => some (rw64 .pf (fun s => s.parts[p].cfg.res.toNat) fun s _ new => updCfg s p fun c => { c with res := BitVec.ofNat 64 (new &&& 0x9F1F1FFF9FFF1FFF) })
    | 0x18 => some (rw64 .pf (fun s => s.parts[p].cfg.env.toNat) fun s _ new => updCfg s p fun c => { c with env := BitVec.ofNat 64 (new % 2 ^ 52) })
    | _ => none
  else none

def regFlg (o : Nat) : Option Reg :=
  if o = 0x300 then some (ro64 .pf fun s => s.flags.orphan.toNat)
  else match arrIx o 0 4 16, arrIx o 0x100 8 64 with
    | some p, _ => some (ro (.own p) fun s => (flgRange s p).toNat)
    | _, some n => some (ro64 .pf fun s => masked s.flags.grants[n] 0x8000FFFFFFFFFFFF)
    | _, _ => none

def regCe (o : Nat) : Option Reg :=
  (arrIx o 0 4 32).map fun n => rw .pf (fun s => s.ces[n].allot.toNat) fun s _ new => allotWrite s n new

def snpRw (p : PartId) (k : Nat) : Reg := rw (.own p) (fun s => (snpReg s p k).toNat) fun s fn new => snpWrite s fn p k (BitVec.ofNat 64 new)

def regSnp (o : Nat) : Option Reg :=
  if o < 0x400 then
    let p := partOf (o / 0x40)
    match o % 0x40 with
    | 0x00 => some (snpRw p 0)
    | 0x04 => some (snpRw p 1)
    | 0x08 => some { snpRw p 2 with wide := true }
    | 0x10 => some { snpRw p 3 with wide := true }
    | 0x18 => some { snpRw p 4 with wide := true }
    | 0x20 => some { snpRw p 5 with wide := true }
    | _ => none
  else (arrIx o 0x800 8 16).map fun p =>
    rw64 .pf (fun s => s.snp[p].hold.toNat) fun s _ new =>
      kingBuddy (updSnp s p fun n => { n with hold := BitVec.ofNat 64 (new &&& 0x80000000001FFFFF), held := Vector.replicate 2 none, send := none })

def regHbm (o : Nat) : Option Reg :=
  if o = 0 then some (ro .all fun s => (hbmStatus s).toNat)
  else (arrIx o 0x100 4 6).map fun (t : StackId) =>
    { acc := .all, rd := fun s => s.hbm.corr[t].toNat + (s.hbm.uncorr[t].toNat <<< 16)
      rc := [(0, 2, (.hbmCorr t), fun s k => { s with hbm := { s.hbm with corr := s.hbm.corr.set t (BitVec.ofNat 16 k) } }),
             (2, 1, (.hbmUncorr t), fun s k => { s with hbm := { s.hbm with uncorr := s.hbm.uncorr.set t (BitVec.ofNat 8 k) } })] }

/-! ### Links -/

def linkStNo (x : LinkSt) : Nat :=
  match x with
  | .off => 0 | .idle => 1 | .train => 2 | .ident => 3 | .time => 4 | .up => 5 | .closing => 6 | .down => 7 | .miswired => 8

/-- `LNK_STATE[l]`. -/
def linkStateReg (s : State) (k : Link) : Nat :=
  linkStNo k.st + (bool2nat k.rate <<< 4) + (bool2nat (strictLink s k) <<< 5) + (bool2nat k.strictOk <<< 6) + (bool2nat k.tsrc <<< 7)
    + (k.npos.toNat <<< 8) + (k.nlink.toNat <<< 16) + (k.d.toNat <<< 20)

/-- A whole write of `LNK_CTL[l]`. -/
def linkCtlWrite (s : State) (l : LinkId) (x : Nat) : State :=
  let s := if x.testBit 0 then retrainLink s l else s
  if x.testBit 1 then closeLink s l else s

/-- A write of `LNK_MATCH`: locked during a launch; HEAD decides STRICT_OK of every measured link (R290, R298). -/
def matchWrite (s : State) (fn : FnId) (new : Nat) : State :=
  if anyLaunched s then regPriv s fn
  else
    let s := { s with mtch := { s.mtch with reg := BitVec.ofNat 32 (new &&& 0xFFF3FFFF) } }
    { s with links := s.links.map fun (k : Link) => if k.timed then { k with strictOk := strictOkOf s k } else k }

def regLink (l : LinkId) (o : Nat) : Option Reg :=
  match o with
  | 0x00 => some (ro .all fun s => linkStateReg s s.links[l])
  | 0x10 => some { acc := .pf, wide := true
                   rd := fun s => s.links[l].corr.toNat + (s.links[l].uncorr.toNat <<< 32) + (s.links[l].retry.toNat <<< 48)
                   rc := [(0, 4, (.linkFec l 0), fun s k => updLink s l fun x => { x with corr := BitVec.ofNat 32 k }), (4, 2, (.linkFec l 1), fun s k => updLink s l fun x => { x with uncorr := BitVec.ofNat 16 k }),
                          (6, 2, (.linkFec l 2), fun s k => updLink s l fun x => { x with retry := BitVec.ofNat 16 k })] }
  | 0x18 => some (whole .pf (fun _ => 0) fun s _ x => linkCtlWrite s l x)
  | _ => match arrIx o 0x100 4 19, arrIx o 0x200 8 32, arrIx o 0x400 8 32, arrIx o 0x500 4 32 with
    | some k, _, _, _ => some (ro .pf fun s => masked s.links[l].slot[k] 0x8000003F)
    | _, some c, _, _ => some (ro64 .pf fun s => masked s.links[l].ch[c] 0x3FFFFFF)
    | _, _, some c, _ => some (ro64 .pf fun s => masked s.links[l].irt[c] (2 ^ 60 - 1))
    | _, _, _, some c => some (ro .pf fun s => masked s.links[l].irs[c] 0x3FFFFFF)
    | _, _, _, _ => none

/-- Register k of `LNK_MAP`: bytes 4k to 4k + 3 (R296). -/
def linkMapReg (s : State) (k : Nat) : Nat := (List.range 4).foldl (fun a i => a + (((s.mtch.map[4 * k + i]?).getD 0).toNat <<< (8 * i))) 0
def linkMapWrite (s : State) (k new : Nat) : State :=
  { s with mtch := { s.mtch with map := (List.range 4).foldl (fun m i => m.setIfInBounds (4 * k + i) (BitVec.ofNat 8 (new >>> (8 * i)))) s.mtch.map } }

def regLnk (o : Nat) : Option Reg :=
  if h : o / 0x1000 < 12 then regLink ⟨o / 0x1000, h⟩ (o % 0x1000)
  else match o with
    | 0xC000 => some (rw .pf (fun s => s.mtch.reg.toNat) matchWrite)
    | 0xC004 => some (rw .pf (fun s => s.mtch.matchId.toNat) fun s _ new => { s with mtch := { s.mtch with matchId := BitVec.ofNat 32 new } })
    | 0xC008 => some (rw .pf (fun s => s.mtch.second.toNat) fun s _ new =>
        kingBuddy { s with mtch := { s.mtch with second := BitVec.ofNat 32 (new &&& 0x8000FFFF) } })
    | _ => (arrIx o 0xC100 4 64).map fun k => rw .pf (fun s => linkMapReg s k.val) fun s _ new => linkMapWrite s k.val new

/-! ### Serving engines, Lungo -/

def srvRw (p : PartId) (k : Nat) : Reg := rw (.own p) (fun s => (srvReg s p k).toNat) fun s fn new => srvHostWrite s fn p k (BitVec.ofNat 64 new)

def srvBlock (p : PartId) (o : Nat) : Option Reg :=
  match o with
  | 0x00 => some (srvRw p 0)
  | 0x04 => some (srvRw p 1)
  | 0x48 => some { srvRw p 10 with
      rc := [(0, 1, (.srvCnt p 0), fun s k => updSrv s p fun v => { v with overrun := BitVec.ofNat 8 k }), (1, 1, (.srvCnt p 1), fun s k => updSrv s p fun v => { v with bookFull := BitVec.ofNat 8 k }),
             (2, 1, (.srvCnt p 2), fun s k => updSrv s p fun v => { v with collide := BitVec.ofNat 8 k }), (3, 1, (.srvCnt p 3), fun s k => updSrv s p fun v => { v with repFull := BitVec.ofNat 8 k })] }
  | _ => if o % 8 = 0 ∧ o < 0x48 then some { srvRw p (o / 8 + 1) with wide := true } else none

/-- A write of `SRV_TURN[e][i]` (R374). -/
def turnWrite (s : State) (k : Fin 48) (new : Nat) : State := admPick { s with turns := s.turns.set k (BitVec.ofNat 32 (new &&& 0x800000F3)) }

def regSrv (o : Nat) : Option Reg :=
  if o < 0x1000 then srvBlock (partOf (o / 0x100)) (o % 0x100)
  else (arrIx o 0x1000 4 48).map fun k => rw .pf (fun s => s.turns[k].toNat) fun s _ new => turnWrite s k new

def regLgo (o : Nat) : Option Reg :=
  if o = 0x40 then some (ro .all fun s => (lgoStatus s).toNat)
  else (arrIx o 0 4 16).map fun p =>
    rw (.own p) (fun s => let q := s.parts[p]; q.lgoLevel.toNat + (q.lgoQuality.toNat <<< 4) + (q.lgoLatched.toNat <<< 8)) fun s _ new =>
      updPart s p fun q => { q with lgoLevel := BitVec.ofNat 3 new, lgoQuality := BitVec.ofNat 4 (new / 16) }

/-! ### Squares -/

def sqStNo (x : SqSt) : Nat :=
  match x with
  | .idle => 0 | .loaded => 1 | .running => 2 | .stalled => 3 | .halted => 4 | .done => 5 | .fault => 6

/-- `SQ_STATUS`. -/
def sqStatus (c : Core) : Nat := sqStNo c.st + (if c.st = .stalled then c.stall.toNat <<< 3 else 0) + (c.idx.toNat <<< 8)

/-- `SB_STATUS`. -/
def sbStatus (q : Square) : Nat := (List.finRange 33).foldl (fun a (i : Fin 33) => a + (bool2nat q.sb[i].isSome <<< i.val)) 0

/-- Fold state and status with what the fold unit holds folded in. -/
def settledMx (s : State) (n : SqId) : FoldRes := foldSettle s.squares[n].mx (sqClass22 s n) (nowCc s)

/-- A whole write of `FP_STATUS` (R131): the images that arrive in this cycle have still to enter, and set their flags after it (R157, R405). -/
def fpClear (s : State) (n : SqId) (x : Nat) : State :=
  updSq s n fun q => { q with fp := q.fp &&& ~~~(BitVec.ofNat 6 (w1c s (.fpStatus n) x)) }

/-- A whole write of `MX_FOLD[n]` (R155). -/
def foldClear (s : State) (n : SqId) (k : Fin 2) (x : Nat) : State :=
  if (w1c s (.fold n k) x).testBit 25 then updSq s n fun q => { q with mx := { q.mx with fold := q.mx.fold.set k { q.mx.fold[k] with exceeded := false } } } else s

/-- `CHN_STAT[n]`. -/
def chnStat (e : Endpoint) : Nat :=
  e.credits.toNat + (min 31 e.held.length <<< 8) + (bool2nat e.sreset <<< 16) + (bool2nat e.refused <<< 17) + (e.lastCode.toNat <<< 18)

/-- A whole write of `CHN_STAT[n]`: ones clear SRESET and REFUSED. -/
def chnStatClear (s : State) (n : SqId) (e : Fin 32) (x : Nat) : State :=
  let x := w1c s (.chnStat n e) x
  updEp s n e fun c => { c with sreset := c.sreset && !x.testBit 16, refused := c.refused && !x.testBit 17 }

/-- `MC_STATUS`. -/
def mcStatus (m : Mc) : Nat := m.current.val + (bool2nat m.busy <<< 6) + (min 255 m.pending.length <<< 8) + (m.aborts.toNat <<< 16)

/-- `SPM_ECC`. -/
def spmEcc (q : Square) : Nat := q.eccCorr.toNat + (q.eccUncorr.toNat <<< 16) + (q.eccBank.toNat <<< 24)

def sqReg (n : SqId) (f : Square → Nat) : Reg := ro (.sq n) fun s => f s.squares[n]
def sqReg64 (n : SqId) (f : Square → Nat) : Reg := ro64 (.sq n) fun s => f s.squares[n]

/-- Single registers of a square's window. -/
def regSqOne (n : SqId) (o : Nat) : Option Reg :=
  match o with
  | 0x00 => some (sqReg n fun q => sqStatus q.core)
  | 0x08 => some (sqReg64 n fun q => q.core.plyCount.toNat)
  | 0x20 => some { acc := .sq n, rd := fun s => spmEcc s.squares[n]
                   rc := [(0, 2, (.spmCorr n), fun s k => updSq s n fun q => { q with eccCorr := BitVec.ofNat 16 k }), (2, 1, (.spmUncorr n), fun s k => updSq s n fun q => { q with eccUncorr := BitVec.ofNat 8 k })] }
  | 0x28 => some (sqReg64 n sbStatus)
  | 0x30 => some (whole (.sq n) (fun s => (s.squares[n].fp ||| (settledMx s n).fp).toNat) fun s _ x => fpClear s n x)
  | 0x40 => some (whole (.sq n) (fun s => foldReg (settledMx s n).mx.fold[(0 : Fin 2)]) fun s _ x => foldClear s n 0 x)
  | 0x44 => some (whole (.sq n) (fun s => foldReg (settledMx s n).mx.fold[(1 : Fin 2)]) fun s _ x => foldClear s n 1 x)
  | 0x50 => some { acc := .sq n, rd := fun s => mcStatus s.squares[n].mc
                   rc := [(2, 1, (.mcAborts n), fun s k => updMc s n fun m => { m with aborts := BitVec.ofNat 8 k })] }
  | 0x60 => some (sqReg64 n fun q => q.cupSeen.toNat)
  | 0x68 => some (sqReg64 n fun q => q.cupAdmit.toNat)
  | 0x70 => some { acc := .sq n, rd := fun s => dbgCtlReg s.squares[n].dbg, wr := fun s _ new x w => dbgCtlWrite s n new x w, hasWhole := true }
  | 0x78 => some (rw64 (.sq n) (fun s => s.squares[n].dbg.plyBrk.toNat) fun s _ new =>
      updSq s n fun q => { q with dbg := { q.dbg with plyBrk := BitVec.ofNat 64 new } })
  | 0x200 => some (sqReg n fun q => whenHalted q (predByte q.core.p))
  | _ => none

/-- Entry of a handle's four registers. -/
def hdlReg (h : Handle) (k : Nat) : Nat :=
  match k with
  | 0 => masked h.base 0x1FFFFC0
  | 1 => masked h.len 0x3FFFFC0
  | 2 => masked h.ctl 0x1FF
  | _ => h.count.toNat

/-- Arrays of a square's window below the handles. -/
def regSqArr (n : SqId) (o : Nat) : Option Reg :=
  match arrIx o 0x100 8 32, arrIx o 0x400 4 256, arrIx o 0x800 8 32, arrIx o 0x900 4 32 with
  | some i, _, _, _ => some (sqReg64 n fun q => whenHalted q q.core.s[i].toNat)
  | _, some k, _, _ => some (ro (.sq n) fun s => let q := s.squares[n]; whenHalted q (field (q.core.v[q.dbg.vsel].toNat % 2 ^ (8 * vBytes s)) (32 * k.val) 32))
  | _, _, some e, _ => some (sqReg64 n fun q => masked q.eps[e].route (2 ^ 60 - 1))
  | _, _, _, some e => some (sqReg n fun q => masked q.eps[e].outc 0x3FFFFFF)
  | _, _, _, _ =>
    match arrIx o 0x980 4 32, arrIx o 0xA00 4 32, arrIx o 0xB00 4 64, arrIx o 0xC00 4 96 with
    | some e, _, _, _ => some (sqReg n fun q => masked q.eps[e].inc 0x803FFFFF)
    | _, some e, _, _ => some (whole (.sq n) (fun s => chnStat s.squares[n].eps[e]) fun s _ x => chnStatClear s n e x)
    | _, _, some k, _ => some (sqReg n fun q => masked q.hnd[k] 0x80FF1FFF)
    | _, _, _, some k => some (ro (.sqPf n) fun s => masked s.squares[n].slots[k] 0x80001FFF)
    | _, _, _, _ => (arrIx o 0xE00 4 16).map fun w => sqReg n fun q => masked q.watch[w] 0x800FFFFF

def regSq (n : SqId) (o : Nat) : Option Reg :=
  if 0x4000 ≤ o ∧ o < 0x8000 then
    match o % 16 with
    | 0 => some (sqReg64 n fun q => (sget 0 q.recipes ((o - 0x4000) / 16)).toNat % 2 ^ 23)
    | 8 => some (sqReg64 n fun q => (sget 0 q.recipes ((o - 0x4000) / 16)).toNat / 2 ^ 64)
    | _ => none
  else if 0x1000 ≤ o ∧ o < 0x2000 then some (sqReg n fun q => hdlReg (hdlOf q ((o - 0x1000) / 16)) (o % 16 / 4))
  else match regSqOne n o with
    | some r => some r
    | none => regSqArr n o

/-! ### Partition windows -/

/-- A whole write of `FLG_HOSTSET` in the window of p (R190). -/
def hostSet (s : State) (fn : FnId) (p : PartId) (x : Nat) : State :=
  let f := field x 0 13
  if !inRange s p f then regPriv s fn
  else if !domOn s domEngine then s
  else writeFlag s (flagOf f) (x.testBit 16) (nowCc s) (rankHost fn) none

/-- `DEV_FIRST`. -/
def devFirst (d : Dev) : Nat :=
  d.firstCause.toNat + (d.firstSq.toNat <<< 4) + (bool2nat d.firstNosq <<< 10) + (bool2nat d.firstValid <<< 11) + (d.firstStamp.toNat <<< 16)

/-- A whole write of `DEV_CAUSE` (R232). -/
def devCauseClear (s : State) (p : PartId) (x : Nat) : State :=
  let x := w1c s (.devCause p) x
  updPart s p fun q => { q with dev := { q.dev with cause := q.dev.cause &&& ~~~(BitVec.ofNat 10 x), broken := q.dev.broken && !x.testBit 31 } }

/-- A whole write of `DEV_CTL`. -/
def devClear (s : State) (p : PartId) (x : Nat) : State :=
  if x.testBit 0 then updPart s p fun q => { q with dev := { q.dev with count := 0 } } else s

def regWin (p : PartId) (o : Nat) : Option Reg :=
  let part := fun (f : Part → Nat) => fun (s : State) => f s.parts[p]
  match o with
  | 0x000 => some (ro (.own p) (part fun q => (partStatus q).toNat))
  | 0x004 => some { acc := .own p, rd := part fun q => q.epochDrop.toNat + (q.blzOver.toNat <<< 16)
                    rc := [(0, 2, (.epochDrop p), fun s k => updPart s p fun q => { q with epochDrop := BitVec.ofNat 16 k }), (2, 2, (.blzOver p), fun s k => updPart s p fun q => { q with blzOver := BitVec.ofNat 16 k })] }
  | 0x100 => some (rw64 (.own p) (part fun q => q.ring.sqBase.toNat) fun s fn new => ringBaseWrite s fn p false new)
  | 0x108 => some (rw64 (.own p) (part fun q => q.ring.cqBase.toNat) fun s fn new => ringBaseWrite s fn p true new)
  | 0x110 => some { rw (.own p) (part fun q => ringCfgReg q.ring) (fun s fn new => ringCfgWrite s fn p new) with body := 7 }
  | 0x114 => some (ro (.own p) (part fun q => ringStatusReg q.ring))
  | 0x118 => some (ro (.own p) (part fun q => q.ring.cqTail + (bool2nat q.ring.phase <<< 16)))
  | 0x11C => some (ro (.own p) (part fun q => q.ring.outstanding % 65536 + ((q.ring.promised % 65536) <<< 16)))
  | 0x120 => some { acc := .own p, rd := part fun q => q.violReg.toNat + (q.violRing.toNat <<< 16) + (q.violKick.toNat <<< 24)
                    rc := [(0, 2, (.viol p 0), fun s k => updPart s p fun q => { q with violReg := BitVec.ofNat 16 k }), (2, 1, (.viol p 1), fun s k => updPart s p fun q => { q with violRing := BitVec.ofNat 8 k }),
                           (3, 1, (.viol p 2), fun s k => updPart s p fun q => { q with violKick := BitVec.ofNat 8 k })] }
  | 0x500 => some (whole (.own p) (fun _ => 0) fun s fn x => hostSet s fn p x)
  | 0x600 => some { rw (.own p) (part fun q => (tmgCtlValue q).toNat) (fun s fn new => tmgWrite s fn p new) with body := 1 }
  | 0x608 => some (ro64 (.own p) (part fun q => q.dev.count.toNat))
  | 0x610 => some (whole (.own p) (part fun q => q.dev.cause.toNat + (bool2nat q.dev.broken <<< 31)) fun s _ x => devCauseClear s p x)
  | 0x618 => some (ro64 (.own p) (part fun q => devFirst q.dev))
  | 0x620 => some (whole (.own p) (fun _ => 0) fun s _ x => devClear s p x)
  | 0x700 => some (rw64 (.own p) (part fun q => bool2nat q.aptKind + (q.aptBase.toNat <<< 16)) fun s _ new =>
      updPart s p fun q => { q with aptKind := new.testBit 0, aptBase := BitVec.ofNat 48 (new / 65536) })
  | _ => none

/-! ### The two BARs (R397) -/

def regBar0 (off : Nat) : Option Reg :=
  if off < 0x100000 then
    let o := off % 0x10000
    match off / 0x10000 with
    | 0x0 => regKng o
    | 0x1 => regPwr o
    | 0x2 => regChs o
    | 0x3 => regEvt o
    | 0x4 => regPart o
    | 0x5 => regFlg o
    | 0x6 => regCe o
    | 0x7 => regSnp o
    | 0x8 => regHbm o
    | 0xA => regLnk o
    | 0xC => regSrv o
    | 0xE => regLgo o
    | _ => none
  else if off < 0x500000 then regSq (sqOf (off / 0x10000 - 16)) (off % 0x10000)
  else if 0x1000000 ≤ off ∧ off < 0x2000000 then regWin (partOf (off / 0x100000 - 16)) (off % 0x100000)
  else none

/-- Entry v of a function's MSI-X table, in the layout of PCI Express. -/
def regVector (fn : FnId) (v : Fin 8) (o : Nat) : Option Reg :=
  let put := fun (s : State) (f : Word64 × Word32 → Word64 × Word32) => updFunc s fn fun x => { x with table := x.table.set v (f x.table[v]) }
  if fn.val ≠ 0 ∧ 2 ≤ v.val then none
  else match o with
    | 0x0 => some (rw64 .self (fun s => s.funcs[fn].table[v].1.toNat) fun s _ new => put s fun t => (BitVec.ofNat 64 (new / 4 * 4), t.2))
    | 0x8 => some (rw .self (fun s => s.funcs[fn].table[v].2.toNat) fun s _ new => put s fun t => (t.1, BitVec.ofNat 32 new))
    | _ => some (rw .self (fun s => bool2nat (s.funcs[fn].mask.getLsbD v.val)) fun s _ new => vectorMask s fn v (new.testBit 0))

/-- Doorbells, MSI-X table, pending bits. -/
def regBar4 (fn : FnId) (off : Nat) : Option Reg :=
  if off = 0 then some { whole .self (fun _ => 0) (fun s f x => sqDbWrite s f fn x) with wide := true, atomic := true }
  else if off = 8 then some { whole .self (fun _ => 0) (fun s f x => cqDbWrite s f fn x) with wide := true, atomic := true }
  else if off = 0xC000 then some (ro64 .self fun s => s.funcs[fn].pend.toNat)
  else if h : 0x8000 ≤ off ∧ (off - 0x8000) / 16 < 8 then regVector fn ⟨(off - 0x8000) / 16, h.2⟩ (off % 16)
  else none

end Sys2Proof.Machine
end

