-- ==== Sys2Proof/Machine/Access.lean ====
section
/-! DEFINITION. Register access (R398, R400 to R407): how a host read or write is classified and split, what each register receives, and every
command of the table that is one access. -/

namespace Sys2Proof.Machine

/-! ### One register (R398, R402 to R404) -/

/-- A square's window is dark: it is fused, or its rank is GATED or FAILED (R430). -/
def windowDark (s : State) (n : SqId) : Bool :=
  sqFused s n || (let d := s.power.dom[domRank (rankIx n)]; d == .gated || d == .failed)

/-- Function fn reads the register as the physical function does. -/
def seen (s : State) (fn : FnId) (a : RegAcc) : Bool :=
  fn == 0 || match a with
    | .all => true
    | .pf => false
    | .own p => p == fn
    | .sq n => s.parts[fn].st != .absent && s.parts[fn].own.sq.getLsbD n.val
    | .sqPf _ => false
    | .self => true

/-- It may write it. -/
def writable (s : State) (fn : FnId) (a : RegAcc) : Bool := seen s fn a && (fn == 0 || a != .all)

/-- The square in whose window the register stands. -/
def squareOf (a : RegAcc) : Option SqId := match a with | .sq n => some n | .sqPf n => some n | _ => none
def dark (s : State) (a : RegAcc) : Bool := match squareOf a with | some n => windowDark s n | none => false
/-- The window of a fused square is as reserved addresses are, to every function (R5). -/
def fusedAway (s : State) (a : RegAcc) : Bool := match squareOf a with | some n => sqFused s n | none => false

/-- Bytes of a register. -/
def regBytes (r : Reg) : Nat := if r.wide then 8 else 4

/-- A write of the enabled bytes `be` of a register: `x` holds them in place. -/
def writeReg (s : State) (fn : FnId) (r : Reg) (be x : Nat) : State :=
  let n := regBytes r
  let be := be % 2 ^ n
  let full := be == 2 ^ n - 1
  if be = 0 ∨ fusedAway s r.acc then s
  else if !writable s fn r.acc then regPriv s fn
  else if dark s r.acc || be &&& r.body == 0 then s
  else if r.atomic && !full then regAccess s fn
  else
    let m := byteMask n be
    let old := r.rd s
    let x := x &&& m
    let s := if r.hasWhole && !full then regAccess s fn else s
    r.wr s fn ((old - (old &&& m)) ||| x) x full

/-- The value of a register as a read shows it: an rc field without the increments of this cycle (R405). -/
def shownValue (s : State) (r : Reg) : Nat :=
  r.rc.foldl (fun v (lo, n, f, _) => v - (field v (8 * lo) (8 * n) <<< (8 * lo)) + (rcShown s f (field v (8 * lo) (8 * n)) <<< (8 * lo))) (r.rd s)

/-- A read clears the rc fields that `hit` chooses; what the hardware has counted in this cycle opens the new count (R405). -/
def clearRc (s : State) (r : Reg) (hit : Nat → Nat → Bool) : State :=
  r.rc.foldl (fun s (lo, n, f, put) => if hit lo n then rcOpened (put s (rcLeft s f n)) f else s) s

/-- A read of the bytes `be` covers an rc field. -/
def rcCovered (be lo n : Nat) : Bool := field be lo n == 2 ^ n - 1
/-- It covers one in part. -/
def rcPartly (r : Reg) (be : Nat) : Bool := r.rc.any fun (lo, n, _, _) => field be lo n != 0 && !rcCovered be lo n

/-- A read of the bytes `be` of a register: the value its bytes show. `held` is the latched value of this register when the access may use it; `at_` is
the latch key of a LO/HI pair in BAR0. -/
def readReg (s : State) (fn : FnId) (r : Reg) (be : Nat) (held : Option Word64) (at_ : Option Nat) : State × Nat :=
  let n := regBytes r
  let be := be % 2 ^ n
  if be = 0 ∨ !seen s fn r.acc ∨ dark s r.acc then (s, 0)
  else if r.atomic then
    if be = 255 then ({ s with free := s.free + 1 }, r.rd s) else (regAccess s fn, 0)
  else
    let v := shownValue s r
    let hiOnly := r.wide && be % 16 == 0
    match (if hiOnly then held else none) with
    | some w => (s, w.toNat)
    | none =>
      if r.wide && be == 15 then
        let s := clearRc s r fun _ _ => true
        (match at_ with
          | some k => updFunc s fn fun x => { x with latch := some (k, BitVec.ofNat 64 v) }
          | none => s, v)
      else
        let s := if rcPartly r be then regAccess s fn else s
        (clearRc s r (rcCovered be), v)

/-! ### One aligned unit of 8 bytes (R401, R404) -/

def regAt (fn : FnId) (bar : Bar) (off : Nat) : Option Reg := match bar with | .bar0 => regBar0 off | .bar4 => regBar4 fn off

/-- What is served before DEVICE_READY (R439, R442), and of a device whose firmware has stopped (log 91). -/
def servedEarly (s : State) (bar : Bar) (off : Nat) : Bool :=
  match bar with
  | .bar0 => decide (off < 0x20000) || (decide (off = 0x20000) && !s.king.romOnly && !s.king.deviceReady)
  | .bar4 => false

def regHere (s : State) (fn : FnId) (bar : Bar) (off : Nat) : Option Reg :=
  if serving s || servedEarly s bar off then regAt fn bar off else none

/-- Write of the bytes `be` of the unit at `u`, `x` holding them in place. -/
def writeUnit (s : State) (fn : FnId) (bar : Bar) (u be x : Nat) : State :=
  match regHere s fn bar u with
  | some r =>
    if r.wide then writeReg s fn r be x
    else
      let s := writeReg s fn r (be % 16) (x % 2 ^ 32)
      match regHere s fn bar (u + 4) with
      | some h => writeReg s fn h (be / 16) (x / 2 ^ 32)
      | none => s
  | none => match regHere s fn bar (u + 4) with
    | some h => if h.wide then s else writeReg s fn h (be / 16) (x / 2 ^ 32)
    | none => s

/-- Read of the bytes `be` of the unit at `u`. -/
def readUnit (s : State) (fn : FnId) (bar : Bar) (u be : Nat) (latch : Option (Nat × Word64)) : State × Nat :=
  let key := match bar with | .bar0 => some u | .bar4 => none
  let held := match latch with | some (k, v) => if key = some k then some v else none | none => none
  match regHere s fn bar u with
  | some r =>
    if r.wide then readReg s fn r be held key
    else
      let (s, a) := readReg s fn r (be % 16) none none
      match regHere s fn bar (u + 4) with
      | some h => let (s, b) := readReg s fn h (be / 16) none none; (s, a % 2 ^ 32 + (b <<< 32))
      | none => (s, a % 2 ^ 32)
  | none => match regHere s fn bar (u + 4) with
    | some h => if h.wide then (s, 0) else let (s, b) := readReg s fn h (be / 16) none none; (s, b <<< 32)
    | none => (s, 0)

/-! ### Whole accesses (R401, R412) -/

/-- A BAR0 access of a function other than the one just made forgets its latch (R403). -/
def dropLatch (s : State) (fn : FnId) (bar : Bar) : State :=
  match bar with
  | .bar0 => updFunc s fn fun f => { f with latch := none }
  | .bar4 => s

/-- A host write to BAR0 or BAR4 acts. -/
def writeNow (s : State) (fn : FnId) (bar : Bar) (off : Nat) (bytes : List (Option Byte)) (poisoned : Bool) : State :=
  if !hostUp s fn then s
  else
    let s := dropLatch (noteVf s fn) fn bar
    if poisoned then logViol (emit s (.aer fn)) fn 0x0F08
    else match spanOf off (bytes.map Option.isSome) with
      | none => s
      | some sp =>
        if sp.bad then regAccess s fn
        else (unitsOf sp).foldl (fun s u => writeUnit s fn bar u (unitMask sp u) (unitData off u bytes)) s

/-- A host read of BAR0 or BAR4 acts: the bytes from the first to the last enabled one, or Unsupported Request. -/
def readNow (s : State) (fn : FnId) (bar : Bar) (off : Nat) (en : List Bool) : State :=
  if !hostUp s fn then emit s (.unsupportedRequest fn)
  else
    let latch := s.funcs[fn].latch
    let s := dropLatch (noteVf s fn) fn bar
    match spanOf off en with
    | none => emit s (.readData fn [])
    | some sp =>
      if sp.bad then emit (regAccess s fn) (.unsupportedRequest fn)
      else
        let us := unitsOf sp
        let latch := if us.length = 1 then latch else none
        let (s, data) := us.foldl (fun (acc : State × List Byte) u =>
          let m := unitMask sp u
          let (t, v) := readUnit acc.1 fn bar u m latch
          (t, acc.2 ++ (((natLe 8 v).zipIdx).filter fun x => m.testBit x.2).map (·.1))) (s, [])
        emit s (.readData fn data)

/-- A host write to BAR0 or BAR4: behind the accesses that wait in the endpoint, if there are any (R407; log 61). -/
def barWrite (s : State) (fn : FnId) (bar : Bar) (off : Nat) (bytes : List (Option Byte)) (poisoned : Bool) : State :=
  if s.apt.isEmpty then writeNow s fn bar off bytes poisoned else { s with apt := s.apt ++ [⟨fn, .regWrite bar off bytes poisoned, []⟩] }

/-- A host read of BAR0 or BAR4, likewise. -/
def barRead (s : State) (fn : FnId) (bar : Bar) (off : Nat) (en : List Bool) : State :=
  if s.apt.isEmpty then readNow s fn bar off en else { s with apt := s.apt ++ [⟨fn, .regRead bar off en, []⟩] }

/-! ### The accesses that wait in the endpoint (R407, R412) -/

/-- One of them: its effect, and what still waits of it. -/
def serveAccess (s : State) (h : HostAccess) : State × Option HostAccess :=
  match h.acc with
  | .read off len e => serveRead s h off len e
  | .write off bytes how => serveWrite s h off bytes how
  | .regRead bar off en => (readNow s h.fn bar off en, none)
  | .regWrite bar off bytes poisoned => (writeNow s h.fn bar off bytes poisoned, none)
  | .srvWrite p k new => (srvHostWrite s h.fn p k new, none)

/-- In the order of arrival, until one has to go on waiting. -/
def serveList : List HostAccess → State → State
  | [], s => s
  | h :: r, s =>
    let (s, w) := serveAccess s h
    if w.isNone && s.apt.isEmpty then serveList r s else { s with apt := w.toList ++ s.apt ++ r }

/-- What a core cycle does for the accesses that wait: it comes after the commands of the cycle, the copy engines among them. -/
def serveApt (s : State) : State := serveList s.apt { s with apt := [] }

/-! ### Commands of the table that are one access -/

def write32 (s : State) (off : Nat) (w : RegWr) : State := barWrite s w.fn .bar0 off (writeBytes w 4) false
def write64 (s : State) (off : Nat) (w : RegWr) : State := barWrite s w.fn .bar0 off (writeBytes w 8) false
def writeDb (s : State) (off : Nat) (w : RegWr) : State := barWrite s w.fn .bar4 off (writeBytes w 8) false
def read32 (s : State) (off : Nat) (r : RegRd) : State := barRead s r.fn .bar0 off (readBytes r 4)
def read64 (s : State) (off : Nat) (r : RegRd) : State := barRead s r.fn .bar0 off (readBytes r 8)

def execFlgHostset (p : PartId) (w : RegWr) (s : State) : Host.Outcome State Fault Refusal := .next (write32 s (partWindow p + 0x500) w)
def execTmgCtlWrite (p : PartId) (w : RegWr) (s : State) : Host.Outcome State Fault Refusal := .next (write32 s (partWindow p + 0x600) w)
def execClear (p : PartId) (w : RegWr) (s : State) : Host.Outcome State Fault Refusal := .next (write32 s (partWindow p + 0x620) w)
def execDevCauseWrite (p : PartId) (w : RegWr) (s : State) : Host.Outcome State Fault Refusal := .next (write32 s (partWindow p + 0x610) w)
def execDevChipCauseWrite (w : RegWr) (s : State) : Host.Outcome State Fault Refusal := .next (write32 s 0x20028 w)
def execFpStatusWrite (sq : SqId) (w : RegWr) (s : State) : Host.Outcome State Fault Refusal := .next (write32 s (sqWindow sq + 0x30) w)
def execMxFoldWrite (sq : SqId) (n : Fin 2) (w : RegWr) (s : State) : Host.Outcome State Fault Refusal :=
  .next (write32 s (sqWindow sq + 0x40 + 4 * n.val) w)
def execChnStatWrite (sq : SqId) (n : Fin 32) (w : RegWr) (s : State) : Host.Outcome State Fault Refusal :=
  .next (write32 s (sqWindow sq + 0xA00 + 4 * n.val) w)
def execRetrain (l : LinkId) (w : RegWr) (s : State) : Host.Outcome State Fault Refusal := .next (write32 s (linkWindow l + 0x18) w)
def execClose (l : LinkId) (w : RegWr) (s : State) : Host.Outcome State Fault Refusal := .next (write32 s (linkWindow l + 0x18) w)
def execLnkMatchWrite (w : RegWr) (s : State) : Host.Outcome State Fault Refusal := .next (write32 s 0xAC000 w)
def execSrvCtlWrite (p : PartId) (reg : Fin 10) (w : RegWr) (s : State) : Host.Outcome State Fault Refusal :=
  .next (write64 s (0xC0000 + 0x100 * p.val + 8 * reg.val) w)
def execSnpCtlWrite (p : PartId) (reg : Fin 8) (w : RegWr) (s : State) : Host.Outcome State Fault Refusal :=
  .next (write64 s (0x70000 + 0x40 * p.val + 8 * reg.val) w)
def execSet (w : RegWr) (s : State) : Host.Outcome State Fault Refusal := .next (write32 s 0x40000 w)
def execReset (w : RegWr) (s : State) : Host.Outcome State Fault Refusal := .next (write32 s 0x40000 w)
def execDestroy (w : RegWr) (s : State) : Host.Outcome State Fault Refusal := .next (write32 s 0x40000 w)
def execCeAllotWrite (n : CeId) (w : RegWr) (s : State) : Host.Outcome State Fault Refusal := .next (write32 s (0x60000 + 4 * n.val) w)
def execConsStatusWrite (w : RegWr) (s : State) : Host.Outcome State Fault Refusal := .next (write32 s 0x40800 w)
def execRegisterWrite (fn : FnId) (bar : Bar) (off : Nat) (bytes : List (Option Byte)) (poisoned : Bool) (s : State) : Host.Outcome State Fault Refusal :=
  .next (barWrite s fn bar off bytes poisoned)
def execRingCfgWrite (p : PartId) (w : RegWr) (s : State) : Host.Outcome State Fault Refusal := .next (write32 s (partWindow p + 0x110) w)
def execSqDb (w : RegWr) (s : State) : Host.Outcome State Fault Refusal := .next (writeDb s 0 w)
def execCqDb (w : RegWr) (s : State) : Host.Outcome State Fault Refusal := .next (writeDb s 8 w)
def execCqArm (w : RegWr) (s : State) : Host.Outcome State Fault Refusal := .next (writeDb s 8 w)
def execGate (w : RegWr) (s : State) : Host.Outcome State Fault Refusal := .next (write32 s 0x10020 w)
def execUngate (w : RegWr) (s : State) : Host.Outcome State Fault Refusal := .next (write32 s 0x10020 w)
def execGo (w : RegWr) (s : State) : Host.Outcome State Fault Refusal := .next (write32 s 0x18 w)
def execThmArm (w : RegWr) (s : State) : Host.Outcome State Fault Refusal := .next (write32 s 0x10068 w)
def execFltPartWrite (p : PartId) (w : RegWr) (s : State) : Host.Outcome State Fault Refusal := .next (write32 s (0x30200 + 4 * p.val) w)
def execEvtCfgWrite (p : PartId) (w : RegWr) (s : State) : Host.Outcome State Fault Refusal := .next (write32 s (0x30008 + 0x20 * p.val) w)
def execEvtHeadWrite (p : PartId) (w : RegWr) (s : State) : Host.Outcome State Fault Refusal := .next (write32 s (0x30010 + 0x20 * p.val) w)
def execEvtHistIdxWrite (w : RegWr) (s : State) : Host.Outcome State Fault Refusal := .next (write32 s 0x30300 w)
def execDbgCtlWrite (sq : SqId) (w : RegWr) (s : State) : Host.Outcome State Fault Refusal := .next (write32 s (sqWindow sq + 0x70) w)
def execHalt (p : PartId) (w : RegWr) (s : State) : Host.Outcome State Fault Refusal := .next (write32 s (0x30400 + 4 * p.val) w)
def execResume (p : PartId) (w : RegWr) (s : State) : Host.Outcome State Fault Refusal := .next (write32 s (0x30400 + 4 * p.val) w)
def execStep (p : PartId) (w : RegWr) (s : State) : Host.Outcome State Fault Refusal := .next (write32 s (0x30400 + 4 * p.val) w)
def execTrcCtlWrite (p : PartId) (w : RegWr) (s : State) : Host.Outcome State Fault Refusal := .next (write32 s (0x30608 + 0x20 * p.val) w)
def execSpmEccRead (sq : SqId) (r : RegRd) (s : State) : Host.Outcome State Fault Refusal := .next (read32 s (sqWindow sq + 0x20) r)
def execMcStatusRead (sq : SqId) (r : RegRd) (s : State) : Host.Outcome State Fault Refusal := .next (read32 s (sqWindow sq + 0x50) r)
def execSrvCntRead (p : PartId) (r : RegRd) (s : State) : Host.Outcome State Fault Refusal := .next (read32 s (0xC0048 + 0x100 * p.val) r)
def execPartCntRead (p : PartId) (r : RegRd) (s : State) : Host.Outcome State Fault Refusal := .next (read32 s (partWindow p + 4) r)
def execHstViolRead (p : PartId) (r : RegRd) (s : State) : Host.Outcome State Fault Refusal := .next (read32 s (partWindow p + 0x120) r)
def execLnkFecRead (l : LinkId) (r : RegRd) (s : State) : Host.Outcome State Fault Refusal := .next (read64 s (linkWindow l + 0x10) r)
def execHbmEccRead (t : StackId) (r : RegRd) (s : State) : Host.Outcome State Fault Refusal := .next (read32 s (0x80100 + 4 * t.val) r)
def execAvsStatusRead (r : RegRd) (s : State) : Host.Outcome State Fault Refusal := .next (read32 s 0x10040 r)
def execEvtLostRead (p : PartId) (r : RegRd) (s : State) : Host.Outcome State Fault Refusal := .next (read32 s (0x30014 + 0x20 * p.val) r)
def execTrcLostRead (p : PartId) (r : RegRd) (s : State) : Host.Outcome State Fault Refusal := .next (read32 s (0x30610 + 0x20 * p.val) r)
def execRegisterRead (fn : FnId) (bar : Bar) (off : Nat) (be : List Bool) (s : State) : Host.Outcome State Fault Refusal := .next (barRead s fn bar off be)

/-- CHIPRST (R437): through `KNG_CTL`, or by an MCTP request, a Hot Reset or the loss of the PCI Express link. -/
def chipRst (s : State) (c : ChipRstCause) : State :=
  match c with
  | .kngCtl w => write32 s 0x08 w
  | .mctp => chipRstEvent s true
  | .pcieHotReset => if s.king.pcieUp then chipRstEvent s false else s
  | .pcieLinkDown => if s.king.pcieUp then { chipRstEvent s false with king := { (chipRstEvent s false).king with pcieUp := false } } else s

def execChiprst (c : ChipRstCause) (s : State) : Host.Outcome State Fault Refusal := .next (chipRst s c)

end Sys2Proof.Machine
end

