-- ==== Sys2Proof/Machine/Dispatch.lean ====
section
/-! DEFINITION. One arm for each command: the call of its meaning. -/

namespace Sys2Proof.Machine

def exec (i : Instr) (s : State) : Host.Outcome State Fault Refusal :=
  match i with
  | .plyIssue sq ecc => Sys2Proof.Machine.execPlyIssue sq ecc s
  | .operationLanding sq => Sys2Proof.Machine.execOperationLanding sq s
  | .storeCommit sq => Sys2Proof.Machine.execStoreCommit sq s
  | .throttleFrozenCycle sq => Sys2Proof.Machine.execThrottleFrozenCycle sq s
  | .waitTimeout sq ecc => Sys2Proof.Machine.execWaitTimeout sq ecc s
  | .squareHalt sq => Sys2Proof.Machine.execSquareHalt sq s
  | .enterDone sq => Sys2Proof.Machine.execEnterDone sq s
  | .mcInstructionIssue sq ecc => Sys2Proof.Machine.execMcInstructionIssue sq ecc s
  | .handlerDispatch sq => Sys2Proof.Machine.execHandlerDispatch sq s
  | .handlerAbort sq => Sys2Proof.Machine.execHandlerAbort sq s
  | .meshLineRead sq ecc => Sys2Proof.Machine.execMeshLineRead sq ecc s
  | .flitDepart sq ep net ecc => Sys2Proof.Machine.execFlitDepart sq ep net ecc s
  | .meshFlitCommit sq => Sys2Proof.Machine.execMeshFlitCommit sq s
  | .creditReturn sq ep => Sys2Proof.Machine.execCreditReturn sq ep s
  | .cflagEffect sq => Sys2Proof.Machine.execCflagEffect sq s
  | .flagViewUpdate sq flag ecc => Sys2Proof.Machine.execFlagViewUpdate sq flag ecc s
  | .flgHostset p w => Sys2Proof.Machine.execFlgHostset p w s
  | .copyDescriptorStart p cls => Sys2Proof.Machine.execCopyDescriptorStart p cls s
  | .copyBeat n reads => Sys2Proof.Machine.execCopyBeat n reads s
  | .copyLanding n k => Sys2Proof.Machine.execCopyLanding n k s
  | .refreshSlot t => Sys2Proof.Machine.execRefreshSlot t s
  | .adaptiveRefresh t => Sys2Proof.Machine.execAdaptiveRefresh t s
  | .hbmTempRead temps => Sys2Proof.Machine.execHbmTempRead temps s
  | .chessClockStart => Sys2Proof.Machine.execChessClockStart s
  | .frameCounterStart => Sys2Proof.Machine.execFrameCounterStart s
  | .refLost => Sys2Proof.Machine.execRefLost s
  | .refBack => Sys2Proof.Machine.execRefBack s
  | .refExpired => Sys2Proof.Machine.execRefExpired s
  | .ppsEdge => Sys2Proof.Machine.execPpsEdge s
  | .chessClockStep => Sys2Proof.Machine.execChessClockStep s
  | .launchSignal p => Sys2Proof.Machine.execLaunchSignal p s
  | .launchCycle p => Sys2Proof.Machine.execLaunchCycle p s
  | .barrierLaunch sq => Sys2Proof.Machine.execBarrierLaunch sq s
  | .launchEnd p => Sys2Proof.Machine.execLaunchEnd p s
  | .strictAnyChange => Sys2Proof.Machine.execStrictAnyChange s
  | .tmgCtlWrite p w => Sys2Proof.Machine.execTmgCtlWrite p w s
  | .clear p w => Sys2Proof.Machine.execClear p w s
  | .devCauseWrite p w => Sys2Proof.Machine.execDevCauseWrite p w s
  | .devChipCauseWrite w => Sys2Proof.Machine.execDevChipCauseWrite w s
  | .fpStatusWrite sq w => Sys2Proof.Machine.execFpStatusWrite sq w s
  | .mxFoldWrite sq n w => Sys2Proof.Machine.execMxFoldWrite sq n w s
  | .chnStatWrite sq n w => Sys2Proof.Machine.execChnStatWrite sq n w s
  | .lgoRailMove => Sys2Proof.Machine.execLgoRailMove s
  | .lgoRailSettled => Sys2Proof.Machine.execLgoRailSettled s
  | .rankRailSwitch r => Sys2Proof.Machine.execRankRailSwitch r s
  | .lgoDroopAlarm => Sys2Proof.Machine.execLgoDroopAlarm s
  | .droopCapLift => Sys2Proof.Machine.execDroopCapLift s
  | .frameTransmit l => Sys2Proof.Machine.execFrameTransmit l s
  | .linkFlitHandoff l => Sys2Proof.Machine.execLinkFlitHandoff l s
  | .dataFrame l low high => Sys2Proof.Machine.execDataFrame l low high s
  | .trainFrame l payload equalised => Sys2Proof.Machine.execTrainFrame l payload equalised s
  | .adaptFrame l => Sys2Proof.Machine.execAdaptFrame l s
  | .linkLanding l c => Sys2Proof.Machine.execLinkLanding l c s
  | .linkTrainStart l => Sys2Proof.Machine.execLinkTrainStart l s
  | .linkUp l => Sys2Proof.Machine.execLinkUp l s
  | .linkTimeExchange l t => Sys2Proof.Machine.execLinkTimeExchange l t s
  | .lnkDown l => Sys2Proof.Machine.execLnkDown l s
  | .retrain l w => Sys2Proof.Machine.execRetrain l w s
  | .close l w => Sys2Proof.Machine.execClose l w s
  | .linkGate l => Sys2Proof.Machine.execLinkGate l s
  | .lnkMatchWrite w => Sys2Proof.Machine.execLnkMatchWrite w s
  | .copyBeatForward l => Sys2Proof.Machine.execCopyBeatForward l s
  | .remoteCopyBeatWrite l => Sys2Proof.Machine.execRemoteCopyBeatWrite l s
  | .remoteCopyLanding e k => Sys2Proof.Machine.execRemoteCopyLanding e k s
  | .srvCtlWrite p reg w => Sys2Proof.Machine.execSrvCtlWrite p reg w s
  | .servingEnable p => Sys2Proof.Machine.execServingEnable p s
  | .startupScanDone p ecc => Sys2Proof.Machine.execStartupScanDone p ecc s
  | .servingDisable p => Sys2Proof.Machine.execServingDisable p s
  | .frameBoundary p ecc => Sys2Proof.Machine.execFrameBoundary p ecc s
  | .samplerStep p ecc => Sys2Proof.Machine.execSamplerStep p ecc s
  | .snpCtlWrite p reg w => Sys2Proof.Machine.execSnpCtlWrite p reg w s
  | .sealSignal p => Sys2Proof.Machine.execSealSignal p s
  | .sealCycle p => Sys2Proof.Machine.execSealCycle p s
  | .haltTimeout p => Sys2Proof.Machine.execHaltTimeout p s
  | .drainComplete p => Sys2Proof.Machine.execDrainComplete p s
  | .drainTimeout p => Sys2Proof.Machine.execDrainTimeout p s
  | .cremaPauseEnd e => Sys2Proof.Machine.execCremaPauseEnd e s
  | .pageCapture p ecc => Sys2Proof.Machine.execPageCapture p ecc s
  | .buddyBeat p => Sys2Proof.Machine.execBuddyBeat p s
  | .buddyBeatReceive l p g => Sys2Proof.Machine.execBuddyBeatReceive l p g s
  | .buddyAck l p => Sys2Proof.Machine.execBuddyAck l p s
  | .set w => Sys2Proof.Machine.execSet w s
  | .reset w => Sys2Proof.Machine.execReset w s
  | .destroy w => Sys2Proof.Machine.execDestroy w s
  | .partOpComplete p => Sys2Proof.Machine.execPartOpComplete p s
  | .ceAllotWrite n w => Sys2Proof.Machine.execCeAllotWrite n w s
  | .conservationCheck => Sys2Proof.Machine.execConservationCheck s
  | .consStatusWrite w => Sys2Proof.Machine.execConsStatusWrite w s
  | .functionLevelReset fn => Sys2Proof.Machine.execFunctionLevelReset fn s
  | .registerWrite fn bar off bytes poisoned => Sys2Proof.Machine.execRegisterWrite fn bar off bytes poisoned s
  | .bar2Read fn off len ecc => Sys2Proof.Machine.execBar2Read fn off len ecc s
  | .bar2Write fn off bytes how => Sys2Proof.Machine.execBar2Write fn off bytes how s
  | .ringCfgWrite p w => Sys2Proof.Machine.execRingCfgWrite p w s
  | .sqDb w => Sys2Proof.Machine.execSqDb w s
  | .cqDb w => Sys2Proof.Machine.execCqDb w s
  | .cqArm w => Sys2Proof.Machine.execCqArm w s
  | .jobFetch p job sheet => Sys2Proof.Machine.execJobFetch p job sheet s
  | .ringFetchErr p e => Sys2Proof.Machine.execRingFetchErr p e s
  | .msixUnmask fn v mask => Sys2Proof.Machine.execMsixUnmask fn v mask s
  | .gate w => Sys2Proof.Machine.execGate w s
  | .ungate w => Sys2Proof.Machine.execUngate w s
  | .domainGated d => Sys2Proof.Machine.execDomainGated d s
  | .domainReady d ok => Sys2Proof.Machine.execDomainReady d ok s
  | .powerOnReset e => Sys2Proof.Machine.execPowerOnReset e s
  | .pinReset => Sys2Proof.Machine.execPinReset s
  | .resetNRise straps => Sys2Proof.Machine.execResetNRise straps s
  | .chiprst c => Sys2Proof.Machine.execChiprst c s
  | .thermalTrip sensor deg => Sys2Proof.Machine.execThermalTrip sensor deg s
  | .firmwareStart src ver => Sys2Proof.Machine.execFirmwareStart src ver s
  | .go w => Sys2Proof.Machine.execGo w s
  | .hbmTrainDone t ok => Sys2Proof.Machine.execHbmTrainDone t ok s
  | .deviceReady => Sys2Proof.Machine.execDeviceReady s
  | .romRecoveryTimeout => Sys2Proof.Machine.execRomRecoveryTimeout s
  | .mctpRequest r => Sys2Proof.Machine.execMctpRequest r s
  | .avsLoopTick below lowest => Sys2Proof.Machine.execAvsLoopTick below lowest s
  | .avsNoack => Sys2Proof.Machine.execAvsNoack s
  | .avsMismatch readBack => Sys2Proof.Machine.execAvsMismatch readBack s
  | .avsAlert e => Sys2Proof.Machine.execAvsAlert e s
  | .thermalLadder sensor deg => Sys2Proof.Machine.execThermalLadder sensor deg s
  | .thmArm w => Sys2Proof.Machine.execThmArm w s
  | .scheduledThrottleStart => Sys2Proof.Machine.execScheduledThrottleStart s
  | .sqWdog sq => Sys2Proof.Machine.execSqWdog sq s
  | .kingWdog => Sys2Proof.Machine.execKingWdog s
  | .fltPartWrite p w => Sys2Proof.Machine.execFltPartWrite p w s
  | .evtCfgWrite p w => Sys2Proof.Machine.execEvtCfgWrite p w s
  | .evtHeadWrite p w => Sys2Proof.Machine.execEvtHeadWrite p w s
  | .evtHistIdxWrite w => Sys2Proof.Machine.execEvtHistIdxWrite w s
  | .dbgCtlWrite sq w => Sys2Proof.Machine.execDbgCtlWrite sq w s
  | .breakBroadcast sq => Sys2Proof.Machine.execBreakBroadcast sq s
  | .halt p w => Sys2Proof.Machine.execHalt p w s
  | .resume p w => Sys2Proof.Machine.execResume p w s
  | .step p w => Sys2Proof.Machine.execStep p w s
  | .trcCtlWrite p w => Sys2Proof.Machine.execTrcCtlWrite p w s
  | .spmEccRead sq r => Sys2Proof.Machine.execSpmEccRead sq r s
  | .mcStatusRead sq r => Sys2Proof.Machine.execMcStatusRead sq r s
  | .srvCntRead p r => Sys2Proof.Machine.execSrvCntRead p r s
  | .partCntRead p r => Sys2Proof.Machine.execPartCntRead p r s
  | .hstViolRead p r => Sys2Proof.Machine.execHstViolRead p r s
  | .lnkFecRead l r => Sys2Proof.Machine.execLnkFecRead l r s
  | .hbmEccRead t r => Sys2Proof.Machine.execHbmEccRead t r s
  | .avsStatusRead r => Sys2Proof.Machine.execAvsStatusRead r s
  | .evtLostRead p r => Sys2Proof.Machine.execEvtLostRead p r s
  | .trcLostRead p r => Sys2Proof.Machine.execTrcLostRead p r s
  | .registerRead fn bar off be => Sys2Proof.Machine.execRegisterRead fn bar off be s
  | .scoresheetLoaded p => Sys2Proof.Machine.execScoresheetLoaded p s
  | .snapshotRestoreDone p => Sys2Proof.Machine.execSnapshotRestoreDone p s
  | .admissionDecision p blitz ecc => Sys2Proof.Machine.execAdmissionDecision p blitz ecc s
  | .flagGrant g => Sys2Proof.Machine.execFlagGrant g s
  | .bootSpiFail => Sys2Proof.Machine.execBootSpiFail s
  | .bootPushFail => Sys2Proof.Machine.execBootPushFail s
  | .pcieLinkUp => Sys2Proof.Machine.execPcieLinkUp s

end Sys2Proof.Machine
end

