-- ==== Sys2Proof/Machine/Step.lean ====
section
/-! DEFINITION. One step: the command at the front of the queue, or on an empty queue the accesses that wait in the endpoint and one cycle of the core
clock (logs 5 and 61). -/

namespace Sys2Proof.Machine

/-- Take the front command with the rest of the queue; with no command waiting the endpoint serves what it can and the clocks run for one core cycle. -/
def step (s : State) : Host.Outcome State Fault Refusal :=
  match s.pending with
  | [] => .next (coreTick (serveApt s))
  | c :: r => exec c { s with pending := r }

/-- No row of the table has bits, so no word spells a command and the state is unchanged. -/
def State.withFetchWord (s : State) (nbits w : Nat) : State :=
  match decodeTableWord nbits w with
  | some c => { s with pending := c :: s.pending }
  | none => s

end Sys2Proof.Machine
end

