-- ==== Sys2Proof/Safety.lean ====
section
/-! DEFINITION. The words in which claims about the machine are said: what a command answers, what of the state stays as it was, when a square issues,
which states are well kept, and what a safe run is. Nothing here is part of the machine. -/

namespace Sys2Proof.Machine

/-! ### Answers and runs -/

/-- Command c ends at s in a next state of which P holds. -/
def Answers (c : Instr) (s : State) (P : State → Prop) : Prop := ∃ t, exec c s = .next t ∧ P t

/-- Commands given one after another. -/
def afterAll (cs : List Instr) (s : State) : Option State :=
  match cs with
  | [] => some s
  | c :: r => match exec c s with
    | .next t => afterAll r t
    | _ => none

/-- A run is safe when no step of it stops: every command waiting is taken, whatever it meets. -/
def SafeStep (s : State) : Prop := ∃ t, step s = .next t

/-! ### What stays -/

/-- Every square but n is as it was. -/
def OtherSquares (n : SqId) (s t : State) : Prop := ∀ m : SqId, m ≠ n → t.squares[m] = s.squares[m]

/-- Every byte of the scratchpad of q reads as before. -/
def SameScratchpad (q r : Square) : Prop := ∀ a, memByte r.mem a = memByte q.mem a

/-- Every byte of HBM reads as before. -/
def SameHbm (s t : State) : Prop := ∀ a, memByte t.hbm.mem a = memByte s.hbm.mem a

/-- The registers that a ply names, and the ply index and the count, are as they were. -/
def SameRegisters (c d : Core) : Prop :=
  d.s = c.s ∧ d.p = c.p ∧ d.v = c.v ∧ d.rails = c.rails ∧ d.idx = c.idx ∧ d.plyCount = c.plyCount

/-- What is in flight is as it was. -/
def SameFlight (c d : Core) : Prop := d.flight = c.flight ∧ d.loads = c.loads ∧ d.stores = c.stores ∧ d.u = c.u

/-! ### The ply in front of a square (R36, R48, R79) -/

/-- The state in which the ply in front is tested: the break test made, what is due landed. -/
def atIssue (s : State) (n : SqId) : State := begun (testTag s n (plyAt s.squares[n])) n

/-- Square n has a cycle in which a ply stands in front of it and does not halt it. -/
def inFront (s : State) (n : SqId) : Bool :=
  sqReady s n && !frozen s && !missedA s n && s.squares[n].core.empty == 0 && !s.squares[n].core.ending
    && !haltsHere (testTag s n (plyAt s.squares[n])).squares[n].core (plyAt s.squares[n])

/-- The ply in front meets none of the stall cases of R48. -/
def issuesNow (s : State) (n : SqId) : Bool :=
  inFront s n && (let t := testIssue (atIssue s n) n; !t.sb && t.pages.isEmpty && !t.waits)

/-- The ply in front is held in this cycle. -/
def heldNow (s : State) (n : SqId) : Bool :=
  inFront s n && (let t := testIssue (atIssue s n) n; t.sb || !t.pages.isEmpty || (t.waits && !t.timedOut))

/-- The index that follows the ply in front: its branch target, or the next (R39, R40). -/
def nextIdx (s : State) (n : SqId) : BitVec 13 :=
  let c := (atIssue s n).squares[n].core
  let p := plyAt s.squares[n]
  if branchTaken p.s c.s c.p then branchTarget p.s else c.idx + 1

/-! ### Host accesses -/

/-- Function fn's accesses are served, and at once: no earlier access waits in the endpoint (R407, log 61). -/
def served (s : State) (fn : FnId) : Bool := hostUp s fn && serving s && s.apt.isEmpty

/-- The physical function, or the function of partition p itself, is served and p exists. -/
def servedOwn (s : State) (fn : FnId) (p : PartId) : Bool := served s fn && (fn == 0 || fn == p)

/-- Function fn is served in the window of square n (R398, R430). -/
def servedSq (s : State) (fn : FnId) (n : SqId) : Bool :=
  served s fn && !windowDark s n && (fn == 0 || (s.parts[fn].st != .absent && s.parts[fn].own.sq.getLsbD n.val))

/-- A write of all four bytes of a register; of all eight. -/
def full4 (w : RegWr) : Bool := w.be == 0x0F
def full8 (w : RegWr) : Bool := w.be == 0xFF
def fullRd4 (r : RegRd) : Bool := r.be == 0x0F

/-- The completion ring of partition p has a free entry, and nothing waits for one: what is posted next is written at once (R422). -/
def ringRoom (s : State) (p : PartId) : Bool := s.parts[p].ring.held.isEmpty && decide (0 < cqFree s.parts[p].ring)

/-- The hardware has written no status in this cycle, so that what a host write or read of it clears stays clear (R405). -/
def quietCycle (s : State) : Bool := s.ev.hw.isEmpty

/-- The 32 bits that such a write carries. -/
def word (w : RegWr) : Nat := w.data.toNat % 2 ^ 32

/-- What was written to the outside after s. -/
def Emitted (s t : State) (o : Output) : Prop := o ∈ t.out.drop s.out.length

/-! ### Well-kept states -/

/-- Every byte memory of a square is in canonical form, the copy that phase A reads too. -/
def squareMemOk (q : Square) : Bool := Memory.wf q.mem && Memory.wf q.memA && Memory.wf q.mc.mem

/-- Every byte memory of the chip is in canonical form: scratchpads, message-core memories, HBM. -/
def MemoriesOk (s : State) : Prop := Memory.wf s.hbm.mem = true ∧ ∀ n : SqId, squareMemOk s.squares[n] = true

/-- Each square belongs to at most one partition, an absent partition has none, and no fused square has an owner (R3, R16, R365). -/
def SquaresApart (s : State) : Prop :=
  (∀ p : PartId, s.parts[p].st = .absent → s.parts[p].own.sq = 0) ∧ (∀ p q : PartId, p ≠ q → s.parts[p].own.sq &&& s.parts[q].own.sq = 0)
    ∧ ∀ p : PartId, s.parts[p].own.sq &&& ~~~sqMap s = 0

end Sys2Proof.Machine
end

