-- ==== Sys2Proof/WellFormed.lean ====
section
/-! DEFINITION. Well-formed commands: the checks of the operands that the types do not make. A command that fails one has a meaning all the same
(`exec` is total); it is not a spelling of its row: a write that enables bytes outside its register, a `PART_CTL` write called SET without OP 1, an access
outside its BAR, a LAUNCH without the sheet it reads. -/

namespace Sys2Proof

open Sys2Proof.Machine (bar0Size bar2Size bar4Size)

/-- The enabled bytes lie inside a register of n bytes (R400). -/
def wrWithin (n : Nat) (w : RegWr) : Bool := decide (w.be.toNat < 2 ^ n)
def rdWithin (n : Nat) (r : RegRd) : Bool := decide (r.be.toNat < 2 ^ n)

/-- A register of 4 or of 8 bytes is written whole (R8, R402). -/
def wrWhole (n : Nat) (w : RegWr) : Bool := decide (w.be.toNat = 2 ^ n - 1)

/-- The field of `width` bits at `lo` of a write holds `x`. -/
def wrField (w : RegWr) (lo width x : Nat) : Bool := decide (field w.data.toNat lo width = x)

/-- `PART_CTL` with this OP (R368). -/
def partOp (w : RegWr) (op : Nat) : Bool := wrWhole 4 w && wrField w 4 2 op
/-- `PWR_CTL` with this OP (R429). -/
def pwrOp (w : RegWr) (op : Nat) : Bool := wrWhole 4 w && wrField w 5 2 op
/-- `DBG_PART[p]` with this one bit of HALT, RESUME and STEP (R472, R474). -/
def dbgOp (w : RegWr) (x : Nat) : Bool := wrWhole 4 w && wrField w 0 3 x

def barSize (b : Bar) : Nat := match b with | .bar0 => bar0Size | .bar4 => bar4Size

/-- No two entries of a list share a key. -/
def keysOnce {α : Type} (l : List α) (key : α → Nat) : Bool := decide ((l.map key).Nodup)

/-- A scoresheet lays out each square, each link and each table entry at most once. -/
def sheetOk (s : Sheet) : Bool :=
  keysOnce s.squares (·.sq.val) && keysOnce s.links (·.link.val) && keysOnce s.flags (·.1.val) && decide s.segments.Nodup
  && s.squares.all (fun q => keysOnce q.recipes (·.1) && keysOnce q.handles (·.n.val) && keysOnce q.outs (·.1.val) && keysOnce q.ins (·.1.val)
      && keysOnce q.handlers (·.1.val) && keysOnce q.watches (·.1.val) && keysOnce q.slots (fun x => 16 * x.1.val + x.2.1.val))
  && s.links.all fun l => keysOnce l.slots (·.1.val) && keysOnce l.chans (·.1.val) && keysOnce l.ingress (·.1.val)

/-- A LAUNCH job (R418, R420): TYPE 1 with the LOAD bit in OP; it alone comes with a sheet. -/
def jobLoads (job : Line) : Bool := decide (bits job 455 448 = 1) && bit job 0

/-- The checks of one command. -/
def WellFormed (i : Instr) : Bool :=
  match i with
  | .plyIssue _ _ | .operationLanding _ | .storeCommit _ | .throttleFrozenCycle _ | .waitTimeout _ _ | .squareHalt _ | .enterDone _
  | .mcInstructionIssue _ _ | .handlerDispatch _ | .handlerAbort _ | .meshLineRead _ _ | .flitDepart _ _ _ _ | .meshFlitCommit _
  | .creditReturn _ _ | .cflagEffect _ | .flagViewUpdate _ _ _ | .copyDescriptorStart _ _ | .copyBeat _ _ | .refreshSlot _
  | .adaptiveRefresh _ | .hbmTempRead _ | .chessClockStart | .frameCounterStart | .refLost | .refBack | .refExpired | .ppsEdge
  | .chessClockStep | .launchSignal _ | .launchCycle _ | .barrierLaunch _ | .launchEnd _ | .strictAnyChange | .lgoRailMove
  | .lgoRailSettled | .rankRailSwitch _ | .lgoDroopAlarm | .droopCapLift | .frameTransmit _ | .linkFlitHandoff _ | .dataFrame _ _ _
  | .trainFrame _ _ _ | .adaptFrame _ | .linkLanding _ _ | .linkTrainStart _ | .linkUp _ | .linkTimeExchange _ _ | .lnkDown _
  | .linkGate _ | .copyBeatForward _ | .remoteCopyBeatWrite _ | .servingEnable _ | .startupScanDone _ _ | .servingDisable _
  | .frameBoundary _ _ | .samplerStep _ _ | .sealSignal _ | .sealCycle _ | .haltTimeout _ | .drainComplete _ | .drainTimeout _
  | .cremaPauseEnd _ | .pageCapture _ _ | .buddyBeat _ | .buddyBeatReceive _ _ _ | .buddyAck _ _ | .partOpComplete _ | .conservationCheck | .functionLevelReset _
  | .ringFetchErr _ _ | .domainGated _ | .domainReady _ _ | .powerOnReset _ | .pinReset | .resetNRise _ | .thermalTrip _ _
  | .firmwareStart _ _ | .hbmTrainDone _ _ | .deviceReady | .romRecoveryTimeout | .mctpRequest _ | .avsLoopTick _ _ | .avsNoack
  | .avsMismatch _ | .avsAlert _ | .thermalLadder _ _ | .scheduledThrottleStart | .sqWdog _ | .kingWdog | .breakBroadcast _
  | .scoresheetLoaded _ | .snapshotRestoreDone _ | .admissionDecision _ _ _ | .bootSpiFail | .bootPushFail | .pcieLinkUp => true
  -- parts of one descriptor: at most one per 64 bytes of 64 squares' worth of destinations (R91, R96)
  | .copyLanding _ k => decide (k < 4096)
  | .remoteCopyLanding e k => decide (k < 4096) && (match e with | .sender _ => true | .destination ld => decide (ld < 2 ^ 64))
  -- registers of 4 bytes
  | .flgHostset _ w => wrWithin 4 w
  | .tmgCtlWrite _ w => wrWithin 4 w
  | .devCauseWrite _ w => wrWithin 4 w
  | .devChipCauseWrite w => wrWithin 4 w
  | .fpStatusWrite _ w => wrWithin 4 w
  | .mxFoldWrite _ _ w => wrWithin 4 w
  | .chnStatWrite _ _ w => wrWithin 4 w
  | .lnkMatchWrite w => wrWithin 4 w
  | .ceAllotWrite _ w => wrWithin 4 w
  | .consStatusWrite w => wrWithin 4 w
  | .ringCfgWrite _ w => wrWithin 4 w
  | .fltPartWrite _ w => wrWithin 4 w
  | .evtCfgWrite _ w => wrWithin 4 w
  | .evtHeadWrite _ w => wrWithin 4 w
  | .evtHistIdxWrite w => wrWithin 4 w
  | .dbgCtlWrite _ w => wrWithin 4 w
  | .trcCtlWrite _ w => wrWithin 4 w
  -- every byte enable of these lies in a register or pair
  | .srvCtlWrite _ _ _ | .snpCtlWrite _ _ _ | .sqDb _ | .cqDb _ => true
  -- writes that carry the row's operation
  | .clear _ w => wrWhole 4 w && w.data.getLsbD 0
  | .retrain _ w => wrWhole 4 w && w.data.getLsbD 0
  | .close _ w => wrWhole 4 w && w.data.getLsbD 1
  | .set w => partOp w 1
  | .reset w => partOp w 2
  | .destroy w => partOp w 3
  | .cqArm w => wrWhole 8 w && w.data.getLsbD 16
  | .gate w => pwrOp w 1
  | .ungate w => pwrOp w 2
  | .chiprst c => match c with
    | .kngCtl w => wrWhole 4 w && w.data.getLsbD 0
    | .mctp | .pcieHotReset | .pcieLinkDown => true
  | .go w => wrWhole 4 w && w.data.getLsbD 31
  | .thmArm w => wrWhole 4 w && w.data.getLsbD 8
  | .halt _ w => dbgOp w 1
  | .resume _ w => dbgOp w 2
  | .step _ w => dbgOp w 4
  -- reads of one register
  | .spmEccRead _ r => rdWithin 4 r
  | .mcStatusRead _ r => rdWithin 4 r
  | .srvCntRead _ r => rdWithin 4 r
  | .partCntRead _ r => rdWithin 4 r
  | .hstViolRead _ r => rdWithin 4 r
  | .lnkFecRead _ r => rdWithin 8 r
  | .hbmEccRead _ r => rdWithin 4 r
  | .avsStatusRead r => rdWithin 4 r
  | .evtLostRead _ r => rdWithin 4 r
  | .trcLostRead _ r => rdWithin 4 r
  -- accesses inside their BAR (R397)
  | .registerWrite _ bar off bytes _ => decide (0 < bytes.length) && decide (off + bytes.length ≤ barSize bar)
  | .registerRead _ bar off be => decide (0 < be.length) && decide (off + be.length ≤ barSize bar)
  | .bar2Read _ off len _ => decide (0 < len) && decide (off + len ≤ bar2Size)
  | .bar2Write _ off bytes _ => decide (0 < bytes.length) && decide (off + bytes.length ≤ bar2Size)
  -- what arrives from outside
  | .jobFetch _ job sheet => match sheet with
    | some sh => jobLoads job && sheetOk sh
    | none => !jobLoads job
  | .msixUnmask fn v _ => decide (fn = 0) || decide (v.val < 2)
  | .flagGrant g => decide (field g.value.toNat 48 15 = 0)

end Sys2Proof
end

