-- ==== Sys2Proof/Certificates/Slice0/Obligations.lean ====
section
/-! DEFINITION. The statements for the provers: what the commands of the chip do, from the rules of spec/. `Answers c s P` says that command c ends at s in a
next state of which P holds. -/

open Sys2Proof Sys2Proof.Machine

/-! ### The machine (log 5) -/

/-- A step with a command in front is that command on the state with the rest of the queue. -/
def Obligations.StepRunsFrontCommand : Prop :=
  ∀ (s : State) (c : Instr) (r : List Instr), s.pending = c :: r → step s = exec c { s with pending := r }

/-- A step with no command waiting is one core cycle (log 5, the model's choice): with the frame counter running, the count stands where the ratio lock of
R235 puts it, 4 ct per 7 cc on Onildun-M and 5 ct per 8 cc on Onildun-V; what the hardware wrote is no longer of this cycle (log 99), and a partition whose reset began in
it goes on to its scrub (log 36). With no image in a fold unit and no host access waiting in the endpoint (log 61) nothing else moves. -/
def Obligations.EmptyQueueRunsOneCycle : Prop :=
  ∀ s : State, s.pending = [] → s.apt = [] → s.clk.frameOn = true → (∀ n : SqId, s.squares[n].mx.foldIn = []) →
    ∃ t, step s = .next t
      ∧ t = { s with clk := { s.clk with cc := s.clk.cc + 1, count := t.clk.count }
                     ev := { s.ev with hw := [] }
                     parts := s.parts.map fun (q : Part) => if q.st = .quiescing then { q with st := .scrubbing } else q }
      ∧ (s.fuses.variant = .m → t.clk.count = s.clk.frameStart + BitVec.ofNat 64 ((s.clk.cc + 1 - s.clk.base) * 4 / 7))
      ∧ (s.fuses.variant = .v → t.clk.count = s.clk.frameStart + BitVec.ofNat 64 ((s.clk.cc + 1 - s.clk.base) * 5 / 8))

/-! ### The square (02) -/

/-- PLY_ISSUE in a cycle without a stall: the ply issues, PLY_COUNT and the unstalled cycles advance by one, the index goes to the branch target or to the next
ply, and issue itself writes no register and no byte of the scratchpad: results fly (R36, R40). After a block-end ply six cycles pass in which nothing issues (R39). -/
def Obligations.PlyIssueAdvances : Prop :=
  (∀ (s : State) (n : SqId), issuesNow s n = true →
    Answers (.plyIssue n .clean) s fun t =>
      let c := (atIssue s n).squares[n].core
      let d := t.squares[n].core
      d.st = .running ∧ d.plyCount = c.plyCount + 1 ∧ d.u = c.u + 1 ∧ d.idx = nextIdx s n ∧ d.lastCc = some (nowCc s)
        ∧ d.s = c.s ∧ d.p = c.p ∧ d.v = c.v ∧ d.rails = c.rails ∧ t.squares[n].mem = (atIssue s n).squares[n].mem ∧ OtherSquares n s t)
  ∧ ((∀ (s : State) (n : SqId), issuesNow s n = true →
    Answers (.plyIssue n .clean) s fun t => t.squares[n].core.empty = if (plyAt s.squares[n]).hdr.endB = 1 then 6 else 0)
  ∧ ∀ (s : State) (n : SqId) (k : Nat), sqReady s n = true → frozen s = false → missedA s n = false → s.squares[n].core.empty = k + 1 →
    Answers (.plyIssue n .clean) s fun t =>
      t.squares[n].core.empty = k ∧ t.squares[n].core.plyCount = s.squares[n].core.plyCount ∧ t.squares[n].core.idx = s.squares[n].core.idx
        ∧ OtherSquares n s t)

/-- PLY_ISSUE in a held cycle (R48, R50): the ply stays in front and no unstalled cycle is counted. THROTTLE_FROZEN_CYCLE (R49, R50): the square shows STALLED, and
no register, no operation in flight, no byte and no other square changes. Either cycle is one more in which the flag writes that the square's main schedule has issued are
held with it (the model's reading of R45, log 93). -/
def Obligations.HeldAndFrozenCyclesKeepState : Prop :=
  (∀ (s : State) (n : SqId), heldNow s n = true →
    Answers (.plyIssue n .clean) s fun t =>
      let c := (testTag s n (plyAt s.squares[n])).squares[n].core
      let d := t.squares[n].core
      d.st = .stalled ∧ d.idx = c.idx ∧ d.plyCount = c.plyCount ∧ d.u = c.u ∧ SameFlight c d ∧ SameRegisters c d ∧ OtherSquares n s t
        ∧ ∀ (w : FlagWrite) (cc : Nat), s.flags.writes = [w] → w.setter = some (n, cc) → t.flags.writes = [{ w with late := w.late ++ [nowCc s] }])
  ∧ (∀ (s : State) (n : SqId), sqReady s n = true → frozen s = true →
    Answers (.throttleFrozenCycle n) s fun t =>
      t.squares[n].core.st = .stalled ∧ SameRegisters s.squares[n].core t.squares[n].core ∧ SameFlight s.squares[n].core t.squares[n].core
        ∧ t.squares[n].core.wdog = s.squares[n].core.wdog ∧ t.squares[n].core.held = s.squares[n].core.held
        ∧ SameScratchpad s.squares[n] t.squares[n] ∧ OtherSquares n s t
        ∧ ∀ (w : FlagWrite) (cc : Nat), s.flags.writes = [w] → w.setter = some (n, cc) → t.flags.writes = [{ w with late := w.late ++ [nowCc s] }])

/-- OPERATION_LANDING (R36) and STORE_COMMIT (R73) in a square that is neither held nor throttled: a result that is due is in its S, P or V register, on its rail
position, in its stationary entries or in the segment table (R53, R141, R159), a load that is due has sampled its bytes, from the scratchpad or from a store of one to three
cycles before it, and lands nine cycles after its issue (R74, R75), a store that has aged four cycles is in the scratchpad, nothing due is left, and no other square changes. -/
def Obligations.LandingAndCommitTakeEffect : Prop :=
  ∀ (s : State) (n : SqId), sqReady s n = true → frozen s = false → missedA s n = false → heldHere s n = false →
    let q := s.squares[n]
    let c := q.core
    (∀ i, i = Instr.operationLanding n ∨ i = Instr.storeCommit n →
      Answers i s fun t =>
        (∀ l ∈ t.squares[n].core.flight, c.u < l.due) ∧ (∀ l ∈ t.squares[n].core.loads, c.u < l.issued + 1)
        ∧ (∀ b ∈ t.squares[n].core.stores, c.u < b.issued + 4)
        ∧ t.squares[n].core.idx = c.idx ∧ t.squares[n].core.plyCount = c.plyCount ∧ t.squares[n].core.u = c.u ∧ OtherSquares n s t)
    ∧ (∀ (d : Nat) (v : LandVal), c.flight = [⟨d, v⟩] → c.loads = [] → d ≤ c.u →
      Answers (.operationLanding n) s fun t =>
        let r := t.squares[n].core
        match v with
        | .s i x => r.s = c.s.set i x ∧ r.p = c.p ∧ r.v = c.v ∧ r.rails = c.rails ∧ t.squares[n].mx = q.mx
        | .p i x => r.p = c.p.set i x ∧ r.s = c.s ∧ r.v = c.v ∧ r.rails = c.rails ∧ t.squares[n].mx = q.mx
        | .v i x => r.v = c.v.set i x ∧ r.s = c.s ∧ r.p = c.p ∧ r.rails = c.rails ∧ t.squares[n].mx = q.mx
        | .rail p x => railAt r p d = some x ∧ (∀ o : Rail, o ≠ p → ∀ u, railAt r o u = railAt c o u) ∧ r.s = c.s ∧ r.p = c.p ∧ r.v = c.v ∧ t.squares[n].mx = q.mx
        | .stat es => (∀ k x, es = [(k, x)] → sget 0 t.squares[n].mx.stat k = x ∧ ∀ j, j ≠ k → sget 0 t.squares[n].mx.stat j = sget 0 q.mx.stat j)
            ∧ t.squares[n].mx = { q.mx with stat := t.squares[n].mx.stat } ∧ r.s = c.s ∧ r.p = c.p ∧ r.v = c.v ∧ r.rails = c.rails
        | .seg g => t.squares[n].mx = { q.mx with seg := g } ∧ r.s = c.s ∧ r.p = c.p ∧ r.v = c.v ∧ r.rails = c.rails)
    ∧ (∀ (l : PendLoad) (a : Nat), c.loads = [l] → c.flight = [] → l.addrs = [a] → l.issued + 1 ≤ c.u → c.u < l.issued + 9 →
      let lands := fun (x : Nat) => Answers (.operationLanding n) s fun t =>
        t.squares[n].core.loads = [] ∧ t.squares[n].core.s = c.s ∧ t.squares[n].core.v = c.v
          ∧ t.squares[n].core.flight = [⟨l.issued + 9, match l.dest with
              | .v i => .v i (BitVec.ofNat 8192 x) | .railA => .rail .a (BitVec.ofNat 8192 x) | .s i => .s i (BitVec.ofNat 64 x)⟩]
      (c.stores = [] → phaseB s n = false → lands (leNat ((List.range l.width).map fun i => memByte q.mem ((a + i) % spBytes))))
        ∧ ∀ (b : BufStore) (y : List Byte), c.stores = [b] → b.chunks = [(a, y)] → y.length = l.width → a + l.width ≤ spBytes → b.issued < l.issued →
          l.issued ≤ b.issued + 3 → lands (leNat y))
    ∧ (∀ (b : BufStore) (a : Nat) (x : Word64), c.stores = [b] → c.loads = [] → b.chunks = [(a, natLe 8 x.toNat)] → phaseB s n = false → b.issued + 4 ≤ c.u →
      Answers (.storeCommit n) s fun t => memNat t.squares[n].mem a 8 = x.toNat
        ∧ ∀ k, k < a ∨ a + 8 ≤ k → memByte t.squares[n].mem k = memByte q.mem k)

/-- WAIT_TIMEOUT (R195): in the held cycle in which the timeout runs out the ply issues, and its status word with CODE TIMEOUT is on its way to S[SREG]. -/
def Obligations.WaitEndsWithTimeout : Prop :=
  ∀ (s : State) (n : SqId),
    let b := atIssue s n
    let x := testIssue b n
    inFront s n = true → x.sb = false → x.pages = [] → x.timedOut = true →
    Answers (.waitTimeout n .clean) s fun t =>
      let d := t.squares[n].core
      d.st = .running ∧ d.u = b.squares[n].core.u + 1 ∧ d.held = 0
        ∧ ∃ w : Word64, bits w 7 0 = 1 ∧ (⟨b.squares[n].core.u + 1, .s (plyAt s.squares[n]).y.sreg.toFin w⟩ : Landing) ∈ d.flight

/-- SQUARE_HALT (R43): the square stops in front of the quiet point, which has not issued. ENTER_DONE (R44): once nothing is in flight after HALT, the square is
DONE. BREAK_BROADCAST (R472): 6 + 2h cc after the break of another square the halt request stands in this one, and in a snapshot point waits for its end (R474). SQ_WDOG (R462): at LIMIT × 65,536 counted cycles the
square's partition faults with code SQ_WDOG and the square is in FAULT. -/
def Obligations.HaltsDonesAndWatchdogs : Prop :=
  ((∀ (s : State) (n : SqId), sqReady s n = true → missedA s n = false → haltsHere s.squares[n].core (plyAt s.squares[n]) = true →
    Answers (.squareHalt n) s fun t =>
      let c := (begun s n).squares[n].core
      t.squares[n].core.st = .halted ∧ t.squares[n].core.haltReq = false ∧ SameRegisters c t.squares[n].core ∧ OtherSquares n s t)
  ∧ ∀ (s : State) (n : SqId), sqLive s n = true → frozen s = false → s.squares[n].core.ending = true → s.squares[n].core.lastCc = some (nowCc s) →
    s.squares[n].core.flight = [] → s.squares[n].core.loads = [] → s.squares[n].core.stores = [] →
    Answers (.enterDone n) s fun t =>
      t.squares[n].core.st = .done ∧ t.squares[n].core.ending = false ∧ SameRegisters s.squares[n].core t.squares[n].core
        ∧ SameScratchpad s.squares[n] t.squares[n] ∧ OtherSquares n s t)
  ∧ ((∀ (s : State) (n m : SqId) (p : PartId) (c : Nat) (todo : BitVec 64), ownerSq s n = some p → s.parts[p].breaks = [(m, c, todo)] →
    todo.getLsbD n.val = true → c + 6 + 2 * hopsBetween m n ≤ nowCc s → s.squares[n].core.st = .running →
    Answers (.breakBroadcast n) s fun t =>
      (if sqAtPoint s n then t.squares[n].core.haltLate = true ∧ t.squares[n].core.haltReq = s.squares[n].core.haltReq else t.squares[n].core.haltReq = true)
        ∧ SameRegisters s.squares[n].core t.squares[n].core ∧ OtherSquares n s t)
  ∧ ∀ (s : State) (n : SqId) (p : PartId), ownerSq s n = some p → s.parts[p].st = .active → s.parts[p].own.sq.getLsbD n.val = true →
    sqLive s n = true → s.parts[p].flt.pending = false → s.parts[p].wdgLimit ≠ 0 → s.parts[p].wdgLimit.toNat * 65536 ≤ s.squares[n].core.wdog →
    Answers (.sqWdog n) s fun t =>
      t.squares[n].core.st = .fault ∧ t.parts[p].flt = ⟨true, 0, BitVec.ofNat 6 n.val, false, 0x0403⟩ ∧ t.parts[p].launched = false)

/-! ### Message core, mesh, flags (07) -/

/-- MC_INSTRUCTION_ISSUE (R216): with nothing else under way, a scalar instruction whose sources have landed issues and its result flies; HALT ends the handler.
HANDLER_DISPATCH (R218, R219): the trigger of R218's order is taken, and the first instruction runs 12 cc later, with what the trigger is in S0 and S1, and the arrival
count that its handle then shows and the state of its sender in S2 and S3. HANDLER_ABORT (R220): past BUDGET × 64 cc the handler
ends, and the abort is counted. -/
def Obligations.MessageCoreRuns : Prop :=
  (∀ (s : State) (n : SqId) (x : SSlot),
    let m := s.squares[n].mc
    mcReady s n = true → m.busy = true → m.entering = false → m.access = [] → m.stores = [] → m.flight = [] → m.startAt ≤ nowCc s → mcOverdue s n = false →
    decodeMc (BitVec.ofNat 128 (memNat m.mem (16 * (m.pc % 4096)) 16)) = .s x → guard m.p x.pred x.pneg x.gen = true →
    ((isBranchOpc x.opc = false → scalarAssigned x.opc = true →
      Answers (.mcInstructionIssue n .clean) s fun t =>
        let d := t.squares[n].mc
        d.pc = (m.pc + 1) % 4096 ∧ d.busy = true ∧ d.s = m.s ∧ d.p = m.p ∧ d.flight = sLanding x (scalarOp x m.s m.p) (nowCc s)
          ∧ t.squares[n].core = s.squares[n].core ∧ OtherSquares n s t)
    ∧ (x.opc = 0xFF → Answers (.mcInstructionIssue n .clean) s fun t => t.squares[n].mc.busy = false ∧ OtherSquares n s t)))
  ∧ (∀ (s : State) (n : SqId) (g : Trigger),
    let m := s.squares[n].mc
    let e := s.squares[n].eps[epOf g.src]
    mcReady s n = true → m.busy = true → m.entering = true → m.trig = some g → g.kind ≠ 3 → m.access = [] → m.stores = [] → m.flight = [] → m.startAt ≤ nowCc s →
    Answers (.mcInstructionIssue n .clean) s fun t =>
      let d := t.squares[n].mc
      d.entering = false ∧ d.s[(2 : Fin 32)] = BitVec.ofNat 64 (hdlOf s.squares[n] (inHandle e.inc)).count.toNat ∧ d.s[(3 : Fin 32)] = (if e.sreset then 4 else 0)
        ∧ OtherSquares n s t)
  ∧ (∀ (s : State) (n : SqId) (g : Trigger), mcHere s n = true → s.squares[n].mc.busy = false → mcParked s n = false →
    selectTrigger s.squares[n] = some g →
    Answers (.handlerDispatch n) s fun t =>
      let d := t.squares[n].mc
      d.busy = true ∧ d.entering = true ∧ d.current = g.handler ∧ d.trig = some g ∧ d.startAt = nowCc s + 12 ∧ d.pc = hndEntry s.squares[n].hnd[g.handler]
        ∧ d.flight = s.squares[n].mc.flight ++ [⟨nowCc s + 12, .s 0 (BitVec.ofNat 64 (g.kind.toNat + 256 * (if g.kind = 3 then g.src - 32 else g.src)))⟩,
            ⟨nowCc s + 12, .s 1 (BitVec.ofNat 64 g.off)⟩]
        ∧ d.pending = s.squares[n].mc.pending.erase g ∧ t.squares[n].core = s.squares[n].core ∧ OtherSquares n s t)
  ∧ ∀ (s : State) (n : SqId), mcHere s n = true → mcOverdue s n = true →
    Answers (.handlerAbort n) s fun t =>
      t.squares[n].mc.busy = false ∧ t.squares[n].mc.aborts = satInc s.squares[n].mc.aborts ∧ t.squares[n].core = s.squares[n].core ∧ OtherSquares n s t

/-- MESH_LINE_READ, FLIT_DEPART and MESH_FLIT_COMMIT carry a stream message of one line (R201, R206, R84): the line is read from the sender's scratchpad, the flit
leaves in a base slot of its route and arrives 2 cc per hop later, and its commit writes the line into the handle and counts one arrival. A message that its handle
refuses leaves the counter and every byte, and the sender's credit returns with the code (R83, R208). -/
def Obligations.MeshCarriesOrRefusesMessage : Prop :=
  ((∀ (s : State) (m : Msg), isMeshTurn s = true → s.msgs = [m] → m.via = none → m.lines = 1 → m.data = [] → m.readFrom ≤ nowCc s →
    s.squares[m.at_].turnAt ≠ nowCc s + 1 →
    Answers (.meshLineRead m.at_ .clean) s fun t =>
      t.msgs = [{ m with data := [(0, nowCc s, memLine s.squares[m.at_].mem (m.soff % 2 ^ 25))] }]
        ∧ SameScratchpad s.squares[m.at_] t.squares[m.at_] ∧ t.squares[m.at_].core = s.squares[m.at_].core ∧ OtherSquares m.at_ s t)
  ∧ (∀ (s : State) (m : Msg), s.clk.frameOn = true → domOn s domEngine = true → s.msgs = [m] → m.via = none → flitReady m (nowCc s) = true →
    (outSlots s.squares[m.owner].eps[m.ep].outc).getLsbD (nowCc s % 16) = true → (∀ a ∈ m.arrive, a ≠ nowCc s + 2 * m.hops) →
    Answers (.flitDepart m.owner m.ep m.net .clean) s fun t =>
      t.msgs = [{ m with arrive := m.arrive ++ [nowCc s + 2 * m.hops] }] ∧ t.squares = s.squares)
  ∧ ∀ (s : State) (m : Msg) (c a : Nat) (x : Line), isMeshTurn s = true → s.msgs = [m] → m.kind = .stream → m.asker = none → m.via = none → m.link = none → m.refuse = none →
    m.lines = 1 → m.flits = 1 → m.committed = 0 → m.data = [(0, c, x)] → m.arrive = [a] → a < nowCc s → m.epoch = s.parts[m.part].epoch →
    msgCheck s m = 0 → inHen s.squares[m.dst].eps[m.dep].inc = false → s.squares[m.dst].turnAt ≠ nowCc s + 1 →
    Answers (.meshFlitCommit m.dst) s fun t =>
      let h := msgHandle s m
      let b := hdlOf s.squares[m.dst] h
      let at_ := (hdlBase b + m.doff + 64 * 0) % 2 ^ 25
      t.msgs = [] ∧ memLine t.squares[m.dst].mem at_ = x ∧ (∀ k, k < at_ ∨ at_ + 64 ≤ k → memByte t.squares[m.dst].mem k = memByte s.squares[m.dst].mem k)
        ∧ (hdlOf t.squares[m.dst] h).count = b.count + 1 ∧ t.squares[m.dst].eps[m.dep].held.length = s.squares[m.dst].eps[m.dep].held.length + 1
        ∧ t.squares[m.dst].core = s.squares[m.dst].core ∧ OtherSquares m.dst s t)
  ∧ (∀ (s : State) (m : Msg) (a : Nat), isMeshTurn s = true → s.msgs = [m] → m.kind = .stream → m.asker = none → m.via = none → m.link = none → m.refuse = none →
    m.flits = 1 → m.committed = 0 → m.arrive = [a] → a < nowCc s → m.epoch = s.parts[m.part].epoch → m.reply = none → msgCheck s m ≠ 0 →
    s.squares[m.dst].turnAt ≠ nowCc s + 1 →
    Answers (.meshFlitCommit m.dst) s fun t =>
      t.msgs = [] ∧ SameScratchpad s.squares[m.dst] t.squares[m.dst] ∧ t.squares[m.dst].hdl = s.squares[m.dst].hdl
        ∧ t.credits = s.credits ++ [⟨m.owner, m.ep, 1, nowCc s + 6 + 2 * m.hops, some (BitVec.ofNat 6 (msgCheck s m))⟩] ∧ OtherSquares m.dst s t)

/-- CREDIT_RETURN (R208): a returned credit is added at its endpoint, and a refusal sets REFUSED and LASTCODE. CFLAG_EFFECT (R214, R215): a flag write that has
arrived, and whose flag the destination's partition holds or its sender may signal, is made with the destination as its source square; without that right it is dropped, and
its sender is told DENIED. FLAG_VIEW_UPDATE (R197): a flag write made in cycle t by a square h hops away stands in the view from cycle t + 6 + 2h on, and not before; each
cycle in which the square whose main schedule set it is held before that puts it off by one (the model's reading of R45 and R58, log 93). FLG_HOSTSET (R190): a write by the
physical function or the partition's own, naming a flag of the range of the partition in whose window it is written (the model's reading, log 78), makes that flag write; any
other flag changes no flag. FLAG_GRANT (R188, R389): with firmware running the grant is in force, and no longer an orphan; that a grant written VALID clears ORPHAN too is
log 78's inference, R389 saying it of a withdrawal. -/
def Obligations.CreditsFlagsAndGrants : Prop :=
  ((∀ (s : State) (n : SqId) (e : Fin 32) (k seen : Nat) (code : Option (BitVec 6)), s.credits = [⟨n, e, k, seen, code⟩] → seen ≤ nowCc s →
    Answers (.creditReturn n e) s fun t =>
      let x := s.squares[n].eps[e]
      let y := t.squares[n].eps[e]
      t.credits = [] ∧ y.credits = x.credits + BitVec.ofNat 5 k ∧ y.refused = (x.refused || code.isSome) ∧ y.lastCode = code.getD x.lastCode
        ∧ y.held = x.held ∧ y.sreset = x.sreset ∧ t.squares[n].core = s.squares[n].core ∧ OtherSquares n s t)
  ∧ ∀ (s : State) (m : Msg) (flag : Fin 8192) (val : Bool) (a : Nat), s.msgs = [m] → m.kind = .cflag flag val → (ownerSq s m.dst).isSome = true → m.link = none → m.arrive = [a] → a < nowCc s →
    m.epoch = s.parts[m.part].epoch →
    (cflagRight s (ownerSq s m.dst) (some m.part) flag = true → Answers (.cflagEffect m.dst) s fun t =>
      t.msgs = [] ∧ t.flags.writes = s.flags.writes ++ [⟨flag, val, nowCc s, rankChannel m.dst m.dep, some m.dst, BitVec.allOnes 64,
          m.late.map fun _ => (m.owner, m.readFrom), m.late.getD []⟩] ∧ t.squares = s.squares)
    ∧ (cflagRight s (ownerSq s m.dst) (some m.part) flag = false → m.via = none → Answers (.cflagEffect m.dst) s fun t =>
      t.msgs = [] ∧ t.flags = s.flags ∧ t.squares = s.squares
        ∧ t.credits = s.credits ++ [⟨m.owner, m.ep, 0, nowCc s + 6 + 2 * m.hops, some (BitVec.ofNat 6 stDenied)⟩]))
  ∧ ((∀ (s : State) (n o : SqId) (w : FlagWrite), s.flags.writes = [w] → w.origin = some o → w.todo.getLsbD n.val = true →
    w.setter = none ∨ (w.late = [] ∧ ∃ q, w.setter = some (q, w.cc)) →
    (w.cc + 6 + 2 * hopsBetween o n ≤ nowCc s → viewOf s n w.flag = w.val
      ∧ Answers (.flagViewUpdate n w.flag .clean) s fun t =>
        t.squares[n].view.getLsbD w.flag.val = w.val ∧ (∀ k : Nat, k ≠ w.flag.val → t.squares[n].view.getLsbD k = s.squares[n].view.getLsbD k)
          ∧ t.squares[n].core = s.squares[n].core ∧ OtherSquares n s t)
    ∧ (nowCc s < w.cc + 6 + 2 * hopsBetween o n → viewOf s n w.flag = s.squares[n].view.getLsbD w.flag.val))
  ∧ (∀ (w : FlagWrite) (n : SqId) (q : SqId) (x : Nat), w.setter = some (q, w.cc) → x < fwSeen w n → (w.origin).isSome = true →
      fwSeen { w with late := w.late ++ [x] } n = fwSeen w n + 1)
  ∧ ((∀ (s : State) (p : PartId) (w : RegWr), servedOwn s w.fn p = true → full4 w = true →
    (inRange s p (field (word w) 0 13) = true → domOn s domEngine = true →
      Answers (.flgHostset p w) s fun t =>
        t.flags.writes = s.flags.writes ++ [⟨flagOf (field (word w) 0 13), (word w).testBit 16, nowCc s, rankHost w.fn, none, BitVec.allOnes 64, none, []⟩]
          ∧ t.flags.grants = s.flags.grants ∧ t.squares = s.squares)
    ∧ (inRange s p (field (word w) 0 13) = false → Answers (.flgHostset p w) s fun t => t.flags = s.flags ∧ t.squares = s.squares))
  ∧ ∀ (s : State) (g : GrantWr), s.king.stage = .running → Answers (.flagGrant g) s fun t =>
      t.flags.grants = s.flags.grants.set g.n g.value ∧ (∀ k, t.flags.orphan.getLsbD k = (s.flags.orphan.getLsbD k && decide (k ≠ g.n.val)))
        ∧ t.flags.writes = s.flags.writes ∧ t.flags.pool = s.flags.pool ∧ t.squares = s.squares))


/-! ### Copy engines and HBM (03) -/

/-- COPY_DESCRIPTOR_START (R95, R96, R373): a queued descriptor of the class that passes its check starts on the lowest idle engine allotted to the pair; in Strict
its landing is set to t + 2,048 + 64 cc per 4 KiB begun. One that fails its check writes nothing and is gone from the queue. -/
def Obligations.CopyStartTakesEngine : Prop :=
  ∀ (s : State) (p : PartId) (cls : Fin 3) (d : Desc) (code : Nat) (who : Option (Option SqId × Nat)) (pl : CopyPlan),
    s.parts[p].copyWait = none → s.clk.frameOn = true → s.parts[p].st = .active → domOn s domEngine = true → s.parts[p].queue = [d] →
    dClass d.d = cls.val → planOf s p d.d d.src = (code, who, pl) →
    ∀ n : CeId, idleEngine s p cls.val = some n →
      (code = 0 → remoteParts pl.parts = [] → pl.who = none →
        Answers (.copyDescriptorStart p cls) s fun t =>
          t.parts[p].queue = [] ∧ ∃ r, t.ces[n].run = some r ∧ r.desc = d ∧ r.segs = pl.segs ∧ r.parts = pl.parts
            ∧ r.start = (match d.src with | .kick _ _ => d.kickAt | .job _ _ => nowCc s)
            ∧ r.land = (if s.parts[p].strict then some (r.start + 2048 + 64 * ceilDiv (64 * pl.lines) 4096) else none)
            ∧ (∀ m : CeId, m ≠ n → t.ces[m] = s.ces[m]) ∧ SameHbm s t)
      ∧ (code ≠ 0 → Answers (.copyDescriptorStart p cls) s fun t =>
          t.parts[p].queue = [] ∧ t.ces = s.ces ∧ SameHbm s t ∧ ∀ q : SqId, SameScratchpad s.squares[q] t.squares[q])

/-- COPY_BEAT (R63 to R65, R96): in a phase-B turn of the copy engines whose banks nothing has used, a beat of up to 32 lines between aligned places of two
scratchpads moves whole, one line a bank; every other byte stays, and an engine whose descriptor is at its end is idle. In a cycle of another client nothing moves. -/
def Obligations.CopyBeatMovesLines : Prop :=
  ∀ (s : State) (n : CeId) (r : CeRun) (g : Seg) (q q' sq : SqId) (a b : Nat), s.ces[n].run = some r → r.segs = [g] → r.beat = none → g.src = .sp q a → g.dst = .sp q' b →
    q ≠ q' → 0 < g.lines → g.lines ≤ 32 → a % 64 = 0 → b % 64 = 0 → r.nextAt ≤ nowCc s → domOn s domEngine = true → sqClosed s q = 0 → sqClosed s q' = 0 →
    s.squares[q'].uncapt = 0 → r.status = 0 → r.planned = 0 → r.parts.all (·.landed) = false →
    (ceTurn s = true → banksUsed s q = [] → banksUsed s q' = [] → Answers (.copyBeat n ⟨.clean, sq⟩) s fun t =>
      (∀ i, i < 64 * g.lines → memByte t.squares[q'].mem ((b + i) % spBytes) = memByte s.squares[q].mem ((a + i) % spBytes))
        ∧ (∀ k, (∀ i, i < 64 * g.lines → k ≠ (b + i) % spBytes) → memByte t.squares[q'].mem k = memByte s.squares[q'].mem k)
        ∧ t.ces[n].run = none ∧ SameScratchpad s.squares[q] t.squares[q] ∧ (∀ m : SqId, t.squares[m].core = s.squares[m].core)
        ∧ (∀ m : SqId, m ≠ q → m ≠ q' → t.squares[m] = s.squares[m]) ∧ SameHbm s t)
    ∧ (ceTurn s = false → Answers (.copyBeat n ⟨.clean, sq⟩) s fun t =>
      t.squares = s.squares ∧ SameHbm s t ∧ (t.ces[n].run.map (·.parts)) = some r.parts)

/-- COPY_LANDING and REMOTE_COPY_LANDING (R84, R97, R308): the last part of a descriptor whose lines have moved lands: on this chip its handle counts one arrival,
and in either case the descriptor has left its engine; at a remote part's destination it counts one arrival in the first cycle at or after its landing count. In Strict a
part never lands before its landing cycle L, and the handle's counter stays until it does (R97). In Relaxed a remote part ends with the acknowledgement of its first link
(log 72). -/
def Obligations.CopyPartLands : Prop :=
  ((∀ (s : State) (n : CeId) (r : CeRun) (x : CePart) (q : SqId) (h : Byte), s.ces[n].run = none → s.ces[n].waiting = [r] → r.segs = [] → r.parts = [x] →
    x.dst = .square q h → x.landed = false → x.left = 0 → sqGone s q = 0 → (∀ l, r.land = some l → l ≤ nowCc s) →
    Answers (.copyLanding n 0) s fun t =>
      (hdlOf t.squares[q] h.toNat).count = (hdlOf s.squares[q] h.toNat).count + 1 ∧ t.ces[n].waiting = [] ∧ t.squares[q].core = s.squares[q].core
        ∧ SameScratchpad s.squares[q] t.squares[q])
  ∧ ∀ (s : State) (n : CeId) (r : CeRun) (x : CePart) (pos : Byte) (q : SqId) (h : Byte), s.ces[n].run = none → s.ces[n].waiting = [r] → r.segs = [] →
    r.parts = [x] → x.dst = .remote pos q h → x.landed = false → x.left = 0 → (∀ c, r.landCount = some c → c ≤ ctFrom s (nowCc s)) →
    (r.landCount = none → remoteAcked s r x = true) →
    Answers (.remoteCopyLanding (.sender n) 0) s fun t => t.ces[n].waiting = [] ∧ ∀ m : SqId, SameScratchpad s.squares[m] t.squares[m])
  ∧ (∀ (s : State) (n : CeId) (k l : Nat) (r : CeRun), s.ces[n].run = none → s.ces[n].waiting = [r] → r.parts ≠ [] → r.land = some l → nowCc s < l →
    Answers (.copyLanding n k) s fun t => t = s)
  ∧ ∀ (s : State) (r : RemotePart) (w ld : Nat), s.mtch.remote = [r] → r.whole = some w → r.flag = none → r.fetched = false → s.clk.frameOn = true → sqGone s r.sq = 0 →
    (ld ≤ nowCt s → Answers (.remoteCopyLanding (.destination ld) 0) s fun t =>
      (hdlOf t.squares[r.sq] r.handle.toNat).count = (hdlOf s.squares[r.sq] r.handle.toNat).count + 1 ∧ t.mtch.remote = []
        ∧ t.squares[r.sq].core = s.squares[r.sq].core ∧ SameScratchpad s.squares[r.sq] t.squares[r.sq] ∧ SameHbm s t)
    ∧ (nowCt s < ld → Answers (.remoteCopyLanding (.destination ld) 0) s fun t => t = s)

/-- REFRESH_SLOT and ADAPTIVE_REFRESH (R89, R90): in Strict a refresh in the stack's slot, at count mod 3,900 from 650 s on for 350 ct, is recorded and counts no
deviation; above 85 °C the slot 1,950 ct later counts one in the chip's copy; in Relaxed a refresh counts none. HBM_TEMP_READ (R452): the temperatures read are kept, a
powered stack above 85 °C is hot until every stack is cool, and at 95 °C the emergency is in force. -/
def Obligations.RefreshAndHbmTemperature : Prop :=
  ((∀ (s : State) (k : StackId), s.tmg.strictAny = true → domOn s (domHbm k) = true →
    (650 * k.val ≤ nowCt s % 3900 → nowCt s % 3900 < 650 * k.val + 350 →
      Answers (.refreshSlot k) s fun t => t.hbm.slot[k] = some (nowCt s - (nowCt s % 3900 - 650 * k.val)) ∧ t.tmg = s.tmg ∧ t.squares = s.squares)
    ∧ (∀ o, slotOpening (nowCt s) (650 * k.val) = none → slotOpening (nowCt s) ((650 * k.val + 1950) % 3900) = some o → s.hbm.hot.getLsbD k.val = true →
        s.hbm.extra[k] ≠ some o →
      Answers (.refreshSlot k) s fun t => t.hbm.extra[k] = some o ∧ t.tmg.devCount = satInc s.tmg.devCount ∧ t.tmg.devCause.getLsbD 0 = true ∧ t.squares = s.squares))
  ∧ ∀ (s : State) (k : StackId), s.tmg.strictAny = false → domOn s (domHbm k) = true →
    Answers (.adaptiveRefresh k) s fun t => t.hbm.slot[k] = some (nowCt s) ∧ t.tmg = s.tmg ∧ t.parts = s.parts ∧ t.squares = s.squares)
  ∧ (∀ (s : State) (x : Vector (BitVec 8) 6), Answers (.hbmTempRead x) s fun t =>
    t.hbm.temps = x ∧ t.hbm.mem = s.hbm.mem ∧ t.squares = s.squares
      ∧ (∀ k : StackId, domOn s (domHbm k) = true → 85 < x[k].toNat → t.hbm.hot.getLsbD k.val = true)
      ∧ ((∀ k : StackId, x[k].toNat < 83) → t.hbm.hot = 0)
      ∧ (∀ k : StackId, domOn s (domHbm k) = true → 95 ≤ x[k].toNat → t.thermal.hbmEmerg = true)
      ∧ ((∀ k : StackId, x[k].toNat < 90) → t.thermal.hbmEmerg = false))

/-! ### Clocks (08) -/

/-- CHESS_CLOCK_START and FRAME_COUNTER_START (R234, R237): with power good and reset released the count runs; at a grain boundary of the settled clock the frame
counter starts, and the count is kept; that the core cycle then stands at a multiple of the grain, and is not lessened, is the model's reading (log 40). REF_LOST, REF_BACK
and REF_EXPIRED (R238): the loss clears REF_OK and begins a holdover; the return ends it; after 10 ms without it every launch in progress ends with a fault of the clock. -/
def Obligations.ClocksStartAndHoldOver : Prop :=
  ((∀ s : State, s.pins.pwrOk = true → s.pins.resetN = true → s.clk.counting = false →
    Answers .chessClockStart s fun t => t = { s with clk := { s.clk with counting := true, locked := true, refOk := true } })
  ∧ ∀ s : State, settled s = true → s.clk.frameOn = false → nowCt s % 320 = 0 →
    Answers .frameCounterStart s fun t =>
      t.clk.frameOn = true ∧ t.clk.frameStart = s.clk.count ∧ t.clk.count = s.clk.count ∧ t.clk.cc % grainCc s = 0 ∧ s.clk.cc ≤ t.clk.cc
        ∧ t.clk.base = t.clk.cc ∧ t.squares = s.squares ∧ t.parts = s.parts)
  ∧ (∀ s : State, s.clk.refOk = true → Answers .refLost s fun t =>
    t.clk = { s.clk with refOk := false, holdover := true, refLostAt := some (nowCt s), expired := false } ∧ t.squares = s.squares ∧ t.parts = s.parts)
  ∧ (∀ (s : State) (c : Int), s.clk.refLostAt = some c → Answers .refBack s fun t =>
    t.clk = { s.clk with refOk := true, holdover := false, refLostAt := none, expired := false } ∧ t.squares = s.squares ∧ t.parts = s.parts)
  ∧ ∀ (s : State) (c : Int) (p : PartId), s.clk.refLostAt = some c → s.clk.expired = false → c + 10000000 ≤ nowCt s → s.parts[p].launched = true →
    s.parts[p].st = .active → s.parts[p].flt.pending = false →
    Answers .refExpired s fun t => t.parts[p].launched = false ∧ t.parts[p].flt.pending = true ∧ t.parts[p].flt.cls = 3 ∧ t.clk.expired = true

/-- PPS_EDGE and CHESS_CLOCK_STEP (R239, R240): on the master with PPS_EN, the first edge asks for a step that brings the count at the edge to a multiple of 10⁹,
later edges write the signed error; a step that waits takes place once nothing is launched or armed, and the frame counter stops for its restart. That the step is to the
nearest multiple, and so of 500,000,000 at the most, is the model's reading (log 43). -/
def Obligations.PpsAlignsClock : Prop :=
  (∀ s : State, s.clk.master = true → s.clk.ppsEn = true → s.clk.counting = true →
    (s.clk.ppsStepped = false → Answers .ppsEdge s fun t =>
      t.clk.ppsStepped = true ∧ t.clk.count = s.clk.count ∧ (∃ d, t.clk.stepPending = some d ∧ (1000000000 : Int) ∣ (nowCt s : Int) + d ∧ d.natAbs ≤ 500000000))
    ∧ (s.clk.ppsStepped = true → Answers .ppsEdge s fun t =>
      t.clk = { s.clk with ppsErr := t.clk.ppsErr } ∧ (1000000000 : Int) ∣ (nowCt s : Int) - t.clk.ppsErr.toInt))
  ∧ ∀ (s : State) (d : Int), s.clk.stepPending = some d → anyLaunched s = false → countArmed s = false →
    Answers .chessClockStep s fun t =>
      t.clk.count = s.clk.count + BitVec.ofInt 64 d ∧ t.clk.stepPending = none ∧ t.clk.frameOn = false ∧ t.squares = s.squares ∧ t.parts = s.parts

/-! ### Launches and timing modes (08) -/

/-- SCORESHEET_LOADED (R60, R420): a LOAD puts the sheet in force and completes with status 0, and every powered square that it places is LOADED at its entry. -/
def Obligations.LoadCompletes : Prop :=
  ∀ (s : State) (p : PartId) (l : Launch) (sh : Sheet) (x : SheetSquare), s.parts[p].launch = some l → l.phase = .loading → lOp l.job = 1 →
    l.job.sheet = some sh → s.parts[p].launchQ = [] → sh.squares = [x] → sqOn s x.sq = true → loadBusy s sh = false → ringRoom s p = true →
    Answers (.scoresheetLoaded p) s fun t =>
      t.parts[p].launch = none ∧ (t.parts[p].loaded.map fun y => (y.tag, y.class22)) = some (sh.tag, sh.class22)
        ∧ t.squares[x.sq].core.st = .loaded ∧ t.squares[x.sq].core.idx = BitVec.ofNat 13 x.entry ∧ t.squares[x.sq].core.s = Vector.replicate 32 0
        ∧ ∃ i e, Emitted s t (.completion p i e) ∧ bits e 31 0 = l.jobId.toNat ∧ bits e 39 32 = 1 ∧ bits e 47 40 = 0

/-- LAUNCH_SIGNAL and LAUNCH_CYCLE (R244): at count C − 320 the signal is raised; in the core cycle at count C every placed square starts at its entry ply, with the
argument words in S30 and S31, and LAUNCHED is set. -/
def Obligations.CountedLaunchStartsSquares : Prop :=
  (∀ (s : State) (p : PartId) (l : Launch), s.parts[p].launch = some l → l.phase = .armed → lCount l.job ≤ nowCt s + 320 →
    Answers (.launchSignal p) s fun t => t.parts[p].launch = some { l with phase := .signalled } ∧ t.squares = s.squares)
  ∧ ∀ (s : State) (p : PartId) (l : Launch), s.parts[p].launch = some l → l.phase = .signalled → lResume l.job = false → s.clk.frameOn = true → railReady s p = true →
    ccFrom s (lCount l.job) ≤ nowCc s → (∀ n ∈ placedOf s p, startable s p false n = true) →
    Answers (.launchCycle p) s fun t =>
      t.parts[p].launched = true ∧ (t.parts[p].launch.map fun x => (x.phase, x.first)) = some (.running, some (nowCc s))
        ∧ (∀ n ∈ placedOf s p, let c := t.squares[n].core
            c.st = .running ∧ c.idx = s.squares[n].core.entry ∧ c.plyCount = 0 ∧ c.s[(30 : Fin 32)] = lArg0 l.job ∧ c.s[(31 : Fin 32)] = lArg1 l.job
              ∧ t.squares[n].fp = 0 ∧ t.squares[n].mem = s.squares[n].mem)
        ∧ ∀ n, n ∉ placedOf s p → t.squares[n] = s.squares[n]

/-- BARRIER_LAUNCH and LAUNCH_END (R245, R420): the broadcast starts a square that it reaches; when every placed square is DONE and every descriptor issued has
landed, the launch ends with status 0 and LAUNCHED clears. -/
def Obligations.BarrierLaunchAndEnd : Prop :=
  (∀ (s : State) (n : SqId) (p : PartId) (l : Launch), ownerSq s n = some p → s.parts[p].launch = some l → l.phase = .broadcast → l.todo.getLsbD n.val = true →
    s.clk.frameOn = true → railReady s p = true → lResume l.job = false → startable s p false n = true →
    Answers (.barrierLaunch n) s fun t =>
      t.squares[n].core.st = .running ∧ t.squares[n].core.idx = s.squares[n].core.entry ∧ t.squares[n].core.plyCount = 0 ∧ OtherSquares n s t
        ∧ ∃ m, t.parts[p].launch = some m ∧ m.todo.getLsbD n.val = false)
  ∧ ∀ (s : State) (p : PartId) (l : Launch), s.parts[p].launch = some l → l.phase = .running → s.parts[p].launchQ = [] →
    (∀ n ∈ placedOf s p, s.squares[n].core.st = .done) → descsLanded s p = true → ringRoom s p = true → (∀ n ∈ squaresOf s p, s.squares[n].mx.foldIn = []) →
    Answers (.launchEnd p) s fun t =>
      t.parts[p].launch = none ∧ t.parts[p].launched = false ∧ t.squares = s.squares
        ∧ ∃ i e, Emitted s t (.completion p i e) ∧ bits e 31 0 = l.jobId.toNat ∧ bits e 47 40 = 0

/-- A write to TMG_CTL that would change MODE or RESULT while a square of the partition is RUNNING, STALLED or HALTED, or a descriptor of it is queued or in progress,
is ignored and logged, and so is any write from a virtual function (R222). -/
def Obligations.TimingModeLocked : Prop :=
  ∀ (s : State) (p : PartId) (w : RegWr), servedOwn s w.fn p = true → full4 w = true →
    w.fn ≠ 0 ∨ (((word w).testBit 0 ≠ s.parts[p].modeWait.getD s.parts[p].strict ∨ field (word w) 1 2 ≠ s.parts[p].result.toNat)
      ∧ ((∃ n ∈ squaresOf s p, s.squares[n].core.st = .running ∨ s.squares[n].core.st = .stalled ∨ s.squares[n].core.st = .halted) ∨ descriptorsOf s p = true)) →
    Answers (.tmgCtlWrite p w) s fun t =>
      t.parts[p].strict = s.parts[p].strict ∧ t.parts[p].result = s.parts[p].result ∧ t.parts[p].modeWait = s.parts[p].modeWait
        ∧ t.parts[w.fn].violReg = satInc s.parts[w.fn].violReg ∧ t.tmg = s.tmg ∧ t.squares = s.squares

/-- TMG_CTL_WRITE and STRICT_ANY_CHANGE (R222, R225): the physical function sets MODE and RESULT while nothing of the partition runs; deferred MODE writes apply and the chip-wide state follows once nothing is launched. -/
def Obligations.TimingModeWrites : Prop :=
  (∀ (s : State) (p : PartId) (w : RegWr), served s w.fn = true → full4 w = true →
    (w.fn = 0 → field (word w) 1 2 ≠ 3 → modeLocked s p = false → anyLaunched s = false →
      Answers (.tmgCtlWrite p w) s fun t =>
        t.parts[p].strict = (word w).testBit 0 ∧ t.parts[p].result = BitVec.ofNat 2 (field (word w) 1 2) ∧ t.parts[p].modeWait = none
          ∧ t.tmg.strictAny = strictNow t ∧ t.squares = s.squares))
  ∧ ∀ s : State, anyLaunched s = false → Answers .strictAnyChange s fun t =>
      (∀ p : PartId, t.parts[p].strict = s.parts[p].modeWait.getD s.parts[p].strict ∧ t.parts[p].modeWait = none) ∧ t.tmg.strictAny = strictNow t
        ∧ t.squares = s.squares

/-- In a cycle in which the hardware has written no status (R405), CLEAR, DEV_CAUSE_WRITE and DEV_CHIP_CAUSE_WRITE (R229, R232): the count goes to zero and the rest
of the partition's deviation registers stays; ones clear causes, and bit 31 STRICT_BROKEN; the other partitions' registers stay. FP_STATUS_WRITE, MX_FOLD_WRITE and
CHN_STAT_WRITE (R131, R155, R199): ones clear FP_STATUS bits, OVER of the one fold, and SRESET and REFUSED of the one endpoint; the rest of the square and the other squares
stay. -/
def Obligations.StatusWritesClear : Prop :=
  (∀ (s : State) (p : PartId) (w : RegWr), servedOwn s w.fn p = true → full4 w = true → quietCycle s = true →
    ((word w).testBit 0 = true → Answers (.clear p w) s fun t =>
      t.parts[p] = { s.parts[p] with dev := { s.parts[p].dev with count := 0 } } ∧ (∀ q : PartId, q ≠ p → t.parts[q] = s.parts[q]) ∧ t.tmg = s.tmg
        ∧ t.squares = s.squares)
    ∧ Answers (.devCauseWrite p w) s fun t =>
        t.parts[p] = { s.parts[p] with dev := { s.parts[p].dev with cause := s.parts[p].dev.cause &&& ~~~(BitVec.ofNat 10 (word w))
                                                                    broken := s.parts[p].dev.broken && !(word w).testBit 31 } }
          ∧ (∀ q : PartId, q ≠ p → t.parts[q] = s.parts[q]) ∧ t.tmg = s.tmg ∧ t.squares = s.squares)
  ∧ (∀ (s : State) (w : RegWr), served s 0 = true → w.fn = 0 → full4 w = true → quietCycle s = true →
    Answers (.devChipCauseWrite w) s fun t =>
      t.tmg = { s.tmg with devCause := s.tmg.devCause &&& ~~~(BitVec.ofNat 10 (word w)) } ∧ t.parts = s.parts ∧ t.squares = s.squares)
  ∧ (∀ (s : State) (n : SqId) (w : RegWr), servedSq s w.fn n = true → full4 w = true → quietCycle s = true →
    Answers (.fpStatusWrite n w) s fun t =>
      t.squares[n] = { s.squares[n] with fp := s.squares[n].fp &&& ~~~(BitVec.ofNat 6 (word w)) } ∧ OtherSquares n s t)
  ∧ (∀ (s : State) (n : SqId) (k : Fin 2) (w : RegWr), servedSq s w.fn n = true → full4 w = true → quietCycle s = true → (word w).testBit 25 = true →
    Answers (.mxFoldWrite n k w) s fun t =>
      let m := s.squares[n].mx
      t.squares[n] = { s.squares[n] with mx := { m with fold := m.fold.set k { m.fold[k] with exceeded := false } } } ∧ OtherSquares n s t)
  ∧ ∀ (s : State) (n : SqId) (e : Fin 32) (w : RegWr), servedSq s w.fn n = true → full4 w = true → quietCycle s = true →
    Answers (.chnStatWrite n e w) s fun t =>
      let x := s.squares[n].eps[e]
      t.squares[n] = { s.squares[n] with eps := s.squares[n].eps.set e { x with sreset := x.sreset && !(word w).testBit 16, refused := x.refused && !(word w).testBit 17 } }
        ∧ OtherSquares n s t

/-! ### Lungo (09) -/

/-- LGO_RAIL_MOVE and LGO_RAIL_SETTLED (R257, R259): with no Lungo partition launched the effective level is the smallest that caps and floor allow, and VDD_LGO goes
25 mV per level below VDD_CORE; while one is launched the level does not rise, so the rail is not lowered. RANK_RAIL_SWITCH (R262, R263): a quiet rank
takes the rail that its squares' partitions want, VDD_CORE where a partition waits for it (R263), and nothing waits for it any more; a halted square whose resume waited for
the switch runs on from where it stands once its partition's ranks are on their rail (the model's reading of R263, log 42). LGO_DROOP_ALARM and DROOP_CAP_LIFT (R272): an alarm caps the level one below the effective level; 1 ms after the last
alarm the cap goes. -/
def Obligations.LungoRailFollowsLevel : Prop :=
  ((∀ s : State, s.avs.vcore ≠ 0 → Answers .lgoRailMove s fun t =>
    let lim := min (cappedLevel s (lgoCaps s)) (floorLevel s.avs.vcore.toNat)
    (lungoLaunched s = false → t.lungo.effective = BitVec.ofNat 3 lim)
      ∧ (lungoLaunched s = true → t.lungo.effective = BitVec.ofNat 3 (min lim s.lungo.effective.toNat))
      ∧ t.avs.vlgo = BitVec.ofNat 10 (s.avs.vcore.toNat - 25 * t.lungo.effective.toNat) ∧ t.avs.vcore = s.avs.vcore ∧ t.squares = s.squares ∧ t.lungo.ranks = s.lungo.ranks)
  ∧ (∀ s : State, s.lungo.moving = true → Answers .lgoRailSettled s fun t =>
    t = { s with lungo := { s.lungo with moving := false, offset := BitVec.ofNat 8 (s.avs.vcore.toNat - s.avs.vlgo.toNat) } })
  ∧ ∀ (s : State) (r : Fin 8), rankQuiet s r = true →
    ((∀ p : PartId, s.parts[p].resumeWait = 0) → Answers (.rankRailSwitch r) s fun t =>
      t.lungo.ranks.getLsbD r.val = (rankWants s r && !rankDue s r) ∧ (∀ p : PartId, t.parts[p].railDue.getLsbD r.val = false)
        ∧ (∀ k, k ≠ r.val → t.lungo.ranks.getLsbD k = s.lungo.ranks.getLsbD k) ∧ t.squares = s.squares)
    ∧ ∀ (p : PartId) (n : SqId), (∀ q : PartId, s.parts[q].resumeWait = if q = p then BitVec.twoPow 64 n.val else 0) → s.squares[n].core.st = .halted →
      railReady (switchRank s r) p = true → Answers (.rankRailSwitch r) s fun t =>
        let c := s.squares[n].core
        let d := t.squares[n].core
        d.st = .running ∧ d.idx = c.idx ∧ d.s = c.s ∧ d.v = c.v ∧ t.parts[p].resumeWait = 0 ∧ t.squares[n].mem = s.squares[n].mem ∧ OtherSquares n s t)
  ∧ ((∀ s : State, Answers .lgoDroopAlarm s fun t =>
    t.lungo.effective.toNat ≤ s.lungo.effective.toNat - 1 ∧ t.lungo.caps.getLsbD 2 = true ∧ (t.lungo.droop.map (·.2)) = some (nowCt s) ∧ t.squares = s.squares)
  ∧ ∀ (s : State) (d : BitVec 3) (c : Nat), s.lungo.droop = some (d, c) → c + 1000000 ≤ nowCt s →
    Answers .droopCapLift s fun t => t.lungo.droop = none ∧ t.lungo.caps.getLsbD 2 = false ∧ t.squares = s.squares)


/-! ### Links (10) -/

/-- FRAME_TRANSMIT (R278, R279): in its period link l sends its next frame and numbers it; frame 1,023 of every 1,024 is an ADAPT frame; on an UP link with nothing
to replay the others are DATA frames that carry the next FSEQ. LINK_FLIT_HANDOFF (R283, R289): a one-flit stream message that has reached its port leaves the mesh: its
MSG record, stamped with the hand-off count, and its flit join the link's queues; that its endpoint counts it as under way on other chips is the model's (log 35). -/
def Obligations.FramesAndFlitsGoInOrder : Prop :=
  (∀ (s : State) (l : LinkId), s.links[l].st ≠ .off → s.links[l].st ≠ .idle → frameStart7 s.links[l] s.links[l].frameNo ≤ 7 * nowCt s →
    Answers (.frameTransmit l) s fun t =>
      t.links[l].frameNo = s.links[l].frameNo + 1 ∧ t.links[l].st = s.links[l].st ∧ t.squares = s.squares ∧ (∀ k : LinkId, k ≠ l → t.links[k] = s.links[k])
        ∧ ∃ f, Emitted s t (.frame l (wireFrame f))
            ∧ (s.links[l].frameNo % 1024 = 1023 → frType f = 3)
            ∧ (s.links[l].frameNo % 1024 ≠ 1023 → s.links[l].st = .up → s.links[l].replayFrom = none →
                frType f = 1 ∧ frSeq f = s.links[l].fseq ∧ t.links[l].fseq = s.links[l].fseq + 1))
  ∧ (∀ (s : State) (l : LinkId) (m : Msg) (a : Nat) (c : Fin 32), s.msgs = [m] → m.link = some l → m.kind = .stream → m.via = none → m.net = .stream → m.rec_ = none → m.arrive = [a] → a ≤ nowCc s → m.flits = 1 →
    m.committed = 0 → m.refuse = none → s.links[l].st = .up → handoffChannel s.links[l] m l = some c →
    Answers (.linkFlitHandoff l) s fun t =>
      t.msgs = [] ∧ t.links[l].txRecs = s.links[l].txRecs ++ [mkRecord 1 c m.epoch.toNat (ctFrom s a) (m.doff / 64 * 4)]
        ∧ (t.links[l].txFlits.map fun x => (x.lch, x.data)) = (s.links[l].txFlits.map fun x => (x.lch, x.data)) ++ [(c, wireFlit m 0)]
        ∧ t.squares[m.owner].eps[m.ep].away = s.squares[m.owner].eps[m.ep].away + 1 ∧ t.squares[m.owner].eps[m.ep].credits = s.squares[m.owner].eps[m.ep].credits
        ∧ t.squares[m.owner].core = s.squares[m.owner].core ∧ t.squares[m.owner].mem = s.squares[m.owner].mem ∧ OtherSquares m.owner s t
        ∧ ∀ k : LinkId, k ≠ l → t.links[k] = s.links[k])

/-- DATA_FRAME (R277, R293, R304): in Relaxed a frame with a codeword beyond correction is discarded, its uncorrectable codewords are counted, and it is asked for again
by a NAK of its FSEQ; a good DATA frame in order is acknowledged by its FSEQ, and its corrected codewords are counted. ADAPT_FRAME (R278) leaves the state as it is, the
equalisation and its codewords being no state of the model (log 87). -/
def Obligations.ReceivedFramesAnswered : Prop :=
  (∀ (s : State) (l : LinkId) (low high : HalfLanes),
    let x : Lanes := low ++ high
    s.links[l].st = .up → s.tmg.strictAny = false → s.links[l].partnerStrict = false → s.links[l].awaiting = none → (rxFrame x).frame = none →
    Answers (.dataFrame l low high) s fun t =>
      t.links[l].uncorr = satInc s.links[l].uncorr (rxFrame x).lost ∧ t.links[l].awaiting = some (s.links[l].lastGood + 1) ∧ t.links[l].lastGood = s.links[l].lastGood
        ∧ t.links[l].txRecs = s.links[l].txRecs ++ [mkRecord 8 0 0 (ctFrom s (nowCc s)) (s.links[l].lastGood + 1).toNat]
        ∧ t.links[l].arrivals = s.links[l].arrivals ∧ t.squares = s.squares)
  ∧ (∀ (s : State) (l : LinkId) (low high : HalfLanes) (f : BitVec 10280),
    let x : Lanes := low ++ high
    s.links[l].st = .up → s.tmg.strictAny = false → s.links[l].awaiting = none → (rxFrame x).frame = some f → crcGood f = true → frameBad f = false → frType f = 1 → frStrict f = false → 1024 ≤ (s.links[l].lastGood - frSeq f).toNat →
    stampAhead s f = false →
    Answers (.dataFrame l low high) s fun t =>
      t.links[l].lastGood = frSeq f ∧ t.links[l].corr = satInc s.links[l].corr (rxFrame x).corrected ∧ t.links[l].awaiting = none)
  ∧ ∀ (s : State) (l : LinkId), Answers (.adaptFrame l) s fun t => t = s

/-- TRAIN_FRAME (R300, R301): an equalised link goes to IDENT, one that is not stays. In IDENT the partner is the one promised when its match identity and its rate are
this chip's, its position is one step along the link's direction round the ring of its dimension (R295), its link number is of the opposite direction's pair, and the
dimension has a neighbour: the link then goes to TIME without an event, and otherwise to MISWIRED with the event of R301. What the partner reports of itself is kept
(R302, R303). -/
def Obligations.TrainingIdentifiesPartner : Prop :=
  ∀ (s : State) (l : LinkId) (x : Line) (eq : Bool), bits (tpByte x 4) 7 3 = 0 → x.toNat >>> (8 * 42) = 0 → (tpByte x 0).toNat ≤ 2 →
    (s.links[l].st = .train → Answers (.trainFrame l x eq) s fun t =>
      t.links[l].st = (if eq then .ident else .train) ∧ t.ev = s.ev ∧ t.squares = s.squares ∧ ∀ k : LinkId, k ≠ l → t.links[k] = s.links[k])
    ∧ (s.links[l].st = .ident →
      let r := s.links[l].matchReg
      let me := s.pins.straps.pos.toNat
      let on := fun (a b : Nat) => l.val = a ∨ l.val = b
      let up := fun (size c : Nat) => (c + 1) % size
      let dn := fun (size c : Nat) => (c + size - 1) % size
      let sx := bits r 2 0 + 1
      let sy := bits r 5 3 + 1
      let sz := bits r 7 6 + 1
      let px := if on 4 5 then up sx (me % 8) else if on 0 1 then dn sx (me % 8) else me % 8
      let py := if on 6 7 then up sy (me / 8 % 8) else if on 2 3 then dn sy (me / 8 % 8) else me / 8 % 8
      let pz := if on 10 11 then up sz (me / 64) else if on 8 9 then dn sz (me / 64) else me / 64
      let far := if on 4 5 then 0 else if on 0 1 then 4 else if on 6 7 then 2 else if on 2 3 then 6 else if on 10 11 then 8 else 10
      let size := if l.val < 2 ∨ on 4 5 then sx else if l.val < 8 then sy else sz
      let promised := x.extractLsb' 48 32 = s.mtch.matchId ∧ bit (tpByte x 4) 1 = s.links[l].rate ∧ (tpByte x 1).toNat = px + 8 * py + 64 * pz
        ∧ ((tpByte x 3).toNat = far ∨ (tpByte x 3).toNat = far + 1) ∧ 1 < size
      Answers (.trainFrame l x eq) s fun t =>
        (promised → t.links[l].st = .time ∧ t.ev = s.ev)
          ∧ (¬ promised → t.links[l].st = .miswired ∧ (t.ev.history.head?.map (·.code)) = some 0x0A01)
          ∧ t.links[l].npos = tpByte x 1 ∧ t.links[l].nlink = BitVec.ofNat 4 (tpByte x 3).toNat ∧ t.links[l].partnerHops = tpByte x 5
          ∧ t.squares = s.squares ∧ ∀ k : LinkId, k ≠ l → t.links[k] = s.links[k])
    ∧ (s.links[l].st = .time ∨ s.links[l].st = .up → Answers (.trainFrame l x eq) s fun t =>
      t.links[l].st = s.links[l].st ∧ t.links[l].partnerHops = tpByte x 5 ∧ t.links[l].partnerStrict = bit (tpByte x 4) 2 ∧ t.ev = s.ev ∧ t.squares = s.squares)

/-- LINK_LANDING (R286, R289): on a Strict chip what has arrived lands once its landing count has come and not before, a credit also where the message before it on its
channel has not come whole; a message enters the mesh on its ingress route, a credit is added at the endpoint that it is for, whose count of what is under way on other
chips falls by it (the model's, log 35). On a Relaxed chip it lands on arrival (R293). -/
def Obligations.ArrivalLands : Prop :=
  (∀ (s : State) (l : LinkId) (c : Fin 32) (a : Arrival) (done : Nat), s.links[l].arrivals = [a] → a.lch = c → a.drop = false → a.done = some done →
    s.clk.frameOn = true →
    ((s.tmg.strictAny = true → a.stamp + headCt s ≤ nowCt s) →
      (∀ n d m, a.kind = .msg n d → chKind s.links[l].ch[c] = 0 → rtValid s.links[l].irt[c] = true → ingressMsg s l c a = some m →
        Answers (.linkLanding l c) s fun t => t.msgs = s.msgs ++ [m] ∧ t.links[l].arrivals = [] ∧ t.squares = s.squares)
      ∧ ∀ n q e, a.kind = .credit n → creditTarget s l c = some (q, e) → passesFrom s q e = none →
          n ≤ outCred s.squares[q].eps[e].outc - s.squares[q].eps[e].credits.toNat →
        Answers (.linkLanding l c) s fun t => t.squares[q].eps[e].credits = s.squares[q].eps[e].credits + BitVec.ofNat 5 n
          ∧ t.squares[q].eps[e].away = s.squares[q].eps[e].away - n ∧ t.msgs = s.msgs ∧ OtherSquares q s t)
    ∧ (s.tmg.strictAny = true → nowCt s < a.stamp + headCt s → Answers (.linkLanding l c) s fun t => t = s))
  ∧ ∀ (s : State) (l : LinkId) (c : Fin 32) (m a : Arrival) (k d n done : Nat) (q : SqId) (e : Fin 32), s.links[l].arrivals = [m, a] → s.tmg.strictAny = true →
    m.lch = c → m.kind = .msg k d → m.done = none → a.lch = c → a.drop = false → a.kind = .credit n → a.done = some done → s.clk.frameOn = true →
    a.stamp + headCt s ≤ nowCt s → creditTarget s l c = some (q, e) → passesFrom s q e = none →
    n ≤ outCred s.squares[q].eps[e].outc - s.squares[q].eps[e].credits.toNat →
    Answers (.linkLanding l c) s fun t => t.links[l].arrivals = [m] ∧ t.squares[q].eps[e].credits = s.squares[q].eps[e].credits + BitVec.ofNat 5 n
      ∧ t.msgs = s.msgs ∧ OtherSquares q s t

/-- LINK_TRAIN_START, LINK_TIME_EXCHANGE, LINK_UP and LNK_DOWN (R298, R300, R302, R310): training takes the match register in force; the exchange measures D, rounded
up, and decides STRICT_OK by H; a measured link comes UP; a link that goes down discards what has arrived and the flits that wait. -/
def Obligations.LinkComesUpAndGoesDown : Prop :=
  (∀ (s : State) (l : LinkId), s.links[l].st = .idle ∨ s.links[l].st = .down → s.king.stage = .running → domOn s (domLink l) = true →
    Answers (.linkTrainStart l) s fun t => t.links[l].st = .train ∧ t.mtch.inForce = s.mtch.reg ∧ t.links[l].timed = false ∧ t.squares = s.squares)
  ∧ (∀ (s : State) (l : LinkId) (x : TimeStamps), s.links[l].st = .time ∨ s.links[l].st = .up →
    Answers (.linkTimeExchange l x) s fun t =>
      t.links[l].d = BitVec.ofNat 12 (min 4095 (ceilDiv ((x.t2 - x.t1) + (x.t4 - x.t3)).toNat 16)) ∧ t.links[l].timed = true
        ∧ t.links[l].strictOk = decide (hMin t.links[l] ≤ headCt s) ∧ t.links[l].st = s.links[l].st ∧ t.squares = s.squares)
  ∧ (∀ (s : State) (l : LinkId), s.links[l].st = .time → s.links[l].timed = true → Answers (.linkUp l) s fun t => t.links[l].st = .up ∧ t.squares = s.squares)
  ∧ ∀ (s : State) (l : LinkId), s.links[l].st = .up →
    Answers (.lnkDown l) s fun t => t.links[l].st = .down ∧ t.links[l].arrivals = [] ∧ t.links[l].txFlits = [] ∧ t.links[l].tsrc = false

/-- RETRAIN, CLOSE and LINK_GATE (R298, R309): a retrain starts training again under the match registers as they stand; CLOSE tells the partner and closes the domain;
once both ends have closed and nothing is left on the way, the link gates, and that it keeps its tables is the model's reading (log 38). LNK_MATCH_WRITE (R298): taken while nothing is launched, refused and
counted otherwise. -/
def Obligations.LinkControlAndMatchWrites : Prop :=
  ((∀ (s : State) (l : LinkId) (w : RegWr), served s w.fn = true → w.fn = 0 → full4 w = true → s.links[l].st = .up →
    ((word w).testBit 0 = true → (word w).testBit 1 = false → s.king.stage = .running → domOn s (domLink l) = true →
      Answers (.retrain l w) s fun t => t.links[l].st = .train ∧ t.links[l].tsrc = false ∧ t.mtch.inForce = s.mtch.reg ∧ t.squares = s.squares)
    ∧ ((word w).testBit 0 = false → (word w).testBit 1 = true →
      Answers (.close l w) s fun t => t.links[l].st = .closing ∧ t.power.dom[domLink l] = .closing
        ∧ t.links[l].txRecs = s.links[l].txRecs ++ [mkRecord 0x0A 0 0 (ctFrom s (nowCc s)) 0] ∧ t.squares = s.squares))
  ∧ ∀ (s : State) (l : LinkId), s.links[l].st = .closing → s.links[l].closeRcvd = true → s.links[l].arrivals = [] → s.links[l].beats = [] →
    s.links[l].txRecs = [] → s.links[l].txFlits = [] →
    Answers (.linkGate l) s fun t => t.power.dom[domLink l] = .gated ∧ t.links[l].st = .off ∧ t.links[l].slot = s.links[l].slot ∧ t.squares = s.squares)
  ∧ (∀ (s : State) (w : RegWr), served s w.fn = true → w.fn = 0 → full4 w = true →
    (anyLaunched s = false → Answers (.lnkMatchWrite w) s fun t => t.mtch = { s.mtch with reg := BitVec.ofNat 32 (word w &&& 0xFFF3FFFF) } ∧ t.squares = s.squares)
    ∧ (anyLaunched s = true → Answers (.lnkMatchWrite w) s fun t => t.mtch = s.mtch ∧ t.links = s.links ∧ t.parts[w.fn].violReg = satInc s.parts[w.fn].violReg))

/-- COPY_BEAT_FORWARD and REMOTE_COPY_BEAT_WRITE (R305, R306): 64 ct after it came, a beat for another chip joins the queues of its next hop; a beat of one aligned line for
this chip is written to its handle in a turn of the copy engines; with the last beat of a part its handle counts one arrival in Relaxed, and in Strict the part waits whole
for its landing count (R308). -/
def Obligations.RemoteBeatsForwardedAndWritten : Prop :=
  (∀ (s : State) (l l2 : LinkId) (c : Fin 32) (b : CopyBeat), firstBeat s l false = some b → b.at_ + 64 ≤ nowCt s → domOn s domEngine = true → b.flag = none →
    l2 ≠ l → copyHop s b.pos (chOwner s.links[l].ch[b.lch]) (chClass s.links[l].ch[b.lch]) = some (l2, c) →
    Answers (.copyBeatForward l) s fun t =>
      t.links[l].beats = s.links[l].beats.erase b ∧ (t.links[l2].txRecs.length = s.links[l2].txRecs.length + 2)
        ∧ (t.links[l2].txFlits.map fun x => (x.lch, x.data)) = (s.links[l2].txFlits.map fun x => (x.lch, x.data)) ++ b.data.map (fun d => (c, d)) ∧ t.squares = s.squares)
  ∧ ∀ (s : State) (l : LinkId) (b : CopyBeat) (x : Line),
    let p := chOwner s.links[l].ch[b.lch]
    let a := (hdlBase (hdlOf s.squares[b.sq] b.handle.toNat) + b.off) % spBytes
    firstBeat s l true = some b → domOn s domEngine = true → ceTurn s = true → b.flag = none → b.done = [] → b.data = [x] → b.lines = 1 →
    s.snp[p].restore = none → beatCheck s p b = 0 → a % 64 = 0 → banksUsed s b.sq = [] →
    Answers (.remoteCopyBeatWrite l) s fun t =>
      memLine t.squares[b.sq].mem a = x ∧ (∀ k, k < a ∨ a + 64 ≤ k → memByte t.squares[b.sq].mem k = memByte s.squares[b.sq].mem k)
        ∧ (hdlOf t.squares[b.sq] b.handle.toNat).count
            = (hdlOf s.squares[b.sq] b.handle.toNat).count + (if b.last && !s.parts[p].strict then 1 else 0)
        ∧ (b.last = true → s.parts[p].strict = true → ∃ r ∈ t.mtch.remote, r.sq = b.sq ∧ r.handle = b.handle ∧ r.whole = some (nowCc s))
        ∧ t.squares[b.sq].core = s.squares[b.sq].core ∧ OtherSquares b.sq s t

/-! ### Serving (11) -/

/-- SRV_CTL_WRITE, SERVING_ENABLE, STARTUP_SCAN_DONE and SERVING_DISABLE (R312, R314): the block's registers are written while EN is clear and refused while it is
set or to a virtual function; EN is taken where the tables have their places; the scan without a book that reaches the free list frees every page and sets READY, once the
walker's turn table serves the partition (R374; that it takes one turn is the model's choice, log 108); clearing EN ends every request. -/
def Obligations.ServingBlockStartsAndStops : Prop :=
  (∀ (s : State) (p : PartId) (reg : Fin 10) (w : RegWr), servedOwn s w.fn p = true → full8 w = true → 1 ≤ reg.val → reg.val ≤ 6 →
    (w.fn = 0 → s.srv[p].en = false → Answers (.srvCtlWrite p reg w) s fun t =>
      (reg = 5 → t.srv[p] = { s.srv[p] with samp := w.data })
        ∧ (reg = 6 → t.srv[p] = { s.srv[p] with budget := BitVec.ofNat 64 (bits w.data 43 0) })
        ∧ t.srv[p].en = false ∧ (∀ q : PartId, q ≠ p → t.srv[q] = s.srv[q]) ∧ t.squares = s.squares ∧ t.parts = s.parts)
    ∧ (w.fn ≠ 0 ∨ s.srv[p].en = true → Answers (.srvCtlWrite p reg w) s fun t =>
      t.srv = s.srv ∧ t.parts[w.fn].violReg = satInc s.parts[w.fn].violReg ∧ t.squares = s.squares))
  ∧ (∀ (s : State) (p : PartId), s.apt = [] → s.snp[p].job = none → s.srv[p].en = false → srvMayEnable s p s.srv[p] = true →
    Answers (.servingEnable p) s fun t =>
      t.srv[p] = { s.srv[p] with en := true, ready := false, opened := some (nowCt s / (320 * s.srv[p].frameLen.toNat)) }
        ∧ t.squares = s.squares ∧ t.parts = s.parts ∧ t.hbm = s.hbm)
  ∧ (∀ (s : State) (p : PartId), s.srv[p].en = true → s.srv[p].ready = false → domOn s domEngine = true → s.srv[p].book_ = false → s.snp[p].job = none →
    scanReach s p = true → s.walk = [] → (∃ i : Fin 16, turnEntry s 0 i.val = some (p, 2)) →
    Answers (.startupScanDone p .clean) s fun t =>
      t.srv[p].ready = true ∧ t.srv[p].slots = [] ∧ t.srv[p].free.Perm (List.range (kvPages s.srv[p])) ∧ t.squares = s.squares ∧ t.parts = s.parts)
  ∧ ∀ (s : State) (p : PartId), s.apt = [] → s.srv[p].en = true → s.snp[p].job = none →
    Answers (.servingDisable p) s fun t =>
      t.srv[p].en = false ∧ t.srv[p].ready = false ∧ t.srv[p].slots = [] ∧ t.srv[p].step = none ∧ t.squares = s.squares

/-- FRAME_BOUNDARY (R316 to R318): the boundary opens the next service frame; where every slot's request has ended, the slots are free, their tables being in reach, and the batch table says
that the frame has no entry; the batch flag is set in the boundary's cycle. The work waits for a turn of the walker that serves the partition (R374; that it takes one is the
model's choice, log 108). That a boundary before READY opens its number and does nothing else is the model's reading (log 51). -/
def Obligations.FrameBoundaryOpensFrame : Prop :=
  ∀ (s : State) (p : PartId) (g a : Nat), s.srv[p].opened = some g → s.srv[p].en = true → (g + 1) * (320 * s.srv[p].frameLen.toNat) ≤ nowCt s →
    atSnapshotPoint s p = false → domOn s domEngine = true → s.srv[p].book_ = false → s.snp[p].job = none →
    s.walk = [] → (∃ i : Fin 16, turnEntry s 0 i.val = some (p, 2)) →
    (s.srv[p].ready = false → Answers (.frameBoundary p .clean) s fun t =>
      t.srv[p] = { s.srv[p] with opened := some (g + 1), frameNo := BitVec.ofNat 64 (g + 1) } ∧ t.squares = s.squares ∧ t.hbm = s.hbm)
    ∧ (s.srv[p].ready = true → (∀ r ∈ s.srv[p].slots, r.ended.isSome = true ∧ r.nodes.all (nodeReach s p) = true) →
        (∀ k, k ≤ s.srv[p].free.length + s.srv[p].slots.foldl (fun n r => n + r.priv.length) 0 → freeReach s p k = true) →
        tableAt s p (batchBase s.srv[p]) (((g + 1) % 2) * batchStride s.srv[p]) 576 = some a →
      Answers (.frameBoundary p .clean) s fun t =>
        t.srv[p].opened = some (g + 1) ∧ t.srv[p].slots = [] ∧ hbmNat t a 8 = (g + 1) % 2 ^ 64 ∧ hbmNat t (a + 8) 2 = 0 ∧ hbmNat t (a + 10) 2 = 0
          ∧ (∃ w ∈ t.flags.writes, w.flag = flagOf (batchFflag s.srv[p]) ∧ w.val = true ∧ w.cc = nowCc s) ∧ t.squares = s.squares)

/-- ADMISSION_DECISION of a partition without a book (R319, R320, R322): a record that passes every check takes the lowest free slot and the first pages of the free
list for all its blocks, and the job completes with status 0 and its slot. The checks of R319 in their order, each with its code, and nothing taken: 2 for a record, or an
address in it, outside the partition, 3 for a field out of range, 4 for a variation that the directory does not hold, 5 without a free slot, 6 without the pages, 7 for
a first token beyond DEADLINE. How far each array of the record reaches, and which class a job with an unreadable record waits in, are the model's readings (logs 49, 50). -/
def Obligations.AdmissionTakesSlotAndPages : Prop :=
  ∀ (s : State) (p : PartId) (blitz : Bool) (c : Fin 3) (j : Job), s.deciding[(if blitz then 0 else 1 : Fin 2)] = some (p, c) → domOn s domEngine = true →
    s.srv[p].book_ = false → s.snp[p].job = none → s.walk = [] → s.srv[p].waiting = [j] → admJob s p c = some j → s.srv[p].en = true → s.srv[p].ready = true →
    ringRoom s p = true →
    let v := s.srv[p]
    let ends := fun (t : State) (code : Nat) => t.srv[p].waiting = [] ∧ t.squares = s.squares
      ∧ ∃ i e, Emitted s t (.completion p i e) ∧ bits e 31 0 = (jobId j.body).toNat ∧ bits e 39 32 = 6 ∧ bits e 47 40 = code
    let refused := fun (code : Nat) => Answers (.admissionDecision p blitz .clean) s fun t =>
      t.srv[p].slots = v.slots ∧ t.srv[p].free = v.free ∧ t.hbm = s.hbm ∧ ends t code
    (rcdAt s p j = none → refused 2)
    ∧ ∀ r : BitVec 1024, rcdAt s p j = some r →
      let out := fun (base n : Nat) => tableAt s p base 0 (max n 4) = none
      (rPlen r + rMaxnew r ≤ 2097120 →
        out (rPrompt r) (4 * rPlen r) ∨ out (rOut r) (4 * rMaxnew r) ∨ out (rPtab r) (32 * rBlocks r) ∨ out (rRepc r) 32768
          ∨ (rMaskKind r = 1 ∧ out (rMask r) (4 * min 4096 (rNlist r))) ∨ (rMaskKind r = 2 ∧ out (rMask r) (16 * (rNlist r + 1))) → refused 2)
      ∧ (rcdInside s p r = true →
        (rPlen r = 0 ∨ rMaxnew r = 0 ∨ 2097120 < rPlen r + rMaxnew r ∨ 256 < rTopk r ∨ 2 < rClass r ∨ 2 < rMaskKind r ∨ rVocab r = 0 ∨ 262144 < rVocab r
            ∨ rVocab r ≤ rEos r ∨ (rMaskKind r = 1 ∧ 4096 < rNlist r) ∨ rcdF r 108 20 ≠ 0 → refused 3)
        ∧ (rcdSound s p r = true →
          (4096 ≤ rVar r ∧ rVar r ≠ 0xFFFF → refused 4)
          ∧ (∀ a, rVar r < 4096 → tableAt s p (varBase v) (16 * rVar r) 16 = some a → (hbmNat s a 16).testBit 127 = false → refused 4)
          ∧ (rcdVarOk s p r = true →
            (freeSlot v = none → refused 5)
            ∧ ∀ slot, freeSlot v = some slot → takeReach s p slot = true →
              (v.free.length < srvP v * rBlocks r → refused 6)
              ∧ (srvP v * rBlocks r ≤ v.free.length →
                (tooLate v r 0 = true → refused 7)
                ∧ (tooLate v r 0 = false → Answers (.admissionDecision p blitz .clean) s fun t =>
                  ends t 0 ∧ (∃ q : Req, t.srv[p].slots = v.slots ++ [q] ∧ q.slot = slot ∧ q.rcd = r ∧ q.pos = rPlen r ∧ q.ngen = 0 ∧ q.ended = none
                    ∧ q.pages = v.free.take (srvP v * rBlocks r))
                    ∧ t.srv[p].free = v.free.drop (srvP v * rBlocks r) ∧ ∃ i e, Emitted s t (.completion p i e) ∧ bits e 191 128 = slot % 2 ^ 64)))))

/-- SAMPLER_STEP (R332, R333, R374) of a step with one entry whose slot does not sample, once the sampler sees SFLAG and the rotation serves the partition: SFLAG is cleared,
the entry's token reads 0xFFFFFFFF, DFLAG is set, and every
other byte of HBM stays. With TEMP zero the token picked has the greatest value, and of equal ones the lowest number (R334). -/
def Obligations.SamplerStepAndGreedyPick : Prop :=
  (∀ (s : State) (p : PartId) (a b i : Nat) (c c' : Fin 3), s.srv[p].en = true → s.srv[p].step = none → domOn s domEngine = true →
    engineView s (flagOf (sampSflag s.srv[p])) = true → s.snp[p].job = none → tableAt s p (sampBase s.srv[p]) 0 16 = some a →
    tableAt s p (sampBase s.srv[p]) 16 16 = some b → stepClass s a = some c' → engineTurn s 2 (stepPending s) = some (i, p, c) →
    hbmNat s a 4 = 1 → (∀ q ∈ s.srv[p].slots, q.slot = hbmNat s b 2 → sampling q = false) →
    Answers (.samplerStep p .clean) s fun t =>
      hbmNat t (b + 4) 4 = 0xFFFFFFFF ∧ (∀ k, k < b + 4 ∨ b + 8 ≤ k → memByte t.hbm.mem k = memByte s.hbm.mem k)
        ∧ (∃ o q, t.flags.writes = s.flags.writes ++ [o, q] ∧ o.flag = flagOf (sampSflag s.srv[p]) ∧ o.val = false
            ∧ q.flag = flagOf (sampDflag s.srv[p]) ∧ q.val = true)
        ∧ t.srv = s.srv ∧ t.squares = s.squares ∧ t.parts = s.parts)
  ∧ ∀ (r : BitVec 1024) (pos fr tok : Nat) (cands : List Cand) (n : Bool) (e : Int), fpDecode .b32 (rTemp r) = .fin n 0 e → (∀ c ∈ cands, c.2 ≠ .nan) →
    pickToken r pos fr cands = some tok →
    ∃ v, (tok, v) ∈ cands ∧ ∀ c ∈ cands, fvLt v c.2 = false ∧ (fvLt c.2 v = false → tok ≤ c.1)

/-! ### Snapshots (12) -/

/-- SNP_CTL_WRITE, SEAL_SIGNAL, SEAL_CYCLE, DRAIN_COMPLETE and DRAIN_TIMEOUT (R344 to R346, R348, R357): PROT is written only while EN is clear, and what it no longer marks is tracked and captured no more; 320 ct before
the sealed count the signal goes out; at the count the generation opens and running squares take the tag; a drain that lasts too long empties the
generation and completes with 7; a drain that is over leaves every page to capture. -/
def Obligations.SnapshotPointIsReached : Prop :=
  (∀ (s : State) (p : PartId) (w : RegWr), servedOwn s w.fn p = true → full8 w = true →
    (w.fn = 0 → s.snp[p].en = false → Answers (.snpCtlWrite p 1 w) s fun t =>
      let on := fun (k : Nat) => w.data.getLsbD (k / 1152)
      t.snp[p] = { s.snp[p] with prot := w.data
                                 job := s.snp[p].job.map fun j => { j with grans := j.grans.filter on, wantGrans := j.wantGrans.filter on
                                                                           caps := j.caps.filter fun c => c.page.isSome || on c.gran }
                                 gens := s.snp[p].gens.map fun g => { g with dirty := g.dirty.filter fun e => on e.1 } }
        ∧ t.squares = s.squares ∧ t.parts = s.parts)
    ∧ (w.fn ≠ 0 ∨ s.snp[p].en = true → Answers (.snpCtlWrite p 1 w) s fun t =>
      t.snp = s.snp ∧ t.parts[w.fn].violReg = satInc s.parts[w.fn].violReg ∧ t.squares = s.squares))
  ∧ (∀ (s : State) (p : PartId) (j : SnpJob), s.snp[p].job = some j →
    (j.phase = .armed → j.count ≤ nowCt s + 320 → Answers (.sealSignal p) s fun t =>
      t.snp[p].job = some { j with phase := .signalled } ∧ t.snp[p].gens = s.snp[p].gens ∧ t.squares = s.squares)
    ∧ (s.parts[p].snapQ = [] → j.phase = .signalled → s.clk.frameOn = true → ccFrom s j.count ≤ nowCc s → Answers (.sealCycle p) s fun t =>
      let g := t.snp[p].gens[j.gen]
      g.st = .open_ ∧ g.genNo = (nextGen s.snp[p]).2 ∧ g.adjourned = j.adjourn ∧ g.unclean = false
        ∧ (∀ n ∈ placedOf s p, s.squares[n].core.st = .running ∨ s.squares[n].core.st = .stalled → t.squares[n].core.sealTag = some (j.btag, j.tmask))
        ∧ ∀ n : SqId, t.squares[n].mem = s.squares[n].mem ∧ t.squares[n].core.idx = s.squares[n].core.idx)
    ∧ (s.parts[p].snapQ = [] → ringRoom s p = true → j.phase = .draining → j.since + 10000000 ≤ nowCt s → Answers (.drainTimeout p) s fun t =>
      t.snp[p].job = none ∧ t.snp[p].gens[j.gen].st = .empty
        ∧ ∃ i e, Emitted s t (.completion p i e) ∧ bits e 31 0 = j.jobId.toNat ∧ bits e 39 32 = j.type.toNat ∧ bits e 47 40 = 7)
    ∧ (j.phase = .draining → drainedNow s p = true → j.adjourn = false → squaresOf s p ≠ [] → Answers (.drainComplete p) s fun t =>
      (t.snp[p].job.map fun x => (x.phase, x.drained, x.grans)) = some (.pause, true, s.snp[p].gens[j.gen].dirty.map (·.1))
        ∧ (∀ n ∈ squaresOf s p, t.squares[n].uncapt = BitVec.allOnes 2048 ∧ t.squares[n].core = s.squares[n].core ∧ t.squares[n].mem = s.squares[n].mem)
        ∧ SameHbm s t))

/-- HALT_TIMEOUT (R347): a square that has not halted 1 s after the seal cycle ends the job with HALT_TIMEOUT, the squares that the seal halted resume where they stand,
and the generation becomes EMPTY. Squares whose ranks have still to change rail, or that a halt request waits for, do not resume with them (R263, R474). -/
def Obligations.HaltTimeoutEndsSnapshot : Prop :=
  ∀ (s : State) (p : PartId) (j : SnpJob), s.snp[p].job = some j → s.parts[p].snapQ = [] → ringRoom s p = true → s.parts[p].haltWait = false → j.phase = .halting →
    allStopped s p = false → j.since + 1000000000 ≤ nowCt s →
    Answers (.haltTimeout p) s fun t =>
      t.snp[p].job = none ∧ t.snp[p].gens[j.gen].st = .empty
        ∧ (∃ i e, Emitted s t (.completion p i e) ∧ bits e 31 0 = j.jobId.toNat ∧ bits e 39 32 = j.type.toNat ∧ bits e 47 40 = 6)
        ∧ (railReady s p = true → ∀ n ∈ placedOf s p, j.squares.getLsbD n.val = true → j.keep.getLsbD n.val = false → s.squares[n].core.haltLate = false →
            s.squares[n].core.st = .halted → t.squares[n].core.st = .running ∧ t.squares[n].core.idx = s.squares[n].core.idx)
        ∧ ∀ n : SqId, t.squares[n].mem = s.squares[n].mem

/-- CREMA_PAUSE_END, PAGE_CAPTURE and SNAPSHOT_RESTORE_DONE (R341, R352, R354, R361, R362): once the landing pages are captured and the pause has lasted as long as what
it captures needs, the squares that the seal halted run again; a page whose lines have been read is in the area after the time that RATE gives it, as the scratchpad holds
it, and in a cycle of another client no line is read (R64). A restore writes one line of each bank in each turn of the snapshot engine (R63), and with the last every square
of the generation's header is HALTED at its image's ply index and the other generation EMPTY. Where the ply index stands in a register image is the model's choice
(log 53). -/
def Obligations.SnapshotCapturesAndRestores : Prop :=
  (∀ (s : State) (p : PartId) (j : SnpJob) (m sq : SqId), s.snp[p].job = some j → j.phase = .pause → j.adjourn = false → s.parts[p].haltWait = false →
    (∀ n ∈ jobSquares j, landingLeft s n = []) → pauseDue s p j ≤ nowCt s → m ∈ jobSquares j → s.squares[m].uncapt ≠ 0 →
    Answers (.cremaPauseEnd ⟨p, ⟨.clean, sq⟩⟩) s fun t =>
      (t.snp[p].job.map (·.phase)) = some .background
        ∧ (railReady s p = true → ∀ n ∈ placedOf s p, j.squares.getLsbD n.val = true → j.keep.getLsbD n.val = false → s.squares[n].core.haltLate = false →
            s.squares[n].core.st = .halted → t.squares[n].core.st = .running ∧ t.squares[n].core.idx = s.squares[n].core.idx)
        ∧ ∀ n : SqId, t.squares[n].mem = s.squares[n].mem)
  ∧ (∀ (s : State) (p : PartId) (j : SnpJob) (c : Capture) (sq : SqId), s.snp[p].job = some j → j.phase = .background → j.caps = [c] → j.grans ≠ [] → nowCt s < j.pace →
    (∀ (n : SqId) (k a : Nat), c.page = some (n.val * 2048 + k) → k < 2048 → c.todo = [] → c.due ≤ nowCt s →
        areaAt s p j.gen (pageOff (recordOf j n) k) 16384 = some a →
      Answers (.pageCapture p ⟨.clean, sq⟩) s fun t =>
        (∀ i, i < 16384 → memByte t.hbm.mem (a + i) = memByte s.squares[n].mem (16384 * k + i))
          ∧ (∀ i, i < a ∨ a + 16384 ≤ i → memByte t.hbm.mem i = memByte s.hbm.mem i)
          ∧ (∀ i : Nat, t.squares[n].uncapt.getLsbD i = (s.squares[n].uncapt.getLsbD i && decide (i ≠ k)))
          ∧ t.squares[n].core = s.squares[n].core ∧ t.squares[n].mem = s.squares[n].mem ∧ OtherSquares n s t)
    ∧ (c.todo ≠ [] → c.page.isSome = true → snpTurn s = false → Answers (.pageCapture p ⟨.clean, sq⟩) s fun t =>
        SameHbm s t ∧ t.squares = s.squares ∧ (t.snp[p].job.map (·.caps)) = some [c]))
  ∧ ∀ (s : State) (p : PartId) (r : RstJob), s.snp[p].restore = some r → r.fetch = false → s.parts[p].snapQ = [] →
    let sqs := headerSquares s p r.gen
    let slice := fun (t : State) => (∀ (n : SqId) (i a : Nat), sqs[i]? = some n → areaAt s p r.gen (pageOff i 0 + 2048 * r.slice) 2048 = some a →
        (∀ k, k < 2048 → memByte t.squares[n].mem (2048 * r.slice + k) = memByte s.hbm.mem (a + k))
          ∧ ∀ k, k < 2048 * r.slice ∨ 2048 * r.slice + 2048 ≤ k → memByte t.squares[n].mem k = memByte s.squares[n].mem k)
      ∧ ∀ n, n ∉ sqs → t.squares[n].mem = s.squares[n].mem ∧ t.squares[n].core = s.squares[n].core
    (snpTurn s = false → Answers (.snapshotRestoreDone p) s fun t => t = s)
    ∧ (snpTurn s = true → slicesFree s sqs = true → r.slice + 1 < 16384 → Answers (.snapshotRestoreDone p) s fun t =>
      slice t ∧ t.snp[p].restore = some { r with slice := r.slice + 1 } ∧ (∀ n : SqId, t.squares[n].core = s.squares[n].core) ∧ t.hbm = s.hbm)
    ∧ (snpTurn s = true → slicesFree s sqs = true → 16384 ≤ r.slice + 1 → Answers (.snapshotRestoreDone p) s fun t =>
      slice t ∧ t.snp[p].restore = none ∧ t.snp[p].gens[r.gen].dirty = [] ∧ t.snp[p].gens[1 - r.gen].st = .empty
        ∧ ∀ (n : SqId) (i : Nat), sqs[i]? = some n → t.squares[n].core.st = .halted
            ∧ t.squares[n].core.idx = BitVec.ofNat 13 (areaNat s p r.gen (recordOff i + 0x108) 2))

/-- BUDDY_BEAT, BUDDY_BEAT_RECEIVE and BUDDY_ACK (R358, R359): the next beat, a header and its lines, joins the BUDDY flits of a buddy link that is UP and waits for its
acknowledgement; the second writes it into the hold area and acknowledges it on the same link, or acknowledges it as not taken; the last acknowledgement makes the
generation COMPLETE. A second that is asked for a generation of its hold area begins to send it (R363; that it holds it whole from the header's beat on is log 56). Which
slots and which buddy link a beat takes is the model's choice (log 71). -/
def Obligations.BuddyStreamCompletes : Prop :=
  (∀ (s : State) (p : PartId) (j : SnpJob) (off lines : Nat), s.snp[p].job = some j → streaming s p j.gen = true → j.beats = [(off, lines)] →
    (∃ l ∈ buddyLinks s, s.links[l].st = .up) →
    Answers (.buddyBeat (.stream p)) s fun t =>
      t.snp[p].job = some { j with beats := [], unacked := j.unacked ++ [off] } ∧ t.squares = s.squares ∧ SameHbm s t
        ∧ ∃ l h d, l ∈ buddyLinks s ∧ s.links[l].st = .up ∧ t.links[l].txBuddy = s.links[l].txBuddy ++ h :: d ∧ d.length = lines
            ∧ hdrByte h 0 = 1 ∧ bits h 127 64 = off % 2 ^ 64 ∧ ∀ k : LinkId, k ≠ l → t.links[k] = s.links[k])
  ∧ (∀ (s : State) (l : LinkId) (p : PartId) (g : Fin 2) (h x : Line), s.links[l].st = .up → s.links[l].rxBuddy = [h, x] → hdrByte h 0 = 1 →
    partOf (hdrByte h 1) = p → hdrByte h 2 % 2 = g.val → bits h 143 128 = 1 →
    let place := holdPlace s l p g.val (bits h 127 64) 64
    (∀ a, place = some a → Answers (.buddyBeatReceive l p g) s fun t =>
      memLine t.hbm.mem a = x ∧ (∀ k, k < a ∨ a + 64 ≤ k → memByte t.hbm.mem k = memByte s.hbm.mem k) ∧ t.squares = s.squares ∧ t.links[l].rxBuddy = []
        ∧ t.snp[p].held[g] = heldAfter s.snp[p].held[g] (BitVec.ofNat 32 (bits h 63 32)) (bits h 127 64)
        ∧ ∃ a, t.links[l].txBuddy = s.links[l].txBuddy ++ [a] ∧ hdrByte a 0 = 2 ∧ hdrByte a 3 = 0 ∧ bits a 127 64 = bits h 127 64)
    ∧ (place = none → Answers (.buddyBeatReceive l p g) s fun t =>
      SameHbm s t ∧ t.squares = s.squares ∧ t.links[l].rxBuddy = []
        ∧ ∃ a, t.links[l].txBuddy = s.links[l].txBuddy ++ [a] ∧ hdrByte a 0 = 2 ∧ hdrByte a 3 = 1))
  ∧ (∀ (s : State) (r : FetchReq) (g : Fin 2), bit s.snp[r.part].hold 63 = true → bits s.snp[r.part].hold 20 13 = r.fpos.toNat → heldGen s r.part r.genNo = some g →
    Answers (.buddyBeat (.fetch r)) s fun t => t.snp[r.part].send = some ⟨r.reserve, g, 0⟩ ∧ t.squares = s.squares ∧ t.hbm = s.hbm ∧ t.links = s.links)
  ∧ ∀ (s : State) (l : LinkId) (h : Line) (j : SnpJob),
    let p := partOf (hdrByte h 1)
    s.snp[p].stale = [] → s.links[l].rxBuddy = [h] → hdrByte h 0 = 2 → hdrByte h 3 = 0 → bits h 143 128 = 0 → isBuddyLink s l = true → s.snp[p].job = some j → hdrByte h 2 = j.gen.val →
    s.parts[p].snapQ = [] → ringRoom s p = true →
    bits h 63 32 = s.snp[p].gens[j.gen].genNo.toNat → j.phase = .buddy → j.beats = [] → j.unacked = [bits h 127 64] →
    Answers (.buddyAck l p) s fun t =>
      t.snp[p].job = none ∧ t.snp[p].gens[j.gen].st = .complete ∧ t.squares = s.squares ∧ t.links[l].rxBuddy = []
        ∧ ∃ i e, Emitted s t (.completion p i e) ∧ bits e 31 0 = j.jobId.toNat ∧ bits e 47 40 = genCode s.snp[p].gens[j.gen]

/-! ### Partitions (13) -/

/-- SET, RESET, DESTROY and PART_OP_COMPLETE (R368 to R371, R382): a SET that passes its checks puts the configuration in force and scrubs the squares lost, one that
fails leaves the resources; a reset stops every square of the partition, empties its queues, opens a new epoch and reads QUIESCING until the end of its cycle (log 36); the operation's end scrubs, or frees everything, and needs running firmware (log 91). -/
def Obligations.PartitionOperationsTakeEffect : Prop :=
  (∀ (s : State) (p : PartId) (w : RegWr), served s w.fn = true → full4 w = true → w.fn = 0 → partBusy s = false →
    partOf (field (word w) 0 4) = p → field (word w) 4 2 = 1 →
    (setErrOf s p s.parts[p].cfg = 0 → Answers (.set w) s fun t =>
      t.parts[p].own = s.parts[p].cfg ∧ t.parts[p].busy = true ∧ t.parts[p].st = (if s.parts[p].st = .absent then .active else s.parts[p].st)
        ∧ (∀ q : PartId, q ≠ p → t.parts[q] = s.parts[q])
        ∧ ∀ n : SqId, ((s.parts[p].own.sq &&& ~~~s.parts[p].cfg.sq).getLsbD n.val = true → t.squares[n].mem = [] ∧ t.squares[n].core = coreReset)
          ∧ ((s.parts[p].own.sq &&& ~~~s.parts[p].cfg.sq).getLsbD n.val = false → t.squares[n].mem = s.squares[n].mem ∧ t.squares[n].core = s.squares[n].core))
    ∧ (setErrOf s p s.parts[p].cfg ≠ 0 → Answers (.set w) s fun t =>
      t.parts[p] = { s.parts[p] with busy := true, cfg := s.parts[p].own, op := some ⟨1, BitVec.ofNat 3 (setErrOf s p s.parts[p].cfg)⟩ }
        ∧ (∀ q : PartId, q ≠ p → t.parts[q] = s.parts[q]) ∧ t.squares = s.squares ∧ t.hbm = s.hbm))
  ∧ (∀ (s : State) (w : RegWr), served s w.fn = true → full4 w = true → w.fn ≠ 0 → ∀ c, c = Instr.set w ∨ c = Instr.reset w ∨ c = Instr.destroy w →
    Answers c s fun t => (∀ q : PartId, t.parts[q].own = s.parts[q].own ∧ t.parts[q].st = s.parts[q].st) ∧ t.squares = s.squares
      ∧ t.parts[w.fn].violReg = satInc s.parts[w.fn].violReg)
  ∧ (∀ (s : State) (p : PartId) (w : RegWr), served s w.fn = true → full4 w = true → w.fn = 0 → partBusy s = false → partOf (field (word w) 0 4) = p →
    s.parts[p].st = .active → ∀ c k, (c = Instr.reset w ∧ k = 2) ∨ (c = Instr.destroy w ∧ k = 3 ∧ p ≠ 0) → field (word w) 4 2 = k →
    Answers c s fun t =>
      t.parts[p].st = .quiescing ∧ t.parts[p].busy = true ∧ t.parts[p].epoch = s.parts[p].epoch + 1 ∧ t.parts[p].launched = false
        ∧ t.parts[p].launch = none ∧ t.parts[p].queue = [] ∧ t.parts[p].launchQ = [] ∧ (∀ q : PartId, t.parts[q].own = s.parts[q].own)
        ∧ ∀ n : SqId, t.squares[n].mem = s.squares[n].mem
          ∧ (s.parts[p].own.sq.getLsbD n.val = true → t.squares[n].core.flight = [] ∧ t.squares[n].core.stores = [] ∧ t.squares[n].mc.busy = false)
          ∧ (s.parts[p].own.sq.getLsbD n.val = false → t.squares[n].core = s.squares[n].core))
  ∧ ∀ (s : State) (p : PartId) (o : PartOp), s.king.stage = .running → s.parts[p].op = some o →
    (o.op = 1 ∨ o.err ≠ 0 → Answers (.partOpComplete p) s fun t =>
      t.parts[p] = { s.parts[p] with busy := false, err := o.err, op := none } ∧ t.squares = s.squares ∧ t.hbm = s.hbm)
    ∧ (o.op ≠ 1 → o.err = 0 → Answers (.partOpComplete p) s fun t =>
      t.parts[p].busy = false ∧ t.parts[p].err = 0 ∧ t.parts[p].loaded = none
        ∧ (if o.op = 3 then t.parts[p].st = .absent ∧ t.parts[p].own = cfgReset else t.parts[p].st = .active ∧ t.parts[p].own = s.parts[p].own)
        ∧ ∀ n : SqId, (s.parts[p].own.sq.getLsbD n.val = true → t.squares[n].mem = [] ∧ t.squares[n].core = coreReset)
          ∧ (s.parts[p].own.sq.getLsbD n.val = false → t.squares[n].mem = s.squares[n].mem ∧ t.squares[n].core = s.squares[n].core))

/-- CE_ALLOT_WRITE, CONS_STATUS_WRITE, CONSERVATION_CHECK and FUNCTION_LEVEL_RESET (R373, R392, R393, R399): an allotment is in force at once on an idle engine; ones
clear failure bits; the checks run at multiples of 10⁶ and set the bit of each that fails, which check fails being consCheck's, the model's formulation of the table of R391
(log 35); the reset of a function clears its ring enable and its vectors and resets its partition. That one command takes the reset to QUIESCING with its epoch advanced is
the model's choice (log 36), that vectors are masked after it is PCI Express's (log 57), and that the rings are cleared once the cancelled jobs are posted the model's
reading (log 60). -/
def Obligations.AllotmentChecksAndFunctionReset : Prop :=
  (∀ (s : State) (n : CeId) (w : RegWr), served s w.fn = true → full4 w = true → w.fn = 0 →
    Answers (.ceAllotWrite n w) s fun t =>
      t.ces[n].allot = BitVec.ofNat 32 (word w) &&& 0x800000F3 ∧ t.ces[n].run = s.ces[n].run
        ∧ t.ces[n].inForce = (if s.ces[n].run.isNone then BitVec.ofNat 32 (word w) &&& 0x800000F3 else s.ces[n].inForce)
        ∧ (∀ k : CeId, k ≠ n → t.ces[k] = s.ces[k]) ∧ t.squares = s.squares)
  ∧ (∀ (s : State) (w : RegWr), served s w.fn = true → full4 w = true → w.fn = 0 → quietCycle s = true →
    Answers (.consStatusWrite w) s fun t => t.cons = { s.cons with fail := s.cons.fail &&& ~~~(BitVec.ofNat 11 (word w)) } ∧ t.squares = s.squares ∧ t.parts = s.parts)
  ∧ (∀ s : State, Answers .conservationCheck s fun t =>
      (nowCt s % 1000000 ≠ 0 → t = s)
        ∧ (nowCt s % 1000000 = 0 → ∀ k, k < 11 → t.cons.fail.getLsbD k = (s.cons.fail.getLsbD k || (consCheck s k).isSome))
        ∧ t.squares = s.squares ∧ t.parts = s.parts ∧ t.hbm = s.hbm)
  ∧ ∀ (s : State) (fn : FnId), fn ≠ 0 → s.king.pcieUp = true → s.king.retry = false → s.parts[fn].st = .active →
    Answers (.functionLevelReset fn) s fun t =>
      t.funcs[fn] = funcReset ∧ t.parts[fn].ring.en = false ∧ t.parts[fn].ring.held = [] ∧ t.parts[fn].st = .quiescing ∧ t.parts[fn].epoch = s.parts[fn].epoch + 1
        ∧ ∀ n : SqId, t.squares[n].mem = s.squares[n].mem ∧ (s.parts[fn].own.sq.getLsbD n.val = false → t.squares[n].core = s.squares[n].core)

/-! ### Host accesses, rings, jobs (14, 15) -/

/-- REGISTER_WRITE and REGISTER_READ (R400, R401, R402, R404, R406, R412): the physical function's write of `LNK_MATCHID` (R297) takes effect, in all four bytes or in the
one enabled, and a virtual function's changes nothing and is logged; a poisoned write or one that reaches no register changes no register; a read of CHIP_ID gives its four
bytes to any function (15_power_clocks_first_second.md); a read that reaches no register is an Unsupported Request. An access of a function that the link does not serve does
nothing, or is an Unsupported Request, by the model's reading (log 83), and one behind an access that waits in the endpoint waits too (R407, log 61). -/
def Obligations.RegisterAccessesAnswer : Prop :=
  (∀ s : State, served s 0 = true →
    let kept := fun (t : State) => t.squares = s.squares ∧ t.parts = s.parts ∧ t.links = s.links ∧ t.hbm = s.hbm ∧ t.flags = s.flags ∧ t.king = s.king ∧ t.power = s.power
    (∀ x0 x1 x2 x3 : Byte, Answers (.registerWrite 0 .bar0 0xAC004 [some x0, some x1, some x2, some x3] false) s fun t =>
      t.mtch = { s.mtch with matchId := x3 ++ x2 ++ x1 ++ x0 } ∧ kept t)
    ∧ (∀ x : Byte, Answers (.registerWrite 0 .bar0 0xAC004 [none, some x, none, none] false) s fun t =>
      t.mtch = { s.mtch with matchId := s.mtch.matchId.extractLsb' 16 16 ++ x ++ s.mtch.matchId.extractLsb' 0 8 } ∧ kept t)
    ∧ ∀ (fn : FnId) (b : List (Option Byte)), fn ≠ 0 → served s fn = true → b.length = 4 → b.all Option.isSome = true →
      Answers (.registerWrite fn .bar0 0xAC004 b false) s fun t =>
        t.mtch = s.mtch ∧ t.squares = s.squares ∧ t.links = s.links ∧ t.hbm = s.hbm ∧ t.parts[fn].violReg = satInc s.parts[fn].violReg)
  ∧ (∀ (s : State) (fn : FnId) (bar : Bar) (off : Nat) (b : List (Option Byte)), hostUp s fn = true → s.apt = [] →
    (Answers (.registerWrite fn bar off b true) s fun t =>
      Emitted s t (.aer fn) ∧ t.parts[fn].violReg = satInc s.parts[fn].violReg ∧ t.squares = s.squares ∧ t.hbm = s.hbm
        ∧ t.king = { s.king with vfEnable := t.king.vfEnable } ∧ t.power = s.power)
    ∧ ∀ sp, spanOf off (b.map Option.isSome) = some sp → sp.bad = true →
      Answers (.registerWrite fn bar off b false) s fun t =>
        t.parts[fn].violReg = satInc s.parts[fn].violReg ∧ t.squares = s.squares ∧ t.hbm = s.hbm
          ∧ t.king = { s.king with vfEnable := t.king.vfEnable } ∧ t.power = s.power)
  ∧ (∀ (s : State) (fn : FnId) (bar : Bar) (off : Nat) (en : List Bool), hostUp s fn = true → s.apt = [] → ∀ sp, spanOf off en = some sp → sp.bad = true →
      Answers (.registerRead fn bar off en) s fun t =>
        Emitted s t (.unsupportedRequest fn) ∧ t.parts[fn].violReg = satInc s.parts[fn].violReg ∧ t.squares = s.squares ∧ t.hbm = s.hbm)
  ∧ (∀ (s : State) (fn : FnId), hostUp s fn = true → s.apt = [] → Answers (.registerRead fn .bar0 0x10004 [true, true, true, true]) s fun t =>
      Emitted s t (.readData fn (natLe 4 (chipId s.fuses).toNat)) ∧ t.squares = s.squares ∧ t.parts = s.parts)
  ∧ ∀ (s : State) (fn : FnId) (bar : Bar) (off : Nat),
      (hostUp s fn = false → s.apt = [] → (∀ b x, Answers (.registerWrite fn bar off b x) s fun t => t = s)
        ∧ ∀ en, Answers (.registerRead fn bar off en) s fun t => t = emit s (.unsupportedRequest fn))
      ∧ (s.apt ≠ [] → (∀ b x, Answers (.registerWrite fn bar off b x) s fun t => t = { s with apt := s.apt ++ [⟨fn, .regWrite bar off b x, []⟩] })
        ∧ ∀ en, Answers (.registerRead fn bar off en) s fun t => t = { s with apt := s.apt ++ [⟨fn, .regRead bar off en, []⟩] })

/-- The reads of read-to-clear registers (R403), in a cycle in which the hardware has counted nothing (R405): a whole read answers the counters as they stood and clears them, and the rest of the register's own unit stays: SPM_ECC,
MC_STATUS, SRV_CNT, PART_CNT, HST_VIOL, LNK_FEC, HBM_ECC, AVS_STATUS, EVT_LOST and TRC_LOST. -/
def Obligations.ReadsClearCounters : Prop :=
  (∀ (s : State) (n : SqId) (r : RegRd), servedSq s r.fn n = true → fullRd4 r = true → quietCycle s = true →
    (Answers (.spmEccRead n r) s fun t =>
      Emitted s t (.readData r.fn (natLe 4 (spmEcc s.squares[n]))) ∧ t.squares[n] = { s.squares[n] with eccCorr := 0, eccUncorr := 0 } ∧ OtherSquares n s t)
    ∧ Answers (.mcStatusRead n r) s fun t =>
      Emitted s t (.readData r.fn (natLe 4 (mcStatus s.squares[n].mc))) ∧ t.squares[n].mc = { s.squares[n].mc with aborts := 0 }
        ∧ t.squares[n].core = s.squares[n].core ∧ OtherSquares n s t)
  ∧ (∀ (s : State) (p : PartId) (r : RegRd), servedOwn s r.fn p = true → fullRd4 r = true → quietCycle s = true →
    (Answers (.srvCntRead p r) s fun t =>
      Emitted s t (.readData r.fn (natLe 4 (srvReg s p 10).toNat))
        ∧ t.srv[p] = { s.srv[p] with overrun := 0, bookFull := 0, collide := 0, repFull := 0 } ∧ t.squares = s.squares)
    ∧ (Answers (.partCntRead p r) s fun t =>
      Emitted s t (.readData r.fn (natLe 4 (s.parts[p].epochDrop.toNat + (s.parts[p].blzOver.toNat <<< 16))))
        ∧ t.parts[p] = { s.parts[p] with epochDrop := 0, blzOver := 0 } ∧ t.squares = s.squares)
    ∧ (Answers (.hstViolRead p r) s fun t =>
      Emitted s t (.readData r.fn (natLe 4 (s.parts[p].violReg.toNat + (s.parts[p].violRing.toNat <<< 16) + (s.parts[p].violKick.toNat <<< 24))))
        ∧ t.parts[p] = { s.parts[p] with violReg := 0, violRing := 0, violKick := 0 } ∧ t.squares = s.squares)
    ∧ (Answers (.evtLostRead p r) s fun t =>
      Emitted s t (.readData r.fn (natLe 4 s.rings[p].lost.toNat)) ∧ t.rings[p] = { s.rings[p] with lost := 0 } ∧ t.squares = s.squares)
    ∧ Answers (.trcLostRead p r) s fun t =>
      Emitted s t (.readData r.fn (natLe 4 s.parts[p].trc.lost.toNat)) ∧ t.parts[p].trc = { s.parts[p].trc with lost := 0 } ∧ t.squares = s.squares)
  ∧ (∀ (s : State) (l : LinkId) (r : RegRd), served s r.fn = true → r.fn = 0 → r.be = 0xFF → quietCycle s = true →
    Answers (.lnkFecRead l r) s fun t =>
      Emitted s t (.readData r.fn (natLe 8 (s.links[l].corr.toNat + (s.links[l].uncorr.toNat <<< 32) + (s.links[l].retry.toNat <<< 48))))
        ∧ t.links[l] = { s.links[l] with corr := 0, uncorr := 0, retry := 0 } ∧ ∀ k : LinkId, k ≠ l → t.links[k] = s.links[k])
  ∧ ∀ (s : State) (k : StackId) (r : RegRd), served s r.fn = true → fullRd4 r = true → quietCycle s = true →
    (Answers (.hbmEccRead k r) s fun t =>
      Emitted s t (.readData r.fn (natLe 4 (s.hbm.corr[k].toNat + (s.hbm.uncorr[k].toNat <<< 16)))) ∧ t.hbm.corr[k] = 0 ∧ t.hbm.uncorr[k] = 0
        ∧ t.hbm.mem = s.hbm.mem ∧ t.squares = s.squares)
    ∧ Answers (.avsStatusRead r) s fun t =>
      Emitted s t (.readData r.fn (natLe 4 (avsStatus s).toNat)) ∧ t.avs = { s.avs with steps := 0 } ∧ t.squares = s.squares

/-- RING_CFG_WRITE, SQ_DB, CQ_DB, CQ_ARM, RING_FETCH_ERR and MSIX_UNMASK (R413, R414, R416, R425): enabling a legal ring empties it, an illegal size is refused; a legal
doorbell moves tail or head. A doorbell is ignored and logged (R414): a TAIL that is not below the ring's size, that comes while EN is 0, or that would lessen the jobs
pending, which are (TAIL − SQHEAD) mod 2^SQLOG; a HEAD outside the span from the previous HEAD to CQTAIL; that CQ_DB and CQ_ARM too are logged while EN is 0 is the model's
reading (log 81). A failed fetch stops the ring; a pending vector fires when it is unmasked. -/
def Obligations.RingsAndDoorbells : Prop :=
  (∀ (s : State) (p : PartId) (w : RegWr), servedOwn s w.fn p = true → full4 w = true → s.parts[p].ring.en = false → (word w).testBit 16 = true →
    let sl := field (word w) 0 5
    let cl := field (word w) 8 5
    (s.parts[p].st = .active → 4 ≤ sl → sl ≤ 16 → 4 ≤ cl → cl ≤ 16 → Answers (.ringCfgWrite p w) s fun t =>
      let r := t.parts[p].ring
      r.en = true ∧ r.sqlog.toNat = sl ∧ r.cqlog.toNat = cl ∧ r.irqen = (word w).testBit 17 ∧ r.sqHead = 0 ∧ r.tail = 0 ∧ r.cqTail = 0 ∧ r.head = 0
        ∧ r.phase = true ∧ r.stopped = false ∧ t.squares = s.squares)
    ∧ (s.parts[p].st ≠ .active ∨ sl < 4 ∨ 16 < sl ∨ cl < 4 ∨ 16 < cl → Answers (.ringCfgWrite p w) s fun t =>
      t.parts[p].ring = s.parts[p].ring ∧ t.parts[w.fn].violRing = satInc s.parts[w.fn].violRing))
  ∧ (∀ (s : State) (w : RegWr), served s w.fn = true → full8 w = true →
    let r := s.parts[w.fn].ring
    let x := w.data.toNat % 65536
    (r.en = true → x < 2 ^ r.sqlog.toNat → jobsPending r r.tail ≤ jobsPending r x → Answers (.sqDb w) s fun t =>
      t.parts[w.fn].ring = { r with tail := x } ∧ t.squares = s.squares)
    ∧ (r.en = true → r.held = [] → x < 2 ^ r.cqlog.toNat →
        (x + 2 ^ r.cqlog.toNat - r.head) % 2 ^ r.cqlog.toNat ≤ (r.cqTail + 2 ^ r.cqlog.toNat - r.head) % 2 ^ r.cqlog.toNat →
      ∀ c, c = Instr.cqDb w ∨ c = Instr.cqArm w → Answers c s fun t =>
        t.parts[w.fn].ring.head = x ∧ t.parts[w.fn].ring.cqTail = r.cqTail ∧ t.squares = s.squares
          ∧ t.parts[w.fn].ring.armed = ((r.armed || w.data.getLsbD 16) && !(w.data.getLsbD 16 && r.irqen && decide (r.cqTail ≠ x))))
    ∧ let pend := fun (t : Nat) => (t + 2 ^ r.sqlog.toNat - r.sqHead) % 2 ^ r.sqlog.toNat
      let span := fun (t : Nat) => (t + 2 ^ r.cqlog.toNat - r.head) % 2 ^ r.cqlog.toNat
      let logged := fun (t : State) => t.parts[w.fn].ring = r ∧ t.parts[w.fn].violRing = satInc s.parts[w.fn].violRing ∧ t.squares = s.squares ∧ t.hbm = s.hbm
      (2 ^ r.sqlog.toNat ≤ x ∨ r.en = false ∨ pend x < pend r.tail → Answers (.sqDb w) s logged)
        ∧ ∀ c, c = Instr.cqDb w ∨ c = Instr.cqArm w → (2 ^ r.cqlog.toNat ≤ x ∨ r.en = false ∨ span r.cqTail < span x) → Answers c s logged)
  ∧ (∀ (s : State) (p : PartId) (e : FetchErr), mayFetch s p = true → Answers (.ringFetchErr p e) s fun t =>
      t.parts[p].ring.stopped = true ∧ t.parts[p].ring.cause = (if e = .poisoned then 2 else 1) ∧ t.parts[p].ring.sqHead = s.parts[p].ring.sqHead
        ∧ Emitted s t (.aer p) ∧ t.squares = s.squares)
  ∧ ∀ (s : State) (fn : FnId) (v : Fin 8), fn = 0 ∨ v.val < 2 → Answers (.msixUnmask fn v false) s fun t =>
      t.funcs[fn].mask.getLsbD v.val = false ∧ t.funcs[fn].pend.getLsbD v.val = false
        ∧ (s.funcs[fn].pend.getLsbD v.val = true → Emitted s t (.msix fn v)) ∧ t.squares = s.squares ∧ t.parts = s.parts

/-- JOB_FETCH (R415, R418 to R420, R445): while the ring may not be fetched nothing is taken. A job fetched promises one completion entry and counts as outstanding, and
goes to its engine in ring order: a LAUNCH waits behind the launch in progress, or goes to the loader or is armed at its count, or ends with the code that its check gives; a
COPY or RESHARD enters the copy queue, or waits for room; a SNAPSHOT or ADJOURN waits behind the one in progress, or is armed, or ends with its check's code; an ADMIT joins
the admission unit, or ends with DISABLED before READY, a FINISH ends its slot's request; a FENCE waits for the jobs before it, and without one ends with OK. A job with a
reserved bit of its header, or of the body of a LAUNCH, SERVE or FENCE, ends with 0xF0; those of a COPY or SNAPSHOT body are its engine's to refuse (the model's reading,
log 65). Below the LEVEL that it needs a job ends with CANCELLED, or DISABLED. -/
def Obligations.JobsAreFetchedInOrder : Prop :=
  (∀ (s : State) (p : PartId) (job : Line) (sh : Option Sheet), s.parts[p].copyWait = none → mayFetch s p = false → Answers (.jobFetch p job sh) s fun t => t = s)
  ∧ ∀ (s : State) (p : PartId) (job : Line) (sh : Option Sheet), mayFetch s p = true → s.parts[p].ring.held = [] →
    let q := s.parts[p]
    let r := q.ring
    let x : Job := ⟨job, sh⟩
    let level := s.king.level.toNat
    let moved := fun (t : State) (n : Nat) => t.parts[p].ring.sqHead = (r.sqHead + 1) % 2 ^ r.sqlog.toNat ∧ t.parts[p].ring.outstanding = r.outstanding + n
      ∧ t.parts[p].ring.promised = r.promised + n ∧ t.squares = s.squares
    let taken := fun (P : State → Prop) => Answers (.jobFetch p job sh) s fun t => moved t 1 ∧ t.out = s.out ∧ P t
    let ended := fun (code : Nat) => Answers (.jobFetch p job sh) s fun t => moved t 0
      ∧ ∃ i e, Emitted s t (.completion p i e) ∧ bits e 31 0 = (jobId job).toNat ∧ bits e 39 32 = jobType job ∧ bits e 47 40 = code
    (jkReserved job = true → ended 0xF0)
    ∧ (jkReserved job = false →
      (jobType job = 1 →
        let run := bits job 1 0 = 2
        (bits job 1 0 = 0 ∨ (bit job 2 = true ∧ ¬ run) → ended 0x10)
        ∧ (bits job 1 0 ≠ 0 → (bit job 2 = true → run) →
          (q.launch.isSome = true → taken fun t => t.parts[p].launch = q.launch ∧ t.parts[p].launchQ = q.launchQ ++ [x])
          ∧ (q.launch = none → q.launchQ = [] →
            (level < 2 → ended 0xF1)
            ∧ (2 ≤ level → ¬ run → loadOf s p x = 0 → taken fun t => t.parts[p].launch = some ⟨jobId job, x, .loading, 0, none, 0, 0⟩ ∧ t.parts[p].launchQ = [])
            ∧ (2 ≤ level → ¬ run → loadOf s p x ≠ 0 → ended (loadOf s p x))
            ∧ (2 ≤ level → run → runCheck s p x = 0 → lCount x ≠ 0 → taken fun t =>
                (t.parts[p].launch.map fun l => (l.jobId, l.job, l.phase)) = some (jobId job, x, .armed) ∧ t.parts[p].launchQ = [])
            ∧ (2 ≤ level → run → runCheck s p x ≠ 0 → ended (runCheck s p x)))))
      ∧ (jobType job = 2 ∨ jobType job = 3 → jkCopyReserved job = false →
        (level < 2 → ended 8)
        ∧ (2 ≤ level → copyLoad s p < resQdepth q.own.res → taken fun t => t.parts[p].queue = q.queue ++ [jobDesc s p x] ∧ t.parts[p].copyWait = none)
        ∧ (2 ≤ level → resQdepth q.own.res ≤ copyLoad s p → taken fun t => t.parts[p].queue = q.queue ∧ t.parts[p].copyWait = some x))
      ∧ (jobType job = 4 ∨ jobType job = 5 → snpJobBad x = false →
        (s.snp[p].job.isSome = true → snpBusy s.snp[p] = false → taken fun t => t.parts[p].snapQ = q.snapQ ++ [x] ∧ t.snp = s.snp)
        ∧ (s.snp[p].job = none → s.snp[p].restore = none → q.snapQ = [] →
          (level < 2 → ended 8)
          ∧ (2 ≤ level → nOp x = 0 → sealCheck s p x (jobType job == 4) = 0 → taken fun t =>
              (t.snp[p].job.map fun y => (y.jobId, y.phase, y.count, y.gen, y.adjourn))
                = some (jobId job, .armed, nSeal x, (nextGen s.snp[p]).1, jobType job == 5))
          ∧ (2 ≤ level → nOp x = 0 → sealCheck s p x (jobType job == 4) ≠ 0 → ended (sealCheck s p x (jobType job == 4)))))
      ∧ (jobType job = 6 →
        (level < 3 → ended 1)
        ∧ (3 ≤ level → srvCode x = 1 → s.srv[p].en = false ∨ s.srv[p].ready = false → ended 1)
        ∧ (3 ≤ level → srvCode x = 1 → s.srv[p].en = true → s.srv[p].ready = true → (∀ y ∈ s.srv[p].waiting, srvCode y = 1) →
            Answers (.jobFetch p job sh) s fun t => moved t 1 ∧ t.srv[p].waiting = s.srv[p].waiting ++ [x])
        ∧ (3 ≤ level → srvCode x = 2 → s.srv[p].waiting = [] →
            ((s.srv[p].slots.any fun y => y.slot == jobWord job 1 % 4096) = true → ended 0) ∧ ((s.srv[p].slots.any fun y => y.slot == jobWord job 1 % 4096) = false → ended 5)))
      ∧ (jobType job = 7 → (r.outstanding = 0 → ended 0) ∧ (r.outstanding ≠ 0 → taken fun t => t.parts[p].fence = some (jobId job))))

/-- BAR2_WRITE and BAR2_READ (R407, R409 to R412) of an access inside one segment or scratchpad: the bytes written read back and no other byte changes, a read answers the
bytes in place; an address outside the partition writes nothing and a read of it is an Unsupported Request; a write of part of a word, and a poisoned one, writes nothing.
An access to a scratchpad waits for a turn of the copy engines in a core cycle, one line of each bank that they have left (R64, R65): that it waits in the endpoint, and how
far it gets in a turn, are the model's reading (log 61). -/
def Obligations.ApertureReadsAndWrites : Prop :=
  (∀ (s : State) (fn : FnId) (off : Nat), hostUp s fn = true → serving s = true → s.apt = [] → s.parts[fn].aptKind = false →
    (∀ (b : List Byte) (g o a : Nat), b ≠ [] → s.snp[fn].job = none → off % 8 = 0 → b.length % 8 = 0 → aptRuns s fn off b.length = some [.hbm g o a b.length] →
      Answers (.bar2Write fn off (b.map some) .sound) s fun t =>
        (∀ i (h : i < b.length), memByte t.hbm.mem (a + i) = b[i]) ∧ (∀ k, k < a ∨ a + b.length ≤ k → memByte t.hbm.mem k = memByte s.hbm.mem k)
          ∧ t.squares = s.squares ∧ t.apt = [])
    ∧ (∀ (len g o a : Nat), aptRuns s fn off len = some [.hbm g o a len] → Answers (.bar2Read fn off len .clean) s fun t =>
        t = emit (noteVf s fn) (.readData fn ((List.range len).map fun i => memByte s.hbm.mem (a + i))))
    ∧ (∀ b : List Byte, b ≠ [] → aptRuns s fn off b.length = none → Answers (.bar2Write fn off (b.map some) .sound) s fun t =>
        t.hbm = s.hbm ∧ t.squares = s.squares ∧ t.parts[fn].violReg = satInc s.parts[fn].violReg)
    ∧ (∀ len, aptRuns s fn off len = none → Answers (.bar2Read fn off len .clean) s fun t =>
        Emitted s t (.unsupportedRequest fn) ∧ t.hbm = s.hbm ∧ t.squares = s.squares)
    ∧ (∀ b : List Byte, b ≠ [] → (off % 8 ≠ 0 ∨ b.length % 8 ≠ 0) → Answers (.bar2Write fn off (b.map some) .sound) s fun t => t.hbm = s.hbm ∧ t.squares = s.squares)
    ∧ ∀ b : List (Option Byte), Answers (.bar2Write fn off b .poison) s fun t =>
        Emitted s t (.aer fn) ∧ t.parts[fn].violReg = satInc s.parts[fn].violReg ∧ t.hbm = s.hbm ∧ t.squares = s.squares)
  ∧ (∀ (s : State) (fn : FnId) (off : Nat), hostUp s fn = true → serving s = true → s.parts[fn].aptKind = true →
    (∀ b how, Answers (.bar2Write fn off b how) s fun t => t = { s with apt := s.apt ++ [⟨fn, .write off b how, []⟩] })
    ∧ ∀ len e, Answers (.bar2Read fn off len e) s fun t => t = { s with apt := s.apt ++ [⟨fn, .read off len e, []⟩] })
  ∧ ∀ (s : State) (fn : FnId) (off : Nat) (q : SqId) (a : Nat), s.pending = [] → hostUp s fn = true → serving s = true →
    (∀ b : List Byte, s.apt = [⟨fn, .write off (b.map some) .sound, []⟩] → b ≠ [] → off % 8 = 0 → b.length % 8 = 0 → a % 64 + b.length ≤ 2048 →
        s.squares[q].uncapt = 0 → aptRuns s fn off b.length = some [.sp q a b.length] →
      (ceTurn s = true → banksUsed s q = [] → ∃ t, step s = .next t ∧ t.apt = [] ∧ (∀ i (h : i < b.length), memByte t.squares[q].mem (a + i) = b[i])
        ∧ (∀ k, k < a ∨ a + b.length ≤ k → memByte t.squares[q].mem k = memByte s.squares[q].mem k) ∧ t.squares[q].core = s.squares[q].core
        ∧ (∀ n : SqId, n ≠ q → t.squares[n].mem = s.squares[n].mem) ∧ t.hbm = s.hbm)
      ∧ (ceTurn s = false → ∃ t, step s = .next t ∧ t.apt = s.apt ∧ (∀ n : SqId, t.squares[n].mem = s.squares[n].mem) ∧ t.hbm = s.hbm))
    ∧ ∀ len : Nat, s.apt = [⟨fn, .read off len .clean, []⟩] → 0 < len → a % 64 + len ≤ 2048 → aptRuns s fn off len = some [.sp q a len] → ceTurn s = true →
      banksUsed s q = [] → ∃ t, step s = .next t ∧ t.apt = [] ∧ Emitted s t (.readData fn ((List.range len).map fun i => memByte s.squares[q].mem (a + i)))
        ∧ (∀ n : SqId, t.squares[n].mem = s.squares[n].mem ∧ t.squares[n].core = s.squares[n].core) ∧ t.hbm = s.hbm

/-! ### Power, resets, boot (15, 16) -/

/-- GATE, UNGATE, DOMAIN_GATED, DOMAIN_READY and HBM_TRAIN_DONE (R428, R429, R430, R432, R444, R445): a request that may be carried out makes the domain CLOSING, or BUSY
until it is ON; one that may not only sets ERR; a gated rank loses its squares but for slot tables and flag views; an ungated domain ends ON or FAILED, the engine domain with
the serving engines usable or not (log 37). LEVEL follows; where it does not fall, no HBM byte and no partition changes with it (where it falls, jobs end: log 107). -/
def Obligations.DomainsGateAndUngate : Prop :=
  (∀ (s : State) (w : RegWr) (d : DomId), served s w.fn = true → full4 w = true → w.fn = 0 → s.power.busy = false → field (word w) 0 5 = d.val →
    (field (word w) 5 2 = 1 → gateErr s d ≠ 0 → Answers (.gate w) s fun t =>
      t.power = { s.power with err := BitVec.ofNat 3 (gateErr s d) } ∧ t.squares = s.squares ∧ t.links = s.links)
    ∧ (field (word w) 5 2 = 1 → gateErr s d = 0 → s.power.dom[d] = .on → (d.val < 14 ∨ d.val = 26) → Answers (.gate w) s fun t =>
      t.power = { s.power with busy := true, req := some ⟨d, false⟩, dom := s.power.dom.set d .closing } ∧ t.squares = s.squares
        ∧ t.king.level.toNat = levelOf t ∧ (s.king.level.toNat ≤ levelOf t → t.hbm = s.hbm ∧ t.parts = s.parts))
    ∧ (field (word w) 5 2 = 2 → ungateErr s d ≠ 0 → Answers (.ungate w) s fun t =>
      t.power = { s.power with err := BitVec.ofNat 3 (ungateErr s d) } ∧ t.squares = s.squares)
    ∧ (field (word w) 5 2 = 2 → ungateErr s d = 0 → s.power.dom[d] = .gated → Answers (.ungate w) s fun t =>
      t.power = { s.power with busy := true, req := some ⟨d, true⟩ } ∧ t.squares = s.squares))
  ∧ (∀ (s : State) (d : DomId), s.power.dom[d] = .closing → s.power.req = some ⟨d, false⟩ → d.val < 14 → (d.val < 8 → rankDraining s d = false) →
    Answers (.domainGated d) s fun t =>
      t.power = { s.power with dom := s.power.dom.set d .gated, req := none, busy := false, err := 0 }
        ∧ (8 ≤ d.val → t.hbm.healthy.getLsbD (d.val - 8) = false)
        ∧ ∀ n : SqId, (n.val / 8 = d.val → t.squares[n] = { squareReset with slots := s.squares[n].slots, view := s.squares[n].view })
          ∧ (n.val / 8 ≠ d.val → t.squares[n] = s.squares[n]))
  ∧ ∀ (s : State) (d : DomId) (r : DomainTest), let ok := decide (r ≠ .failed)
    s.king.stage = .running → s.power.dom[d] = .gated → s.power.req = some ⟨d, true⟩ → fusedDom s.fuses d = false →
    (ok = true → needsEngine d = true → engineOff s = false) →
    ∀ c, c = Instr.domainReady d r ∨ (∃ k, d = domHbm k ∧ c = Instr.hbmTrainDone k ok) →
    Answers c s fun t =>
      t.power = { s.power with dom := s.power.dom.set d (if ok then .on else .failed), req := none, busy := false, err := if ok then 0 else 1 }
        ∧ (d = domEngine → t.king.servingOk = decide (r = .passed)) ∧ t.king.level.toNat = levelOf t ∧ t.squares = s.squares
        ∧ (s.king.level.toNat ≤ levelOf t → t.parts = s.parts)

/-- POWER_ON_RESET, PIN_RESET, RESET_N_RISE, CHIPRST and THERMAL_TRIP (R433, R436, R437, R451): a power-on or pin reset clears everything but the fuses (what the cleared
memories and registers read is the model's choice, logs 3 and 4); the rise of RESET_N samples the straps (the stage that the King then shows is log 76); a chip reset leaves
pins, clock and AVS as they are and empties the board; a trip gates every domain but the always-on one, and after it no link domain comes up again. -/
def Obligations.ResetsClearTheirParts : Prop :=
  (∀ (s : State) (e : PwrEdge) (c : Instr), c = .powerOnReset e ∨ (c = .pinReset ∧ s.pins.pwrOk = true ∧ e = .rises) →
    Answers c s fun t =>
      t.fuses = s.fuses ∧ t.pins = ⟨decide (e = .rises), false, true, true, strapsReset⟩ ∧ t.clk.counting = false ∧ t.hbm.mem = [] ∧ t.msgs = [] ∧ t.flags.pool = 0
        ∧ (∀ n : SqId, t.squares[n] = squareReset) ∧ (∀ p : PartId, t.parts[p].st = if p = 0 then .active else .absent) ∧ (∀ l : LinkId, t.links[l] = linkReset)
        ∧ t.pending = s.pending ∧ t.out = s.out)
  ∧ (∀ (s : State) (st : StrapPins), s.pins.pwrOk = true → s.pins.resetN = false →
    Answers (.resetNRise st) s fun t =>
      t.pins = { s.pins with resetN := true, straps := st } ∧ (∀ p : PartId, t.parts[p].strict = st.timing)
        ∧ (s.thermal.tripped = false → ∀ l : LinkId, t.links[l].st = .idle ∧ t.power.dom[domLink l] = .on)
        ∧ (s.thermal.tripped = true → t.power.dom = s.power.dom ∧ ∀ l : LinkId, t.links[l].st = s.links[l].st)
        ∧ (st.test = true → t.king.stage = .test)
        ∧ (st.test = false → t.king.source.toNat = bootSource t ∧ t.king.stage = (if bootSource t = 2 then .recovery else .loading)))
  ∧ (∀ (s : State) (c : Instr), s.king.stage ≠ .test → s.pins.resetN = true → s.king.pcieUp = true →
    c = .chiprst .pcieHotReset ∨ c = .chiprst .pcieLinkDown ∨ (c = .chiprst .mctp ∧ s.king.stage = .running)
      ∨ (∃ w : RegWr, c = .chiprst (.kngCtl w) ∧ w.fn = 0 ∧ full4 w = true ∧ (word w).testBit 0 = true ∧ field (word w) 1 3 = 0 ∧ s.king.retry = false ∧ s.apt = []) →
    Answers c s fun t =>
      t.fuses = s.fuses ∧ t.pins = s.pins ∧ t.clk.count = s.clk.count ∧ t.clk.counting = s.clk.counting ∧ t.clk.frameOn = false ∧ t.avs.vcore = s.avs.vcore
        ∧ t.king.deviceReady = false ∧ t.hbm.mem = [] ∧ t.msgs = [] ∧ (∀ n : SqId, t.squares[n] = squareReset)
        ∧ (∀ p : PartId, t.parts[p].st = if p = 0 then .active else .absent)
        ∧ (∀ l : LinkId, if s.thermal.tripped then t.power.dom[domLink l] = .gated else t.links[l].st = .idle ∧ t.power.dom[domLink l] = .on)
        ∧ t.clk.stepPending = s.clk.stepPending ∧ t.pending = s.pending)
  ∧ ∀ (s : State) (sensor deg : BitVec 8), s.thermal.tripped = false → 110 ≤ deg.toNat →
    Answers (.thermalTrip sensor deg) s fun t =>
      t.thermal.tripped = true ∧ t.pins.thermTripN = false ∧ Emitted s t .thermTrip
        ∧ (∀ d : DomId, d ≠ 27 → s.power.dom[d] ≠ .failed → t.power.dom[d] = .gated) ∧ t.power.dom[(27 : DomId)] = s.power.dom[(27 : DomId)]
        ∧ ∀ p : PartId, s.parts[p].st = .active → t.parts[p].flt.pending = true

/-- FIRMWARE_START, GO, BOOT_SPI_FAIL, BOOT_PUSH_FAIL, PCIE_LINK_UP, DEVICE_READY, ROM_RECOVERY_TIMEOUT and MCTP_REQUEST (R436, R440 to R443, R453): the image from the
source in use runs, one from the host only after a GO; GO asks the host for the image only while the King loads from the host; a failed flash falls back to recovery, a failed
push waits for another GO; DEVICE_READY gives PART_0 every segment formed; an MCTP request only answers, also one to reset (log 76), and SMB_ALERT_N is asserted until the
answer is read (R482, log 106). -/
def Obligations.BootReachesDeviceReady : Prop :=
  (∀ (s : State) (src : ImageSource) (v : BitVec 16),
    (((src = .flashLow ∨ src = .flashHigh) ∧ s.king.stage = .loading ∧ s.king.source = 0)
        ∨ (src = .hostPush ∧ s.king.stage = .loading ∧ s.king.source = 1 ∧ s.king.pushGo = true)
        ∨ (src = .smbus ∧ s.king.stage = .recovery) →
      Answers (.firmwareStart src v) s fun t => t.king.stage = .running ∧ t.king.fwver = v ∧ t.king.source = s.king.source ∧ t.squares = s.squares)
    ∧ (s.king.stage = .running ∨ (src = .hostPush ∧ s.king.pushGo = false) → Answers (.firmwareStart src v) s fun t => t = s))
  ∧ (∀ (s : State) (w : RegWr), hostUp s w.fn = true → s.apt = [] → w.fn = 0 → full4 w = true → (word w).testBit 31 = true →
    (s.king.stage = .loading → s.king.source = 1 → Answers (.go w) s fun t =>
      t.king = { s.king with pushLen := BitVec.ofNat 24 (word w), pushGo := true } ∧ Emitted s t (.imageFetch s.king.pushAddr (word w % 2 ^ 24)) ∧ t.squares = s.squares)
    ∧ (s.king.stage ≠ .loading ∨ s.king.source ≠ 1 → Answers (.go w) s fun t =>
      t.king = s.king ∧ t.parts[w.fn].violReg = satInc s.parts[w.fn].violReg ∧ t.squares = s.squares))
  ∧ (∀ s : State, s.king.stage = .loading →
    (s.king.source = 0 → Answers .bootSpiFail s fun t => t.king = { s.king with stage := .recovery, source := 2 } ∧ (t.ev.history.head?.map (·.code)) = some 0x0104)
    ∧ (s.king.source = 1 → s.king.pushGo = true → Answers .bootPushFail s fun t => t.king = { s.king with pushGo := false } ∧ (t.ev.history.head?.map (·.code)) = some 0x0105))
  ∧ (∀ s : State, s.pins.resetN = true → s.pins.pwrOk = true → s.king.stage ≠ .test →
    Answers .pcieLinkUp s fun t => t = { s with king := { s.king with pcieUp := true } })
  ∧ (∀ s : State, booting s = true → bootDone s = true → Answers .deviceReady s fun t =>
      t.king.deviceReady = true ∧ t.king.retry = false ∧ t.parts[(0 : PartId)].own.seg = BitVec.ofNat 64 (2 ^ s.hbm.segments - 1)
        ∧ t.parts[(0 : PartId)].own.sq = s.parts[(0 : PartId)].own.sq ∧ t.squares = s.squares)
  ∧ (∀ s : State, s.king.stage ≠ .running → s.pins.resetN = true →
    Answers .romRecoveryTimeout s fun t => t = { s with king := { s.king with retry := false, romOnly := !s.king.deviceReady } })
  ∧ ∀ s : State, s.pins.resetN = true → let a := { s with pins := { s.pins with smbAlertN := false } }
    (∀ r, r = MctpReq.discovery ∨ r = MctpReq.identity → Answers (.mctpRequest r) s fun t => t = emit a (.mctp true))
      ∧ (∀ r, r = MctpReq.resetRequest ∨ r = MctpReq.other → Answers (.mctpRequest r) s fun t => t = emit a (.mctp (decide (s.king.stage = .running))))
      ∧ Answers (.mctpRequest .collect) s fun t => t = { s with pins := { s.pins with smbAlertN := true } }

/-! ### Voltage and temperature (16) -/

/-- AVS_LOOP_TICK, AVS_NOACK, AVS_MISMATCH and AVS_ALERT (R447, R448, R449, R453): without a demand the rail falls 5 mV towards the lowest the monitors allow, no
lower than 650 mV, once per ms, and not while a Strict partition is launched; a demand raises it by up to 25 mV, no higher than 850 mV; either rail that is read back off its
target is written once more, and one that does not answer freezes the loop and throttles the board. -/
def Obligations.CoreRailFollowsLoop : Prop :=
  (∀ (s : State) (below lowest : Nat), s.king.stage = .running → s.avs.stuck = false →
    let v := s.avs.vcore.toNat
    let want := max 650 (min 850 lowest)
    (below = 0 → want + 5 ≤ v → strictLaunched s = [] → (∀ c, s.avs.lastStep = some c → c + 1000000 ≤ nowCt s) → Answers (.avsLoopTick below lowest) s fun t =>
      t.avs.vcore.toNat = v - 5 ∧ t.avs.lastStep = some (nowCt s) ∧ Emitted s t (.avsWrite 0 (v - 5)) ∧ t.squares = s.squares)
    ∧ (below = 0 → want ≠ v → strictLaunched s ≠ [] → Answers (.avsLoopTick below lowest) s fun t =>
      t.avs.vcore = s.avs.vcore ∧ t.avs.deferred = true ∧ t.squares = s.squares)
    ∧ (0 < below → Answers (.avsLoopTick below lowest) s fun t =>
      t.avs.vcore.toNat = min 850 (v + min 25 (5 * ceilDiv below 5)) ∧ t.squares = s.squares
        ∧ (t.avs.vcore ≠ s.avs.vcore → strictLaunched s ≠ [] → t.tmg.devCause.getLsbD 5 = true)))
  ∧ (∀ s : State, s.avs.stuck = false → Answers .avsNoack s fun t => t.avs.stuck = true ∧ t.avs.vcore = s.avs.vcore ∧ t.thermal.emerg = true ∧ t.squares = s.squares)
  ∧ (∀ (s : State) (x : RailRead),
    let v := if x.rail = 0 then s.avs.vcore.toNat else s.avs.vlgo.toNat
    let before := if x.rail = 0 then s.avs.missed else s.avs.missedLgo
    let noted := fun (b : Bool) => if x.rail = 0 then { s.avs with missed := b } else { s.avs with missedLgo := b }
    (absDiff v x.mv ≤ 20 → Answers (.avsMismatch x) s fun t => t = { s with avs := noted false })
    ∧ (20 < absDiff v x.mv → before = false → Answers (.avsMismatch x) s fun t =>
      t.avs = noted true ∧ Emitted s t (.avsWrite x.rail v) ∧ t.squares = s.squares)
    ∧ (20 < absDiff v x.mv → before = true → Answers (.avsMismatch x) s fun t =>
      t.avs.stuck = true ∧ t.avs.vcore = s.avs.vcore ∧ t.squares = s.squares ∧ (s.avs.stuck = false → t.thermal.emerg = true)))
  ∧ ∀ s : State, (Answers (.avsAlert .raised) s fun t => t.avs.alert = true ∧ t.avs.vcore = s.avs.vcore ∧ t.squares = s.squares)
    ∧ Answers (.avsAlert .cleared) s fun t => t.avs.alert = false ∧ t.avs.vcore = s.avs.vcore ∧ t.squares = s.squares

/-- THERMAL_LADDER, THM_ARM and SCHEDULED_THROTTLE_START (R450, R451): at 105 °C the junction duty is 1, at 100 °C it is 4 unless the scheduled duty is already that low,
below 95 °C it is 8; a warning begins at 95 °C and ends below 93 °C; an arming at a multiple of 320 ct at least 640 ct ahead is kept and taken at its count. -/
def Obligations.TemperatureLimitsDuty : Prop :=
  (∀ (s : State) (sensor deg : BitVec 8), s.king.stage = .running → Answers (.thermalLadder sensor deg) s fun t =>
    t.thermal.maxj = deg ∧ t.thermal.warn = (decide (95 ≤ deg.toNat) || (s.thermal.warn && decide (93 ≤ deg.toNat)))
      ∧ (105 ≤ deg.toNat → t.thermal.junctionDuty = 1)
      ∧ (100 ≤ deg.toNat → deg.toNat < 105 → s.thermal.junctionDuty = 8 → 4 < s.thermal.schedDuty.val → t.thermal.junctionDuty = 4)
      ∧ (deg.toNat < 95 → t.thermal.junctionDuty = 8) ∧ t.thermal.schedDuty = s.thermal.schedDuty ∧ t.squares = s.squares)
  ∧ (∀ (s : State) (w : RegWr) (d : Fin 9), served s w.fn = true → full4 w = true → w.fn = 0 → (word w).testBit 8 = true → 0 < d.val → field (word w) 0 4 = d.val →
    let c := s.thermal.schedAt.toNat
    (c % 320 = 0 → nowCt s + 640 ≤ c → Answers (.thmArm w) s fun t =>
      t.thermal = { s.thermal with schedReg := BitVec.ofNat 4 d.val, armed := s.thermal.armed ++ [(c, d)] } ∧ t.squares = s.squares)
    ∧ (c % 320 ≠ 0 ∨ c < nowCt s + 640 → Answers (.thmArm w) s fun t =>
      t.thermal = s.thermal ∧ t.parts[w.fn].violReg = satInc s.parts[w.fn].violReg))
  ∧ ∀ (s : State) (c : Nat) (d : Fin 9), s.thermal.armed = [(c, d)] →
    (c ≤ nowCt s → Answers .scheduledThrottleStart s fun t => t.thermal.schedDuty = d ∧ t.thermal.armed = [] ∧ t.squares = s.squares)
      ∧ (nowCt s < c → Answers .scheduledThrottleStart s fun t => t = s)

/-! ### Faults, events, debug (17) -/

/-- KING_WDOG, FLT_PART_WRITE, EVT_CFG_WRITE, EVT_HEAD_WRITE, EVT_HIST_IDX_WRITE and TRC_CTL_WRITE (R458, R459, R463, R467, R469, R470, R477): an expiry faults every
active partition and the King boots anew from the source that the last chip reset chose, a second within 10 s holds it; a one clears PENDING; an event ring is enabled empty where its size is legal; a head the ring
has reached is taken; a trace buffer is enabled only at a legal place, and starts anew when it is (log 59). -/
def Obligations.FaultsAndRingsAreServed : Prop :=
  (∀ s : State, s.king.stage = .running →
    (s.king.expiries = [] → Answers .kingWdog s fun t =>
      t.king.stage = (if s.king.bootSel = 2 then .recovery else .loading) ∧ t.king.source = s.king.bootSel
        ∧ ∀ p : PartId, s.parts[p].st = .active → t.parts[p].flt.pending = true)
    ∧ ∀ c, s.king.expiries = [c] → nowCt s < c + 10000000000 → Answers .kingWdog s fun t => t.king.stage = .rom ∧ t.king.held = true)
  ∧ (∀ (s : State) (p : PartId) (w : RegWr), servedOwn s w.fn p = true → full4 w = true →
    (quietCycle s = true → Answers (.fltPartWrite p w) s fun t =>
      t.parts[p] = { s.parts[p] with flt := { s.parts[p].flt with pending := s.parts[p].flt.pending && !(word w).testBit 0 } } ∧ t.squares = s.squares)
    ∧ (s.rings[p].en = false → (word w).testBit 8 = true →
      (s.parts[p].st = .active → 4 ≤ field (word w) 0 5 → field (word w) 0 5 ≤ 14 → Answers (.evtCfgWrite p w) s fun t =>
        t.rings[p] = { s.rings[p] with log := BitVec.ofNat 5 (word w), irqen := (word w).testBit 9, en := true, tail := 0, head := 0, phase := true }
          ∧ t.squares = s.squares)
      ∧ (s.parts[p].st ≠ .active ∨ field (word w) 0 5 < 4 ∨ 14 < field (word w) 0 5 → Answers (.evtCfgWrite p w) s fun t =>
        t.rings[p].en = false ∧ t.parts[w.fn].violRing = satInc s.parts[w.fn].violRing))
    ∧ (let r := s.rings[p]
      let x := word w % 65536
      r.en = true → x < 2 ^ r.log.toNat → (x + 2 ^ r.log.toNat - r.head) % 2 ^ r.log.toNat ≤ (r.tail + 2 ^ r.log.toNat - r.head) % 2 ^ r.log.toNat →
      Answers (.evtHeadWrite p w) s fun t => t.rings[p] = { r with head := x, fired := false } ∧ t.squares = s.squares)
    ∧ ((word w).testBit 8 = true → let log := field (word w) 0 5
      let fits := 12 ≤ log ∧ log ≤ 27 ∧ field s.parts[p].trc.base.toNat 6 12 = 0 ∧ (hbmAddr s p s.parts[p].trc.base.toNat (16 * 2 ^ log)).isSome = true
      (fits → Answers (.trcCtlWrite p w) s fun t =>
        t.parts[p].trc.en = true ∧ t.parts[p].trc.log.toNat = log ∧ t.parts[p].trc.wrap = (word w).testBit 9
          ∧ (s.parts[p].trc.en = false → t.parts[p].trc.next = 0 ∧ t.parts[p].trc.wrapped = false) ∧ t.squares = s.squares)
      ∧ (¬ fits → Answers (.trcCtlWrite p w) s fun t =>
        t.parts[p].trc = s.parts[p].trc ∧ t.parts[w.fn].violReg = satInc s.parts[w.fn].violReg)))
  ∧ ∀ (s : State) (w : RegWr), served s w.fn = true → full4 w = true → w.fn = 0 →
    Answers (.evtHistIdxWrite w) s fun t => t.ev = { s.ev with histIdx := BitVec.ofNat 12 (word w) } ∧ t.squares = s.squares ∧ t.parts = s.parts

/-- DBG_CTL_WRITE, HALT, RESUME and STEP (R263, R471, R472, R474): the break fields are written and a one clears HIT; a halt asks every running square of the partition, or
waits for the end of a snapshot point; a resume releases the halted squares where they stand, or once their ranks are on the rail they run on, a step with the request to halt
again; during a snapshot point it withdraws the halt that waits and releases nothing yet (log 58). -/
def Obligations.DebugHaltsAndResumes : Prop :=
  (∀ (s : State) (n : SqId) (w : RegWr), servedSq s w.fn n = true → full4 w = true → quietCycle s = true → Answers (.dbgCtlWrite n w) s fun t =>
    let d := t.squares[n].dbg
    d.tagVal = BitVec.ofNat 8 (word w) ∧ d.tagMask = BitVec.ofNat 8 (word w / 256) ∧ d.tagEn = (word w).testBit 16 ∧ d.cntEn = (word w).testBit 17
      ∧ d.bcast = (word w).testBit 18 ∧ d.trace = (word w).testBit 19 ∧ d.hit = (s.squares[n].dbg.hit && !(word w).testBit 30) ∧ d.plyBrk = s.squares[n].dbg.plyBrk
      ∧ t.squares[n].core = s.squares[n].core ∧ t.squares[n].mem = s.squares[n].mem ∧ OtherSquares n s t)
  ∧ ∀ (s : State) (p : PartId) (w : RegWr), servedOwn s w.fn p = true → full4 w = true →
    (word w % 8 = 1 → atSnapshotPoint s p = false → Answers (.halt p w) s fun t =>
      (∀ n ∈ squaresOf s p, ownerSq s n = some p → s.squares[n].core.st = .running ∨ s.squares[n].core.st = .stalled →
        t.squares[n] = { s.squares[n] with core := { s.squares[n].core with haltReq := true } })
        ∧ (∀ n ∈ squaresOf s p, s.squares[n].core.st ≠ .running → s.squares[n].core.st ≠ .stalled → t.squares[n] = s.squares[n])
        ∧ (∀ n, n ∉ squaresOf s p → t.squares[n] = s.squares[n]) ∧ t.parts[p] = { s.parts[p] with resumeWait := 0 } ∧ ∀ q, q ≠ p → t.parts[q] = s.parts[q])
    ∧ (word w % 8 = 1 → atSnapshotPoint s p = true → Answers (.halt p w) s fun t =>
      t.parts[p] = { s.parts[p] with haltWait := true } ∧ t.squares = s.squares)
    ∧ ∀ c k, (c = Instr.resume p w ∧ k = 2) ∨ (c = Instr.step p w ∧ k = 4) → word w % 8 = k → Answers c s fun t =>
      (∀ n ∈ squaresOf s p, s.squares[n].core.st = .halted → let d := t.squares[n].core
        d.idx = s.squares[n].core.idx ∧ d.s = s.squares[n].core.s ∧ d.v = s.squares[n].core.v ∧ d.stepReq = decide (k = 4)
          ∧ (atSnapshotPoint s p = false → railReady s p = true → d.st = .running ∧ d.haltReq = false ∧ d.skipBreak = true)
          ∧ (atSnapshotPoint s p = false → railReady s p = false → d.st = .halted ∧ t.parts[p].resumeWait.getLsbD n.val = true)
          ∧ (atSnapshotPoint s p = true → d.st = .halted))
        ∧ (atSnapshotPoint s p = true → t.parts[p].haltWait = false)
        ∧ (∀ n ∈ squaresOf s p, s.squares[n].core.st ≠ .halted →
          t.squares[n] = { s.squares[n] with core := { s.squares[n].core with haltLate := false } })
        ∧ ∀ n, n ∉ squaresOf s p → t.squares[n] = s.squares[n]

/-! ### Numbers and operations (02, 04) -/

/-- The scalar opcodes of R34 at the latencies of R33, by the number that R34 gives each: the integer, logic, shift, selection and immediate forms in the next cycle, the
multiplies after three, the compares and the predicate logic into a P register in the next cycle, binary64 arithmetic and conversions after four with their status in FP_STATUS
(R118, R131); the operands are read as the ply issues, and a false guard writes nothing (R47). -/
def Obligations.ScalarOperationsFly : Prop :=
  ∀ (s : State) (n : SqId), issuesNow s n = true →
    let c := (atIssue s n).squares[n].core
    let p := plyAt s.squares[n]
    let x := p.s
    let a := c.s[x.srca.toFin]
    let b := c.s[x.srcb.toFin]
    let pa := c.p[(x.srca.extractLsb' 0 3).toFin]
    let pb := c.p[(x.srcb.extractLsb' 0 3).toFin]
    let u := fpDecode .b64 a.toNat
    let v := fpDecode .b64 b.toNat
    let nan := decide (u = .nan) || decide (v = .nan)
    let sh := b.toNat % 64
    let si := x.imm.toNat % 64
    (guard c.p x.pred x.pneg x.gen = true → Answers (.plyIssue n .clean) s fun t =>
      let toS := fun (d : Nat) (r : Word64) => (⟨c.u + d, .s x.dst.toFin r⟩ : Landing) ∈ t.squares[n].core.flight
      let toP := fun (r : Bool) => (⟨c.u + 1, .p (x.dst.extractLsb' 0 3).toFin r⟩ : Landing) ∈ t.squares[n].core.flight
      let status := fun (f : Fp) => t.squares[n].fp &&& f = f
      let ints : List (BitVec 8 × Word64) :=
        [(0x01, a + b), (0x02, a - b), (0x03, a &&& b), (0x04, a ||| b), (0x05, a ^^^ b), (0x06, a &&& ~~~b), (0x07, a <<< sh), (0x08, a >>> sh),
         (0x09, a.sshiftRight sh), (0x0A, if b.toInt < a.toInt then b else a), (0x0B, if a.toInt < b.toInt then b else a),
         (0x0C, if b.toNat < a.toNat then b else a), (0x0D, if a.toNat < b.toNat then b else a),
         (0x0F, BitVec.ofNat 64 ((List.range 64).filter fun k => a.getLsbD k).length), (0x10, a), (0x11, x.imm), (0x12, a + x.imm), (0x13, a &&& x.imm),
         (0x14, a ||| x.imm), (0x15, a ^^^ x.imm), (0x16, a <<< si), (0x17, a >>> si), (0x18, a.sshiftRight si),
         (0x19, if c.p[(x.imm.extractLsb' 0 3).toFin] then a else b)]
      let muls : List (BitVec 8 × Word64) :=
        [(0x30, a * b), (0x31, (a.signExtend 128 * b.signExtend 128).extractLsb' 64 64), (0x32, (a.zeroExtend 128 * b.zeroExtend 128).extractLsb' 64 64),
         (0x33, a * x.imm)]
      let preds : List (BitVec 8 × Bool) :=
        [(0x40, decide (a = b)), (0x41, decide (a ≠ b)), (0x42, decide (a.toInt < b.toInt)), (0x43, decide (a.toInt ≤ b.toInt)),
         (0x44, decide (a.toNat < b.toNat)), (0x45, decide (a.toNat ≤ b.toNat)), (0x46, decide (a = x.imm)), (0x47, decide (a.toInt < x.imm.toInt)),
         (0x48, !nan && fvEq u v), (0x49, !nan && fvLt u v), (0x4A, !nan && (fvLt u v || fvEq u v)), (0x4B, nan),
         (0x50, pa && pb), (0x51, pa || pb), (0x52, pa != pb), (0x53, !pa), (0x54, x.imm.getLsbD 0), (0x55, decide (a ≠ 0))]
      let floats : List (BitVec 8 × Nat × Fp) :=
        [(0x60, fpAdd .b64 a.toNat b.toNat), (0x61, fpSub .b64 a.toNat b.toNat), (0x62, fpMul .b64 a.toNat b.toNat), (0x63, fpDiv .b64 a.toNat b.toNat),
         (0x64, fpSqrt .b64 a.toNat), (0x65, fpMinMax .b64 false a.toNat b.toNat), (0x66, fpMinMax .b64 true a.toNat b.toNat),
         (0x67, fpFma .b64 a.toNat b.toNat c.s[x.dst.toFin].toNat), (0x68, fpAbs .b64 a.toNat), (0x69, fpNeg .b64 a.toNat),
         (0x6A, fpEncode .b64 .rne (intToFv a.toInt)), (0x6B, (fvToInt 64 .rne u).1, (fvToInt 64 .rne u).2 ||| fpSig1 .b64 a.toNat)]
      (∀ e ∈ ints, x.opc = e.1 → toS 1 e.2)
        ∧ (x.opc = 0x0E → ∃ k : Nat, k ≤ 64 ∧ toS 1 (BitVec.ofNat 64 k) ∧ (∀ i, 64 - k ≤ i → a.getLsbD i = false) ∧ (k < 64 → a.getLsbD (63 - k) = true))
        ∧ (x.opc = 0x1A → ∃ r, toS 1 r ∧ ∀ i, r.getLsbD i = c.p.toList.getD i false)
        ∧ (∀ e ∈ muls, x.opc = e.1 → toS 3 e.2) ∧ (∀ e ∈ preds, x.opc = e.1 → toP e.2)
        ∧ (0x48 ≤ x.opc.toNat → x.opc.toNat ≤ 0x4B → status (fpSig2 .b64 a.toNat b.toNat))
        ∧ ∀ e ∈ floats, x.opc = e.1 → toS 4 (BitVec.ofNat 64 e.2.1) ∧ status e.2.2)
    ∧ (guard c.p x.pred x.pneg x.gen = false → p.v.opc = 0 → p.m.opc = 0 → p.y.opc = 0 →
      Answers (.plyIssue n .clean) s fun t => t.squares[n].core.flight = c.flight ∧ t.squares[n].fp = (atIssue s n).squares[n].fp)

/-- The V slot (R161 to R183): its result is on its way to V[VD], and with ROUT to rail B or D, after four cycles: bit by bit, element by element, or as the operation
defines it (what ABS of the least integer gives is free, log 15); a recipe takes three cycles and one for each step; the reductions write S[SDST] after eight cycles or nine;
operand A comes from V[VA] or, with RIN, from rail A or C, which reads zero where it is empty (R163). A false guard writes nothing. -/
def Obligations.VectorOperationsFly : Prop :=
  ∀ (s : State) (n : SqId), issuesNow s n = true →
    let q := (atIssue s n).squares[n]
    let c := q.core
    let p := plyAt s.squares[n]
    let v := p.v
    let vt := s.fuses.variant
    let a := if v.rin = 1 then (match railAt c (if v.stage = 1 then Rail.c else Rail.a) c.u with | some x => x.toNat % 2 ^ vBits vt | none => 0)
      else c.v[v.va.toFin].toNat
    let b := c.v[v.vb.toFin].toNat
    let d := c.v[v.vd.toFin].toNat
    let mask := c.v[(v.imm.extractLsb' 0 5).toFin]
    let x : VArgs := ⟨vt, a, b, d, mask.toNat, c.s[v.sdst.toFin], v.imm.toNat⟩
    (∀ f : Fmt, fmtOf v.fmt.toNat = some f → vAssigned v.opc.toNat = true → vFmtOk v.opc.toNat f = true → guard c.p v.pred v.pneg v.gen = true →
      let w := fmtBits f
      let cnt := vElems vt f
      let el := fun (z k : Nat) => field z (w * k) w
      let sg := signedOf w
      let k0 := v.imm.toNat % 64 % w
      Answers (.plyIssue n .clean) s fun t =>
        let toS := fun (r : Word64) => (⟨c.u + (match vt with | .m => 8 | .v => 9), .s v.sdst.toFin r⟩ : Landing) ∈ t.squares[n].core.flight
        let toV := fun (l : Nat) (r : VReg) => (⟨c.u + l, .v v.vd.toFin r⟩ : Landing) ∈ t.squares[n].core.flight
          ∧ (v.rout = 1 → (⟨c.u + l, .rail (if v.stage = 1 then .d else .b) r⟩ : Landing) ∈ t.squares[n].core.flight)
        let each := fun (g : Nat → Nat → Nat → Nat) => ∃ r, toV 4 r ∧ ∀ k, k < cnt → el r.toNat k = g (el a k) (el b k) (el d k) % 2 ^ w
        let status := fun (g : Fp) => t.squares[n].fp &&& g = g
        let wide : List (BitVec 8 × VReg) :=
          [(0x10, BitVec.ofNat 8192 a &&& BitVec.ofNat 8192 b), (0x11, BitVec.ofNat 8192 a ||| BitVec.ofNat 8192 b),
           (0x12, BitVec.ofNat 8192 a ^^^ BitVec.ofNat 8192 b), (0x13, BitVec.ofNat 8192 a &&& ~~~BitVec.ofNat 8192 b),
           (0x2A, BitVec.ofNat 8192 (a % 2 ^ vBits vt))]
        let ints : List (BitVec 8 × (Nat → Nat → Nat → Nat)) :=
          [(0x01, fun y z _ => y + z), (0x02, fun y z _ => y + 2 ^ w - z), (0x03, fun y z _ => y * z),
           (0x05, fun y z _ => if sg z < sg y then z else y), (0x06, fun y z _ => if sg y < sg z then z else y), (0x08, fun y _ _ => 2 ^ w - y),
           (0x0B, fun y z _ => (max (-(2 : Int) ^ (w - 1)) (min ((2 : Int) ^ (w - 1) - 1) (sg y + sg z)) % (2 : Int) ^ w).toNat),
           (0x0C, fun y z _ => (max (-(2 : Int) ^ (w - 1)) (min ((2 : Int) ^ (w - 1) - 1) (sg y - sg z)) % (2 : Int) ^ w).toNat),
           (0x14, fun y _ _ => y * 2 ^ k0), (0x15, fun y _ _ => (sg y / (2 : Int) ^ k0 % (2 : Int) ^ w).toNat), (0x16, fun y _ _ => y / 2 ^ k0)]
        let floats : List (BitVec 8 × (Nat → Nat → Nat → Nat × Fp)) :=
          [(0x01, fun y z _ => fpAdd f y z), (0x02, fun y z _ => fpSub f y z), (0x03, fun y z _ => fpMul f y z), (0x04, fun y z g => fpFma f y z g),
           (0x05, fun y z _ => fpMinMax f false y z), (0x06, fun y z _ => fpMinMax f true y z), (0x07, fun y _ _ => fpAbs f y), (0x08, fun y _ _ => fpNeg f y),
           (0x09, fun y z _ => fpDiv f y z), (0x0A, fun y _ _ => fpSqrt f y)]
        (∀ e ∈ wide, v.opc = e.1 → toV 4 e.2) ∧ (fmtIsInt f = true → ∀ e ∈ ints, v.opc = e.1 → each e.2)
          ∧ (fmtIsInt f = true → v.opc = 0x07 → ∃ r, toV 4 r ∧ ∀ k, k < cnt → el a k ≠ 2 ^ (w - 1) → el r.toNat k = (sg (el a k)).natAbs)
          ∧ (fmtIsInt f = false → ∀ e ∈ floats, v.opc = e.1 →
            each (fun y z g => (e.2 y z g).1) ∧ ∀ k, k < cnt → status (e.2 (el a k) (el b k) (el d k)).2)
          ∧ (v.opc = 0x20 → ∃ r, toV 4 r ∧ ∀ k, r.getLsbD k =
              (let y := elemVal f (el a k)
              let z := elemVal f (el b k)
              let un := decide (y = .nan) || decide (z = .nan)
              decide (k < cnt)
                && [fvEq y z, !fvEq y z, fvLt y z, fvLt y z || fvEq y z, fvLt z y, fvLt z y || fvEq y z, un, !un].getD (v.imm.toNat % 8) false))
          ∧ (v.opc = 0x21 → ∃ r, toV 4 r ∧ ∀ k, k < cnt → el r.toNat k = if mask.getLsbD k then el a k else el b k)
          ∧ (v.opc = 0x28 → f ≠ .b64 → each fun _ _ _ => v.imm.toNat) ∧ (v.opc = 0x29 → each fun _ _ _ => c.s[v.sdst.toFin].toNat)
          ∧ (v.opc = 0x2B → ∃ r, toV 4 r ∧ ∀ k, k < cnt → el r.toNat ((k + v.imm.toNat % 4096) % cnt) = el a k)
          ∧ (v.opc = 0x2C → ∃ r, toV 4 r ∧ ∀ k, k < cnt → el r.toNat k = el a (el b k % cnt))
          ∧ (vWritesV v.opc.toNat = true → v.opc ≠ 0x40 → toV 4 (BitVec.ofNat 8192 (vOp v.opc.toNat f x).1) ∧ status (vOp v.opc.toNat f x).2)
          ∧ (v.opc = 0x40 → let l := recipeSteps q.recipes 32 v.rcp.toNat
            toV (3 + l.length) (BitVec.ofNat 8192 (vRecipe l f x).1) ∧ status (vRecipe l f x).2)
          ∧ (vWritesV v.opc.toNat = false → toS (vReduce v.opc.toNat f x).1 ∧ status (vReduce v.opc.toNat f x).2)
          ∧ (v.opc = 0x3C → toS (BitVec.ofNat 64 ((List.range cnt).filter fun k => a.testBit k).length))
          ∧ (v.opc = 0x38 → fmtIsInt f = true → toS (BitVec.ofInt 64 ((List.range cnt).map fun k => sg (el a k)).sum))
          ∧ (v.opc = 0x3D → fmtIsInt f = true → toS (BitVec.ofInt 64 (sg (el a (v.imm.toNat % 4096 % cnt))))))
    ∧ (guard c.p v.pred v.pneg v.gen = false → guard c.p p.s.pred p.s.pneg p.s.gen = false → p.m.opc = 0 → p.y.opc = 0 →
      Answers (.plyIssue n .clean) s fun t => t.squares[n].core.flight = c.flight ∧ t.squares[n].fp = q.fp)

/-- The L and T slots (R32, R69 to R71, R73, R165): a load of lines or of eight bytes, and a store with the bytes of its source, set out at the addresses that R32 and R71
give, a line address rounded down to its line. The M slot (R133 to R159): products in ascending order into the accumulators of the array that the operands name, or into the
ledgers; stationary entries and the segment table four cycles later; a read-out on rail C after 14 cycles, FARM at once. The Y slot (R189, R191 to R194, R206, R214): FSET
writes the flag, FTEST shows it, SEND spends a credit and sends, CFLAG sends a flag write without one. A false guard does nothing. -/
def Obligations.MemoryMatrixAndSyncSlots : Prop :=
  ∀ (s : State) (n : SqId), issuesNow s n = true →
    let q := (atIssue s n).squares[n]
    let c := q.core
    let p := plyAt s.squares[n]
    -- loads and stores
    (let l := p.l
      let ea := (c.s[l.abase.toFin].toNat + l.off.toNat) % spBytes
      let dest := if l.dest = 1 then LoadDest.railA else .v l.vd.toFin
      (guard c.p l.pred l.pneg l.gen = true → Answers (.plyIssue n .clean) s fun t =>
        (l.opc = 0x01 → t.squares[n].core.loads =
          c.loads ++ [⟨c.u, (List.range (l.lines.toNat + 1)).map (fun i => (ea / 64 * 64 + 64 * i * max 1 l.stride.toNat) % spBytes), 64, dest⟩])
          ∧ (l.opc = 0x02 → t.squares[n].core.loads = c.loads ++ [⟨c.u, [ea / 8 * 8], 8, .s l.vd.toFin⟩]))
      ∧ (guard c.p l.pred l.pneg l.gen = false → Answers (.plyIssue n .clean) s fun t => t.squares[n].core.loads = c.loads))
    ∧ (let l := p.t
      let ea := (c.s[l.abase.toFin].toNat + l.off.toNat) % spBytes
      (guard c.p l.pred l.pneg l.gen = true → ∀ x : VReg,
        (l.src = 0 ∧ x = c.v[l.vs.toFin]) ∨ (l.src = 1 ∧ railAt c .d c.u = some x) ∨ (l.src = 2 ∧ railAt c .c c.u = some x) →
        Answers (.plyIssue n .clean) s fun t =>
          (l.opc = 0x01 → ∃ b : BufStore, t.squares[n].core.stores = c.stores ++ [b] ∧ b.issued = c.u
            ∧ b.chunks.map (·.1) = (List.range (l.lines.toNat + 1)).map (fun i => (ea / 64 * 64 + 64 * i * max 1 l.stride.toNat) % spBytes)
            ∧ ∀ i j, i ≤ l.lines.toNat → j < 64 → ((b.chunks.getD i (0, [])).2)[j]? = some (x.extractLsb' (8 * (64 * i + j)) 8))
          ∧ (l.opc = 0x02 → ∃ y, t.squares[n].core.stores = c.stores ++ [⟨c.u, [(ea / 8 * 8, y)]⟩] ∧ y.length = 8 ∧ leNat y = c.s[l.vs.toFin].toNat))
      ∧ (guard c.p l.pred l.pneg l.gen = false → Answers (.plyIssue n .clean) s fun t => t.squares[n].core.stores = c.stores))
    -- the matrix engine
    ∧ (let m := p.m
      let c22 := sqClass22 s n
      let vt := s.fuses.variant
      let imm := m.imm.toNat
      let rb := field imm 10 7
      let xa := c.v[m.va.toFin].toNat
      let xb := c.v[m.vb.toFin].toNat
      let on := guard c.p m.pred m.pneg m.gen = true ∧ q.mx.foldIn = [] ∧ mAssigned c22 m.opc.toNat = true
      let set : Fin 2 := if imm.testBit 0 then 1 else 0
      (m.opc = 0 ∨ guard c.p m.pred m.pneg m.gen = false → Answers (.plyIssue n .clean) s fun t => t.squares[n].mx = q.mx)
      ∧ (∀ (g : Nat) (fa fb : Fmt), on → mNamed vt m.gmask = [g] → fmtOf m.fmta.toNat = some fa → fmtOf m.fmtb.toNat = some fb → mPairOk fa fb = true → fa ≠ .pb28 →
        m.srca = 2 → m.srcb = 2 → Answers (.plyIssue n .clean) s fun t =>
          -- element (i, k) of the chunk of A that starts at bit `at_`, element (k, j) of array ar's chunk of B
          let ea := fun (at_ i k : Nat) => elemVal fa (field xa (at_ + fmtBits fa * (mK fa * i + k)) (fmtBits fa))
          let eb := fun (ar k j : Nat) => elemVal fb (field xb (8 * mChunk fb * ar + fmtBits fb * (4 * k + j)) (fmtBits fb))
          let w := t.squares[n].mx.w
          let cell := fun (ar i j : Nat) => (m.acc.toNat * 128 + 16 * g + ar) * 16 + 4 * i + j
          (m.opc = 0x01 → lungoCtx s n = none → (∀ ar i j, ar < 16 → i < 4 → j < 4 →
              sget 0 w (cell ar i j) = (List.range (mK fa)).foldl (fun z k => (wAddVal z (fvMul (ea (8 * mChunk fa * g) i k) (eb ar k j)).1).1)
                (if m.clr = 1 then 0 else sget 0 q.mx.w (cell ar i j)))
            ∧ (∀ x, x < cell 0 0 0 ∨ cell 0 0 0 + 256 ≤ x → sget 0 w x = sget 0 q.mx.w x) ∧ t.squares[n].mx = { q.mx with w := w })
          ∧ (m.opc = 0x02 → (∀ i j : Fin 4, let d : Fin 16 := ⟨4 * i.val + j.val, by omega⟩
              let start := if m.clr = 1 then
                  ledgerZero (if fa = .b64 then BitVec.ofInt 16 (signedOf 12 (field imm 17 12)) else if fmtIsInt fa then 0 else BitVec.ofInt 16 (-298))
                else q.mx.ledgers[d]
              t.squares[n].mx.ledgers[d] = (List.range 16).foldl (fun z ar => (List.range (mK fa)).foldl (fun z k =>
                ledgerAdd z (fvMul (ea (8 * mChunk fa * ar) i.val k) (eb ar k j.val)).1) z) start)
            ∧ t.squares[n].mx = { q.mx with ledgers := t.squares[n].mx.ledgers }))
      ∧ (on → m.srca = 2 → Answers (.plyIssue n .clean) s fun t =>
          (∀ g, m.opc = 0x04 → mNamed vt m.gmask = [g] → t.squares[n].mx = q.mx
            ∧ (⟨c.u + 4, .stat ((List.range 16).map fun ar => (64 * (16 * g + ar) + imm % 64, BitVec.ofNat 256 (field xa (256 * ar) 256)))⟩ : Landing)
              ∈ t.squares[n].core.flight)
          ∧ (m.opc = 0x05 → t.squares[n].mx = q.mx ∧ ∃ seg, (⟨c.u + 4, .seg seg⟩ : Landing) ∈ t.squares[n].core.flight
            ∧ ∀ g : Fin 8, g.val < mGroups vt → (seg[g].1.toNat = field xa (64 * g.val) 6 ∧ seg[g].2.toNat = field xa (64 * g.val + 8) 4)))
      ∧ (∀ (f : Fmt) (r : Rnd), on → fmtOf (field imm 6 4) = some f → rndOf m.rnd.toNat = some r → c22 = false → Answers (.plyIssue n .clean) s fun t =>
          let b := fmtBits f
          let k := vBits vt / (16 * b)
          let shown := fun (x : VReg) (i : Nat) (v : BitVec 80) => field x.toNat (b * i) b = (wReadOut f r v).1 % 2 ^ b
          (m.opc = 0x06 → (∃ x, (⟨c.u + 14, .rail .c x⟩ : Landing) ∈ t.squares[n].core.flight
              ∧ ∀ i, i < 16 * min k (mArrays vt) → shown x i (sget 0 q.mx.w ((m.acc.toNat * 128 + rb) * 16 + i)))
            ∧ (m.clr = 0 → t.squares[n].mx = q.mx)
            ∧ (m.clr = 1 → t.squares[n].mx = { q.mx with w := t.squares[n].mx.w } ∧ ∀ y, sget 0 t.squares[n].mx.w y =
                if (m.acc.toNat * 128 + rb) * 16 ≤ y ∧ y < (m.acc.toNat * 128 + rb + min k (mArrays vt)) * 16 then 0 else sget 0 q.mx.w y))
          ∧ (m.opc = 0x0A → t.squares[n].mx = q.mx ∧ ∃ x, (⟨c.u + 14, .rail .c x⟩ : Landing) ∈ t.squares[n].core.flight
            ∧ ∀ i, i < 16 * min k 16 → rb * 16 + i < 256 → shown x i (sget 0 q.mx.cells (set.val * 256 + rb * 16 + i))))
      ∧ (on → m.opc = 0x09 → c22 = false → field imm 9 16 ≠ 0 → Answers (.plyIssue n .clean) s fun t =>
          t.squares[n].mx.fold = q.mx.fold.set set ⟨BitVec.ofNat 16 (field imm 9 16), BitVec.ofNat 8 (field imm 1 8), true, q.mx.fold[set].exceeded, false,
              nowCc s, []⟩
            ∧ (∀ y, sget 0 t.squares[n].mx.cells y = if set.val * 256 ≤ y ∧ y < set.val * 256 + 256 then 0 else sget 0 q.mx.cells y)
            ∧ t.squares[n].mx.w = q.mx.w ∧ t.squares[n].mx.ledgers = q.mx.ledgers))
    -- flags and messages
    ∧ (let y := p.y
      let op := c.s[y.sreg.toFin]
      let e := y.chan.toFin
      let flag := y.flag.toFin
      let part := partOfSq s n
      (guard c.p y.pred y.pneg y.gen = true → Answers (.plyIssue n .clean) s fun t =>
        let answered := fun (w : Nat) => (⟨c.u + 1, .s y.sreg.toFin (BitVec.ofNat 64 w)⟩ : Landing) ∈ t.squares[n].core.flight
        (y.opc = 0x01 → flagRight s part flag.val true ≠ .denied →
            t.flags.writes = s.flags.writes ++ [⟨flag, y.val == 1, nowCc s, rankMain n, some n, BitVec.allOnes 64, some (n, nowCc s), []⟩])
          ∧ (y.opc = 0x01 → flagRight s part flag.val true = .denied → t.flags = s.flags ∧ flag ∈ t.squares[n].core.denied)
          ∧ (y.opc = 0x02 → t.flags = s.flags ∧ let v := bool2nat (viewOf s n flag)
              match flagRight s part flag.val false with
              | .denied => answered 3
              | .orphan => answered (2 + 256 * v)
              | .own => answered (256 * v)
              | .granted => answered (256 * v))
          ∧ (y.opc = 0x08 → canSend s n e false = true → routeOk s n e false = true → answered 0
            ∧ t.squares[n].eps[e].credits = s.squares[n].eps[e].credits - 1
            ∧ ∃ m, t.msgs = s.msgs ++ [m] ∧ m.kind = .stream ∧ m.at_ = n ∧ m.ep = e ∧ m.part = part ∧ m.soff = 64 * bits op 24 6
              ∧ m.lines = bits op 26 25 + 1 ∧ m.doff = 64 * bits op 56 38 ∧ m.readFrom = nowCc s + 4)
          ∧ (y.opc = 0x09 → rtValid s.squares[n].eps[e].route = true → t.squares[n].eps = s.squares[n].eps ∧ t.flags = s.flags
            ∧ ∃ m, t.msgs = s.msgs ++ [m] ∧ m.kind = .cflag flag (y.val == 1) ∧ m.at_ = n ∧ m.ep = e ∧ m.lines = 0 ∧ m.flits = 1))
      ∧ (guard c.p y.pred y.pneg y.gen = false → Answers (.plyIssue n .clean) s fun t => t.flags = s.flags ∧ t.msgs = s.msgs))

/-- Every floating-point encoding of R104 but a NaN stands for its own value: encoding what it holds gives it back, exactly and without status, under each rounding
code of R115. -/
def Obligations.NumberEncodingsRoundTrip : Prop :=
  ∀ (f : Fmt) (r : Rnd) (x : Nat), fmtIsFloat f = true → x < 2 ^ fmtBits f → fpDecode f x ≠ .nan → fpEncode f r (fpDecode f x) = (x, 0)

/-- Every bit of a ply has its place (R26 to R30): putting the fields of a ply back gives its 512 bits, and taking the fields of an encoded ply gives them back. -/
def Obligations.PlyFieldsRoundTrip : Prop :=
  (∀ x : Line, encodePly (decodePly x) = x) ∧ ∀ p : Ply, decodePly (encodePly p) = p

/-! ### The whole machine -/

/-- What reset leaves (R16, R366, R373): every byte memory is in canonical form, no square has two owners, nothing waits, PART_0 is ACTIVE and owns every square, the other partitions are ABSENT, and the engines are allotted to
PART_0 as Blitz, Rapid and Classical. -/
def Obligations.ResetLeavesBoardToPart0 : Prop :=
  MemoriesOk State.reset ∧ SquaresApart State.reset ∧ State.reset.pending = [] ∧ State.reset.parts[(0 : PartId)].st = .active ∧ State.reset.parts[(0 : PartId)].own.sq = sqMap State.reset
    ∧ (∀ p : PartId, p ≠ 0 → State.reset.parts[p].st = .absent) ∧ (∀ n : SqId, State.reset.squares[n].core.st = .idle ∧ State.reset.squares[n].mem = [])
    ∧ (∀ n : CeId, State.reset.ces[n].run = none ∧ State.reset.ces[n].allot = if n.val < 4 then 0x80000000 else if n.val < 24 then 0x80000001 else 0x80000002)

/-- Every step keeps the fuses, and every byte memory of the chip in canonical form: scratchpads, message-core memories, HBM. -/
def Obligations.StepKeepsMemoriesCanonical : Prop :=
  ∀ s t : State, MemoriesOk s → step s = .next t → MemoriesOk t ∧ t.fuses = s.fuses

/-- Every step keeps it that no square belongs to two partitions, that an absent partition owns none, and that no fused square has an owner (R3, R16, R365, R369). -/
def Obligations.StepKeepsSquaresApart : Prop :=
  ∀ s t : State, SquaresApart s → step s = .next t → SquaresApart t
end

