-- ==== Sys2Proof/Laws/Memory.lean ====
section
/-! SUPPORT. Sparse arrays and byte memories: what a read after a write gives, in every state, and that every operation keeps the canonical form. -/

namespace Sys2Proof.Machine

/-! ### Reads after writes -/

theorem sget_sdrop {α : Type} (d : α) (m : Sparse α) (k a : Nat) : sget d (sdrop m k) a = if a = k then d else sget d m a := by
  induction m with
  | nil => simp [sdrop, sget]
  | cons e r ih =>
    obtain ⟨k', v'⟩ := e
    unfold sdrop at ih ⊢
    by_cases h : k' = k
    · subst h
      by_cases ha : a = k'
      · subst ha; simpa using ih
      · have h2 : ¬ k' = a := fun x => ha x.symm
        rw [if_neg ha] at ih ⊢
        simpa [sget, h2] using ih
    · simp only [List.filter_cons, ne_eq, h, not_false_eq_true, decide_true, if_true, sget]
      rw [ih]
      by_cases ha : k' = a
      · subst ha; simp [h]
      · simp [ha]

/-- A read of a sparse array after a write: the value written at its key, the old one elsewhere. -/
theorem sget_sset {α : Type} [DecidableEq α] (d : α) (m : Sparse α) (k a : Nat) (v : α) :
    sget d (sset d m k v) a = if a = k then v else sget d m a := by
  induction m with
  | nil =>
    by_cases hv : v = d
    · simp [sset, sget, hv]
    · simp [sset, sget, hv, eq_comm]
  | cons e r ih =>
    obtain ⟨k', v'⟩ := e
    unfold sset
    split
    · split
      · next hv => subst hv; exact sget_sdrop _ _ _ _
      · simp [sget, eq_comm]
    · split
      · next hk =>
        subst hk
        split
        · next hv =>
          subst hv; rw [sget_sdrop]
          by_cases ha : a = k
          · simp [ha]
          · have : ¬ k = a := fun x => ha x.symm
            simp [sget, ha, this]
        · by_cases ha : a = k
          · simp [sget, ha]
          · have : ¬ k = a := fun x => ha x.symm
            simp [sget, ha, this]
      · next h1 h2 =>
        simp only [sget, ih]
        by_cases ha : k' = a
        · subst ha; rw [if_pos rfl, if_neg fun x => h2 x.symm, if_pos rfl]
        · simp [ha]

/-- Clearing [lo, hi) leaves the default there and every other key as it was. -/
theorem sget_sclear {α : Type} (d : α) (m : Sparse α) (lo hi a : Nat) :
    sget d (sclear m lo hi) a = if lo ≤ a ∧ a < hi then d else sget d m a := by
  induction m with
  | nil => simp [sclear, sget]
  | cons e r ih =>
    obtain ⟨k', v'⟩ := e
    unfold sclear at ih ⊢
    simp only [List.filter_cons]
    split
    · next h =>
      simp only [sget, ih]
      by_cases ha : k' = a
      · subst ha
        have : ¬ (lo ≤ k' ∧ k' < hi) := by simp at h; omega
        simp [this]
      · simp [ha]
    · next h =>
      rw [ih]
      by_cases ha : k' = a
      · subst ha
        have : lo ≤ k' ∧ k' < hi := by simp at h; omega
        simp [this]
      · simp [sget, ha]

/-- One byte after a one-byte write. -/
theorem memByte_setByte (m : Memory) (k a : Nat) (b : Byte) : memByte (memSetByte m k b) a = if a = k then b else memByte m a :=
  sget_sset 0 m k a b

/-- A byte outside the bytes written reads as before. -/
theorem memByte_write_out (m : Memory) (a : Nat) (l : List Byte) (k : Nat) (h : k < a ∨ a + l.length ≤ k) : memByte (memWrite m a l) k = memByte m k := by
  induction l generalizing m a with
  | nil => rfl
  | cons b r ih =>
    simp only [List.length_cons] at h
    rw [memWrite, ih _ _ (by omega), memByte_setByte, if_neg (by omega)]

/-- A byte written reads as the byte written. -/
theorem memByte_write_in (m : Memory) (a : Nat) (l : List Byte) (i : Nat) (h : i < l.length) : memByte (memWrite m a l) (a + i) = l[i] := by
  induction l generalizing m a i with
  | nil => simp at h
  | cons b r ih =>
    cases i with
    | zero => rw [memWrite, memByte_write_out _ _ _ _ (by omega), memByte_setByte, if_pos (by omega)]; rfl
    | succ j =>
      have := ih (memSetByte m a b) (a + 1) j (by simpa using h)
      rw [memWrite, show a + (j + 1) = a + 1 + j by omega, this]; rfl

/-- Bytes read back whole. -/
theorem memBytes_write (m : Memory) (a : Nat) (l : List Byte) : memBytes (memWrite m a l) a l.length = l := by
  apply List.ext_getElem
  · simp [memBytes]
  · intro i h1 h2
    simp [memBytes, memByte_write_in m a l i h2]

theorem natLe_length (n x : Nat) : (natLe n x).length = n := by
  induction n generalizing x with
  | zero => rfl
  | succ n ih => simp [natLe, ih]

theorem leNat_natLe (n x : Nat) : leNat (natLe n x) = x % 2 ^ (8 * n) := by
  induction n generalizing x with
  | zero => simp [natLe, leNat, Nat.mod_one]
  | succ n ih =>
    have h8 : 2 ^ (8 * (n + 1)) = 256 * 2 ^ (8 * n) := by rw [show 8 * (n + 1) = 8 + 8 * n by omega, Nat.pow_add]
    rw [natLe, leNat, ih, h8, Nat.mod_mul]
    simp [BitVec.toNat_ofNat]

/-- A number written reads back, modulo its width (R100). -/
theorem memNat_writeNat (m : Memory) (a n x : Nat) : memNat (memWriteNat m a n x) a n = x % 2 ^ (8 * n) := by
  have h := memBytes_write m a (natLe n x)
  rw [natLe_length] at h
  rw [memNat, memWriteNat, h, leNat_natLe]

/-! ### The canonical form -/

theorem sortedAbove_of_le {α : Type} {m : Sparse α} {lo lo' : Nat} (h : sortedAbove lo m = true) (hl : lo' ≤ lo) : sortedAbove lo' m = true := by
  cases m with
  | nil => rfl
  | cons e r =>
    simp only [sortedAbove, Bool.and_eq_true, decide_eq_true_eq] at h ⊢
    exact ⟨by omega, h.2⟩

theorem sortedAbove_filter {α : Type} (f : Nat × α → Bool) (m : Sparse α) (lo : Nat) (h : sortedAbove lo m = true) :
    sortedAbove lo (m.filter f) = true := by
  induction m generalizing lo with
  | nil => rfl
  | cons e r ih =>
    simp only [sortedAbove, Bool.and_eq_true, decide_eq_true_eq] at h
    simp only [List.filter_cons]
    split
    · simp only [sortedAbove, Bool.and_eq_true, decide_eq_true_eq]
      exact ⟨h.1, ih _ h.2⟩
    · exact ih _ (sortedAbove_of_le h.2 (by omega))

theorem sortedAbove_sset {α : Type} [DecidableEq α] (d : α) (m : Sparse α) (lo k : Nat) (v : α) (h : sortedAbove lo m = true) (hk : lo < k) :
    sortedAbove lo (sset d m k v) = true := by
  induction m generalizing lo with
  | nil => unfold sset; split <;> simp [sortedAbove, hk]
  | cons e r ih =>
    obtain ⟨k', v'⟩ := e
    unfold sset
    have h' := h
    simp only [sortedAbove, Bool.and_eq_true, decide_eq_true_eq] at h
    split
    · split
      · exact sortedAbove_filter _ _ _ h'
      · simp only [sortedAbove, Bool.and_eq_true, decide_eq_true_eq]
        exact ⟨hk, by omega, h.2⟩
    · split
      · next hkk =>
        subst hkk
        split
        · exact sortedAbove_filter _ _ _ (sortedAbove_of_le h.2 (by omega))
        · simp only [sortedAbove, Bool.and_eq_true, decide_eq_true_eq]; exact ⟨hk, h.2⟩
      · simp only [sortedAbove, Bool.and_eq_true, decide_eq_true_eq]
        exact ⟨h.1, ih _ h.2 (by omega)⟩

/-- The form as a predicate on the list: rising above −1, no default listed. -/
theorem swf_iff {α : Type} [DecidableEq α] (d : α) (m : Sparse α) :
    swf d m = true ↔ (∀ k v r, m = (k, v) :: r → sortedAbove k r = true) ∧ ∀ e ∈ m, e.2 ≠ d := by
  unfold swf
  cases m with
  | nil => simp
  | cons e r => obtain ⟨k, v⟩ := e; simp

theorem sset_ne {α : Type} [DecidableEq α] (d : α) (m : Sparse α) (k : Nat) (v : α) (h : ∀ e ∈ m, e.2 ≠ d) : ∀ e ∈ sset d m k v, e.2 ≠ d := by
  induction m with
  | nil => unfold sset; split <;> simp_all
  | cons x r ih =>
    obtain ⟨k', v'⟩ := x
    unfold sset
    have hr : ∀ e ∈ r, e.2 ≠ d := fun e he => h e (List.mem_cons_of_mem _ he)
    split
    · split
      · intro e he; exact h e ((List.mem_filter.1 he).1)
      · intro e he
        rcases List.mem_cons.1 he with rfl | he
        · assumption
        · exact h e he
    · split
      · split
        · intro e he; exact hr e ((List.mem_filter.1 he).1)
        · intro e he
          rcases List.mem_cons.1 he with rfl | he
          · assumption
          · exact hr e he
      · intro e he
        rcases List.mem_cons.1 he with rfl | he
        · exact h _ (List.mem_cons_self ..)
        · exact ih hr e he

/-- A write keeps the canonical form. -/
theorem swf_sset {α : Type} [DecidableEq α] (d : α) (m : Sparse α) (k : Nat) (v : α) (h : swf d m = true) : swf d (sset d m k v) = true := by
  rw [swf_iff] at h ⊢
  refine ⟨?_, sset_ne d m k v h.2⟩
  intro a b r hr
  cases m with
  | nil =>
    unfold sset at hr
    split at hr
    · cases hr
    · cases hr; rfl
  | cons x q =>
    obtain ⟨k', v'⟩ := x
    have hs := h.1 k' v' q rfl
    unfold sset at hr
    split at hr
    · split at hr
      · rw [sdrop, List.filter_cons, if_pos (by simp; omega)] at hr
        cases hr; exact sortedAbove_filter _ _ _ hs
      · cases hr; simp only [sortedAbove, Bool.and_eq_true, decide_eq_true_eq]; exact ⟨by omega, hs⟩
    · split at hr
      · next hkk =>
        subst hkk
        split at hr
        · have := sortedAbove_filter (fun e => decide (e.1 ≠ k)) q k hs
          rw [show (q.filter fun e => decide (e.1 ≠ k)) = (a, b) :: r from hr] at this
          simp only [sortedAbove, Bool.and_eq_true] at this
          exact this.2
        · cases hr; exact hs
      · cases hr; exact sortedAbove_sset d q a k v hs (by omega)

/-- Removing entries keeps the canonical form. -/
theorem swf_filter {α : Type} [DecidableEq α] (d : α) (f : Nat × α → Bool) (m : Sparse α) (h : swf d m = true) : swf d (m.filter f) = true := by
  rw [swf_iff] at h ⊢
  refine ⟨?_, fun e he => h.2 e ((List.mem_filter.1 he).1)⟩
  intro a b r hr
  have : ∀ lo, sortedAbove lo m = true → sortedAbove a r = true := by
    intro lo hm
    have := sortedAbove_filter f m lo hm
    rw [hr] at this
    simp only [sortedAbove, Bool.and_eq_true] at this
    exact this.2
  cases m with
  | nil => cases hr
  | cons x q =>
    obtain ⟨k', v'⟩ := x
    have hs := h.1 k' v' q rfl
    rw [List.filter_cons] at hr
    split at hr
    · cases hr; exact sortedAbove_filter _ _ _ hs
    · have := sortedAbove_filter f q k' hs
      rw [hr] at this
      simp only [sortedAbove, Bool.and_eq_true] at this
      exact this.2

theorem Memory.wf_setByte (m : Memory) (a : Nat) (b : Byte) (h : m.wf = true) : Memory.wf (memSetByte m a b) = true := swf_sset 0 m a b h

theorem Memory.wf_write (m : Memory) (a : Nat) (l : List Byte) (h : m.wf = true) : Memory.wf (memWrite m a l) = true := by
  induction l generalizing m a with
  | nil => exact h
  | cons b r ih => exact ih _ _ (Memory.wf_setByte m a b h)

theorem Memory.wf_writeNat (m : Memory) (a n x : Nat) (h : m.wf = true) : Memory.wf (memWriteNat m a n x) = true := Memory.wf_write _ _ _ h

theorem Memory.wf_writeLine (m : Memory) (a : Nat) (x : Line) (h : m.wf = true) : Memory.wf (memWriteLine m a x) = true := Memory.wf_write _ _ _ h

theorem Memory.wf_zero (m : Memory) (lo hi : Nat) (h : m.wf = true) : Memory.wf (memZero m lo hi) = true := swf_filter 0 _ m h

theorem Memory.wf_sclear (m : Memory) (lo hi : Nat) (h : m.wf = true) : Memory.wf (sclear m lo hi) = true := swf_filter 0 _ m h

theorem Memory.wf_nil : Memory.wf [] = true := rfl

end Sys2Proof.Machine
end

