-- ==== Sys2Proof/Laws/State.lean ====
section
/-! SUPPORT. One equation for each field of the state and each of the updates of Machine/Ops.lean, true by unfolding, so that no proof unfolds an
update: which field an update changes, and that it leaves every other field as it was. -/

namespace Sys2Proof.Machine

/-! ### updSq -/

section
variable (s : State) (n : SqId) (f : Square → Square)
@[simp] theorem updSq_fuses : (updSq s n f).fuses = s.fuses := rfl
@[simp] theorem updSq_pins : (updSq s n f).pins = s.pins := rfl
@[simp] theorem updSq_king : (updSq s n f).king = s.king := rfl
@[simp] theorem updSq_power : (updSq s n f).power = s.power := rfl
@[simp] theorem updSq_avs : (updSq s n f).avs = s.avs := rfl
@[simp] theorem updSq_thermal : (updSq s n f).thermal = s.thermal := rfl
@[simp] theorem updSq_clk : (updSq s n f).clk = s.clk := rfl
@[simp] theorem updSq_ev : (updSq s n f).ev = s.ev := rfl
@[simp] theorem updSq_rings : (updSq s n f).rings = s.rings := rfl
@[simp] theorem updSq_parts : (updSq s n f).parts = s.parts := rfl
@[simp] theorem updSq_funcs : (updSq s n f).funcs = s.funcs := rfl
@[simp] theorem updSq_flags : (updSq s n f).flags = s.flags := rfl
@[simp] theorem updSq_msgs : (updSq s n f).msgs = s.msgs := rfl
@[simp] theorem updSq_credits : (updSq s n f).credits = s.credits := rfl
@[simp] theorem updSq_hbm : (updSq s n f).hbm = s.hbm := rfl
@[simp] theorem updSq_ces : (updSq s n f).ces = s.ces := rfl
@[simp] theorem updSq_lungo : (updSq s n f).lungo = s.lungo := rfl
@[simp] theorem updSq_links : (updSq s n f).links = s.links := rfl
@[simp] theorem updSq_mtch : (updSq s n f).mtch = s.mtch := rfl
@[simp] theorem updSq_srv : (updSq s n f).srv = s.srv := rfl
@[simp] theorem updSq_turns : (updSq s n f).turns = s.turns := rfl
@[simp] theorem updSq_turnPos : (updSq s n f).turnPos = s.turnPos := rfl
@[simp] theorem updSq_deciding : (updSq s n f).deciding = s.deciding := rfl
@[simp] theorem updSq_apt : (updSq s n f).apt = s.apt := rfl
@[simp] theorem updSq_walk : (updSq s n f).walk = s.walk := rfl
@[simp] theorem updSq_snp : (updSq s n f).snp = s.snp := rfl
@[simp] theorem updSq_cons : (updSq s n f).cons = s.cons := rfl
@[simp] theorem updSq_tmg : (updSq s n f).tmg = s.tmg := rfl
@[simp] theorem updSq_pending : (updSq s n f).pending = s.pending := rfl
@[simp] theorem updSq_out : (updSq s n f).out = s.out := rfl
@[simp] theorem updSq_free : (updSq s n f).free = s.free := rfl
@[simp] theorem updSq_self : (updSq s n f).squares[n] = f s.squares[n] := by simp [updSq]
theorem updSq_other (m : SqId) (h : m ≠ n) : (updSq s n f).squares[m] = s.squares[m] := by
  have h' : ¬ n.val = m.val := fun e => h (Fin.ext e.symm)
  simp [updSq, h']
end

/-! ### updPart -/

section
variable (s : State) (p : PartId) (f : Part → Part)
@[simp] theorem updPart_fuses : (updPart s p f).fuses = s.fuses := rfl
@[simp] theorem updPart_pins : (updPart s p f).pins = s.pins := rfl
@[simp] theorem updPart_king : (updPart s p f).king = s.king := rfl
@[simp] theorem updPart_power : (updPart s p f).power = s.power := rfl
@[simp] theorem updPart_avs : (updPart s p f).avs = s.avs := rfl
@[simp] theorem updPart_thermal : (updPart s p f).thermal = s.thermal := rfl
@[simp] theorem updPart_clk : (updPart s p f).clk = s.clk := rfl
@[simp] theorem updPart_ev : (updPart s p f).ev = s.ev := rfl
@[simp] theorem updPart_rings : (updPart s p f).rings = s.rings := rfl
@[simp] theorem updPart_funcs : (updPart s p f).funcs = s.funcs := rfl
@[simp] theorem updPart_squares : (updPart s p f).squares = s.squares := rfl
@[simp] theorem updPart_flags : (updPart s p f).flags = s.flags := rfl
@[simp] theorem updPart_msgs : (updPart s p f).msgs = s.msgs := rfl
@[simp] theorem updPart_credits : (updPart s p f).credits = s.credits := rfl
@[simp] theorem updPart_hbm : (updPart s p f).hbm = s.hbm := rfl
@[simp] theorem updPart_ces : (updPart s p f).ces = s.ces := rfl
@[simp] theorem updPart_lungo : (updPart s p f).lungo = s.lungo := rfl
@[simp] theorem updPart_links : (updPart s p f).links = s.links := rfl
@[simp] theorem updPart_mtch : (updPart s p f).mtch = s.mtch := rfl
@[simp] theorem updPart_srv : (updPart s p f).srv = s.srv := rfl
@[simp] theorem updPart_turns : (updPart s p f).turns = s.turns := rfl
@[simp] theorem updPart_turnPos : (updPart s p f).turnPos = s.turnPos := rfl
@[simp] theorem updPart_deciding : (updPart s p f).deciding = s.deciding := rfl
@[simp] theorem updPart_apt : (updPart s p f).apt = s.apt := rfl
@[simp] theorem updPart_walk : (updPart s p f).walk = s.walk := rfl
@[simp] theorem updPart_snp : (updPart s p f).snp = s.snp := rfl
@[simp] theorem updPart_cons : (updPart s p f).cons = s.cons := rfl
@[simp] theorem updPart_tmg : (updPart s p f).tmg = s.tmg := rfl
@[simp] theorem updPart_pending : (updPart s p f).pending = s.pending := rfl
@[simp] theorem updPart_out : (updPart s p f).out = s.out := rfl
@[simp] theorem updPart_free : (updPart s p f).free = s.free := rfl
@[simp] theorem updPart_self : (updPart s p f).parts[p] = f s.parts[p] := by simp [updPart]
theorem updPart_other (m : PartId) (h : m ≠ p) : (updPart s p f).parts[m] = s.parts[m] := by
  have h' : ¬ p.val = m.val := fun e => h (Fin.ext e.symm)
  simp [updPart, h']
end

/-! ### updLink -/

section
variable (s : State) (l : LinkId) (f : Link → Link)
@[simp] theorem updLink_fuses : (updLink s l f).fuses = s.fuses := rfl
@[simp] theorem updLink_pins : (updLink s l f).pins = s.pins := rfl
@[simp] theorem updLink_king : (updLink s l f).king = s.king := rfl
@[simp] theorem updLink_power : (updLink s l f).power = s.power := rfl
@[simp] theorem updLink_avs : (updLink s l f).avs = s.avs := rfl
@[simp] theorem updLink_thermal : (updLink s l f).thermal = s.thermal := rfl
@[simp] theorem updLink_clk : (updLink s l f).clk = s.clk := rfl
@[simp] theorem updLink_ev : (updLink s l f).ev = s.ev := rfl
@[simp] theorem updLink_rings : (updLink s l f).rings = s.rings := rfl
@[simp] theorem updLink_parts : (updLink s l f).parts = s.parts := rfl
@[simp] theorem updLink_funcs : (updLink s l f).funcs = s.funcs := rfl
@[simp] theorem updLink_squares : (updLink s l f).squares = s.squares := rfl
@[simp] theorem updLink_flags : (updLink s l f).flags = s.flags := rfl
@[simp] theorem updLink_msgs : (updLink s l f).msgs = s.msgs := rfl
@[simp] theorem updLink_credits : (updLink s l f).credits = s.credits := rfl
@[simp] theorem updLink_hbm : (updLink s l f).hbm = s.hbm := rfl
@[simp] theorem updLink_ces : (updLink s l f).ces = s.ces := rfl
@[simp] theorem updLink_lungo : (updLink s l f).lungo = s.lungo := rfl
@[simp] theorem updLink_mtch : (updLink s l f).mtch = s.mtch := rfl
@[simp] theorem updLink_srv : (updLink s l f).srv = s.srv := rfl
@[simp] theorem updLink_turns : (updLink s l f).turns = s.turns := rfl
@[simp] theorem updLink_turnPos : (updLink s l f).turnPos = s.turnPos := rfl
@[simp] theorem updLink_deciding : (updLink s l f).deciding = s.deciding := rfl
@[simp] theorem updLink_apt : (updLink s l f).apt = s.apt := rfl
@[simp] theorem updLink_walk : (updLink s l f).walk = s.walk := rfl
@[simp] theorem updLink_snp : (updLink s l f).snp = s.snp := rfl
@[simp] theorem updLink_cons : (updLink s l f).cons = s.cons := rfl
@[simp] theorem updLink_tmg : (updLink s l f).tmg = s.tmg := rfl
@[simp] theorem updLink_pending : (updLink s l f).pending = s.pending := rfl
@[simp] theorem updLink_out : (updLink s l f).out = s.out := rfl
@[simp] theorem updLink_free : (updLink s l f).free = s.free := rfl
@[simp] theorem updLink_self : (updLink s l f).links[l] = f s.links[l] := by simp [updLink]
theorem updLink_other (m : LinkId) (h : m ≠ l) : (updLink s l f).links[m] = s.links[m] := by
  have h' : ¬ l.val = m.val := fun e => h (Fin.ext e.symm)
  simp [updLink, h']
end

/-! ### updCe -/

section
variable (s : State) (n : CeId) (f : CopyEng → CopyEng)
@[simp] theorem updCe_fuses : (updCe s n f).fuses = s.fuses := rfl
@[simp] theorem updCe_pins : (updCe s n f).pins = s.pins := rfl
@[simp] theorem updCe_king : (updCe s n f).king = s.king := rfl
@[simp] theorem updCe_power : (updCe s n f).power = s.power := rfl
@[simp] theorem updCe_avs : (updCe s n f).avs = s.avs := rfl
@[simp] theorem updCe_thermal : (updCe s n f).thermal = s.thermal := rfl
@[simp] theorem updCe_clk : (updCe s n f).clk = s.clk := rfl
@[simp] theorem updCe_ev : (updCe s n f).ev = s.ev := rfl
@[simp] theorem updCe_rings : (updCe s n f).rings = s.rings := rfl
@[simp] theorem updCe_parts : (updCe s n f).parts = s.parts := rfl
@[simp] theorem updCe_funcs : (updCe s n f).funcs = s.funcs := rfl
@[simp] theorem updCe_squares : (updCe s n f).squares = s.squares := rfl
@[simp] theorem updCe_flags : (updCe s n f).flags = s.flags := rfl
@[simp] theorem updCe_msgs : (updCe s n f).msgs = s.msgs := rfl
@[simp] theorem updCe_credits : (updCe s n f).credits = s.credits := rfl
@[simp] theorem updCe_hbm : (updCe s n f).hbm = s.hbm := rfl
@[simp] theorem updCe_lungo : (updCe s n f).lungo = s.lungo := rfl
@[simp] theorem updCe_links : (updCe s n f).links = s.links := rfl
@[simp] theorem updCe_mtch : (updCe s n f).mtch = s.mtch := rfl
@[simp] theorem updCe_srv : (updCe s n f).srv = s.srv := rfl
@[simp] theorem updCe_turns : (updCe s n f).turns = s.turns := rfl
@[simp] theorem updCe_turnPos : (updCe s n f).turnPos = s.turnPos := rfl
@[simp] theorem updCe_deciding : (updCe s n f).deciding = s.deciding := rfl
@[simp] theorem updCe_apt : (updCe s n f).apt = s.apt := rfl
@[simp] theorem updCe_walk : (updCe s n f).walk = s.walk := rfl
@[simp] theorem updCe_snp : (updCe s n f).snp = s.snp := rfl
@[simp] theorem updCe_cons : (updCe s n f).cons = s.cons := rfl
@[simp] theorem updCe_tmg : (updCe s n f).tmg = s.tmg := rfl
@[simp] theorem updCe_pending : (updCe s n f).pending = s.pending := rfl
@[simp] theorem updCe_out : (updCe s n f).out = s.out := rfl
@[simp] theorem updCe_free : (updCe s n f).free = s.free := rfl
@[simp] theorem updCe_self : (updCe s n f).ces[n] = f s.ces[n] := by simp [updCe]
theorem updCe_other (m : CeId) (h : m ≠ n) : (updCe s n f).ces[m] = s.ces[m] := by
  have h' : ¬ n.val = m.val := fun e => h (Fin.ext e.symm)
  simp [updCe, h']
end

/-! ### updSrv -/

section
variable (s : State) (p : PartId) (f : Srv → Srv)
@[simp] theorem updSrv_fuses : (updSrv s p f).fuses = s.fuses := rfl
@[simp] theorem updSrv_pins : (updSrv s p f).pins = s.pins := rfl
@[simp] theorem updSrv_king : (updSrv s p f).king = s.king := rfl
@[simp] theorem updSrv_power : (updSrv s p f).power = s.power := rfl
@[simp] theorem updSrv_avs : (updSrv s p f).avs = s.avs := rfl
@[simp] theorem updSrv_thermal : (updSrv s p f).thermal = s.thermal := rfl
@[simp] theorem updSrv_clk : (updSrv s p f).clk = s.clk := rfl
@[simp] theorem updSrv_ev : (updSrv s p f).ev = s.ev := rfl
@[simp] theorem updSrv_rings : (updSrv s p f).rings = s.rings := rfl
@[simp] theorem updSrv_parts : (updSrv s p f).parts = s.parts := rfl
@[simp] theorem updSrv_funcs : (updSrv s p f).funcs = s.funcs := rfl
@[simp] theorem updSrv_squares : (updSrv s p f).squares = s.squares := rfl
@[simp] theorem updSrv_flags : (updSrv s p f).flags = s.flags := rfl
@[simp] theorem updSrv_msgs : (updSrv s p f).msgs = s.msgs := rfl
@[simp] theorem updSrv_credits : (updSrv s p f).credits = s.credits := rfl
@[simp] theorem updSrv_hbm : (updSrv s p f).hbm = s.hbm := rfl
@[simp] theorem updSrv_ces : (updSrv s p f).ces = s.ces := rfl
@[simp] theorem updSrv_lungo : (updSrv s p f).lungo = s.lungo := rfl
@[simp] theorem updSrv_links : (updSrv s p f).links = s.links := rfl
@[simp] theorem updSrv_mtch : (updSrv s p f).mtch = s.mtch := rfl
@[simp] theorem updSrv_turns : (updSrv s p f).turns = s.turns := rfl
@[simp] theorem updSrv_turnPos : (updSrv s p f).turnPos = s.turnPos := rfl
@[simp] theorem updSrv_deciding : (updSrv s p f).deciding = s.deciding := rfl
@[simp] theorem updSrv_apt : (updSrv s p f).apt = s.apt := rfl
@[simp] theorem updSrv_walk : (updSrv s p f).walk = s.walk := rfl
@[simp] theorem updSrv_snp : (updSrv s p f).snp = s.snp := rfl
@[simp] theorem updSrv_cons : (updSrv s p f).cons = s.cons := rfl
@[simp] theorem updSrv_tmg : (updSrv s p f).tmg = s.tmg := rfl
@[simp] theorem updSrv_pending : (updSrv s p f).pending = s.pending := rfl
@[simp] theorem updSrv_out : (updSrv s p f).out = s.out := rfl
@[simp] theorem updSrv_free : (updSrv s p f).free = s.free := rfl
@[simp] theorem updSrv_self : (updSrv s p f).srv[p] = f s.srv[p] := by simp [updSrv]
theorem updSrv_other (m : PartId) (h : m ≠ p) : (updSrv s p f).srv[m] = s.srv[m] := by
  have h' : ¬ p.val = m.val := fun e => h (Fin.ext e.symm)
  simp [updSrv, h']
end

/-! ### updSnp -/

section
variable (s : State) (p : PartId) (f : Snp → Snp)
@[simp] theorem updSnp_fuses : (updSnp s p f).fuses = s.fuses := rfl
@[simp] theorem updSnp_pins : (updSnp s p f).pins = s.pins := rfl
@[simp] theorem updSnp_king : (updSnp s p f).king = s.king := rfl
@[simp] theorem updSnp_power : (updSnp s p f).power = s.power := rfl
@[simp] theorem updSnp_avs : (updSnp s p f).avs = s.avs := rfl
@[simp] theorem updSnp_thermal : (updSnp s p f).thermal = s.thermal := rfl
@[simp] theorem updSnp_clk : (updSnp s p f).clk = s.clk := rfl
@[simp] theorem updSnp_ev : (updSnp s p f).ev = s.ev := rfl
@[simp] theorem updSnp_rings : (updSnp s p f).rings = s.rings := rfl
@[simp] theorem updSnp_parts : (updSnp s p f).parts = s.parts := rfl
@[simp] theorem updSnp_funcs : (updSnp s p f).funcs = s.funcs := rfl
@[simp] theorem updSnp_squares : (updSnp s p f).squares = s.squares := rfl
@[simp] theorem updSnp_flags : (updSnp s p f).flags = s.flags := rfl
@[simp] theorem updSnp_msgs : (updSnp s p f).msgs = s.msgs := rfl
@[simp] theorem updSnp_credits : (updSnp s p f).credits = s.credits := rfl
@[simp] theorem updSnp_hbm : (updSnp s p f).hbm = s.hbm := rfl
@[simp] theorem updSnp_ces : (updSnp s p f).ces = s.ces := rfl
@[simp] theorem updSnp_lungo : (updSnp s p f).lungo = s.lungo := rfl
@[simp] theorem updSnp_links : (updSnp s p f).links = s.links := rfl
@[simp] theorem updSnp_mtch : (updSnp s p f).mtch = s.mtch := rfl
@[simp] theorem updSnp_srv : (updSnp s p f).srv = s.srv := rfl
@[simp] theorem updSnp_turns : (updSnp s p f).turns = s.turns := rfl
@[simp] theorem updSnp_turnPos : (updSnp s p f).turnPos = s.turnPos := rfl
@[simp] theorem updSnp_deciding : (updSnp s p f).deciding = s.deciding := rfl
@[simp] theorem updSnp_apt : (updSnp s p f).apt = s.apt := rfl
@[simp] theorem updSnp_walk : (updSnp s p f).walk = s.walk := rfl
@[simp] theorem updSnp_cons : (updSnp s p f).cons = s.cons := rfl
@[simp] theorem updSnp_tmg : (updSnp s p f).tmg = s.tmg := rfl
@[simp] theorem updSnp_pending : (updSnp s p f).pending = s.pending := rfl
@[simp] theorem updSnp_out : (updSnp s p f).out = s.out := rfl
@[simp] theorem updSnp_free : (updSnp s p f).free = s.free := rfl
@[simp] theorem updSnp_self : (updSnp s p f).snp[p] = f s.snp[p] := by simp [updSnp]
theorem updSnp_other (m : PartId) (h : m ≠ p) : (updSnp s p f).snp[m] = s.snp[m] := by
  have h' : ¬ p.val = m.val := fun e => h (Fin.ext e.symm)
  simp [updSnp, h']
end

/-! ### updEvt -/

section
variable (s : State) (p : PartId) (f : EvtRing → EvtRing)
@[simp] theorem updEvt_fuses : (updEvt s p f).fuses = s.fuses := rfl
@[simp] theorem updEvt_pins : (updEvt s p f).pins = s.pins := rfl
@[simp] theorem updEvt_king : (updEvt s p f).king = s.king := rfl
@[simp] theorem updEvt_power : (updEvt s p f).power = s.power := rfl
@[simp] theorem updEvt_avs : (updEvt s p f).avs = s.avs := rfl
@[simp] theorem updEvt_thermal : (updEvt s p f).thermal = s.thermal := rfl
@[simp] theorem updEvt_clk : (updEvt s p f).clk = s.clk := rfl
@[simp] theorem updEvt_ev : (updEvt s p f).ev = s.ev := rfl
@[simp] theorem updEvt_parts : (updEvt s p f).parts = s.parts := rfl
@[simp] theorem updEvt_funcs : (updEvt s p f).funcs = s.funcs := rfl
@[simp] theorem updEvt_squares : (updEvt s p f).squares = s.squares := rfl
@[simp] theorem updEvt_flags : (updEvt s p f).flags = s.flags := rfl
@[simp] theorem updEvt_msgs : (updEvt s p f).msgs = s.msgs := rfl
@[simp] theorem updEvt_credits : (updEvt s p f).credits = s.credits := rfl
@[simp] theorem updEvt_hbm : (updEvt s p f).hbm = s.hbm := rfl
@[simp] theorem updEvt_ces : (updEvt s p f).ces = s.ces := rfl
@[simp] theorem updEvt_lungo : (updEvt s p f).lungo = s.lungo := rfl
@[simp] theorem updEvt_links : (updEvt s p f).links = s.links := rfl
@[simp] theorem updEvt_mtch : (updEvt s p f).mtch = s.mtch := rfl
@[simp] theorem updEvt_srv : (updEvt s p f).srv = s.srv := rfl
@[simp] theorem updEvt_turns : (updEvt s p f).turns = s.turns := rfl
@[simp] theorem updEvt_turnPos : (updEvt s p f).turnPos = s.turnPos := rfl
@[simp] theorem updEvt_deciding : (updEvt s p f).deciding = s.deciding := rfl
@[simp] theorem updEvt_apt : (updEvt s p f).apt = s.apt := rfl
@[simp] theorem updEvt_walk : (updEvt s p f).walk = s.walk := rfl
@[simp] theorem updEvt_snp : (updEvt s p f).snp = s.snp := rfl
@[simp] theorem updEvt_cons : (updEvt s p f).cons = s.cons := rfl
@[simp] theorem updEvt_tmg : (updEvt s p f).tmg = s.tmg := rfl
@[simp] theorem updEvt_pending : (updEvt s p f).pending = s.pending := rfl
@[simp] theorem updEvt_out : (updEvt s p f).out = s.out := rfl
@[simp] theorem updEvt_free : (updEvt s p f).free = s.free := rfl
@[simp] theorem updEvt_self : (updEvt s p f).rings[p] = f s.rings[p] := by simp [updEvt]
theorem updEvt_other (m : PartId) (h : m ≠ p) : (updEvt s p f).rings[m] = s.rings[m] := by
  have h' : ¬ p.val = m.val := fun e => h (Fin.ext e.symm)
  simp [updEvt, h']
end

/-! ### updFunc -/

section
variable (s : State) (n : FnId) (f : Func → Func)
@[simp] theorem updFunc_fuses : (updFunc s n f).fuses = s.fuses := rfl
@[simp] theorem updFunc_pins : (updFunc s n f).pins = s.pins := rfl
@[simp] theorem updFunc_king : (updFunc s n f).king = s.king := rfl
@[simp] theorem updFunc_power : (updFunc s n f).power = s.power := rfl
@[simp] theorem updFunc_avs : (updFunc s n f).avs = s.avs := rfl
@[simp] theorem updFunc_thermal : (updFunc s n f).thermal = s.thermal := rfl
@[simp] theorem updFunc_clk : (updFunc s n f).clk = s.clk := rfl
@[simp] theorem updFunc_ev : (updFunc s n f).ev = s.ev := rfl
@[simp] theorem updFunc_rings : (updFunc s n f).rings = s.rings := rfl
@[simp] theorem updFunc_parts : (updFunc s n f).parts = s.parts := rfl
@[simp] theorem updFunc_squares : (updFunc s n f).squares = s.squares := rfl
@[simp] theorem updFunc_flags : (updFunc s n f).flags = s.flags := rfl
@[simp] theorem updFunc_msgs : (updFunc s n f).msgs = s.msgs := rfl
@[simp] theorem updFunc_credits : (updFunc s n f).credits = s.credits := rfl
@[simp] theorem updFunc_hbm : (updFunc s n f).hbm = s.hbm := rfl
@[simp] theorem updFunc_ces : (updFunc s n f).ces = s.ces := rfl
@[simp] theorem updFunc_lungo : (updFunc s n f).lungo = s.lungo := rfl
@[simp] theorem updFunc_links : (updFunc s n f).links = s.links := rfl
@[simp] theorem updFunc_mtch : (updFunc s n f).mtch = s.mtch := rfl
@[simp] theorem updFunc_srv : (updFunc s n f).srv = s.srv := rfl
@[simp] theorem updFunc_turns : (updFunc s n f).turns = s.turns := rfl
@[simp] theorem updFunc_turnPos : (updFunc s n f).turnPos = s.turnPos := rfl
@[simp] theorem updFunc_deciding : (updFunc s n f).deciding = s.deciding := rfl
@[simp] theorem updFunc_apt : (updFunc s n f).apt = s.apt := rfl
@[simp] theorem updFunc_walk : (updFunc s n f).walk = s.walk := rfl
@[simp] theorem updFunc_snp : (updFunc s n f).snp = s.snp := rfl
@[simp] theorem updFunc_cons : (updFunc s n f).cons = s.cons := rfl
@[simp] theorem updFunc_tmg : (updFunc s n f).tmg = s.tmg := rfl
@[simp] theorem updFunc_pending : (updFunc s n f).pending = s.pending := rfl
@[simp] theorem updFunc_out : (updFunc s n f).out = s.out := rfl
@[simp] theorem updFunc_free : (updFunc s n f).free = s.free := rfl
@[simp] theorem updFunc_self : (updFunc s n f).funcs[n] = f s.funcs[n] := by simp [updFunc]
theorem updFunc_other (m : FnId) (h : m ≠ n) : (updFunc s n f).funcs[m] = s.funcs[m] := by
  have h' : ¬ n.val = m.val := fun e => h (Fin.ext e.symm)
  simp [updFunc, h']
end

/-! ### updCore -/

section
variable (s : State) (n : SqId) (f : Core → Core)
@[simp] theorem updCore_fuses : (updCore s n f).fuses = s.fuses := rfl
@[simp] theorem updCore_pins : (updCore s n f).pins = s.pins := rfl
@[simp] theorem updCore_king : (updCore s n f).king = s.king := rfl
@[simp] theorem updCore_power : (updCore s n f).power = s.power := rfl
@[simp] theorem updCore_avs : (updCore s n f).avs = s.avs := rfl
@[simp] theorem updCore_thermal : (updCore s n f).thermal = s.thermal := rfl
@[simp] theorem updCore_clk : (updCore s n f).clk = s.clk := rfl
@[simp] theorem updCore_ev : (updCore s n f).ev = s.ev := rfl
@[simp] theorem updCore_rings : (updCore s n f).rings = s.rings := rfl
@[simp] theorem updCore_parts : (updCore s n f).parts = s.parts := rfl
@[simp] theorem updCore_funcs : (updCore s n f).funcs = s.funcs := rfl
@[simp] theorem updCore_flags : (updCore s n f).flags = s.flags := rfl
@[simp] theorem updCore_msgs : (updCore s n f).msgs = s.msgs := rfl
@[simp] theorem updCore_credits : (updCore s n f).credits = s.credits := rfl
@[simp] theorem updCore_hbm : (updCore s n f).hbm = s.hbm := rfl
@[simp] theorem updCore_ces : (updCore s n f).ces = s.ces := rfl
@[simp] theorem updCore_lungo : (updCore s n f).lungo = s.lungo := rfl
@[simp] theorem updCore_links : (updCore s n f).links = s.links := rfl
@[simp] theorem updCore_mtch : (updCore s n f).mtch = s.mtch := rfl
@[simp] theorem updCore_srv : (updCore s n f).srv = s.srv := rfl
@[simp] theorem updCore_turns : (updCore s n f).turns = s.turns := rfl
@[simp] theorem updCore_turnPos : (updCore s n f).turnPos = s.turnPos := rfl
@[simp] theorem updCore_deciding : (updCore s n f).deciding = s.deciding := rfl
@[simp] theorem updCore_apt : (updCore s n f).apt = s.apt := rfl
@[simp] theorem updCore_walk : (updCore s n f).walk = s.walk := rfl
@[simp] theorem updCore_snp : (updCore s n f).snp = s.snp := rfl
@[simp] theorem updCore_cons : (updCore s n f).cons = s.cons := rfl
@[simp] theorem updCore_tmg : (updCore s n f).tmg = s.tmg := rfl
@[simp] theorem updCore_pending : (updCore s n f).pending = s.pending := rfl
@[simp] theorem updCore_out : (updCore s n f).out = s.out := rfl
@[simp] theorem updCore_free : (updCore s n f).free = s.free := rfl
theorem updCore_self : (updCore s n f).squares[n] = { s.squares[n] with core := f s.squares[n].core } := by simp [updCore, updSq]
theorem updCore_other (m : SqId) (h : m ≠ n) : (updCore s n f).squares[m] = s.squares[m] := by
  have h' : ¬ n.val = m.val := fun e => h (Fin.ext e.symm)
  simp [updCore, updSq, h']
end

/-! ### updMc -/

section
variable (s : State) (n : SqId) (f : Mc → Mc)
@[simp] theorem updMc_fuses : (updMc s n f).fuses = s.fuses := rfl
@[simp] theorem updMc_pins : (updMc s n f).pins = s.pins := rfl
@[simp] theorem updMc_king : (updMc s n f).king = s.king := rfl
@[simp] theorem updMc_power : (updMc s n f).power = s.power := rfl
@[simp] theorem updMc_avs : (updMc s n f).avs = s.avs := rfl
@[simp] theorem updMc_thermal : (updMc s n f).thermal = s.thermal := rfl
@[simp] theorem updMc_clk : (updMc s n f).clk = s.clk := rfl
@[simp] theorem updMc_ev : (updMc s n f).ev = s.ev := rfl
@[simp] theorem updMc_rings : (updMc s n f).rings = s.rings := rfl
@[simp] theorem updMc_parts : (updMc s n f).parts = s.parts := rfl
@[simp] theorem updMc_funcs : (updMc s n f).funcs = s.funcs := rfl
@[simp] theorem updMc_flags : (updMc s n f).flags = s.flags := rfl
@[simp] theorem updMc_msgs : (updMc s n f).msgs = s.msgs := rfl
@[simp] theorem updMc_credits : (updMc s n f).credits = s.credits := rfl
@[simp] theorem updMc_hbm : (updMc s n f).hbm = s.hbm := rfl
@[simp] theorem updMc_ces : (updMc s n f).ces = s.ces := rfl
@[simp] theorem updMc_lungo : (updMc s n f).lungo = s.lungo := rfl
@[simp] theorem updMc_links : (updMc s n f).links = s.links := rfl
@[simp] theorem updMc_mtch : (updMc s n f).mtch = s.mtch := rfl
@[simp] theorem updMc_srv : (updMc s n f).srv = s.srv := rfl
@[simp] theorem updMc_turns : (updMc s n f).turns = s.turns := rfl
@[simp] theorem updMc_turnPos : (updMc s n f).turnPos = s.turnPos := rfl
@[simp] theorem updMc_deciding : (updMc s n f).deciding = s.deciding := rfl
@[simp] theorem updMc_apt : (updMc s n f).apt = s.apt := rfl
@[simp] theorem updMc_walk : (updMc s n f).walk = s.walk := rfl
@[simp] theorem updMc_snp : (updMc s n f).snp = s.snp := rfl
@[simp] theorem updMc_cons : (updMc s n f).cons = s.cons := rfl
@[simp] theorem updMc_tmg : (updMc s n f).tmg = s.tmg := rfl
@[simp] theorem updMc_pending : (updMc s n f).pending = s.pending := rfl
@[simp] theorem updMc_out : (updMc s n f).out = s.out := rfl
@[simp] theorem updMc_free : (updMc s n f).free = s.free := rfl
theorem updMc_self : (updMc s n f).squares[n] = { s.squares[n] with mc := f s.squares[n].mc } := by simp [updMc, updSq]
theorem updMc_other (m : SqId) (h : m ≠ n) : (updMc s n f).squares[m] = s.squares[m] := by
  have h' : ¬ n.val = m.val := fun e => h (Fin.ext e.symm)
  simp [updMc, updSq, h']
end

/-! ### updRingOf -/

section
variable (s : State) (p : PartId) (f : Ring → Ring)
@[simp] theorem updRingOf_fuses : (updRingOf s p f).fuses = s.fuses := rfl
@[simp] theorem updRingOf_pins : (updRingOf s p f).pins = s.pins := rfl
@[simp] theorem updRingOf_king : (updRingOf s p f).king = s.king := rfl
@[simp] theorem updRingOf_power : (updRingOf s p f).power = s.power := rfl
@[simp] theorem updRingOf_avs : (updRingOf s p f).avs = s.avs := rfl
@[simp] theorem updRingOf_thermal : (updRingOf s p f).thermal = s.thermal := rfl
@[simp] theorem updRingOf_clk : (updRingOf s p f).clk = s.clk := rfl
@[simp] theorem updRingOf_ev : (updRingOf s p f).ev = s.ev := rfl
@[simp] theorem updRingOf_rings : (updRingOf s p f).rings = s.rings := rfl
@[simp] theorem updRingOf_funcs : (updRingOf s p f).funcs = s.funcs := rfl
@[simp] theorem updRingOf_squares : (updRingOf s p f).squares = s.squares := rfl
@[simp] theorem updRingOf_flags : (updRingOf s p f).flags = s.flags := rfl
@[simp] theorem updRingOf_msgs : (updRingOf s p f).msgs = s.msgs := rfl
@[simp] theorem updRingOf_credits : (updRingOf s p f).credits = s.credits := rfl
@[simp] theorem updRingOf_hbm : (updRingOf s p f).hbm = s.hbm := rfl
@[simp] theorem updRingOf_ces : (updRingOf s p f).ces = s.ces := rfl
@[simp] theorem updRingOf_lungo : (updRingOf s p f).lungo = s.lungo := rfl
@[simp] theorem updRingOf_links : (updRingOf s p f).links = s.links := rfl
@[simp] theorem updRingOf_mtch : (updRingOf s p f).mtch = s.mtch := rfl
@[simp] theorem updRingOf_srv : (updRingOf s p f).srv = s.srv := rfl
@[simp] theorem updRingOf_turns : (updRingOf s p f).turns = s.turns := rfl
@[simp] theorem updRingOf_turnPos : (updRingOf s p f).turnPos = s.turnPos := rfl
@[simp] theorem updRingOf_deciding : (updRingOf s p f).deciding = s.deciding := rfl
@[simp] theorem updRingOf_apt : (updRingOf s p f).apt = s.apt := rfl
@[simp] theorem updRingOf_walk : (updRingOf s p f).walk = s.walk := rfl
@[simp] theorem updRingOf_snp : (updRingOf s p f).snp = s.snp := rfl
@[simp] theorem updRingOf_cons : (updRingOf s p f).cons = s.cons := rfl
@[simp] theorem updRingOf_tmg : (updRingOf s p f).tmg = s.tmg := rfl
@[simp] theorem updRingOf_pending : (updRingOf s p f).pending = s.pending := rfl
@[simp] theorem updRingOf_out : (updRingOf s p f).out = s.out := rfl
@[simp] theorem updRingOf_free : (updRingOf s p f).free = s.free := rfl
theorem updRingOf_self : (updRingOf s p f).parts[p] = { s.parts[p] with ring := f s.parts[p].ring } := by simp [updRingOf, updPart]
theorem updRingOf_other (m : PartId) (h : m ≠ p) : (updRingOf s p f).parts[m] = s.parts[m] := by
  have h' : ¬ p.val = m.val := fun e => h (Fin.ext e.symm)
  simp [updRingOf, updPart, h']
end

/-! ### emit -/

section
variable (s : State) (o : Output)
@[simp] theorem emit_fuses : (emit s o).fuses = s.fuses := rfl
@[simp] theorem emit_pins : (emit s o).pins = s.pins := rfl
@[simp] theorem emit_king : (emit s o).king = s.king := rfl
@[simp] theorem emit_power : (emit s o).power = s.power := rfl
@[simp] theorem emit_avs : (emit s o).avs = s.avs := rfl
@[simp] theorem emit_thermal : (emit s o).thermal = s.thermal := rfl
@[simp] theorem emit_clk : (emit s o).clk = s.clk := rfl
@[simp] theorem emit_ev : (emit s o).ev = s.ev := rfl
@[simp] theorem emit_rings : (emit s o).rings = s.rings := rfl
@[simp] theorem emit_parts : (emit s o).parts = s.parts := rfl
@[simp] theorem emit_funcs : (emit s o).funcs = s.funcs := rfl
@[simp] theorem emit_squares : (emit s o).squares = s.squares := rfl
@[simp] theorem emit_flags : (emit s o).flags = s.flags := rfl
@[simp] theorem emit_msgs : (emit s o).msgs = s.msgs := rfl
@[simp] theorem emit_credits : (emit s o).credits = s.credits := rfl
@[simp] theorem emit_hbm : (emit s o).hbm = s.hbm := rfl
@[simp] theorem emit_ces : (emit s o).ces = s.ces := rfl
@[simp] theorem emit_lungo : (emit s o).lungo = s.lungo := rfl
@[simp] theorem emit_links : (emit s o).links = s.links := rfl
@[simp] theorem emit_mtch : (emit s o).mtch = s.mtch := rfl
@[simp] theorem emit_srv : (emit s o).srv = s.srv := rfl
@[simp] theorem emit_turns : (emit s o).turns = s.turns := rfl
@[simp] theorem emit_turnPos : (emit s o).turnPos = s.turnPos := rfl
@[simp] theorem emit_deciding : (emit s o).deciding = s.deciding := rfl
@[simp] theorem emit_apt : (emit s o).apt = s.apt := rfl
@[simp] theorem emit_walk : (emit s o).walk = s.walk := rfl
@[simp] theorem emit_snp : (emit s o).snp = s.snp := rfl
@[simp] theorem emit_cons : (emit s o).cons = s.cons := rfl
@[simp] theorem emit_tmg : (emit s o).tmg = s.tmg := rfl
@[simp] theorem emit_pending : (emit s o).pending = s.pending := rfl
@[simp] theorem emit_out : (emit s o).out = s.out ++ [o] := rfl
@[simp] theorem emit_free : (emit s o).free = s.free := rfl
end

end Sys2Proof.Machine
end

