-- ==== Sys2Proof/Laws/Ops.lean ====
section
/-! SUPPORT. For each shared operation of Machine/Ops.lean and Machine/Flags.lean, once, everything it can change: the state after it is the state
before with some value in the fields named, and every other field as it was. A proof takes the equation in place of the operation's text. -/

namespace Sys2Proof.Machine

/-! ### Time and free values -/

theorem clockTick_frame (s : State) : ∃ k, clockTick s = { s with clk := k } := by
  unfold clockTick; split
  · exact ⟨_, rfl⟩
  · split
    · exact ⟨_, rfl⟩
    · exact ⟨s.clk, rfl⟩

theorem draw_frame (s : State) : (draw s).1 = { s with free := s.free + 1 } := rfl
theorem draw_value (s : State) : (draw s).2 = Config.freeNat s.free := rfl

/-! ### Hardware marks, events and violations -/

theorem hwMark_frame (s : State) (f : HwField) (x : Nat) : ∃ e, hwMark s f x = { s with ev := e } := ⟨_, rfl⟩
theorem hwUp_frame {w : Nat} (s : State) (f : HwField) (old : BitVec w) (n : Nat) : ∃ e, hwUp s f old n = { s with ev := e } := ⟨_, rfl⟩

/-- A bit that the hardware has not set in this cycle is cleared by a one (R405). -/
theorem w1c_quiet (s : State) (f : HwField) (x : Nat) (h : s.ev.hw = []) : w1c s f x = x := by simp [w1c, hwBits, hwOf, h]
/-- An rc counter that the hardware has not counted up in this cycle reads 0 after the read that clears it. -/
theorem rcLeft_quiet (s : State) (f : HwField) (w : Nat) (h : s.ev.hw = []) : rcLeft s f w = 0 := by
  simp [rcLeft, hwCount, hwOf, h]
/-- Such a counter shows a read what it holds. -/
theorem rcShown_quiet (s : State) (f : HwField) (v : Nat) (h : s.ev.hw = []) : rcShown s f v = v := by
  simp [rcShown, hwLost, hwCount, hwOf, h]

theorem fireMsix_frame (s : State) (fn : FnId) (v : Fin 8) : ∃ f o, fireMsix s fn v = { s with funcs := f, out := o } := by
  unfold fireMsix; split
  · exact ⟨s.funcs, s.out, rfl⟩
  · split
    · exact ⟨_, s.out, rfl⟩
    · exact ⟨s.funcs, _, rfl⟩

theorem evtRingPut_frame (s : State) (p : PartId) (e : Event) :
    ∃ v r f o, evtRingPut s p e = { s with ev := v, rings := r, funcs := f, out := o } := by
  unfold evtRingPut; dsimp only; split
  · exact ⟨_, _, s.funcs, s.out, rfl⟩
  · split
    · obtain ⟨f, o, h⟩ := fireMsix_frame (updEvt (emit s _) p _) p 1
      rw [h]; exact ⟨s.ev, _, f, o, rfl⟩
    · exact ⟨s.ev, _, s.funcs, _, rfl⟩

theorem raise_frame (s : State) (src : Nat) (part : Option PartId) (code : Nat) (detail : List Nat) :
    ∃ e r f o, raise s src part code detail = { s with ev := e, rings := r, funcs := f, out := o } := by
  have fin : ∀ (c : Bool) (t : State), (∃ e r f o, t = { s with ev := e, rings := r, funcs := f, out := o }) → ∃ e r f o,
      (if c = true then fireMsix { t with ev := { t.ev with fired2 := true } } 0 2 else t) = { s with ev := e, rings := r, funcs := f, out := o } := by
    rintro c t ⟨e, r, f, o, rfl⟩; split
    · obtain ⟨f2, o2, h2⟩ := fireMsix_frame { s with ev := { e with fired2 := true }, rings := r, funcs := f, out := o } 0 2
      exact ⟨_, _, _, _, h2⟩
    · exact ⟨_, _, _, _, rfl⟩
  have put : ∀ (t : State) (p : PartId) (x : Event), (∃ e r f o, t = { s with ev := e, rings := r, funcs := f, out := o }) →
      ∃ e r f o, evtRingPut t p x = { s with ev := e, rings := r, funcs := f, out := o } := by
    rintro t p x ⟨e, r, f, o, rfl⟩
    obtain ⟨e', r', f', o', h⟩ := evtRingPut_frame { s with ev := e, rings := r, funcs := f, out := o } p x
    exact ⟨e', r', f', o', h⟩
  unfold raise
  refine fin _ _ ?_
  split
  · split
    · exact put _ _ _ ⟨_, _, _, _, rfl⟩
    · exact put _ _ _ (put _ _ _ ⟨_, _, _, _, rfl⟩)
  · exact put _ _ _ ⟨_, _, _, _, rfl⟩

/-- An event raised after the event book alone has changed. -/
theorem raise_frame_ev (s : State) (x : Events) (src : Nat) (part : Option PartId) (code : Nat) (detail : List Nat) :
    ∃ e r f o, raise { s with ev := x } src part code detail = { s with ev := e, rings := r, funcs := f, out := o } := by
  obtain ⟨e, r, f, o, h⟩ := raise_frame { s with ev := x } src part code detail
  exact ⟨e, r, f, o, h⟩

theorem logViol_frame (s : State) (fn : FnId) (code : Nat) :
    ∃ p e r f o, logViol s fn code = { s with parts := p, ev := e, rings := r, funcs := f, out := o } := by
  have fin : ∀ (c : Prop) [Decidable c] (t : State) (x : Events), (∃ q e, t = { s with parts := q, ev := e }) → ∃ p e r f o,
      (if c then raise { t with ev := x } (srcHost fn) (some fn) code [] else t) = { s with parts := p, ev := e, rings := r, funcs := f, out := o } := by
    rintro c _ t x ⟨q, e, rfl⟩; split
    · obtain ⟨e, r, f, o, h⟩ := raise_frame { s with parts := q, ev := x } (srcHost fn) (some fn) code []
      exact ⟨q, e, r, f, o, h⟩
    · exact ⟨q, e, s.rings, s.funcs, s.out, rfl⟩
  refine fin _ _ _ ?_
  split
  · exact ⟨_, _, rfl⟩
  · split <;> exact ⟨_, _, rfl⟩

theorem regPriv_frame (s : State) (fn : FnId) :
    ∃ p e r f o, regPriv s fn = { s with parts := p, ev := e, rings := r, funcs := f, out := o } := logViol_frame s fn _
theorem regAccess_frame (s : State) (fn : FnId) :
    ∃ p e r f o, regAccess s fn = { s with parts := p, ev := e, rings := r, funcs := f, out := o } := logViol_frame s fn _

/-! ### ECC -/

theorem noteCe_frame (s : State) (src : Nat) (part : Option PartId) (st : Store) :
    ∃ e r f o, noteCe s src part st = { s with ev := e, rings := r, funcs := f, out := o } := by
  have fin : ∀ (c : Bool) (x y : Events) (d : List Nat), ∃ e r f o,
      (if c = true then raise { s with ev := x } src part 0x0401 d else { s with ev := y }) = { s with ev := e, rings := r, funcs := f, out := o } := by
    intro c x y d; split
    · exact raise_frame_ev s x src part 0x0401 d
    · exact ⟨y, s.rings, s.funcs, s.out, rfl⟩
  exact fin _ _ _ _

theorem sqCorrected_frame (s : State) (n : SqId) (st : Store) (loc : Nat) :
    ∃ q e r f o, sqCorrected s n st loc = { s with squares := q, ev := e, rings := r, funcs := f, out := o } := by
  obtain ⟨e, r, f, o, h⟩ := noteCe_frame (updSq (hwUp s _ _) n _) (srcSq n) (ownerSq (updSq (hwUp s _ _) n _) n) st
  exact ⟨_, e, r, f, o, h⟩

theorem sqUncorrected_frame (s : State) (n : SqId) (st : Store) (loc : Nat) :
    ∃ q e r f o, sqUncorrected s n st loc = { s with squares := q, ev := e, rings := r, funcs := f, out := o } := by
  unfold sqUncorrected; dsimp only; split
  · obtain ⟨e, r, f, o, h⟩ := raise_frame (updSq (hwUp s _ _) n _) (srcSq n) (ownerSq (updSq (hwUp s _ _) n _) n) 0x0402 [storeNo st, loc]
    rw [h]; exact ⟨_, e, r, f, o, rfl⟩
  · obtain ⟨e, r, f, o, h⟩ := raise_frame s (srcSq n) (ownerSq s n) 0x0402 [storeNo st, loc]
    rw [h]; exact ⟨s.squares, e, r, f, o, rfl⟩

theorem hbmCorrected_frame (s : State) (t : StackId) (p : Option PartId) :
    ∃ e r f o, hbmCorrected s t p =
      { s with hbm := { s.hbm with corr := s.hbm.corr.set t (satInc s.hbm.corr[t]) }, ev := e, rings := r, funcs := f, out := o } :=
  noteCe_frame (hwUp { s with hbm := _ } _ _) _ _ _

theorem hbmUncorrected_frame (s : State) (t : StackId) (p : Option PartId) (loc : Nat) :
    ∃ e r f o, hbmUncorrected s t p loc =
      { s with hbm := { s.hbm with uncorr := s.hbm.uncorr.set t (satInc s.hbm.uncorr[t]) }, ev := e, rings := r, funcs := f, out := o } :=
  raise_frame (hwUp { s with hbm := _ } _ _) _ _ _ _

/-- An update that gives a square what it has changes nothing. -/
theorem updSq_same (s : State) (n : SqId) (f : Square → Square) (h : f s.squares[n] = s.squares[n]) : updSq s n f = s := by
  have e : s.squares.set n.val s.squares[n] = s.squares := by
    apply Vector.ext; intro i hi; rw [Vector.getElem_set]; split
    · rename_i e; subst e; rfl
    · rfl
  unfold updSq; rw [h, e]

/-! ### Phase B of a scratchpad -/

/-- A phase-B access writes the turn of its square, and the copy of the scratchpad that phase A has. -/
theorem useBank_frame (s : State) (n : SqId) (b : Nat) : ∃ q, useBank s n b = { s with squares := q } := ⟨_, rfl⟩
theorem useBank_mem (s : State) (n m : SqId) (b : Nat) : (useBank s n b).squares[m].mem = s.squares[m].mem := by
  by_cases h : n = m
  · subst h; simp only [useBank, updSq_self]; split <;> rfl
  · rw [useBank, updSq_other _ _ _ _ (Ne.symm h)]
theorem padWrite_frame (s : State) (n : SqId) (w : List (Nat × List Byte)) : ∃ q, padWrite s n w = { s with squares := q } := ⟨_, rfl⟩
theorem padRead_frame (s : State) (n : SqId) : ∃ q, padRead s n = { s with squares := q } := ⟨_, rfl⟩
theorem padRead_mem (s : State) (n m : SqId) : (padRead s n).squares[m].mem = s.squares[m].mem := by
  by_cases h : n = m
  · subst h; simp only [padRead, updSq_self]
  · rw [padRead, updSq_other _ _ _ _ (Ne.symm h)]

theorem setFp_frame (s : State) (n : SqId) (fl : Fp) :
    ∃ e, setFp s n fl = { updSq s n (fun q => { q with fp := q.fp ||| fl }) with ev := e } := by
  unfold setFp; split
  · rename_i h; subst h
    exact ⟨s.ev, (updSq_same s n (fun q => { q with fp := q.fp ||| 0 }) (by simp)).symm⟩
  · exact ⟨_, rfl⟩

/-! ### Deviations -/

theorem devPart_frame (s : State) (p : PartId) (cause src : Nat) (sq : Option SqId) (tag : Nat) :
    ∃ q e r f o, devPart s p cause src sq tag = { s with parts := q, ev := e, rings := r, funcs := f, out := o } := by
  have fin : ∀ (b c : Bool) (x : Nat) (g : Part → Part) (d : List Nat), ∃ q e r f o,
      (if b = true then s else if c = true then raise (updPart (hwMark s (.devCause p) x) p g) src (some p) (0x0200 + cause) d
        else updPart (hwMark s (.devCause p) x) p g) = { s with parts := q, ev := e, rings := r, funcs := f, out := o } := by
    intro b c x g d; split
    · exact ⟨s.parts, s.ev, s.rings, s.funcs, s.out, rfl⟩
    · split
      · obtain ⟨e, r, f, o, h⟩ := raise_frame (updPart (hwMark s (.devCause p) x) p g) src (some p) (0x0200 + cause) d
        rw [h]; exact ⟨_, e, r, f, o, rfl⟩
      · exact ⟨_, _, s.rings, s.funcs, s.out, rfl⟩
  exact fin _ _ _ _ _

theorem devParts_frame (ps : List PartId) (cause src : Nat) (sq : Option SqId) (tag : Nat) : ∀ s : State,
    ∃ q e r f o, ps.foldl (fun s p => devPart s p cause src sq tag) s = { s with parts := q, ev := e, rings := r, funcs := f, out := o } := by
  induction ps with
  | nil => intro s; exact ⟨s.parts, s.ev, s.rings, s.funcs, s.out, rfl⟩
  | cons p ps ih =>
    intro s
    obtain ⟨q, e, r, f, o, h⟩ := devPart_frame s p cause src sq tag
    rw [List.foldl_cons, h]
    obtain ⟨q', e', r', f', o', h'⟩ := ih { s with parts := q, ev := e, rings := r, funcs := f, out := o }
    rw [h']; exact ⟨_, _, _, _, _, rfl⟩

theorem countDev_frame (s : State) (ps : List PartId) (cause src : Nat) (sq : Option SqId) (tag : Nat) :
    ∃ t q e r f o, countDev s ps cause src sq tag = { s with tmg := t, parts := q, ev := e, rings := r, funcs := f, out := o } := by
  unfold countDev; split
  · exact ⟨s.tmg, s.parts, s.ev, s.rings, s.funcs, s.out, rfl⟩
  · obtain ⟨q, e, r, f, o, h⟩ := devParts_frame ps cause src sq tag (hwMark { s with tmg := _ } _ _)
    exact ⟨_, q, e, r, f, o, h⟩

theorem countDevSq_frame (s : State) (n : SqId) (cause : Nat) :
    ∃ t q e r f o, countDevSq s n cause = { s with tmg := t, parts := q, ev := e, rings := r, funcs := f, out := o } :=
  countDev_frame s _ _ _ _ _

/-! ### Completions -/

theorem postEntry_frame (s : State) (p : PartId) (e : CqEntry) : ∃ q f o, postEntry s p e = { s with parts := q, funcs := f, out := o } := by
  unfold postEntry; dsimp only; split
  · obtain ⟨f, o, h⟩ := fireMsix_frame (updRingOf (emit s _) p _) p 0
    rw [h]; exact ⟨_, f, o, rfl⟩
  · exact ⟨_, s.funcs, _, rfl⟩

/-- A completion is posted, or kept for a free entry; it is never dropped (R422). -/
theorem putEntry_cases (s : State) (p : PartId) (e : CqEntry) :
    putEntry s p e = postEntry s p e ∨ putEntry s p e = updRingOf s p fun r => { r with held := r.held ++ [e] } := by
  unfold putEntry; split
  · exact .inl rfl
  · exact .inr rfl

theorem putEntry_frame (s : State) (p : PartId) (e : CqEntry) : ∃ q f o, putEntry s p e = { s with parts := q, funcs := f, out := o } := by
  rcases putEntry_cases s p e with h | h
  · rw [h]; exact postEntry_frame s p e
  · rw [h]; exact ⟨_, s.funcs, s.out, rfl⟩

theorem fenceDone_frame (s : State) (p : PartId) : ∃ q f o, fenceDone s p = { s with parts := q, funcs := f, out := o } := by
  unfold fenceDone; split
  · split
    · obtain ⟨q, f, o, h⟩ := putEntry_frame (updPart s p _) p _
      rw [h]; exact ⟨q, f, o, rfl⟩
    · exact ⟨s.parts, s.funcs, s.out, rfl⟩
  · exact ⟨s.parts, s.funcs, s.out, rfl⟩

theorem complete_frame (s : State) (p : PartId) (id : Word32) (type status r1 r2 : Nat) :
    ∃ q f o, complete s p id type status r1 r2 = { s with parts := q, funcs := f, out := o } := by
  unfold complete
  obtain ⟨q, f, o, h⟩ := putEntry_frame s p ⟨.job, id, type, status, r1, r2⟩
  rw [h]; exact fenceDone_frame { s with parts := q, funcs := f, out := o } p

theorem completeReqEnd_frame (s : State) (p : PartId) (id : Word32) (status r1 r2 : Nat) :
    ∃ q f o, completeReqEnd s p id status r1 r2 = { s with parts := q, funcs := f, out := o } := putEntry_frame s p _

theorem completeKick_frame (s : State) (p : PartId) (status r1 r2 : Nat) :
    ∃ q e r f o, completeKick s p status r1 r2 = { s with parts := q, ev := e, rings := r, funcs := f, out := o } := by
  unfold completeKick; dsimp only; split
  · obtain ⟨q, f, o, h⟩ := putEntry_frame s p ⟨.kick, 0, 0x09, status, r1, r2⟩
    rw [h]; exact ⟨q, s.ev, s.rings, f, o, rfl⟩
  · exact logViol_frame _ _ _

theorem drainHeld_frame (p : PartId) : ∀ (k : Nat) (s : State), ∃ q f o, drainHeld k s p = { s with parts := q, funcs := f, out := o } := by
  intro k; induction k with
  | zero => intro s; exact ⟨s.parts, s.funcs, s.out, rfl⟩
  | succ k ih =>
    intro s; unfold drainHeld; split
    · exact ⟨s.parts, s.funcs, s.out, rfl⟩
    · split
      · rename_i e r _ _
        obtain ⟨q, f, o, h⟩ := postEntry_frame (updRingOf s p fun x => { x with held := r }) p e
        rw [h]
        obtain ⟨q', f', o', h'⟩ := fenceDone_frame { updRingOf s p (fun x => { x with held := r }) with parts := q, funcs := f, out := o } p
        rw [h']; exact ih { s with parts := q', funcs := f', out := o' }
      · exact ⟨s.parts, s.funcs, s.out, rfl⟩

theorem postHeld_frame (s : State) (p : PartId) : ∃ q f o, postHeld s p = { s with parts := q, funcs := f, out := o } := drainHeld_frame p _ s

/-! ### HBM and the trace -/

theorem markDirty_frame (s : State) (p : PartId) (seg off len : Nat) : ∃ n, markDirty s p seg off len = { s with snp := n } := by
  unfold markDirty; split
  · exact ⟨_, rfl⟩
  · exact ⟨s.snp, rfl⟩

/-- A write to HBM puts its bytes at its address, and may mark granules dirty. -/
theorem hbmWrite_frame (s : State) (p : PartId) (a : Nat) (b : List Byte) :
    ∃ n, hbmWrite s p a b = { s with hbm := { s.hbm with mem := memWrite s.hbm.mem a b }, snp := n } := by
  unfold hbmWrite; dsimp only; split
  · obtain ⟨n, h⟩ := markDirty_frame { s with hbm := { s.hbm with mem := memWrite s.hbm.mem a b } } p _ _ b.length
    exact ⟨n, h⟩
  · exact ⟨s.snp, rfl⟩

/-- A byte of HBM after a write, outside the bytes written. -/
theorem hbmWrite_byte_out (s : State) (p : PartId) (a : Nat) (b : List Byte) (x : Nat) (h : x < a ∨ a + b.length ≤ x) :
    memByte (hbmWrite s p a b).hbm.mem x = memByte s.hbm.mem x := by
  obtain ⟨n, e⟩ := hbmWrite_frame s p a b
  rw [e]; exact memByte_write_out _ _ _ _ h

/-- A trace record may write the memory of HBM; nothing else of HBM changes. -/
theorem trace_frame (s : State) (n : SqId) (type payload : Nat) :
    ∃ q m e r f o, trace s n type payload =
      { s with parts := q, hbm := { s.hbm with mem := m }, ev := e, rings := r, funcs := f, out := o } := by
  have lost : ∀ (c : Bool) (p : PartId) (g : Part → Part) (l : List Nat), ∃ q m e r f o,
      (if c = true then raise (updPart (hwUp s (.trcLost p) s.parts[p].trc.lost) p g) (srcSq n) (some p) 0x0B01 l else updPart (hwUp s (.trcLost p) s.parts[p].trc.lost) p g) =
        { s with parts := q, hbm := { s.hbm with mem := m }, ev := e, rings := r, funcs := f, out := o } := by
    intro c p g l; split
    · obtain ⟨e, r, f, o, h⟩ := raise_frame (updPart (hwUp s (.trcLost p) s.parts[p].trc.lost) p g) (srcSq n) (some p) 0x0B01 l
      rw [h]; exact ⟨_, s.hbm.mem, e, r, f, o, rfl⟩
    · exact ⟨_, s.hbm.mem, _, s.rings, s.funcs, s.out, rfl⟩
  unfold trace; split
  · exact ⟨s.parts, s.hbm.mem, s.ev, s.rings, s.funcs, s.out, rfl⟩
  · dsimp only; split
    · exact ⟨s.parts, s.hbm.mem, s.ev, s.rings, s.funcs, s.out, rfl⟩
    · split
      · exact lost _ _ _ _
      · split
        · exact lost _ _ _ _
        · exact ⟨_, _, s.ev, s.rings, s.funcs, s.out, rfl⟩

/-! ### Flags -/

theorem writeFlag_frame (s : State) (flag : Fin 8192) (val : Bool) (cc rank : Nat) (origin : Option SqId) :
    ∃ f, writeFlag s flag val cc rank origin = { s with flags := f } := ⟨_, rfl⟩
@[simp] theorem writeFlag_grants (s : State) (flag : Fin 8192) (val : Bool) (cc rank : Nat) (origin : Option SqId) :
    (writeFlag s flag val cc rank origin).flags.grants = s.flags.grants := rfl
@[simp] theorem writeFlag_orphan (s : State) (flag : Fin 8192) (val : Bool) (cc rank : Nat) (origin : Option SqId) :
    (writeFlag s flag val cc rank origin).flags.orphan = s.flags.orphan := rfl

theorem takeView_frame (s : State) (n : SqId) (flag : Fin 8192) :
    ∃ w v g, takeView s n flag =
      updSq { s with flags := { s.flags with writes := w, engine := g } } n fun q => { q with view := v } := ⟨_, _, _, rfl⟩

theorem clearFlags_frame (s : State) (lo hi : Nat) :
    ∃ x w g, ∃ f : Square → BitVec 8192, clearFlags s lo hi =
      { s with flags := { s.flags with pool := x, writes := w, engine := g }, squares := s.squares.map fun q => { q with view := f q } } :=
  ⟨_, _, _, _, rfl⟩

/-! ### Handles and folds -/

theorem countDevTimes_frame (l : List Nat) (n : SqId) (cause : Nat) : ∀ s : State,
    ∃ t q e r f o, l.foldl (fun s _ => countDevSq s n cause) s = { s with tmg := t, parts := q, ev := e, rings := r, funcs := f, out := o } := by
  induction l with
  | nil => intro s; exact ⟨s.tmg, s.parts, s.ev, s.rings, s.funcs, s.out, rfl⟩
  | cons x l ih =>
    intro s
    obtain ⟨t, q, e, r, f, o, h⟩ := countDevSq_frame s n cause
    rw [List.foldl_cons, h]
    obtain ⟨t', q', e', r', f', o', h'⟩ := ih { s with tmg := t, parts := q, ev := e, rings := r, funcs := f, out := o }
    rw [h']; exact ⟨_, _, _, _, _, _, rfl⟩

theorem foldOvers_frame (n : SqId) (mx : Mx) (l : List (Fin 2)) : ∀ s : State,
    ∃ e r f o, l.foldl (fun s k => raise (hwMark s (.fold n k) (2 ^ 25)) (srcSq n) (ownerSq s n) 0x0406 [k.val, mx.fold[k].handle.toNat]) s
      = { s with ev := e, rings := r, funcs := f, out := o } := by
  induction l with
  | nil => intro s; exact ⟨s.ev, s.rings, s.funcs, s.out, rfl⟩
  | cons k l ih =>
    intro s
    obtain ⟨e, r, f, o, h⟩ := raise_frame (hwMark s (.fold n k) (2 ^ 25)) (srcSq n) (ownerSq s n) 0x0406 [k.val, mx.fold[k].handle.toNat]
    rw [List.foldl_cons, h]
    obtain ⟨e', r', f', o', h'⟩ := ih { s with ev := e, rings := r, funcs := f, out := o }
    exact ⟨e', r', f', o', h'⟩

theorem foldReport_frame (s : State) (n : SqId) (x : FoldRes) :
    ∃ t q e r f o, foldReport s n x = { s with tmg := t, parts := q, ev := e, rings := r, funcs := f, out := o } := by
  unfold foldReport; dsimp only
  obtain ⟨e, r, f, o, h⟩ := foldOvers_frame n x.mx x.full s
  rw [h]
  obtain ⟨t, q, e', r', f', o', h'⟩ := countDevTimes_frame (List.range x.devs) n devArrival { s with ev := e, rings := r, funcs := f, out := o }
  rw [h']; exact ⟨t, q, e', r', f', o', rfl⟩

/-- A fold settles in the square's matrix engine and its status; events and deviations may be counted. -/
theorem settleFolds_frame (s : State) (n : SqId) (cc : Nat) :
    ∃ mx fp t q e r f o, settleFolds s n cc =
      { updSq s n (fun x => { x with mx := mx, fp := fp }) with tmg := t, parts := q, ev := e, rings := r, funcs := f, out := o } := by
  unfold settleFolds; dsimp only
  generalize foldSettle s.squares[n].mx (sqClass22 s n) cc = x
  obtain ⟨e, h⟩ := setFp_frame (updSq s n fun q => { q with mx := x.mx }) n x.fp
  rw [h]
  obtain ⟨t, q, e', r, f, o, h'⟩ := foldReport_frame
    { updSq (updSq s n fun q => { q with mx := x.mx }) n (fun q => { q with fp := q.fp ||| x.fp }) with ev := e } n x
  refine ⟨x.mx, s.squares[n].fp ||| x.fp, t, q, e', r, f, o, h'.trans ?_⟩
  simp [updSq]

/-- What a settling leaves of every square but its matrix engine and its status, and of the state. -/
theorem settleSq_frame (s : State) (n : SqId) :
    ∃ mx fp t q e r f o, settleSq s n =
      { updSq s n (fun x => { x with mx := mx, fp := fp }) with tmg := t, parts := q, ev := e, rings := r, funcs := f, out := o } := by
  unfold settleSq; split
  · refine ⟨s.squares[n].mx, s.squares[n].fp, s.tmg, s.parts, s.ev, s.rings, s.funcs, s.out, ?_⟩
    exact (updSq_same s n (fun q => { q with mx := s.squares[n].mx, fp := s.squares[n].fp }) rfl).symm
  · exact settleFolds_frame s n _

/-- A square with no image in its fold unit has nothing to settle. -/
theorem settleSq_idle (s : State) (n : SqId) (h : s.squares[n].mx.foldIn = []) : settleSq s n = s := by
  unfold settleSq; rw [h]; rfl

theorem settleAll_idle (l : List SqId) (s : State) (h : ∀ n ∈ l, s.squares[n].mx.foldIn = []) : l.foldl settleSq s = s := by
  induction l with
  | nil => rfl
  | cons n l ih =>
    rw [List.foldl_cons, settleSq_idle s n (h n (by simp))]
    exact ih fun m hm => h m (by simp [hm])

/-- Settling squares changes their matrix engines and status registers, and counts: every other field of a square and of the state stays. -/
theorem settleAll_frame (l : List SqId) : ∀ s : State, ∃ (g : SqId → Mx × Fp) (t : ChipTmg) (q : Vector Part 16) (e : Events) (r : Vector EvtRing 16)
    (f : Vector Func 16) (o : List Output), l.foldl settleSq s =
      { s with squares := Vector.ofFn fun n => { s.squares[n] with mx := (g n).1, fp := (g n).2 }
               tmg := t, parts := q, ev := e, rings := r, funcs := f, out := o } := by
  induction l with
  | nil =>
    intro s
    refine ⟨fun n => (s.squares[n].mx, s.squares[n].fp), s.tmg, s.parts, s.ev, s.rings, s.funcs, s.out, ?_⟩
    have : Vector.ofFn (fun n : SqId => ({ s.squares[n] with mx := s.squares[n].mx, fp := s.squares[n].fp } : Square)) = s.squares := by
      apply Vector.ext; intro i hi; simp
    simp only [List.foldl_nil, this]
  | cons n l ih =>
    intro s
    obtain ⟨mx, fp, t, q, e, r, f, o, h⟩ := settleSq_frame s n
    rw [List.foldl_cons, h]
    obtain ⟨g, t', q', e', r', f', o', h'⟩ := ih { updSq s n (fun x => { x with mx := mx, fp := fp }) with tmg := t, parts := q, ev := e, rings := r, funcs := f, out := o }
    refine ⟨g, t', q', e', r', f', o', h'.trans ?_⟩
    have : Vector.ofFn (fun m : SqId => ({ (updSq s n (fun x => { x with mx := mx, fp := fp })).squares[m] with mx := (g m).1, fp := (g m).2 } : Square))
        = Vector.ofFn (fun m : SqId => ({ s.squares[m] with mx := (g m).1, fp := (g m).2 } : Square)) := by
      congr 1; funext m
      by_cases hm : m = n
      · subst hm; rw [updSq_self]
      · rw [updSq_other s n _ m hm]
    simp only [this]; rfl

/-! ### The tick -/

/-- What the tick leaves: the memories, flags, links, engines and queues are as they were. -/
theorem coreTick_frame (s : State) : ∃ (g : SqId → Mx × Fp) (k : Clock) (t : ChipTmg) (q : Vector Part 16) (e : Events) (r : Vector EvtRing 16)
    (f : Vector Func 16) (o : List Output), coreTick s =
      { s with squares := Vector.ofFn fun n => { s.squares[n] with mx := (g n).1, fp := (g n).2 }
               clk := k, tmg := t, parts := q, ev := e, rings := r, funcs := f, out := o } := by
  unfold coreTick; dsimp only
  obtain ⟨g, t, q, e, r, f, o, h⟩ := settleAll_frame allSq s
  rw [h]
  obtain ⟨k, h'⟩ := clockTick_frame _
  exact ⟨g, k, t, _, _, r, f, o, h'⟩

/-- With nothing in the fold units a tick moves the clock, ends the cycle of what the hardware wrote, and lets a reset go on to its scrub. -/
theorem coreTick_idle (s : State) (h : ∀ n : SqId, s.squares[n].mx.foldIn = []) :
    coreTick s = clockTick { s with ev := { s.ev with hw := [] }
                                    parts := s.parts.map fun (q : Part) => if q.st = PState.quiescing then { q with st := PState.scrubbing } else q } := by
  unfold coreTick; dsimp only
  rw [settleAll_idle allSq s fun n _ => h n]

/-- A refused handle write makes an event and no more. -/
theorem handleRefused_frame (s : State) (n : SqId) (h code : Nat) :
    ∃ e r f o, handleRefused s n h code = { s with ev := e, rings := r, funcs := f, out := o } := raise_frame _ _ _ _ _

/-! ### The memories -/

/-- Memories that are the same in two states are well kept in both. -/
theorem memoriesOf_congr {s t : State} (h : t.hbm.mem = s.hbm.mem) (hs : t.squares = s.squares) {P : Memory → Prop} {Q : Square → Prop}
    (ok : P s.hbm.mem ∧ ∀ n : SqId, Q s.squares[n]) : P t.hbm.mem ∧ ∀ n : SqId, Q t.squares[n] := by
  rw [h, hs]; exact ok

end Sys2Proof.Machine
end

