-- ==== Sys2Proof/Tests/Slice0.lean ====
section
/-! SUPPORT. The model's own checks. Part one: an ill-formed command for each check of WellFormed, and a well-formed one beside it. Part two: worked
values of the spec. Part three: for each statement of the certificate, and for each clause of it, a state and operands that meet its hypotheses. -/

namespace Sys2Proof.Tests

-- one theorem after another: each holds its own evaluation in memory
set_option Elab.async false

open Sys2Proof.Machine

/-! ### Small states -/

/-- A board after its boot: every domain ON, the King running, the frame counter at core cycle 112, PART_0 with every square and segment. -/
def tBoard : State :=
  let r := State.reset
  let part := r.parts[(0 : PartId)]
  let part := { part with own := cfgPart0 part.own.sq (BitVec.allOnes 64), ring := { part.ring with cqlog := 4 } }
  { r with
    pins := { r.pins with resetN := true }
    king := { r.king with stage := .running, pcieUp := true, retry := false, deviceReady := true, level := 3, servingOk := true }
    power := { r.power with dom := Vector.replicate 28 .on }
    avs := { r.avs with vcore := 800, vlgo := 800 }
    clk := { r.clk with frameOn := true, counting := true, locked := true, refOk := true, cc := 112, count := 64 }
    hbm := { r.hbm with healthy := 0x3F, segments := 64, trained := 0x3F }
    parts := r.parts.set 0 part }

/-- A write by function 0 of a 4-byte or 8-byte register. -/
def w4 (x : Nat) : RegWr := ⟨0, 0x0F, BitVec.ofNat 64 x⟩
def w8 (x : Nat) : RegWr := ⟨0, 0xFF, BitVec.ofNat 64 x⟩
/-- The same by function 1. -/
def v4 (x : Nat) : RegWr := ⟨1, 0x0F, BitVec.ofNat 64 x⟩

def plyZero : Ply := decodePly 0
/-- A ply in square 0's ply store, with the square running in front of it. -/
def tPly (p : Ply) : State :=
  updSq tBoard 0 fun q => { q with plies := [(0, encodePly p)], core := { q.core with st := .running } }
def tCore (p : Ply) (f : Core → Core) : State := updCore (tPly p) 0 f
def tPart (f : Part → Part) : State := updPart tBoard 0 f
/-- The board at core cycle c and count t. -/
def tAt (c t : Nat) : State := { tBoard with clk := { tBoard.clk with cc := c, count := BitVec.ofNat 64 t } }

/-- Command c ends at s in a next state that passes the check. -/
def goes (c : Instr) (s : State) (ok : State → Bool) : Bool := match exec c s with | .next t => ok t | _ => false

/-! ### Well-formedness -/

theorem test_wf_enables : WellFormed (.tmgCtlWrite 0 ⟨0, 0x10, 0⟩) = false ∧ WellFormed (.tmgCtlWrite 0 (w4 0)) = true := by decide
theorem test_wf_read_enables : WellFormed (.spmEccRead 0 ⟨0, 0x1F⟩) = false ∧ WellFormed (.spmEccRead 0 ⟨0, 0x0F⟩) = true := by decide
theorem test_wf_part_number : WellFormed (.copyLanding 0 4096) = false ∧ WellFormed (.copyLanding 0 4095) = true := by decide
theorem test_wf_clear : WellFormed (.clear 0 (w4 2)) = false ∧ WellFormed (.clear 0 (w4 1)) = true := by decide
theorem test_wf_retrain_close : WellFormed (.retrain 0 (w4 2)) = false ∧ WellFormed (.close 0 (w4 2)) = true := by decide
theorem test_wf_part_ops : WellFormed (.set (w4 0x20)) = false ∧ WellFormed (.reset (w4 0x20)) = true ∧ WellFormed (.destroy (w4 0x20)) = false
    ∧ WellFormed (.set (w4 0x10)) = true ∧ WellFormed (.destroy (w4 0x31)) = true := by decide
theorem test_wf_power_ops : WellFormed (.gate (w4 0x40)) = false ∧ WellFormed (.ungate (w4 0x40)) = true ∧ WellFormed (.gate (w4 0x20)) = true := by decide
theorem test_wf_arm : WellFormed (.cqArm (w8 0)) = false ∧ WellFormed (.cqArm (w8 0x10000)) = true ∧ WellFormed (.thmArm (w4 8)) = false := by decide
theorem test_wf_chiprst : WellFormed (.chiprst (.kngCtl (w4 2))) = false ∧ WellFormed (.chiprst (.kngCtl (w4 1))) = true := by decide
theorem test_wf_go : WellFormed (.go (w4 64)) = false ∧ WellFormed (.go (w4 0x80000040)) = true := by decide
theorem test_wf_debug : WellFormed (.halt 0 (w4 3)) = false ∧ WellFormed (.halt 0 (w4 1)) = true ∧ WellFormed (.step 0 (w4 4)) = true := by decide
theorem test_wf_bars : WellFormed (.registerRead 0 .bar4 0xFFFF [true, true]) = false ∧ WellFormed (.registerRead 0 .bar4 0xFFFE [true, true]) = true
    ∧ WellFormed (.bar2Write 0 0xFFFFFFFF [none, none] .sound) = false ∧ WellFormed (.bar2Read 0 0xFFFFFFF8 8 .clean) = true
    ∧ WellFormed (.registerWrite 0 .bar0 0x4000000 [some 0] false) = false := by decide
theorem test_wf_vectors : WellFormed (.msixUnmask 3 2 false) = false ∧ WellFormed (.msixUnmask 3 1 false) = true ∧ WellFormed (.msixUnmask 0 7 true) = true := by decide
theorem test_wf_grant : WellFormed (.flagGrant ⟨0, 0x0001000000000000⟩) = false ∧ WellFormed (.flagGrant ⟨0, 0x8000C00000000000⟩) = true := by decide
theorem test_wf_remote_end : WellFormed (.remoteCopyLanding (.destination (2 ^ 64)) 0) = false ∧ WellFormed (.remoteCopyLanding (.destination 64) 0) = true := by decide

/-- A sheet with no square, and one that lays out square 5 twice. -/
def tSheet : Sheet := ⟨.m, .a, false, false, 0x1234, [], [], [], [], 0, 0⟩
def tSquare : SheetSquare := ⟨5, [0], 0, [], [], [], [], [], [], [], []⟩
/-- LAUNCH with OP LOAD (R420): TYPE 1 in the byte at 56. -/
def tLoadJob : Line := BitVec.ofNat 512 (1 + 1 * 2 ^ 448)
theorem test_wf_job : WellFormed (.jobFetch 0 tLoadJob none) = false ∧ WellFormed (.jobFetch 0 tLoadJob (some tSheet)) = true
    ∧ WellFormed (.jobFetch 0 0 (some tSheet)) = false
    ∧ WellFormed (.jobFetch 0 tLoadJob (some { tSheet with squares := [tSquare, tSquare] })) = false := by decide +kernel

/-! ### Reset and the step -/

theorem test_reset_part0 : State.reset.parts[(0 : PartId)].st = .active ∧ State.reset.parts[(1 : PartId)].st = .absent := by decide +kernel
theorem test_step_front : step { tBoard with pending := [.mctpRequest .identity] } = .next (emit { tBoard with pins := { tBoard.pins with smbAlertN := false } } (.mctp true)) := rfl
/-- No row of the table has bits. -/
theorem test_no_words : decodeTableWord 0 0 = none := rfl

/-! ### Worked values of the spec -/

/-- 00, the square e4: index 28, window 0x002C_0000, seven hops to h8. -/
theorem test_square_e4 : sqWindow 28 = 0x2C0000 ∧ hopsBetween 28 63 = 7 := by decide

def toF32 (m : Nat) (e : Int) (neg : Bool := false) : FVal := fpDecode .b32 (fpEncode .b32 .rne (.fin neg m e)).1
/-- 04, two bus voltages packed into PB28: 1.0213 − j0.1377 and 0.9874 + j0.2201, given by their binary32 encodings. -/
def tVoltages : List FVal :=
  [fpDecode .b32 0x3F82B9F5, fpDecode .b32 0xBE0D013B, fpDecode .b32 0x3F7CC63F, fpDecode .b32 0x3E6161E5] ++ List.replicate 28 FVal.nan
theorem test_pb28_pack : let b := (pbPack .rne tVoltages 1 8333333).1
    field b 0 8 = 1 ∧ field b 8 16 = 3 ∧ field b 24 8 = 1 ∧ field b 32 32 = 0x007F2815
      ∧ field b 64 14 = 0x1057 ∧ field b 78 14 = 0x3DCC ∧ field b 92 14 = 0x0FCC ∧ field b 106 14 = 0x0386 := by decide +kernel

def p35 : FVal := .fin false 1 35
def n35 : FVal := .fin true 1 35
def one : FVal := .fin false 1 0
/-- 04, three products in two orders: a W-accumulator gives 0 or 1, a ledger 1 in either order. -/
theorem test_order_doppio :
    wReadOut .b64 .rne (wMac (wMac (wMac 0 p35 p35).1 one one).1 n35 p35).1 = (0, 0)
      ∧ wReadOut .b64 .rne (wMac (wMac (wMac 0 p35 p35).1 n35 p35).1 one one).1 = (0x3FF0000000000000, 0) := by decide +kernel
theorem test_order_ristretto :
    (ledgerReadOut .b64 .rne (ledgerMac (ledgerMac (ledgerMac (ledgerZero 0) p35 p35) one one) n35 p35)).1 = 0x3FF0000000000000
      ∧ (ledgerReadOut .b64 .rne (ledgerMac (ledgerMac (ledgerMac (ledgerZero 0) p35 p35) n35 p35) one one)).1 = 0x3FF0000000000000 := by decide +kernel

/-- 03, a load assembled from two stores and SRAM: ST.V of cc 100, ST.S of cc 101 and a handle write of 64 bytes; LD.V of cc 102 reads two lines. -/
def tStores : List BufStore := [⟨100, [(0x40100, List.replicate 128 1)]⟩, ⟨101, [(0x40148, List.replicate 8 2)]⟩]
def tMem : Memory := memWrite [] 0x40180 (List.replicate 64 3)
theorem test_load_assembled :
    sampleByte tMem tStores 102 0x40140 = 1 ∧ sampleByte tMem tStores 102 0x40147 = 1 ∧ sampleByte tMem tStores 102 0x40148 = 2
      ∧ sampleByte tMem tStores 102 0x4014F = 2 ∧ sampleByte tMem tStores 102 0x40150 = 1 ∧ sampleByte tMem tStores 102 0x40180 = 3 := by decide +kernel

/-- 07, a message and its flag: the write of h8 in cycle 1,039 stands in its own view from 1,045 on and in a1's 28 cycles later. -/
theorem test_flag_seen : let w : FlagWrite := ⟨3000, true, 1039, 0, some 63, 0, none, []⟩
    fwSeen w 63 = 1045 ∧ fwSeen w 0 = 1045 + 28 := by decide

/-- 08, a counted launch at 4,800,000,000 with frame counters started at 320,000: frame cycles 8,399,440,000 and 7,679,488,000. -/
def tStarted (x : Variant) : State :=
  { tBoard with fuses := { tBoard.fuses with variant := x }, clk := { tBoard.clk with frameStart := 320000, base := 0 } }
theorem test_launch_cycles : ccFrom (tStarted .m) 4800000000 = 8399440000 ∧ ccFrom (tStarted .v) 4800000000 = 7679488000 := by decide +kernel

/-- 10, `LNK_MATCHID`: an aligned write of its four bytes; 14, a write of its second byte keeps the others (R404). -/
theorem test_matchid_write : goes (.registerWrite 0 .bar0 0xAC004 [some 0x78, some 0x56, some 0x34, some 0x12] false) tBoard
    (fun t => t.mtch.matchId == 0x12345678) = true := by decide +kernel
theorem test_matchid_byte : goes (.registerWrite 0 .bar0 0xAC004 [none, some 0xAB, none, none] false) { tBoard with mtch := { tBoard.mtch with matchId := 0x11223344 } }
    (fun t => t.mtch.matchId == 0x1122AB44) = true := by decide +kernel

/-- 14, accesses around the deviation registers: the 2-byte write changes nothing and is logged, the 4-byte read over 0x0100_0610 is unsupported. -/
theorem test_deviation_window :
    let s := tPart fun q => { q with dev := { q.dev with cause := 1, broken := true } }
    goes (.registerWrite 0 .bar0 0x1000610 [some 1, some 0] false) s
      (fun t => t.parts[(0 : PartId)].dev == s.parts[(0 : PartId)].dev && t.parts[(0 : PartId)].violReg == 1) = true := by decide +kernel
theorem test_deviation_strict_broken :
    let s := tPart fun q => { q with dev := { q.dev with cause := 1, broken := true } }
    goes (.registerWrite 0 .bar0 0x1000610 [some 0, some 0, some 0, some 0x80, some 0, some 0, some 0, some 0] false) s
      (fun t => !t.parts[(0 : PartId)].dev.broken && t.parts[(0 : PartId)].dev.cause == 1) = true := by decide +kernel
theorem test_deviation_read :
    goes (.registerRead 0 .bar0 0x100060E [true, true, true, true]) tBoard (fun t => t.out == [.unsupportedRequest 0]) = true := by decide +kernel

/-- 11, the picks of greatest probability of the sampler: with TEMP 0 the greatest logit, and of equal ones the lowest token. -/
theorem test_greedy : pickToken 0 0 0 [(40, .fin false 1 0), (17, .fin false 3 0), (902, .fin false 3 0)] = some 17 := by decide +kernel

/-- 02, S slot at bits 16 to 111 and its fields by R30: ADD S3 = S1 + S2. -/
def tAddWord : Line := BitVec.ofNat 512 ((0x01 + 3 * 2 ^ 8 + 1 * 2 ^ 13 + 2 * 2 ^ 18) * 2 ^ 16)
theorem test_ply_add : let p := decodePly tAddWord
    p.s.opc = 1 ∧ p.s.dst = 3 ∧ p.s.srca = 1 ∧ p.s.srcb = 2 ∧ p.s.imm = 0 ∧ vNop p.v = true ∧ encodePly p = tAddWord := by decide +kernel
/-- HALT_OK is bit 9 of the header, TAG bits 7 to 0; the Y slot's opcode is bits 464 to 469. -/
theorem test_ply_header : let p := decodePly (BitVec.ofNat 512 (0x25A + 3 * 2 ^ 464))
    p.hdr.tag = 0x5A ∧ p.hdr.haltOk = 1 ∧ p.hdr.endB = 0 ∧ p.y.opc = 3 := by decide +kernel
/-- R276: a CHIP_ID of an Onildun-M Grade A without a fused rank reads 0. -/
theorem test_chip_id : chipId State.reset.fuses = 0 := by decide +kernel

/-! ### Witnesses: the machine and the square -/

theorem witness_step_front : ∃ (s : State) (c : Instr) (r : List Instr), s.pending = c :: r :=
  ⟨{ tBoard with pending := [.refLost] }, .refLost, [], rfl⟩
theorem witness_empty_queue : tBoard.pending = [] ∧ tBoard.apt = [] ∧ tBoard.clk.frameOn = true ∧ (∀ n : SqId, tBoard.squares[n].mx.foldIn = [])
    ∧ tBoard.fuses.variant = .m ∧ (tStarted .v).fuses.variant = .v := by decide +kernel

def tRun : State := tPly plyZero
theorem witness_ply_issues : issuesNow tRun 0 = true := by decide +kernel
theorem witness_ply_empty_cycle : let s := tCore plyZero fun c => { c with empty := 1 }
    sqReady s 0 = true ∧ frozen s = false ∧ missedA s 0 = false ∧ s.squares[0].core.empty = 0 + 1 := by decide +kernel

/-- FWAIT for flag 0 to be 1, with no timeout; and with a timeout of one cycle in S1. -/
def tWait : Ply := { plyZero with y := { plyZero.y with opc := 3, val := 1, sreg := 1 } }
theorem witness_held : heldNow (tPly tWait) 0 = true := by decide +kernel
theorem witness_frozen : let s := { tRun with clk := { tRun.clk with cc := 113 }, thermal := { tRun.thermal with junctionDuty := 1 } }
    sqReady s 0 = true ∧ frozen s = true := by decide +kernel
/-- A flag write of square 0's own FSET, which a held cycle puts off. -/
theorem witness_held_flag : let w : FlagWrite := ⟨7, true, 108, 0, some 0, BitVec.allOnes 64, some (0, 108), []⟩
    let s := { tPly tWait with flags := { tBoard.flags with writes := [w] } }
    heldNow s 0 = true ∧ s.flags.writes = [w] ∧ w.setter = some (0, 108) ∧ w.cc = 108 ∧ nowCc s < fwSeen w 0 := by decide +kernel
def tUnheld (s : State) : Bool := sqReady s 0 && !frozen s && !missedA s 0 && !heldHere s 0
theorem witness_landing : let s := fun v => tCore plyZero fun c => { c with u := 5, flight := [⟨5, v⟩] }
    ([LandVal.s 31 7, .p 7 true, .v 31 9, .rail .d 9, .stat [(8191, 5)], .seg (Vector.replicate 8 (1, 2))].all fun v => tUnheld (s v)) = true
      ∧ (s (.s 31 7)).squares[0].core.loads = [] ∧ 5 ≤ (s (.s 31 7)).squares[0].core.u := by decide +kernel
/-- A load of cycle 4 in cycle 5, on its own and behind a store of cycle 1. -/
theorem witness_load_lands : let l : PendLoad := ⟨4, [0x1FFFFC0], 64, .railA⟩
    let b : BufStore := ⟨1, [(0x1FFFFC0, List.replicate 64 3)]⟩
    let s := fun y => tCore plyZero fun c => { c with u := 5, loads := [l], stores := y }
    tUnheld (s []) = true ∧ tUnheld (s [b]) = true ∧ l.issued + 1 ≤ 5 ∧ 5 < l.issued + 9 ∧ phaseB (s []) 0 = false ∧ b.issued < l.issued ∧ l.issued ≤ b.issued + 3 := by
  decide +kernel
theorem witness_commit : let b : BufStore := ⟨1, [(0x1FFFFF8, natLe 8 7)]⟩
    let s := tCore plyZero fun c => { c with u := 5, stores := [b] }
    tUnheld s = true ∧ phaseB s 0 = false ∧ s.squares[0].core.stores = [b] ∧ s.squares[0].core.loads = [] ∧ b.chunks = [(0x1FFFFF8, natLe 8 (7 : Word64).toNat)]
      ∧ b.issued + 4 ≤ s.squares[0].core.u := by decide +kernel
theorem witness_timeout : let s := tCore tWait fun c => { c with s := c.s.set 1 1 }
    let x := testIssue (atIssue s 0) 0
    inFront s 0 = true ∧ x.sb = false ∧ x.pages = [] ∧ x.timedOut = true := by decide +kernel
def tQuiet : Ply := { plyZero with hdr := { plyZero.hdr with haltOk := 1 } }
theorem witness_halt : let s := tCore tQuiet fun c => { c with haltReq := true }
    sqReady s 0 = true ∧ missedA s 0 = false ∧ haltsHere s.squares[0].core (plyAt s.squares[0]) = true := by decide +kernel
theorem witness_done : let s := tCore plyZero fun c => { c with ending := true, lastCc := some 112 }
    sqLive s 0 = true ∧ frozen s = false ∧ s.squares[0].core.ending = true ∧ s.squares[0].core.lastCc = some (nowCc s) ∧ s.squares[0].core.flight = []
      ∧ s.squares[0].core.loads = [] ∧ s.squares[0].core.stores = [] := by decide +kernel
theorem witness_break : let s := updPart tRun 0 fun q => { q with breaks := [(1, 104, 1)] }
    ownerSq s 0 = some 0 ∧ s.parts[(0 : PartId)].breaks = [(1, 104, 1)] ∧ (1 : BitVec 64).getLsbD 0 = true
      ∧ 104 + 6 + 2 * hopsBetween 1 0 ≤ nowCc s ∧ s.squares[0].core.st = .running ∧ sqAtPoint s 0 = false := by decide +kernel
theorem witness_watchdog : let s := updPart (tCore plyZero fun c => { c with wdog := 65536 }) 0 fun q => { q with wdgLimit := 1 }
    ownerSq s 0 = some 0 ∧ s.parts[(0 : PartId)].st = .active ∧ s.parts[(0 : PartId)].own.sq.getLsbD 0 = true
      ∧ sqLive s 0 = true ∧ s.parts[(0 : PartId)].flt.pending = false ∧ s.parts[(0 : PartId)].wdgLimit ≠ 0
      ∧ s.parts[(0 : PartId)].wdgLimit.toNat * 65536 ≤ s.squares[0].core.wdog := by decide +kernel

/-! ### Witnesses: message core, mesh, flags -/

/-- Square 0's message core runs a handler with one instruction at 0 and a BUDGET of 1. -/
def tMc (instr : Nat) : State :=
  updSq tBoard 0 fun q => { q with hnd := q.hnd.set 0 (BitVec.ofNat 32 (2 ^ 31 + 65536))
                                   mc := { q.mc with busy := true, startAt := 112, mem := memWriteNat [] 0 16 instr } }
def tMcHyp (s : State) (x : SSlot) : Bool :=
  let m := s.squares[0].mc
  mcReady s 0 && m.busy && !m.entering && m.access == [] && m.stores == [] && m.flight == [] && decide (m.startAt ≤ nowCc s) && !mcOverdue s 0
    && decodeMc (BitVec.ofNat 128 (memNat m.mem (16 * (m.pc % 4096)) 16)) == .s x && guard m.p x.pred x.pneg x.gen
theorem witness_mc_add : let x := decodeS (BitVec.ofNat 96 (0x01 + 3 * 2 ^ 8))
    tMcHyp (tMc (0x01 + 3 * 2 ^ 8)) x = true ∧ isBranchOpc x.opc = false ∧ scalarAssigned x.opc = true := by decide +kernel
theorem witness_mc_halt : let x := decodeS 0xFF
    tMcHyp (tMc 0xFF) x = true ∧ x.opc = 0xFF := by decide +kernel
def tTrig : Trigger := ⟨31, 1, 5, 100, 0, 1, none⟩
/-- A loaded scoresheet that places square 0. -/
def tLoaded : Loaded := ⟨1, false, false, 0x1234, 0, 1, 0⟩
def tPlaced : State := tPart fun q => { q with loaded := some tLoaded }
theorem witness_dispatch : let s := updSq tPlaced 0 fun q => { q with hnd := q.hnd.set 5 0x80010003, mc := { q.mc with pending := [tTrig] } }
    mcHere s 0 = true ∧ s.squares[0].mc.busy = false ∧ mcParked s 0 = false ∧ selectTrigger s.squares[0] = some tTrig := by decide +kernel
/-- Square 0's handler is entered, 12 cc after its dispatch. -/
theorem witness_entry : let s := updSq tPlaced 0 fun q => { q with mc := { q.mc with busy := true, entering := true, trig := some tTrig, startAt := 112 } }
    let m := s.squares[0].mc
    mcReady s 0 = true ∧ m.entering = true ∧ m.trig = some tTrig ∧ tTrig.kind ≠ 3 ∧ m.access = [] ∧ m.stores = [] ∧ m.flight = [] ∧ m.startAt ≤ nowCc s := by
  decide +kernel
theorem witness_abort : let s := { (tMc 0) with clk := { (tMc 0).clk with cc := 112 + 64 } }
    mcHere s 0 = true ∧ mcOverdue s 0 = true := by decide +kernel

def tHdl (n : SqId) (h : Nat) (ctl : Nat) (s : State := tBoard) : State :=
  updSq s n fun q => { q with hdl := sset hdlDefault q.hdl h ⟨0x100, 0x1000, BitVec.ofNat 32 ctl, 0⟩ }
/-- A stream message of one line from square 0 to square 1, whose inbound endpoint 2 fills handle 0. -/
def tMsg : Msg :=
  { kind := .stream, net := .stream, part := 0, epoch := 0, owner := 0, ep := 3, via := none, at_ := 0, dst := 1, dep := 2, link := none, dpos := 0, hops := 1
    doff := 0, soff := 0, lines := 1, flits := 1, readFrom := 112, data := [], arrive := [], committed := 0, reply := none, asker := none, rec_ := none
    refuse := none, late := none }
def tMesh (m : Msg) : State :=
  let s := tHdl 1 0 0x10
  let s := updSq s 1 fun q => { q with eps := q.eps.set 2 { q.eps[2] with inc := 0x80000400 } }
  let s := updSq s 0 fun q => { q with eps := q.eps.set 3 { q.eps[3] with outc := 0xFFFF } }
  { s with msgs := [m] }
theorem witness_line_read : let s := tMesh tMsg
    isMeshTurn s = true ∧ s.msgs = [tMsg] ∧ tMsg.via = none ∧ tMsg.lines = 1 ∧ tMsg.data = [] ∧ tMsg.readFrom ≤ nowCc s
      ∧ s.squares[tMsg.at_].turnAt ≠ nowCc s + 1 := by decide +kernel
theorem witness_depart : let m := { tMsg with data := [(0, 110, 5)] }
    let s := tMesh m
    s.clk.frameOn = true ∧ domOn s domEngine = true ∧ s.msgs = [m] ∧ m.via = none ∧ flitReady m (nowCc s) = true
      ∧ (outSlots s.squares[m.owner].eps[m.ep].outc).getLsbD (nowCc s % 16) = true ∧ (∀ a ∈ m.arrive, a ≠ nowCc s + 2 * m.hops) := by decide +kernel
theorem witness_commit_flit : let m := { tMsg with data := [(0, 108, 5)], arrive := [111] }
    let s := tMesh m
    isMeshTurn s = true ∧ s.msgs = [m] ∧ m.kind = .stream ∧ m.asker = none ∧ m.via = none ∧ m.link = none ∧ m.refuse = none ∧ m.lines = 1 ∧ m.flits = 1 ∧ m.committed = 0
      ∧ m.data = [(0, 108, 5)] ∧ m.arrive = [111] ∧ 111 < nowCc s ∧ m.epoch = s.parts[m.part].epoch ∧ msgCheck s m = 0
      ∧ inHen s.squares[m.dst].eps[m.dep].inc = false ∧ s.squares[m.dst].turnAt ≠ nowCc s + 1 := by decide +kernel
theorem witness_refused_flit : let m := { tMsg with data := [(0, 108, 5)], arrive := [111], doff := 0x1000 }
    let s := tMesh m
    isMeshTurn s = true ∧ s.msgs = [m] ∧ m.kind = .stream ∧ m.asker = none ∧ m.via = none ∧ m.link = none ∧ m.refuse = none ∧ m.flits = 1 ∧ m.committed = 0
      ∧ m.arrive = [111] ∧ 111 < nowCc s ∧ m.epoch = s.parts[m.part].epoch ∧ m.reply = none ∧ msgCheck s m ≠ 0
      ∧ s.squares[m.dst].turnAt ≠ nowCc s + 1 := by decide +kernel
theorem witness_credit : let s := { tBoard with credits := [⟨63, 31, 1, 112, some 5⟩] }
    s.credits = [⟨63, 31, 1, 112, some 5⟩] ∧ 112 ≤ nowCc s := by decide +kernel
theorem witness_cflag : let m := { tMsg with kind := .cflag 8191 true, arrive := [111] }
    let s := tMesh m
    s.msgs = [m] ∧ m.kind = .cflag 8191 true ∧ (ownerSq s m.dst).isSome = true ∧ m.link = none ∧ m.arrive = [111] ∧ 111 < nowCc s ∧ m.epoch = s.parts[m.part].epoch
      ∧ cflagRight s (ownerSq s m.dst) (some m.part) 8191 = true
      ∧ (let s' := updPart s 0 fun q => { q with own := { q.own with res := 0 } }
         cflagRight s' (ownerSq s' m.dst) (some m.part) 8191 = false) := by decide +kernel
def tFlag (cc : Nat) : FlagWrite := ⟨8191, true, cc, 0, some 1, BitVec.allOnes 64, some (5, cc), []⟩
/-- The write of a neighbour eight cycles ago has just reached square 0; one made a cycle later has not. -/
theorem witness_view : let s := fun c => { tBoard with flags := { tBoard.flags with writes := [tFlag c] } }
    (s 104).flags.writes = [tFlag 104] ∧ (tFlag 104).todo.getLsbD 0 = true ∧ 104 + 6 + 2 * hopsBetween 1 0 ≤ nowCc (s 104)
      ∧ nowCc (s 105) < 105 + 6 + 2 * hopsBetween 1 0 ∧ (tFlag 104).setter = some (5, (tFlag 104).cc) ∧ 111 < fwSeen (tFlag 104) 0 := by decide +kernel
theorem witness_hostset : servedOwn tBoard 0 0 = true ∧ full4 (w4 0x11FFF) = true ∧ inRange tBoard 0 (field (word (w4 0x11FFF)) 0 13) = true
    ∧ domOn tBoard domEngine = true ∧ servedOwn tBoard 1 1 = true ∧ inRange tBoard 1 0 = false := by decide +kernel

/-! ### Witnesses: copies and HBM -/

/-- COPY of one line from HBM at 0 to handle 0 of square 1, and a descriptor of no kind. -/
def tCopyLine : Line := BitVec.ofNat 512 (1 + 1 * 2 ^ 12 + 64 * 2 ^ 64 + 1 * 2 ^ 192)
def tDesc (d : Line) : Desc := ⟨d, .kick 0 0, 0, 0, 100, false⟩
def tQueued (d : Line) : State := updPart (tHdl 1 0 0x80) 0 fun q => { q with queue := [tDesc d] }
def tCopyHyp (s : State) (d : Desc) : Bool :=
  s.parts[(0 : PartId)].copyWait == none && s.clk.frameOn && s.parts[(0 : PartId)].st == .active && domOn s domEngine
    && s.parts[(0 : PartId)].queue == [d] && dClass d.d == 0 && idleEngine s 0 0 == some 0
theorem witness_copy_start : let s := tQueued tCopyLine
    let x := planOf s 0 tCopyLine (.kick 0 0)
    tCopyHyp s (tDesc tCopyLine) = true ∧ x.1 = 0 ∧ remoteParts x.2.2.parts = [] ∧ x.2.2.who = none ∧ x.2.2.lines = 1 := by decide +kernel
theorem witness_copy_bad : let s := tQueued 0
    tCopyHyp s (tDesc 0) = true ∧ (planOf s 0 0 (.kick 0 0)).1 ≠ 0 := by decide +kernel
def tSeg : Seg := ⟨.sp 2 64, .sp 1 (2 ^ 25 - 64), 1, 0⟩
def tRunCe (r : CeRun) (moving : Bool) : State :=
  let c := tBoard.ces[0]
  { tHdl 1 0 0x80 (tAt 113 64) with ces := tBoard.ces.set 0 (if moving then { c with run := some r } else { c with waiting := [r] }) }
def tCe (part : CePart) (segs : List Seg) : CeRun :=
  ⟨tDesc tCopyLine, 100, none, none, segs, none, 100, 0, [part], [], 0, 0⟩
def tCePart (dst : PartDst) (left : Nat) : CePart := ⟨dst, [(0, 64)], left, 110, false, false, []⟩
theorem witness_copy_beat : let r := tCe (tCePart (.square 1 0) 1) [tSeg]
    let s := tRunCe r true
    s.ces[0].run = some r ∧ r.segs = [tSeg] ∧ r.beat = none ∧ (2 : SqId) ≠ 1 ∧ tSeg.lines = 1 ∧ (2 ^ 25 - 64) % 64 = 0 ∧ r.nextAt ≤ nowCc s
      ∧ domOn s domEngine = true ∧ sqClosed s 2 = 0 ∧ sqClosed s 1 = 0 ∧ s.squares[1].uncapt = 0 ∧ r.status = 0 ∧ r.planned = 0 ∧ r.parts.all (·.landed) = false ∧ ceTurn s = true
      ∧ banksUsed s 2 = [] ∧ banksUsed s 1 = [] ∧ ceTurn { s with clk := { s.clk with cc := 114 } } = false := by decide +kernel
/-- In Strict a part lands in its cycle L and not one cycle before. -/
theorem witness_copy_landing : let x := tCePart (.square 1 0) 0
    let r := { tCe x [] with land := some 113 }
    let s := tRunCe r false
    s.ces[0].run = none ∧ s.ces[0].waiting = [r] ∧ r.segs = [] ∧ r.parts = [x] ∧ x.landed = false ∧ x.left = 0 ∧ sqGone s 1 = 0 ∧ 113 ≤ nowCc s
      ∧ (let r' := { r with land := some 114 }; (tRunCe r' false).ces[0].waiting = [r'] ∧ nowCc (tRunCe r' false) < 114) := by decide +kernel
theorem witness_remote_landing : let x := tCePart (.remote 1 5 0) 0
    let r := { tCe x [] with landCount := some 64 }
    let s := tRunCe r false
    s.ces[0].run = none ∧ s.ces[0].waiting = [r] ∧ r.segs = [] ∧ r.parts = [x] ∧ x.landed = false ∧ x.left = 0 ∧ 64 ≤ ctFrom s (nowCc s)
      ∧ (let x' := { x with via := [3] }
         let r' := tCe x' []
         let s' := updLink (tRunCe r' false) 3 fun k => { k with st := .up, ch := k.ch.set 9 (BitVec.ofNat 64 (3 * 2048 + 0x80000)) }
         s'.ces[0].waiting = [r'] ∧ r'.landCount = none ∧ remoteAcked s' r' x' = true) := by decide +kernel

def tStrictChip (t : Nat) : State := { tAt 112 t with tmg := { tBoard.tmg with strictAny := true } }
theorem witness_refresh : let s := tStrictChip (3900 + 650 * 5 + 349)
    s.tmg.strictAny = true ∧ domOn s (domHbm 5) = true ∧ 650 * 5 ≤ nowCt s % 3900 ∧ nowCt s % 3900 < 650 * 5 + 350 := by decide +kernel
theorem witness_extra_refresh : let s := { tStrictChip (3900 + 1950) with hbm := { tBoard.hbm with hot := 1 } }
    slotOpening (nowCt s) 0 = none ∧ slotOpening (nowCt s) (1950 % 3900) = some 5850 ∧ s.hbm.hot.getLsbD 0 = true ∧ s.hbm.extra[0] ≠ some 5850 := by decide +kernel
theorem witness_hbm_temps : domOn tBoard (domHbm 5) = true ∧ 85 < (95 : BitVec 8).toNat ∧ 95 ≤ (95 : BitVec 8).toNat ∧ (82 : BitVec 8).toNat < 83 := by decide +kernel
theorem witness_adaptive_refresh : tBoard.tmg.strictAny = false ∧ domOn tBoard (domHbm 0) = true := by decide +kernel

/-! ### Witnesses: clocks, launches, timing modes -/

theorem witness_clock_start : let s := { State.reset with pins := { State.reset.pins with resetN := true } }
    s.pins.pwrOk = true ∧ s.pins.resetN = true ∧ s.clk.counting = false := by decide +kernel
theorem witness_frame_counter : let s := { tBoard with clk := { tBoard.clk with frameOn := false, count := 640, aligned := true, master := true, cc := 300 } }
    settled s = true ∧ s.clk.frameOn = false ∧ nowCt s % 320 = 0 := by decide +kernel
theorem witness_ref_lost : tBoard.clk.refOk = true := by decide +kernel
def tExpired : State := { (tPart fun q => { q with launched := true }) with clk := { tBoard.clk with refLostAt := some 64, count := 10000064 } }
theorem witness_ref_expired : tExpired.clk.refLostAt = some 64 ∧ tExpired.clk.expired = false ∧ 64 + 10000000 ≤ nowCt tExpired
    ∧ tExpired.parts[(0 : PartId)].launched = true ∧ tExpired.parts[(0 : PartId)].st = .active ∧ tExpired.parts[(0 : PartId)].flt.pending = false := by
  decide +kernel
theorem witness_pps : let s := fun b => { tBoard with clk := { tBoard.clk with master := true, ppsEn := true, ppsStepped := b } }
    (s true).clk.master = true ∧ (s true).clk.ppsEn = true ∧ (s true).clk.counting = true ∧ (s false).clk.ppsStepped = false
      ∧ (s true).clk.ppsStepped = true := by decide +kernel
theorem witness_clock_step : let s := { tBoard with clk := { tBoard.clk with stepPending := some (-64) } }
    s.clk.stepPending = some (-64) ∧ anyLaunched s = false ∧ countArmed s = false := by decide +kernel

def tLaunch (ph : LPhase) (body : Line) (sheet : Option Sheet := none) : Launch := ⟨7, ⟨body, sheet⟩, ph, 1, none, 0, 0⟩
def tLaunching (l : Launch) (st : SqSt) : State :=
  updCore (updPart tPlaced 0 fun q => { q with launch := some l }) 0 fun c => { c with st := st }
theorem witness_load : let sh := { tSheet with squares := [tSquare] }
    let l := tLaunch .loading tLoadJob (some sh)
    let s := tLaunching l .idle
    s.parts[(0 : PartId)].launch = some l ∧ l.phase = .loading ∧ lOp l.job = 1 ∧ l.job.sheet = some sh ∧ s.parts[(0 : PartId)].launchQ = []
      ∧ sh.squares = [tSquare] ∧ sqOn s tSquare.sq = true ∧ loadBusy s sh = false ∧ ringRoom s 0 = true := by decide +kernel
/-- A launch at count 384, that is in the core cycle 672: the signal is due at 64, one cycle before it nothing starts. -/
def tCountJob : Line := BitVec.ofNat 512 (2 + 384 * 2 ^ 64 + 2 ^ 448)
theorem witness_launch_signal : let l := tLaunch .armed tCountJob
    (tLaunching l .loaded).parts[(0 : PartId)].launch = some l ∧ lCount l.job ≤ nowCt (tLaunching l .loaded) + 320 := by decide +kernel
theorem witness_launch_cycle : let l := tLaunch .signalled tCountJob
    let s := { tLaunching l .loaded with clk := { tBoard.clk with cc := 672, count := 384 } }
    s.parts[(0 : PartId)].launch = some l ∧ lResume l.job = false ∧ s.clk.frameOn = true ∧ ccFrom s (lCount l.job) ≤ nowCc s
      ∧ placedOf s 0 = [0] ∧ railReady s 0 = true ∧ (∀ n ∈ placedOf s 0, startable s 0 false n = true) := by decide +kernel
theorem witness_barrier : let l := tLaunch .broadcast (BitVec.ofNat 512 (2 + 2 ^ 448))
    let s := tLaunching l .done
    ownerSq s 0 = some 0 ∧ s.parts[(0 : PartId)].launch = some l ∧ l.todo.getLsbD 0 = true ∧ s.clk.frameOn = true ∧ lResume l.job = false
      ∧ railReady s 0 = true ∧ startable s 0 false 0 = true := by decide +kernel
theorem witness_launch_end : let l := tLaunch .running 0
    let s := tLaunching l .done
    s.parts[(0 : PartId)].launch = some l ∧ s.parts[(0 : PartId)].launchQ = [] ∧ (∀ n ∈ placedOf s 0, s.squares[n].core.st = .done)
      ∧ descsLanded s 0 = true ∧ ringRoom s 0 = true ∧ (∀ n ∈ squaresOf s 0, s.squares[n].mx.foldIn = []) := by decide +kernel
theorem witness_mode_locked : servedOwn tRun 0 0 = true ∧ full4 (w4 1) = true ∧ (word (w4 1)).testBit 0 ≠ tRun.parts[(0 : PartId)].strict
    ∧ 0 ∈ squaresOf tRun 0 ∧ tRun.squares[0].core.st = .running
    ∧ servedOwn tBoard 1 1 = true ∧ (v4 0).fn ≠ 0 := by decide +kernel
/-- Without a running square, a queued descriptor locks the modes. -/
theorem witness_mode_locked_copy : descriptorsOf (tQueued tCopyLine) 0 = true ∧ field (word (w4 2)) 1 2 ≠ (tQueued tCopyLine).parts[(0 : PartId)].result.toNat := by
  decide +kernel
theorem witness_mode_write : served tBoard 0 = true ∧ full4 (w4 5) = true ∧ field (word (w4 5)) 1 2 ≠ 3 ∧ modeLocked tBoard 0 = false
    ∧ anyLaunched tBoard = false := by decide +kernel
theorem witness_clear_write : servedOwn tBoard 0 0 = true ∧ quietCycle tBoard = true ∧ (word (w4 1)).testBit 0 = true := by decide +kernel
theorem witness_square_write : quietCycle tBoard = true ∧ servedSq tBoard 0 63 = true ∧ full4 (w4 0x2000000) = true ∧ (word (w4 0x2000000)).testBit 25 = true := by decide +kernel

/-! ### Witnesses: Lungo -/

theorem witness_rail_move : tBoard.avs.vcore ≠ 0 ∧ lungoLaunched tBoard = false
    ∧ lungoLaunched (tPart fun q => { q with result := 2, launched := true }) = true := by decide +kernel
theorem witness_rail_settled : { tBoard with lungo := { tBoard.lungo with moving := true } }.lungo.moving = true := rfl
theorem witness_rank_quiet : rankQuiet tBoard 0 = true ∧ (∀ p : PartId, tBoard.parts[p].resumeWait = 0) := by decide +kernel
/-- Square 0 is halted and waits for rank 0 to return to VDD_CORE. -/
def tRailWait : State := tPart fun q => { q with result := 1, railDue := 1, resumeWait := 1 }
theorem witness_rank_resume : let s := { updCore tRailWait 0 fun c => { c with st := .halted } with lungo := { tBoard.lungo with ranks := 1 } }
    rankQuiet s 0 = true ∧ (∀ q : PartId, s.parts[q].resumeWait = if q = 0 then BitVec.twoPow 64 (0 : SqId).val else 0) ∧ s.squares[0].core.st = .halted
      ∧ railReady s 0 = false ∧ railReady (switchRank s 0) 0 = true := by decide +kernel
theorem witness_droop : let s := { tAt 112 1000064 with lungo := { tBoard.lungo with droop := some (1, 64) } }
    s.lungo.droop = some (1, 64) ∧ 64 + 1000000 ≤ nowCt s := by decide +kernel

/-! ### Witnesses: links -/

def tLink (l : LinkId) (f : Link → Link) : State := updLink tBoard l f
/-- Link 3 UP, with stream channel 7 of square 0, endpoint 3, and copy channel 9 of PART_0, Blitz. -/
def tUp : State := tLink 3 fun k =>
  { k with st := .up, ch := (k.ch.set 7 (BitVec.ofNat 64 (3 * 64 + 0x180000))).set 9 (BitVec.ofNat 64 (3 * 2048 + 0x180000)) }
theorem witness_transmit : let s := { tUp with clk := { tUp.clk with count := BitVec.ofNat 64 (85 * 1023 / 7 + 1) } }
    s.links[3].st ≠ .off ∧ s.links[3].st ≠ .idle ∧ s.links[3].st = .up ∧ s.links[3].replayFrom = none
      ∧ frameStart7 s.links[3] s.links[3].frameNo ≤ 7 * nowCt s ∧ s.links[3].frameNo % 1024 ≠ 1023
      ∧ (let s' := updLink s 3 fun k => { k with frameNo := 1023 }
         s'.links[3].frameNo % 1024 = 1023 ∧ frameStart7 s'.links[3] 1023 ≤ 7 * nowCt s') := by decide +kernel
theorem witness_handoff : let m := { tMsg with data := [(0, 108, 5)], arrive := [112], link := some 3, dst := linkSquare 3 }
    let s := { tUp with msgs := [m] }
    s.msgs = [m] ∧ m.link = some 3 ∧ m.kind = .stream ∧ m.via = none ∧ m.net = .stream ∧ m.rec_ = none ∧ m.arrive = [112] ∧ 112 ≤ nowCc s ∧ m.flits = 1 ∧ m.committed = 0 ∧ m.refuse = none
      ∧ s.links[3].st = .up ∧ handoffChannel s.links[3] m 3 = some 7 := by decide +kernel
/-- Lanes with every symbol of the first codeword turned; and a frame as it is sent. -/
def tFrame : BitVec 10280 := mkFrame 1 0 0xFFFF false [] [] []
def tNoise : HalfLanes := Vector.ofFn fun (l : Fin 4) => if l.val % 2 = 0 then BitVec.allOnes 1360 else 0
def tHalf (k : Nat) : HalfLanes := Vector.ofFn fun (l : Fin 4) => (wireFrame tFrame)[4 * k + l.val]?.getD 0
set_option maxRecDepth 100000 in
theorem witness_frame_lost : tUp.links[3].st = .up ∧ tUp.tmg.strictAny = false ∧ tUp.links[3].partnerStrict = false ∧ tUp.links[3].awaiting = none
    ∧ (rxFrame (tNoise ++ tNoise)).frame = none := by decide +kernel
set_option maxRecDepth 100000 in
theorem witness_frame_good : tUp.links[3].st = .up ∧ tUp.tmg.strictAny = false ∧ tUp.links[3].awaiting = none ∧ rxFrame (tHalf 0 ++ tHalf 1) = ⟨some tFrame, 0, 0⟩
    ∧ crcGood tFrame = true ∧ frameBad tFrame = false ∧ frType tFrame = 1 ∧ frStrict tFrame = false
    ∧ 1024 ≤ (tUp.links[3].lastGood - frSeq tFrame).toNat ∧ stampAhead tUp tFrame = false := by decide +kernel
/-- A partner one step along x in a match of two chips, on link 0, and one at the wrong place. -/
theorem witness_identity : let s := tLink 4 fun k => { k with st := .ident, matchReg := 1 }
    let x : Line := BitVec.ofNat 512 (1 * 2 ^ 8)
    s.links[4].st = .ident ∧ partnerGood s 4 x = true ∧ partnerGood s 4 0 = false ∧ bits (tpByte x 4) 7 3 = 0 ∧ x.toNat >>> (8 * 42) = 0 ∧ (tpByte x 0).toNat ≤ 2 := by
  decide +kernel
theorem witness_train : bits (tpByte 2 4) 7 3 = 0 ∧ (2 : Line).toNat >>> (8 * 42) = 0 ∧ (tpByte 2 0).toNat ≤ 2
    ∧ (tLink 3 fun k => { k with st := .train }).links[3].st = .train ∧ (tLink 3 fun k => { k with st := .ident }).links[3].st = .ident := by decide +kernel

def tArrival (kind : ArrKind) (stamp : Nat) : Arrival := ⟨7, kind, 0, stamp, [5], some 60, false⟩
/-- Count 320: H is 256, so a record stamped 64 lands now and one stamped 65 does not yet. -/
def tArrived (l : List Arrival) : State :=
  let s := updLink tUp 3 fun k => { k with arrivals := l, irt := k.irt.set 7 (BitVec.ofNat 64 (5 + 2 * 64 + 0x200000)) }
  let s := updSq s 0 fun q => { q with eps := q.eps.set 3 { q.eps[3] with outc := BitVec.ofNat 32 (4 * 65536), credits := 3 } }
  { s with clk := { s.clk with cc := 560, count := 320 } }
theorem witness_arrival_msg : let a := tArrival (.msg 1 0) 64
    let s := tArrived [a]
    s.links[3].arrivals = [a] ∧ a.lch = 7 ∧ a.drop = false ∧ a.done = some 60 ∧ s.clk.frameOn = true ∧ a.stamp + headCt s ≤ nowCt s
      ∧ a.kind = .msg 1 0 ∧ chKind s.links[3].ch[7] = 0 ∧ rtValid s.links[3].irt[7] = true ∧ (ingressMsg s 3 7 a).isSome = true := by decide +kernel
theorem witness_arrival_credit : let a := tArrival (.credit 1) 64
    let s := tArrived [a]
    a.kind = .credit 1 ∧ creditTarget s 3 7 = some (0, 3) ∧ passesFrom s 0 3 = none
      ∧ 1 ≤ outCred s.squares[0].eps[3].outc - s.squares[0].eps[3].credits.toNat := by decide +kernel
theorem witness_arrival_early : let a := tArrival (.msg 1 0) 65
    let s := { tArrived [a] with tmg := { tBoard.tmg with strictAny := true } }
    s.links[3].arrivals = [a] ∧ nowCt s < a.stamp + headCt s ∧ s.tmg.strictAny = true := by decide +kernel
/-- A credit behind a message that has not come whole. -/
theorem witness_credit_lands : let m : Arrival := { tArrival (.msg 2 0) 60 with done := none }
    let a := tArrival (.credit 1) 64
    let s := { tArrived [m, a] with tmg := { tBoard.tmg with strictAny := true } }
    s.links[3].arrivals = [m, a] ∧ m.lch = 7 ∧ m.kind = .msg 2 0 ∧ m.done = none ∧ a.lch = 7 ∧ a.drop = false ∧ a.done = some 60 ∧ s.clk.frameOn = true
      ∧ a.stamp + headCt s ≤ nowCt s ∧ creditTarget s 3 7 = some (0, 3) ∧ passesFrom s 0 3 = none
      ∧ 1 ≤ outCred s.squares[0].eps[3].outc - s.squares[0].eps[3].credits.toNat := by decide +kernel
theorem witness_training : let s := tLink 3 fun k => { k with st := .idle }
    s.links[3].st = .idle ∧ s.king.stage = .running ∧ domOn s (domLink 3) = true := by decide +kernel
theorem witness_time : let s := tLink 3 fun k => { k with st := .time, timed := true }
    s.links[3].st = .time ∧ s.links[3].timed = true := by decide +kernel
theorem witness_link_ctl : served tUp 0 = true ∧ full4 (w4 1) = true ∧ tUp.links[3].st = .up ∧ (word (w4 1)).testBit 0 = true
    ∧ (word (w4 1)).testBit 1 = false ∧ tUp.king.stage = .running ∧ domOn tUp (domLink 3) = true
    ∧ (word (w4 2)).testBit 0 = false ∧ (word (w4 2)).testBit 1 = true := by decide +kernel
theorem witness_link_gate : let s := tLink 3 fun k => { k with st := .closing, closeRcvd := true }
    s.links[3].st = .closing ∧ s.links[3].closeRcvd = true ∧ s.links[3].arrivals = [] ∧ s.links[3].beats = [] ∧ s.links[3].txRecs = []
      ∧ s.links[3].txFlits = [] := by decide +kernel
theorem witness_match : anyLaunched tBoard = false ∧ anyLaunched (tPart fun q => { q with launched := true }) = true := by decide +kernel

/-- A beat of one line that came at count 0 on link 0, in a match of two chips along x: for this chip at position 0, or for the one at 1. -/
def tBeat (pos : Byte) : CopyBeat := ⟨9, pos, 1, 0, 0, 1, true, 0, [5], [], 0, false, none⟩
def tBeats (pos : Byte) : State :=
  let s := updLink (tHdl 1 0 0xC0 (tAt 113 64)) 0 fun k => { k with beats := [tBeat pos], ch := k.ch.set 9 (BitVec.ofNat 64 (3 * 2048 + 0x100000)) }
  let s := updLink s 4 fun k => { k with st := .up, ch := k.ch.set 9 (BitVec.ofNat 64 (3 * 2048 + 0x80000)) }
  { s with mtch := { s.mtch with inForce := 1 } }
theorem witness_beat_forward : let s := tBeats 1
    firstBeat s 0 false = some (tBeat 1) ∧ (tBeat 1).at_ + 64 ≤ nowCt s ∧ domOn s domEngine = true ∧ (tBeat 1).flag = none ∧ (4 : LinkId) ≠ 0
      ∧ copyHop s 1 (chOwner s.links[0].ch[9]) (chClass s.links[0].ch[9]) = some (4, 9) := by decide +kernel
theorem witness_beat_write : let s := tBeats 0
    firstBeat s 0 true = some (tBeat 0) ∧ (tBeat 0).flag = none ∧ (tBeat 0).data = [5] ∧ (tBeat 0).lines = 1 ∧ (tBeat 0).done = [] ∧ (tBeat 0).last = true
      ∧ domOn s domEngine = true ∧ ceTurn s = true ∧ s.snp[chOwner s.links[0].ch[9]].restore = none ∧ beatCheck s (chOwner s.links[0].ch[9]) (tBeat 0) = 0
      ∧ ((hdlBase (hdlOf s.squares[1] 0) + 0) % spBytes) % 64 = 0 ∧ banksUsed s 1 = [] ∧ s.parts[(0 : PartId)].strict = false := by decide +kernel
/-- A part that stands whole at its destination. -/
def tWhole : RemotePart := ⟨0, 9, 1, 0, [(0, 64)], some 110, none, false⟩
theorem witness_part_arrives : let s := { tHdl 1 0 0xC0 with mtch := { tBoard.mtch with remote := [tWhole] } }
    s.mtch.remote = [tWhole] ∧ tWhole.whole = some 110 ∧ tWhole.flag = none ∧ tWhole.fetched = false ∧ s.clk.frameOn = true ∧ sqGone s tWhole.sq = 0 ∧ 64 ≤ nowCt s
      ∧ nowCt s < 65 := by decide +kernel

/-! ### Witnesses: serving -/

def tSrvRegs : Srv :=
  { srvReset with frameLen := 1, kv := BitVec.ofNat 32 (64 * 4), req := BitVec.ofNat 64 (0x200 * 64 * 4096 + 2 ^ 38), var := 0
                  batch := BitVec.ofNat 64 (0x300 * 64 * 4096 + 5 * 2 ^ 38), samp := BitVec.ofNat 64 (0x400 * 64 * 4096 + 6 * 2 ^ 38 + 7 * 2 ^ 51) }
def tSrv (f : Srv → Srv) : State := { tBoard with srv := tBoard.srv.set 0 (f tSrvRegs) }
theorem witness_srv_write : let s := tSrv fun v => { v with en := true }
    servedOwn tBoard 0 0 = true ∧ full8 (w8 0) = true ∧ tBoard.srv[(0 : PartId)].en = false ∧ s.srv[(0 : PartId)].en = true
      ∧ servedOwn tBoard 1 1 = true := by decide +kernel
theorem witness_srv_enable : let s := tSrv id
    s.apt = [] ∧ s.snp[(0 : PartId)].job = none ∧ s.srv[(0 : PartId)].en = false ∧ srvMayEnable s 0 s.srv[(0 : PartId)] = true := by decide +kernel
theorem witness_srv_disable : let s := tSrv fun v => { v with en := true }
    s.apt = [] ∧ s.srv[(0 : PartId)].en = true ∧ s.snp[(0 : PartId)].job = none := by decide +kernel
theorem witness_srv_scan : let s := tSrv fun v => { v with en := true }
    s.srv[(0 : PartId)].en = true ∧ s.srv[(0 : PartId)].ready = false ∧ domOn s domEngine = true ∧ s.srv[(0 : PartId)].book_ = false
      ∧ s.snp[(0 : PartId)].job = none ∧ kvPages s.srv[(0 : PartId)] = 4 ∧ scanReach s 0 = true
      ∧ s.walk = [] ∧ turnEntry s 0 (15 : Fin 16).val = some (0, 2) := by decide +kernel
def tReq : Req :=
  { slot := 0, rcd := 0, jobId := 7, pos := 1, ngen := 0, last := 0, gstate := 0, ended := some 1, order := 0, frame := 0, m := 0, done := 0, chunk := none
    blocks := 0, noMore := false, nodes := [], pages := [0], priv := [0], late := false }
/-- The boundary of frame 1, at count 320. -/
theorem witness_boundary : let s := { tSrv fun v => { v with en := true, ready := true, opened := some 0, slots := [tReq], free := [1, 2, 3] } with
      clk := { tBoard.clk with cc := 560, count := 320 } }
    s.srv[(0 : PartId)].opened = some 0 ∧ s.srv[(0 : PartId)].en = true ∧ (0 + 1) * (320 * s.srv[(0 : PartId)].frameLen.toNat) ≤ nowCt s
      ∧ atSnapshotPoint s 0 = false ∧ domOn s domEngine = true ∧ s.srv[(0 : PartId)].book_ = false ∧ s.snp[(0 : PartId)].job = none
      ∧ s.walk = [] ∧ turnEntry s 0 (15 : Fin 16).val = some (0, 2) ∧ s.srv[(0 : PartId)].ready = true ∧ (∀ r ∈ s.srv[(0 : PartId)].slots, r.ended.isSome = true ∧ r.nodes.all (nodeReach s 0) = true)
      ∧ (s.srv[(0 : PartId)].free.length + s.srv[(0 : PartId)].slots.foldl (fun n r => n + r.priv.length) 0 = 4 ∧ ∀ k, k ≤ 4 → freeReach s 0 k = true)
      ∧ (tableAt s 0 (batchBase s.srv[(0 : PartId)]) (((0 + 1) % 2) * batchStride s.srv[(0 : PartId)]) 576).isSome = true := by decide +kernel
theorem witness_boundary_starting : let s := { tSrv fun v => { v with en := true, opened := some 0 } with clk := { tBoard.clk with count := 320 } }
    s.srv[(0 : PartId)].ready = false ∧ (0 + 1) * (320 * s.srv[(0 : PartId)].frameLen.toNat) ≤ nowCt s := by decide +kernel

/-- ADMIT of the record at 0x1000: one prompt token, one new token, a vocabulary of one, no variation, no mask. -/
def tAdmit (addr : Nat) : Job := ⟨BitVec.ofNat 512 (1 + addr * 2 ^ 64 + 6 * 2 ^ 448 + 9 * 2 ^ 480), none⟩
def tRecord : BitVec 1024 :=
  BitVec.ofNat 1024 (1 * 2 ^ (8 * 32) + 1 * 2 ^ (8 * 36) + 0xFFFF * 2 ^ (8 * 40) + 1 * 2 ^ (8 * 104)
    + (0x500 * 64 * 4096) * 2 ^ (8 * 24) + (0x501 * 64 * 4096) * 2 ^ (8 * 48) + (0x502 * 64 * 4096) * 2 ^ (8 * 88) + (0x510 * 64 * 4096) * 2 ^ (8 * 96))
def tAdmission (addr : Nat) (c : Fin 3) (blitz : Fin 2) (rcd : BitVec 1024 := tRecord) (f : Srv → Srv := id) : State :=
  let s := tSrv fun v => f { v with en := true, ready := true, free := [0, 1, 2, 3], waiting := [tAdmit addr] }
  { s with hbm := { s.hbm with mem := memWriteNat [] 0x1000 128 rcd.toNat }, deciding := s.deciding.set blitz (some (0, c)) }
def tAdmHyp (s : State) (c : Fin 3) (b : Fin 2) (j : Job) : Bool :=
  s.deciding[b] == some (0, c) && domOn s domEngine && !s.srv[(0 : PartId)].book_ && s.snp[(0 : PartId)].job == none
    && s.walk == [] && s.srv[(0 : PartId)].waiting == [j] && admJob s 0 c == some j && s.srv[(0 : PartId)].en && s.srv[(0 : PartId)].ready && ringRoom s 0
theorem witness_admit : let j := tAdmit (0x1000 * 64)
    let s := tAdmission (0x1000 * 64) 0 0
    tAdmHyp s 0 0 j = true ∧ rcdAt s 0 j = some tRecord ∧ rcdInside s 0 tRecord = true ∧ rcdSound s 0 tRecord = true ∧ rcdVarOk s 0 tRecord = true
      ∧ freeSlot s.srv[(0 : PartId)] = some 0 ∧ takeReach s 0 0 = true ∧ srvP s.srv[(0 : PartId)] * rBlocks tRecord ≤ s.srv[(0 : PartId)].free.length
      ∧ tooLate s.srv[(0 : PartId)] tRecord 0 = false := by decide +kernel
theorem witness_admit_outside : let j := tAdmit (2 ^ 38)
    let s := tAdmission (2 ^ 38) 2 1
    tAdmHyp s 2 1 j = true ∧ rcdAt s 0 j = none := by decide +kernel
/-- The record with the n bytes at k replaced. -/
def tRcd (k n x : Nat) : BitVec 1024 := BitVec.ofNat 1024 (tRecord.toNat - rcdF tRecord k n * 2 ^ (8 * k) + x * 2 ^ (8 * k))
/-- A prompt outside the partition, and a list of allowed tokens outside it. -/
theorem witness_admit_array : let r := tRcd 24 8 (2 ^ 38)
    let m := tRcd 43 1 1 ||| BitVec.ofNat 1024 (2 ^ 38 * 2 ^ (8 * 56))
    let s := fun x => tAdmission (0x1000 * 64) 0 0 x
    tAdmHyp (s r) 0 0 (tAdmit (0x1000 * 64)) = true ∧ rPlen r + rMaxnew r ≤ 2097120 ∧ tableAt (s r) 0 (rPrompt r) 0 (max (4 * rPlen r) 4) = none
      ∧ tAdmHyp (s m) 0 0 (tAdmit (0x1000 * 64)) = true ∧ rMaskKind m = 1 ∧ tableAt (s m) 0 (rMask m) 0 (max (4 * min 4096 (rNlist m)) 4) = none := by decide +kernel
/-- No vocabulary; a variation number without a directory entry, and one whose entry is empty. -/
theorem witness_admit_record : let r := tRcd 104 4 0
    let v := tRcd 40 2 4096
    let d := tRcd 40 2 5
    let s := fun x => tAdmission (0x1000 * 64) 0 0 x
    tAdmHyp (s r) 0 0 (tAdmit (0x1000 * 64)) = true ∧ rcdInside (s r) 0 r = true ∧ rVocab r = 0 ∧ rcdInside (s v) 0 v = true ∧ rcdSound (s v) 0 v = true ∧ rVar v = 4096
      ∧ rcdInside (s d) 0 d = true ∧ rcdSound (s d) 0 d = true
      ∧ (tableAt (s d) 0 (varBase (s d).srv[(0 : PartId)]) (16 * rVar d) 16).map (fun a => (hbmNat (s d) a 16).testBit 127) = some false := by decide +kernel
/-- No free slot; no free page; a deadline without a prefill budget. -/
theorem witness_admit_full : let j := tAdmit (0x1000 * 64)
    let s := fun r f => tAdmission (0x1000 * 64) 0 0 r f
    let a := s tRecord fun v => { v with slots := [tReq] }
    let b := s tRecord fun v => { v with free := [] }
    let l := tRcd 44 4 1
    let c := s l id
    tAdmHyp a 0 0 j = true ∧ rcdInside a 0 tRecord = true ∧ rcdSound a 0 tRecord = true ∧ rcdVarOk a 0 tRecord = true ∧ freeSlot a.srv[(0 : PartId)] = none
      ∧ tAdmHyp b 0 0 j = true ∧ freeSlot b.srv[(0 : PartId)] = some 0 ∧ takeReach b 0 0 = true ∧ b.srv[(0 : PartId)].free.length < srvP b.srv[(0 : PartId)] * rBlocks tRecord
      ∧ tAdmHyp c 0 0 j = true ∧ rcdInside c 0 l = true ∧ rcdSound c 0 l = true ∧ rcdVarOk c 0 l = true ∧ freeSlot c.srv[(0 : PartId)] = some 0 ∧ takeReach c 0 0 = true
      ∧ srvP c.srv[(0 : PartId)] * rBlocks l ≤ c.srv[(0 : PartId)].free.length ∧ tooLate c.srv[(0 : PartId)] l 0 = true := by decide +kernel

/-- A step of one entry in the table at 0x0040_0000: count 1, class Blitz, and an entry for slot 5, which is free. -/
def tStep : State :=
  let s := tSrv fun v => { v with en := true, ready := true }
  { s with hbm := { s.hbm with mem := memWriteNat (memWriteNat [] 0x400000 4 1) 0x400010 2 5 }
           flags := { s.flags with pool := 2 ^ 6, engine := 2 ^ 6 } }
theorem witness_sampler : let s := tStep
    s.srv[(0 : PartId)].en = true ∧ s.srv[(0 : PartId)].step = none ∧ domOn s domEngine = true ∧ engineView s (flagOf (sampSflag s.srv[(0 : PartId)])) = true
      ∧ s.snp[(0 : PartId)].job = none ∧ tableAt s 0 (sampBase s.srv[(0 : PartId)]) 0 16 = some 0x400000
      ∧ tableAt s 0 (sampBase s.srv[(0 : PartId)]) 16 16 = some 0x400010 ∧ stepClass s 0x400000 = some 0
      ∧ (engineTurn s 2 (stepPending s)).map (·.2) = some (0, 0) ∧ hbmNat s 0x400000 4 = 1
      ∧ (∀ q ∈ s.srv[(0 : PartId)].slots, q.slot = hbmNat s 0x400010 2 → sampling q = false) := by decide +kernel
theorem witness_greedy : fpDecode .b32 (rTemp 0) = .fin false 0 (-149) ∧ pickToken 0 0 0 [(17, .fin false 3 0)] = some 17 := by decide +kernel

/-! ### Witnesses: snapshots -/

def tJob (ph : SnpPhase) : SnpJob :=
  { jobId := 7, type := 4, adjourn := false, count := 384, btag := 0x5A, tmask := 0xFF, tag := 0, gen := 0, phase := ph, since := 0, squares := 1, prot := 0, keep := 0
    grans := [], wantPages := [], wantGrans := [], drained := false, paged := [], pace := 0, caps := [], beats := [], unacked := [] }
/-- PART_0 with one placed square and a snapshot in progress. -/
def tSnap (j : SnpJob) (f : Snp → Snp := id) : State :=
  updSnp tPlaced 0 fun x => f { x with en := true, nseg := 1, afirst := 32, bfirst := 48, job := some j }
theorem witness_snp_write : servedOwn tBoard 0 0 = true ∧ full8 (w8 0) = true ∧ tBoard.snp[(0 : PartId)].en = false
    ∧ (tSnap (tJob .armed)).snp[(0 : PartId)].en = true ∧ servedOwn tBoard 1 1 = true := by decide +kernel
theorem witness_seal_signal : let s := tSnap (tJob .armed)
    s.snp[(0 : PartId)].job = some (tJob .armed) ∧ (tJob .armed).count ≤ nowCt s + 320 := by decide +kernel
theorem witness_seal_cycle : let s := { tSnap (tJob .signalled) with clk := { tBoard.clk with cc := 672, count := 384 } }
    s.snp[(0 : PartId)].job = some (tJob .signalled) ∧ s.parts[(0 : PartId)].snapQ = [] ∧ s.clk.frameOn = true ∧ ccFrom s (tJob .signalled).count ≤ nowCc s := by decide +kernel
theorem witness_drain_timeout : let s := { tSnap (tJob .draining) with clk := { tBoard.clk with count := 10000000 } }
    s.parts[(0 : PartId)].snapQ = [] ∧ ringRoom s 0 = true ∧ (tJob .draining).since + 10000000 ≤ nowCt s := by decide +kernel
theorem witness_drained : let s := tSnap (tJob .draining)
    s.snp[(0 : PartId)].job = some (tJob .draining) ∧ drainedNow s 0 = true ∧ (tJob .draining).adjourn = false ∧ squaresOf s 0 ≠ [] := by decide +kernel
theorem witness_halt_timeout : let s := updCore { tSnap (tJob .halting) with clk := { tBoard.clk with count := 1000000000 } } 0 fun c => { c with st := .running }
    s.snp[(0 : PartId)].job = some (tJob .halting) ∧ s.parts[(0 : PartId)].snapQ = [] ∧ ringRoom s 0 = true ∧ s.parts[(0 : PartId)].haltWait = false
      ∧ allStopped s 0 = false ∧ (tJob .halting).since + 1000000000 ≤ nowCt s := by decide +kernel
theorem witness_crema_pause : let b : State := tSnap (tJob .pause) fun x => { x with rate := 16 }
    let s := updSq { b with clk := { tBoard.clk with cc := 175000, count := 100000 } } 0 fun q =>
      { q with uncapt := 1, core := { q.core with st := .halted } }
    s.snp[(0 : PartId)].job = some (tJob .pause) ∧ (tJob .pause).adjourn = false ∧ s.parts[(0 : PartId)].haltWait = false ∧ pauseDue s 0 (tJob .pause) ≤ nowCt s
      ∧ jobSquares (tJob .pause) = [0] ∧ landingLeft s 0 = [] ∧ s.squares[0].uncapt ≠ 0 ∧ railReady s 0 = true
      ∧ (tJob .pause).keep.getLsbD 0 = false ∧ s.squares[0].core.haltLate = false ∧ 0 ∈ placedOf s 0 := by decide +kernel
/-- Page 2,047 of square 0, whose lines have been read; and with a line left, in a cycle of the mesh. -/
theorem witness_page_capture : let c : Capture := ⟨some (0 * 2048 + 2047), 0, [], 64⟩
    let j := { tJob .background with grans := [0], caps := [c], pace := 65 }
    let s := updSq (tSnap j) 0 fun q => { q with uncapt := BitVec.ofNat 2048 (2 ^ 2047) }
    s.snp[(0 : PartId)].job = some j ∧ j.phase = .background ∧ j.caps = [c] ∧ j.grans ≠ [] ∧ nowCt s < j.pace ∧ c.due ≤ nowCt s
      ∧ (areaAt s 0 j.gen (pageOff (recordOf j 0) 2047) 16384).isSome = true
      ∧ (let j' := { j with caps := [{ c with todo := [255] }] }; (tSnap j').snp[(0 : PartId)].job = some j' ∧ snpTurn (tSnap j') = false) := by decide +kernel
/-- The header in area A, segment 32, names square 63; a turn of the snapshot engine, the last slice and the one before it, and a cycle of another client. -/
theorem witness_restore : let r : RstJob := ⟨7, 0, false, false, 1, 16383⟩
    let s := updSnp { tAt 115 64 with hbm := { tBoard.hbm with mem := memWriteNat [] (32 * segBytes + 16) 8 (2 ^ 63) } } 0 fun x => { x with afirst := 32, restore := some r }
    s.snp[(0 : PartId)].restore = some r ∧ r.fetch = false ∧ s.parts[(0 : PartId)].snapQ = [] ∧ (headerSquares s 0 0)[0]? = some 63
      ∧ (0 : SqId) ∉ headerSquares s 0 0 ∧ (areaAt s 0 0 (pageOff 0 0 + 2048 * r.slice) 2048).isSome = true
      ∧ snpTurn s = true ∧ slicesFree s (headerSquares s 0 0) = true ∧ 16384 ≤ r.slice + 1 ∧ ({ r with slice := 16382 }).slice + 1 < 16384
      ∧ snpTurn { s with clk := { s.clk with cc := 116 } } = false := by decide +kernel

/-- Buddy links 3 and 4, link 3 UP, its far end at position 1; the hold area of PART_0 holds two segments from 62 on. -/
def tBuddy (j : SnpJob) : State :=
  let s := tSnap j fun x => { x with buddy := true, hold := BitVec.ofNat 64 (62 + 2 * 64 + 1 * 2 ^ 13 + 2 ^ 63)
                                     gens := x.gens.set 0 { x.gens[(0 : Fin 2)] with genNo := 1 } }
  let s := updLink s 3 fun k => { k with st := .up, npos := 1 }
  { s with mtch := { s.mtch with second := BitVec.ofNat 32 (3 * 256 + 4 * 4096 + 2 ^ 31) } }
theorem witness_buddy_beat : let j := { tJob .buddy with beats := [(64, 1)] }
    let s := tBuddy j
    s.snp[(0 : PartId)].job = some j ∧ streaming s 0 j.gen = true ∧ 3 ∈ buddyLinks s ∧ s.links[3].st = .up := by decide +kernel
def tBuddyRx (l : List Line) (j : SnpJob) : State := updLink (tBuddy j) 3 fun k => { k with rxBuddy := l }
/-- A beat of one line at offset 0, and one at an offset past the hold area. -/
theorem witness_buddy_receive : let h := BitVec.ofNat 512 (1 + 1 * 2 ^ 128)
    let g := BitVec.ofNat 512 (1 + 2 ^ 40 * 2 ^ 64 + 1 * 2 ^ 128)
    let s := tBuddyRx [h, 5] (tJob .buddy)
    s.links[3].st = .up ∧ s.links[3].rxBuddy = [h, 5] ∧ hdrByte h 0 = 1 ∧ partOf (hdrByte h 1) = 0 ∧ hdrByte h 2 % 2 = (0 : Fin 2).val ∧ bits h 143 128 = 1
      ∧ (holdPlace s 3 0 0 (bits h 127 64) 64).isSome = true ∧ hdrByte g 0 = 1 ∧ partOf (hdrByte g 1) = 0 ∧ hdrByte g 2 % 2 = (0 : Fin 2).val
      ∧ bits g 143 128 = 1 ∧ holdPlace s 3 0 0 (bits g 127 64) 64 = none := by decide +kernel
/-- A request for generation 1 of the hold area, whose image has come whole. -/
theorem witness_buddy_fetch : let s := updSnp (tBuddy (tJob .buddy)) 0 fun x => { x with held := x.held.set 1 (some (5, true)) }
    let r : FetchReq := ⟨9, 1, 0, 5⟩
    bit s.snp[r.part].hold 63 = true ∧ bits s.snp[r.part].hold 20 13 = r.fpos.toNat ∧ heldGen s r.part r.genNo = some 1 := by decide +kernel
theorem witness_buddy_ack : let h := BitVec.ofNat 512 (2 + 1 * 2 ^ 32 + 64 * 2 ^ 64)
    let j := { tJob .buddy with unacked := [64] }
    let s := tBuddyRx [h] j
    s.links[3].rxBuddy = [h] ∧ partOf (hdrByte h 1) = 0 ∧ hdrByte h 0 = 2 ∧ hdrByte h 3 = 0 ∧ bits h 143 128 = 0 ∧ s.snp[(0 : PartId)].stale = [] ∧ isBuddyLink s 3 = true
      ∧ s.snp[(0 : PartId)].job = some j ∧ hdrByte h 2 = j.gen.val ∧ s.parts[(0 : PartId)].snapQ = [] ∧ ringRoom s 0 = true
      ∧ bits h 63 32 = s.snp[(0 : PartId)].gens[j.gen].genNo.toNat ∧ j.phase = .buddy ∧ j.beats = [] ∧ j.unacked = [bits h 127 64] := by decide +kernel

/-! ### Witnesses: partitions -/

/-- PART_1 asks for square 63, which PART_0 has given up; and for one that it has not. -/
def tSet (sq own0 : BitVec 64) : State :=
  updPart (tPart fun q => { q with own := { q.own with sq := own0, seg := 1 } }) 1 fun q => { q with cfg := ⟨sq, 0, 0, 0⟩ }
theorem witness_set : let s := tSet (1 <<< 63) (BitVec.allOnes 64 >>> 1)
    served s 0 = true ∧ full4 (w4 0x11) = true ∧ partBusy s = false ∧ partOf (field (word (w4 0x11)) 0 4) = 1 ∧ field (word (w4 0x11)) 4 2 = 1
      ∧ setErrOf s 1 s.parts[(1 : PartId)].cfg = 0 ∧ s.parts[(1 : PartId)].st = .absent := by decide +kernel
theorem witness_set_taken : let s := tSet (1 <<< 63) (BitVec.allOnes 64)
    partBusy s = false ∧ setErrOf s 1 s.parts[(1 : PartId)].cfg ≠ 0 := by decide +kernel
theorem witness_part_denied : served tBoard 1 = true ∧ full4 (v4 0x10) = true ∧ (v4 0x10).fn ≠ 0 := by decide +kernel
theorem witness_part_reset : served tBoard 0 = true ∧ partBusy tBoard = false ∧ partOf (field (word (w4 0x20)) 0 4) = 0
    ∧ tBoard.parts[(0 : PartId)].st = .active ∧ field (word (w4 0x20)) 4 2 = 2 := by decide +kernel
def tPart1 (f : Part → Part := id) : State := updPart (tSet 0 (BitVec.allOnes 64 >>> 1)) 1 fun q => f { q with st := .active, own := ⟨1 <<< 63, 0, 0, 0⟩ }
theorem witness_part_destroy : partOf (field (word (w4 0x31)) 0 4) = 1 ∧ tPart1.parts[(1 : PartId)].st = .active ∧ partBusy tPart1 = false
    ∧ field (word (w4 0x31)) 4 2 = 3 := by decide +kernel
theorem witness_part_op : let s := fun o => tPart1 fun q => { q with op := some o }
    (s ⟨1, 0⟩).king.stage = .running ∧ (s ⟨1, 0⟩).parts[(1 : PartId)].op = some ⟨1, 0⟩ ∧ (s ⟨3, 0⟩).parts[(1 : PartId)].op = some ⟨3, 0⟩ ∧ (s ⟨2, 5⟩).parts[(1 : PartId)].op = some ⟨2, 5⟩ := by
  decide +kernel
theorem witness_allot : served tBoard 0 = true ∧ full4 (w4 0x80000010) = true ∧ tBoard.ces[0].run.isNone = true := by decide +kernel
theorem witness_conservation : nowCt (tAt 112 1000000) % 1000000 = 0 ∧ nowCt tBoard % 1000000 ≠ 0 := by decide +kernel
theorem witness_function_reset : (1 : FnId) ≠ 0 ∧ tPart1.king.pcieUp = true ∧ tPart1.king.retry = false ∧ tPart1.parts[(1 : PartId)].st = .active := by
  decide +kernel

/-! ### Witnesses: host accesses, rings, jobs -/

theorem witness_access : served tBoard 0 = true ∧ hostUp tBoard 1 = true ∧ tBoard.apt = [] ∧ hostUp tBoard 0 = true
    ∧ hostUp { tBoard with king := { tBoard.king with retry := true } } 0 = false ∧ { tBoard with apt := [⟨0, .read 0 8 .clean, []⟩] }.apt ≠ [] := by decide +kernel
/-- Bytes 7 and 8 cross a unit; bytes 0 and 2 leave a hole. -/
theorem witness_bad_span : (spanOf 7 [true, true]).map (·.bad) = some true ∧ (spanOf 0 [true, false, true]).map (·.bad) = some true
    ∧ (spanOf 0 [true, true]).map (·.bad) = some false := by decide
theorem witness_reads : quietCycle tBoard = true ∧ servedSq tBoard 0 0 = true ∧ servedOwn tBoard 0 15 = true ∧ served tBoard 0 = true ∧ fullRd4 ⟨0, 0x0F⟩ = true
    ∧ servedSq tPart1 1 63 = true ∧ servedOwn tPart1 1 1 = true := by decide +kernel
def tRing (f : Ring → Ring) : State :=
  tPart fun q => { q with ring := f { q.ring with en := true, sqlog := 4, cqlog := 4, phase := true, tail := 3, cqTail := 2, irqen := true } }
theorem witness_ring_enable : let w := w4 (16 + 4 * 256 + 0x30000)
    servedOwn tBoard 0 0 = true ∧ full4 w = true ∧ tBoard.parts[(0 : PartId)].ring.en = false ∧ (word w).testBit 16 = true
      ∧ field (word w) 0 5 = 16 ∧ field (word w) 8 5 = 4 ∧ tBoard.parts[(0 : PartId)].st = .active ∧ field (word (w4 (3 + 0x10000))) 0 5 < 4 := by decide +kernel
theorem witness_sq_doorbell : let s := tRing id
    served s 0 = true ∧ full8 (w8 15) = true ∧ s.parts[(0 : PartId)].ring.en = true ∧ 15 < 2 ^ s.parts[(0 : PartId)].ring.sqlog.toNat
      ∧ jobsPending s.parts[(0 : PartId)].ring s.parts[(0 : PartId)].ring.tail ≤ jobsPending s.parts[(0 : PartId)].ring 15 := by decide +kernel
theorem witness_cq_doorbell : let r := (tRing id).parts[(0 : PartId)].ring
    r.en = true ∧ r.held = [] ∧
    (2 + 2 ^ r.cqlog.toNat - r.head) % 2 ^ r.cqlog.toNat ≤ (r.cqTail + 2 ^ r.cqlog.toNat - r.head) % 2 ^ r.cqlog.toNat ∧ 2 < 2 ^ r.cqlog.toNat
      ∧ (w8 0x10002).data.toNat % 65536 = 2 := by decide +kernel
/-- A tail of 16, of 2 while 3 jobs are pending, or with the ring off; a head past CQTAIL. -/
theorem witness_bad_doorbells : let r := (tRing id).parts[(0 : PartId)].ring
    2 ^ r.sqlog.toNat ≤ 16 ∧ (2 + 2 ^ r.sqlog.toNat - r.sqHead) % 2 ^ r.sqlog.toNat < (r.tail + 2 ^ r.sqlog.toNat - r.sqHead) % 2 ^ r.sqlog.toNat
      ∧ tBoard.parts[(0 : PartId)].ring.en = false
      ∧ (r.cqTail + 2 ^ r.cqlog.toNat - r.head) % 2 ^ r.cqlog.toNat < (3 + 2 ^ r.cqlog.toNat - r.head) % 2 ^ r.cqlog.toNat := by decide +kernel
theorem witness_fetch : mayFetch (tRing id) 0 = true ∧ (tRing id).parts[(0 : PartId)].ring.held = [] ∧ mayFetch tBoard 0 = false ∧ tBoard.parts[(0 : PartId)].copyWait = none := by decide +kernel
theorem witness_msix : (0 : FnId) = 0 ∧ (1 : Fin 8).val < 2 := by decide
def tFence : Line := BitVec.ofNat 512 (7 * 2 ^ 448 + 9 * 2 ^ 480)
/-- A job of type t, with words 0 and 1 of its body. -/
def tJobOf (t w0 w1 : Nat) : Line := BitVec.ofNat 512 (w0 + w1 * 2 ^ 64 + t * 2 ^ 448 + 9 * 2 ^ 480)
/-- The board with a ring that has jobs, at LEVEL l. -/
def tFetch (l : Nat) (f : Part → Part := id) : State :=
  let s := updPart (tRing id) 0 fun q => f { q with result := 1 }
  { s with king := { s.king with level := BitVec.ofNat 2 l } }
/-- One block of one ply, which ends it with HALT at a quiet point. -/
def tHaltPly : Line := encodePly { plyZero with hdr := { plyZero.hdr with endB := 1, haltOk := 1 }, s := { plyZero.s with opc := 0xFF } }
def tFetchHyp (s : State) (j : Line) (t : Nat) : Bool :=
  mayFetch s 0 && s.parts[(0 : PartId)].ring.held == [] && !jkReserved j && jobType j == t
/-- A reserved bit in a FENCE; a fence on an idle ring and behind an outstanding job. -/
theorem witness_jobs : jkReserved (tFence + 1) = true ∧ tFetchHyp (tRing id) tFence 7 = true ∧ (tRing id).parts[(0 : PartId)].ring.outstanding = 0
    ∧ (let s := tRing fun r => { r with outstanding := 1, promised := 1 }
       tFetchHyp s tFence 7 = true ∧ s.parts[(0 : PartId)].ring.outstanding ≠ 0) := by decide +kernel
/-- LAUNCH without an OP; a LOAD behind a launch, at LEVEL 1, of a sheet that passes and of one for another variant. -/
theorem witness_load_jobs : let sh := { tSheet with squares := [{ tSquare with image := [tHaltPly] }] }
    let j := tJobOf 1 1 0
    let x : Job := ⟨j, some sh⟩
    let y : Job := ⟨j, some { sh with variant := .v }⟩
    tFetchHyp (tFetch 3) (tJobOf 1 0 0) 1 = true ∧ bits (tJobOf 1 0 0) 1 0 = 0 ∧ tFetchHyp (tFetch 2) j 1 = true ∧ bits j 1 0 = 1 ∧ bit j 2 = false
      ∧ (tFetch 2).parts[(0 : PartId)].launch = none ∧ (tFetch 2).parts[(0 : PartId)].launchQ = [] ∧ (tFetch 1).king.level.toNat < 2
      ∧ 2 ≤ (tFetch 2).king.level.toNat ∧ loadOf (tFetch 2) 0 x = 0 ∧ loadOf (tFetch 2) 0 y ≠ 0
      ∧ (let s := tFetch 2 fun q => { q with launch := some ⟨7, x, .loading, 0, none, 0, 0⟩ }
         tFetchHyp s j 1 = true ∧ s.parts[(0 : PartId)].launch.isSome = true) := by decide +kernel
/-- RUN at count 960 of a loaded square, and at a count that is no multiple of the grain. -/
theorem witness_run_jobs : let s := updCore (tFetch 3 fun q => { q with loaded := some tLoaded }) 0 fun c => { c with st := .loaded }
    let j := tJobOf 1 2 960
    let k := tJobOf 1 2 961
    tFetchHyp s j 1 = true ∧ tFetchHyp s k 1 = true ∧ bits j 1 0 = 2 ∧ runCheck s 0 ⟨j, none⟩ = 0 ∧ lCount ⟨j, none⟩ ≠ 0 ∧ runCheck s 0 ⟨k, none⟩ ≠ 0
      ∧ s.parts[(0 : PartId)].launch = none ∧ s.parts[(0 : PartId)].launchQ = [] := by decide +kernel
/-- COPY with room for two descriptors in the queue, with one that fills it, and at LEVEL 1. -/
theorem witness_copy_jobs : let j : Line := tCopyLine ||| tJobOf 2 0 0
    let s := fun d l => tFetch l fun q => { q with queue := [tDesc tCopyLine], own := { q.own with res := BitVec.ofNat 64 (d * 2 ^ 32) } }
    tFetchHyp (s 2 2) j 2 = true ∧ jkCopyReserved j = false ∧ copyLoad (s 2 2) 0 < resQdepth (s 2 2).parts[(0 : PartId)].own.res
      ∧ resQdepth (s 1 2).parts[(0 : PartId)].own.res ≤ copyLoad (s 1 2) 0 ∧ (s 2 1).king.level.toNat < 2 := by decide +kernel
/-- SNAPSHOT sealed at 960: with nothing in progress, behind one in progress, too late; ADJOURN. -/
theorem witness_snapshot_jobs : let j := tJobOf 4 0 960
    let k := tJobOf 4 0 640
    let a := tJobOf 5 0 960
    let s := updSnp (tFetch 2) 0 fun x => { x with en := true }
    let b := updSnp s 0 fun x => { x with job := some (tJob .armed) }
    tFetchHyp s j 4 = true ∧ tFetchHyp s a 5 = true ∧ snpJobBad ⟨j, none⟩ = false ∧ nOp ⟨j, none⟩ = 0 ∧ sealCheck s 0 ⟨j, none⟩ true = 0 ∧ sealCheck s 0 ⟨a, none⟩ false = 0
      ∧ sealCheck s 0 ⟨k, none⟩ true ≠ 0 ∧ snpJobBad ⟨k, none⟩ = false ∧ s.snp[(0 : PartId)].job = none ∧ s.snp[(0 : PartId)].restore = none
      ∧ s.parts[(0 : PartId)].snapQ = [] ∧ tFetchHyp b j 4 = true ∧ b.snp[(0 : PartId)].job.isSome = true ∧ snpBusy b.snp[(0 : PartId)] = false := by decide +kernel
/-- SERVE: ADMIT before and after READY, FINISH of slot 0 with and without its request, and LEVEL 2. -/
theorem witness_serve_jobs : let j := tJobOf 6 1 0x40000
    let k := tJobOf 6 2 0
    let s := fun f => { tFetch 3 with srv := tBoard.srv.set 0 (f { tSrvRegs with en := true, ready := true }) }
    tFetchHyp (s id) j 6 = true ∧ srvCode ⟨j, none⟩ = 1 ∧ (s id).srv[(0 : PartId)].en = true ∧ (s id).srv[(0 : PartId)].ready = true
      ∧ (s id).srv[(0 : PartId)].waiting = [] ∧ (s fun v => { v with ready := false }).srv[(0 : PartId)].ready = false ∧ (tFetch 2).king.level.toNat < 3
      ∧ tFetchHyp (s id) k 6 = true ∧ srvCode ⟨k, none⟩ = 2 ∧ ((s id).srv[(0 : PartId)].slots.any fun y => y.slot == jobWord k 1 % 4096) = false
      ∧ ((s fun v => { v with slots := [tReq] }).srv[(0 : PartId)].slots.any fun y => y.slot == jobWord k 1 % 4096) = true := by decide +kernel
def tApt : State := tPart fun q => { q with aptKind := true }
theorem witness_aperture_hbm : hostUp tBoard 0 = true ∧ serving tBoard = true ∧ tBoard.apt = [] ∧ tBoard.parts[(0 : PartId)].aptKind = false
    ∧ tBoard.snp[(0 : PartId)].job = none ∧ 0x8FFFFFF8 % 8 = 0
    ∧ aptRuns tBoard 0 0x8FFFFFF8 8 = some [.hbm 0 0x8FFFFFF8 0x8FFFFFF8 8] := by decide +kernel
theorem witness_aperture_queued : hostUp tApt 0 = true ∧ serving tApt = true ∧ tApt.parts[(0 : PartId)].aptKind = true := by decide +kernel
/-- The last word of square 63's scratchpad: a write and a read that wait, in a turn of the copy engines and beside one. -/
theorem witness_aperture_sp : let off := 0x2000000 * 63 + 0x1FFFFF8
    let b := natLe 8 7
    let s := fun a c => { tApt with apt := [⟨0, a, []⟩], clk := { tApt.clk with cc := c } }
    let w := s (.write off (b.map some) .sound) 113
    let r := s (.read off 8 .clean) 113
    w.pending = [] ∧ hostUp w 0 = true ∧ serving w = true ∧ b.length = 8 ∧ off % 8 = 0 ∧ 0x1FFFFF8 % 64 + 8 ≤ 2048 ∧ w.squares[63].uncapt = 0
      ∧ aptRuns w 0 off 8 = some [.sp 63 0x1FFFFF8 8] ∧ ceTurn w = true ∧ banksUsed w 63 = [] ∧ aptRuns r 0 off 8 = some [.sp 63 0x1FFFFF8 8]
      ∧ ceTurn (s (.write off (b.map some) .sound) 112) = false := by decide +kernel
theorem witness_aperture_outside : aptRuns tPart1 1 0 8 = none ∧ hostUp tPart1 1 = true ∧ aptRuns tBoard 0 (2 ^ 32 - 4) 8 = none := by decide +kernel

/-! ### Witnesses: power, resets, boot -/

theorem witness_gate_bad : served tBoard 0 = true ∧ full4 (w4 0x3B) = true ∧ tBoard.power.busy = false ∧ field (word (w4 0x3B)) 0 5 = 27
    ∧ field (word (w4 0x3B)) 5 2 = 1 ∧ gateErr tBoard 27 ≠ 0 ∧ ungateErr tBoard 27 ≠ 0 := by decide +kernel
theorem witness_gate : field (word (w4 0x27)) 0 5 = 7 ∧ field (word (w4 0x27)) 5 2 = 1 ∧ gateErr tBoard 7 = 0 ∧ tBoard.power.dom[(7 : DomId)] = .on := by
  decide +kernel
def tDom (d : DomId) (x : Dom) (up : Bool) : State :=
  { tBoard with power := { tBoard.power with dom := tBoard.power.dom.set d x, req := some ⟨d, up⟩, busy := true } }
theorem witness_ungate : let s := { tDom 7 .gated true with power := { tBoard.power with dom := tBoard.power.dom.set 7 .gated } }
    s.power.busy = false ∧ field (word (w4 0x47)) 0 5 = 7 ∧ field (word (w4 0x47)) 5 2 = 2 ∧ ungateErr s 7 = 0 ∧ s.power.dom[(7 : DomId)] = .gated := by decide +kernel
theorem witness_gated : (tDom 7 .closing false).power.dom[(7 : DomId)] = .closing ∧ (tDom 7 .closing false).power.req = some ⟨7, false⟩
    ∧ rankDraining (tDom 7 .closing false) 7 = false ∧ (tDom 13 .closing false).power.dom[(13 : DomId)] = .closing := by decide +kernel
theorem witness_ready : (tDom 13 .gated true).power.dom[(13 : DomId)] = .gated ∧ (tDom 13 .gated true).power.req = some ⟨13, true⟩
    ∧ fusedDom tBoard.fuses 13 = false ∧ domHbm 5 = 13 ∧ tBoard.king.stage = .running ∧ needsEngine 13 = false
    ∧ (tDom 7 .gated true).power.dom[(7 : DomId)] = .gated ∧ needsEngine 7 = true ∧ engineOff (tDom 7 .gated true) = false
    ∧ (tDom 26 .gated true).power.dom[domEngine] = .gated ∧ fusedDom tBoard.fuses domEngine = false ∧ needsEngine domEngine = false := by decide +kernel
theorem witness_pin_reset : tBoard.pins.pwrOk = true ∧ State.reset.pins.pwrOk = true ∧ State.reset.pins.resetN = false := by decide +kernel
theorem witness_chiprst : tBoard.king.stage ≠ .test ∧ tBoard.pins.resetN = true ∧ tBoard.king.pcieUp = true ∧ tBoard.king.stage = .running
    ∧ full4 (w4 1) = true ∧ (word (w4 1)).testBit 0 = true ∧ field (word (w4 1)) 1 3 = 0 ∧ tBoard.king.retry = false ∧ tBoard.apt = [] := by decide +kernel
theorem witness_trip : tBoard.thermal.tripped = false ∧ 110 ≤ (110 : BitVec 8).toNat := by decide +kernel
def tKing (f : King → King) : State := { tBoard with king := f tBoard.king }
theorem witness_firmware : (tKing fun k => { k with stage := .loading, source := 1 }).king.stage = .loading
    ∧ (tKing fun k => { k with stage := .loading, source := 1, pushGo := true }).king.pushGo = true
    ∧ (tKing fun k => { k with stage := .loading, source := 1 }).king.source = 1 ∧ (tKing fun k => { k with stage := .recovery }).king.stage = .recovery
    ∧ tBoard.king.stage = .running := by decide +kernel
theorem witness_go : let s := tKing fun k => { k with stage := .loading, source := 1 }
    hostUp s 0 = true ∧ s.apt = [] ∧ full4 (w4 0x80000040) = true ∧ (word (w4 0x80000040)).testBit 31 = true ∧ tBoard.king.stage ≠ .loading := by decide +kernel
theorem witness_pcie : tBoard.pins.resetN = true ∧ tBoard.pins.pwrOk = true ∧ tBoard.king.stage ≠ .test := by decide +kernel
theorem witness_device_ready : let s := tKing fun k => { k with deviceReady := false, retry := true }
    booting s = true ∧ bootDone s = true := by decide +kernel

/-! ### Witnesses: voltage, temperature, faults, debug, numbers -/

theorem witness_avs_fall : tBoard.king.stage = .running ∧ tBoard.avs.stuck = false ∧ max 650 (min 850 0) + 5 ≤ tBoard.avs.vcore.toNat
    ∧ strictLaunched tBoard = [] ∧ tBoard.avs.lastStep = none := by decide +kernel
theorem witness_avs_deferred : strictLaunched (tPart fun q => { q with strict := true, launched := true }) ≠ []
    ∧ max 650 (min 850 900) ≠ tBoard.avs.vcore.toNat := by decide +kernel
theorem witness_mismatch : absDiff tBoard.avs.vcore.toNat 780 ≤ 20 ∧ 20 < absDiff tBoard.avs.vcore.toNat 779 ∧ tBoard.avs.missed = false
    ∧ 20 < absDiff tBoard.avs.vlgo.toNat 821 ∧ tBoard.avs.missedLgo = false := by decide +kernel
theorem witness_ladder : tBoard.thermal.junctionDuty = 8 ∧ 4 < tBoard.thermal.schedDuty.val ∧ (100 : BitVec 8).toNat < 105 := by decide +kernel
/-- Count 64: 704 is a multiple of 320 plus 64, so 640 is too near and 960 is far enough. -/
theorem witness_arm : let s := fun c => { tBoard with thermal := { tBoard.thermal with schedAt := c } }
    served tBoard 0 = true ∧ full4 (w4 0x104) = true ∧ (word (w4 0x104)).testBit 8 = true ∧ field (word (w4 0x104)) 0 4 = (4 : Fin 9).val
      ∧ (s 960).thermal.schedAt.toNat % 320 = 0 ∧ nowCt (s 960) + 640 ≤ 960 ∧ (s 640).thermal.schedAt.toNat < nowCt (s 640) + 640
      ∧ (s 704).thermal.schedAt.toNat % 320 ≠ 0 := by decide +kernel
theorem witness_scheduled : let s := { tBoard with thermal := { tBoard.thermal with armed := [(64, 4)] } }
    s.thermal.armed = [(64, 4)] ∧ 64 ≤ nowCt s ∧ nowCt s < 65 := by decide +kernel
theorem witness_king_watchdog : tBoard.king.stage = .running ∧ tBoard.king.expiries = [] ∧ (tKing fun k => { k with expiries := [0] }).king.expiries = [0]
    ∧ nowCt tBoard < 0 + 10000000000 := by decide +kernel
theorem witness_event_ring : let r : EvtRing := { evtRingReset with en := true, log := 4, tail := 3 }
    tBoard.rings[(0 : PartId)].en = false ∧ (word (w4 0x10E)).testBit 8 = true ∧ field (word (w4 0x10E)) 0 5 = 14 ∧ field (word (w4 0x10F)) 0 5 = 15
      ∧ (3 + 2 ^ r.log.toNat - r.head) % 2 ^ r.log.toNat ≤ (r.tail + 2 ^ r.log.toNat - r.head) % 2 ^ r.log.toNat := by decide +kernel
theorem witness_trace_ctl : let t := tBoard.parts[(0 : PartId)].trc
    (word (w4 0x11B)).testBit 8 = true ∧ field (word (w4 0x11B)) 0 5 = 27 ∧ field t.base.toNat 6 12 = 0
      ∧ (hbmAddr tBoard 0 t.base.toNat (16 * 2 ^ 27)).isSome = true ∧ field (word (w4 0x10B)) 0 5 = 11 := by decide +kernel
theorem witness_debug : quietCycle tBoard = true ∧ servedSq tBoard 0 0 = true ∧ servedOwn tBoard 0 0 = true ∧ word (w4 1) % 8 = 1 ∧ word (w4 4) % 8 = 4
    ∧ atSnapshotPoint tBoard 0 = false ∧ atSnapshotPoint (tSnap (tJob .pause)) 0 = true
    ∧ (updCore tBoard 0 fun c => { c with st := .halted }).squares[0].core.st = .halted ∧ railReady tBoard 0 = true
    ∧ (let s := { tRailWait with lungo := { tBoard.lungo with ranks := 1 } }; railReady s 0 = false ∧ atSnapshotPoint s 0 = false)
    ∧ 0 ∈ squaresOf tRun 0 ∧ ownerSq tRun 0 = some 0 ∧ tRun.squares[0].core.st = .running := by decide +kernel
/-- MUL with every operand register at its last number. -/
def tMul : Ply := { plyZero with s := { plyZero.s with opc := 0x30, dst := 31, srca := 31, srcb := 31 } }
theorem witness_scalar : issuesNow (tPly tMul) 0 = true ∧ (plyAt (tPly tMul).squares[0]).s.opc = 0x30
    ∧ guard (atIssue (tPly tMul) 0).squares[0].core.p tMul.s.pred tMul.s.pneg tMul.s.gen = true
    ∧ (let p := { tMul with s := { tMul.s with gen := 1 } }
       issuesNow (tPly p) 0 = true ∧ guard (atIssue (tPly p) 0).squares[0].core.p p.s.pred p.s.pneg p.s.gen = false ∧ p.v.opc = 0 ∧ p.m.opc = 0 ∧ p.y.opc = 0) := by
  decide +kernel
/-- What is assumed of the V slot of a ply of opcode o and format f; with gen 1 the guard of P0 is false. -/
def tV (o : BitVec 8) (f : BitVec 4) (gen : BitVec 1 := 0) : Ply :=
  { plyZero with s := { plyZero.s with gen := gen }, v := { plyZero.v with opc := o, fmt := f, vd := 31, va := 31, vb := 31, sdst := 31, gen := gen } }
def tVHyp (o : BitVec 8) (f : BitVec 4) (x : Fmt) : Bool :=
  issuesNow (tPly (tV o f)) 0 && fmtOf f.toNat == some x && vAssigned o.toNat && vFmtOk o.toNat x
    && guard (atIssue (tPly (tV o f)) 0).squares[0].core.p (tV o f).v.pred (tV o f).v.pneg (tV o f).v.gen
theorem witness_vector : (tVHyp 0x0C 3 .int32 && tVHyp 0x0A 9 .b64 && tVHyp 0x13 0 .int4 && tVHyp 0x22 10 .pb28 && tVHyp 0x20 6 .b16) = true := by decide +kernel
theorem witness_vector_rest : (tVHyp 0x2C 2 .int16 && tVHyp 0x40 7 .bf16 && tVHyp 0x3D 8 .b32 && tVHyp 0x3C 1 .int8) = true := by decide +kernel
theorem witness_vector_guarded : let p := tV 0x01 3 1
    issuesNow (tPly p) 0 = true ∧ guard (atIssue (tPly p) 0).squares[0].core.p p.v.pred p.v.pneg p.v.gen = false
      ∧ guard (atIssue (tPly p) 0).squares[0].core.p p.s.pred p.s.pneg p.s.gen = false ∧ p.m.opc = 0 ∧ p.y.opc = 0 := by decide +kernel
/-- LD.V of 16 lines to rail A and ST.V of eight lines of V31, at the last line of the scratchpad. -/
def tMemPly : Ply :=
  { plyZero with l := { plyZero.l with opc := 1, off := 0x1FFFFC0, lines := 15, dest := 1, stride := 1 }
                 t := { plyZero.t with opc := 1, off := 0x1FFFFC0, lines := 7, vs := 31, stride := 1 } }
theorem witness_memory_slots : let c := (atIssue (tPly tMemPly) 0).squares[0].core
    issuesNow (tPly tMemPly) 0 = true ∧ guard c.p tMemPly.l.pred tMemPly.l.pneg tMemPly.l.gen = true ∧ guard c.p tMemPly.t.pred tMemPly.t.pneg tMemPly.t.gen = true
      ∧ tMemPly.t.src = 0 ∧ (let s := tCore { tMemPly with t := { tMemPly.t with src := 1 } } fun c => { c with rails := c.rails.set 3 (some (0, 9)) }
        railAt (atIssue s 0).squares[0].core .d 0 = some 9 ∧ (atIssue s 0).squares[0].core.u = 0) := by decide +kernel
/-- An M slot of opcode o naming group 7, with both operands from V registers; the sheet in force is of the given class. -/
def tM (o : BitVec 8) (f : BitVec 4) (imm : BitVec 32 := 0) : Ply :=
  { plyZero with m := { plyZero.m with opc := o, fmta := f, fmtb := f, gmask := 0x80, srca := 2, srcb := 2, va := 31, vb := 30, imm := imm } }
def tMState (c22 : Bool) (p : Ply) : State := updPart (tPly p) 0 fun q => { q with result := if c22 then 0 else 1, loaded := some { tLoaded with class22 := c22 } }
def tMHyp (c22 : Bool) (p : Ply) (f : Fmt) : Bool :=
  let s := tMState c22 p
  let q := (atIssue s 0).squares[0]
  issuesNow s 0 && guard q.core.p p.m.pred p.m.pneg p.m.gen && q.mx.foldIn == [] && sqClass22 s 0 == c22 && mAssigned c22 p.m.opc.toNat
    && fmtOf p.m.fmta.toNat == some f && fmtOf p.m.fmtb.toNat == some f && mPairOk f f
theorem witness_products : tMHyp false (tM 0x01 8) .b32 = true ∧ mNamed (tPly plyZero).fuses.variant 0x80 = [7] ∧ Fmt.b32 ≠ .pb28
    ∧ (lungoCtx (tMState false (tM 0x01 8)) 0).isNone = true := by decide +kernel
theorem witness_ledgers : tMHyp true (tM 0x02 9) .b64 = true := by decide +kernel
theorem witness_stationary : tMHyp false (tM 0x04 1 63) .int8 = true ∧ tMHyp true (tM 0x05 1) .int8 = true := by decide +kernel
/-- RD and FRD in binary64, from array 127, and from set 1; FARM of set 1. -/
theorem witness_read_out : let rd := tM 0x06 9 (9 * 64 + 127 * 1024)
    let frd := tM 0x0A 9 (1 + 9 * 64 + 15 * 1024)
    tMHyp false rd .b64 = true ∧ fmtOf (field rd.m.imm.toNat 6 4) = some .b64 ∧ field rd.m.imm.toNat 10 7 = 127 ∧ rndOf rd.m.rnd.toNat = some .rne
      ∧ tMHyp false frd .b64 = true ∧ fmtOf (field frd.m.imm.toNat 6 4) = some .b64 := by decide +kernel
theorem witness_farm : tMHyp false (tM 0x09 1 (1 + 255 * 2 + 65535 * 512)) .int8 = true ∧ field (1 + 255 * 2 + 65535 * 512) 9 16 ≠ 0 := by decide +kernel
/-- FSET and FTEST of flag 8191, its partition's own and not; SEND and CFLAG on endpoint 3. -/
def tY (o : BitVec 6) : Ply := { plyZero with y := { plyZero.y with opc := o, flag := 8191, val := 1, sreg := 31, chan := 3 } }
theorem witness_flag_slots : let s := tPly (tY 1)
    let d := updPart s 0 fun q => { q with own := { q.own with res := 0 } }
    issuesNow s 0 = true ∧ guard (atIssue s 0).squares[0].core.p (tY 1).y.pred (tY 1).y.pneg (tY 1).y.gen = true ∧ flagRight s (partOfSq s 0) 8191 true ≠ .denied
      ∧ issuesNow (tPly (tY 2)) 0 = true ∧ flagRight (tPly (tY 2)) (partOfSq (tPly (tY 2)) 0) 8191 false = .own
      ∧ issuesNow d 0 = true ∧ flagRight d (partOfSq d 0) 8191 true = .denied := by decide +kernel
theorem witness_send_slots : let f := fun q : Square => { q with eps := q.eps.set 3 { q.eps[3] with route := BitVec.ofNat 64 (2 ^ 21), credits := 1 } }
    let s := updSq (tPly (tY 8)) 0 f
    let c := updSq (tPly (tY 9)) 0 f
    issuesNow s 0 = true ∧ canSend s 0 3 false = true ∧ routeOk s 0 3 false = true ∧ issuesNow c 0 = true ∧ rtValid c.squares[0].eps[3].route = true := by decide +kernel
theorem witness_number : fmtIsFloat .b64 = true ∧ 0x7FF0000000000000 < 2 ^ fmtBits .b64 ∧ fpDecode .b64 0x7FF0000000000000 ≠ .nan := by decide +kernel
theorem witness_apart : (∀ p : PartId, tPart1.parts[p].st = .absent → tPart1.parts[p].own.sq = 0)
    ∧ (∀ p q : PartId, p ≠ q → tPart1.parts[p].own.sq &&& tPart1.parts[q].own.sq = 0) ∧ (∀ p : PartId, tPart1.parts[p].own.sq &&& ~~~sqMap tPart1 = 0)
    ∧ (match step tPart1 with | .next _ => true | _ => false) = true := by decide +kernel
theorem witness_canonical : Memory.wf tBoard.hbm.mem = true ∧ (∀ n : SqId, squareMemOk tBoard.squares[n] = true)
    ∧ (match step tBoard with | .next _ => true | _ => false) = true := by decide +kernel

/-! ### One command each, against the spec's words -/

/-- ADD issues in cycle u and lands in u + 1 (R33, R34): 2 + 3 flies to S3. -/
def tAdd : State := updSq tBoard 0 fun q => { q with plies := [(0, tAddWord)], core := { q.core with st := .running, s := (q.core.s.set 1 2).set 2 3 } }
theorem test_add_flies : goes (.plyIssue 0 .clean) tAdd
    (fun t => t.squares[0].core.flight == [⟨1, .s 3 5⟩] && t.squares[0].core.s[(3 : Fin 32)] == 0 && t.squares[0].core.idx == 1) = true := by decide +kernel
theorem test_store_commits :
    goes (.storeCommit 0) (tCore plyZero fun c => { c with u := 5, stores := [⟨1, [(0x1FFFFF8, natLe 8 7)]⟩] })
      (fun t => memNat t.squares[0].mem 0x1FFFFF8 8 == 7 && t.squares[0].core.stores == []) = true := by decide +kernel
/-- A store is not in SRAM before it has aged four cycles (R73). -/
theorem test_store_waits :
    goes (.storeCommit 0) (tCore plyZero fun c => { c with u := 4, stores := [⟨1, [(0, natLe 8 7)]⟩] })
      (fun t => memNat t.squares[0].mem 0 8 == 0) = true := by decide +kernel
/-- The mesh example: one flit commits, the counter of the handle counts one (R206, R84). -/
theorem test_flit_commits : let m := { tMsg with data := [(0, 108, 5)], arrive := [111] }
    goes (.meshFlitCommit 1) (tMesh m)
      (fun t => t.msgs == [] && memNat t.squares[1].mem 0x100 64 == 5 && (hdlOf t.squares[1] 0).count == 1) = true := by decide +kernel
/-- A line past the handle's end is refused with BOUNDS, code 5 (R83). -/
theorem test_flit_refused : let m := { tMsg with data := [(0, 108, 5)], arrive := [111], doff := 0x1000 }
    goes (.meshFlitCommit 1) (tMesh m)
      (fun t => (hdlOf t.squares[1] 0).count == 0 && t.credits.map (·.code) == [some 5]) = true := by decide +kernel
theorem test_copy_beat : let r := tCe (tCePart (.square 1 0) 1) [tSeg]
    let s := updSq (tRunCe r true) 2 fun q => { q with mem := [(64, 9)] }
    goes (.copyBeat 0 ⟨.clean, 0⟩) s (fun t => memByte t.squares[1].mem (2 ^ 25 - 64) == 9 && t.ces[0].run == none) = true := by decide +kernel
theorem test_admit : let j := tAdmit (0x1000 * 64)
    goes (.admissionDecision 0 true .clean) (tAdmission (0x1000 * 64) 0 0)
      (fun t => t.srv[(0 : PartId)].free == [1, 2, 3] && t.srv[(0 : PartId)].slots.map (·.slot) == [0] && jobId j.body == 9) = true := by decide +kernel
theorem test_sampler_skips : goes (.samplerStep 0 .clean) tStep (fun t => hbmNat t 0x400014 4 == 0xFFFFFFFF) = true := by decide +kernel
theorem test_fence : goes (.jobFetch 0 tFence none) (tRing id)
    (fun t => t.parts[(0 : PartId)].ring.sqHead == 1 && t.out.length == 1 && t.parts[(0 : PartId)].ring.outstanding == 0) = true := by decide +kernel
theorem test_aperture : goes (.bar2Write 0 0x100 ((natLe 8 0x1122334455667788).map some) .sound) tBoard
    (fun t => memNat t.hbm.mem 0x100 8 == 0x1122334455667788) = true := by decide +kernel
theorem test_gate_rank : goes (.gate (w4 0x27)) tBoard (fun t => t.power.dom[(7 : DomId)] == .closing && t.power.busy) = true := by decide +kernel
theorem test_load : let sh := { tSheet with squares := [{ tSquare with image := [0, tAddWord], entry := 1 }] }
    goes (.scoresheetLoaded 0) (tLaunching (tLaunch .loading tLoadJob (some sh)) .idle)
      (fun t => t.squares[5].core.st == .loaded && t.squares[5].core.idx == 1) = true := by decide +kernel
/-- Emergency duty 1 at 105 °C (R451). -/
theorem test_ladder : goes (.thermalLadder 0 105) tBoard (fun t => t.thermal.junctionDuty == 1 && t.thermal.warn) = true := by decide +kernel

end Sys2Proof.Tests
end

section
/-! A whole write of a 4-byte register by the host, from the access to the register's own write function (R398, R401, R404), and the writes of `TMG_CTL`
that R222 refuses. -/

namespace Sys2Proof.Machine

/-! ### The bytes of a whole write (R401) -/

/-- The four bytes of the register are enabled, each with its bits of the data. -/
theorem writeBytes_full4 {w : RegWr} (h : full4 w = true) :
    writeBytes w 4 = [some (w.data.extractLsb' 0 8), some (w.data.extractLsb' 8 8), some (w.data.extractLsb' 16 8), some (w.data.extractLsb' 24 8)] := by
  have hbe : w.be = 0x0F := by simpa [full4] using h
  simp [writeBytes, hbe, List.range_succ]

theorem spanOf_four (off : Nat) (h : off % 8 = 0) : spanOf off [true, true, true, true] = some ⟨off, off + 4, false⟩ := by
  have same : off / 8 = (off + 3) / 8 := by omega
  simp [spanOf, List.range_succ, same]

theorem unitsOf_four (off : Nat) (h : off % 8 = 0) : unitsOf ⟨off, off + 4, false⟩ = [off] := by
  have one : (off + 4 + 7) / 8 - off / 8 = 1 := by omega
  simp only [unitsOf, one, List.range_one, List.map_cons, List.map_nil, Nat.add_zero, List.cons.injEq, and_true]
  omega

theorem unitMask_four (off : Nat) : unitMask ⟨off, off + 4, false⟩ off = 15 := by
  simp [unitMask, List.range_succ]

/-- The word of a write, put together from its bytes. -/
theorem word_eq_bytes (w : RegWr) : (w.data.extractLsb' 0 8).toNat + ((w.data.extractLsb' 8 8).toNat <<< 8) + ((w.data.extractLsb' 16 8).toNat <<< 16)
    + ((w.data.extractLsb' 24 8).toNat <<< 24) = word w := by
  simp only [word, BitVec.extractLsb'_toNat, Nat.shiftLeft_eq, Nat.shiftRight_eq_div_pow]
  omega

theorem unitData_full4 {w : RegWr} (h : full4 w = true) (off : Nat) : unitData off off (writeBytes w 4) = word w := by
  simpa [unitData, writeBytes_full4 h, List.range_succ] using word_eq_bytes w

/-! ### The register that a whole write reaches -/

/-- The state in which a BAR0 write of function fn acts: the access is noted and the latch of the function dropped. -/
def writeBegun (s : State) (fn : FnId) : State := dropLatch (noteVf s fn) fn .bar0

theorem writeBegun_frame (s : State) (fn : FnId) :
    ∃ v f, writeBegun s fn = { s with king := { s.king with vfEnable := v }, funcs := f } := by
  unfold writeBegun noteVf
  split
  · exact ⟨s.king.vfEnable, _, rfl⟩
  · exact ⟨true, _, rfl⟩

theorem serving_writeBegun (s : State) (fn : FnId) : serving (writeBegun s fn) = serving s := by
  obtain ⟨v, f, h⟩ := writeBegun_frame s fn
  rw [h]; rfl

theorem regHere_serving {s : State} (h : serving s = true) (fn : FnId) (bar : Bar) (off : Nat) : regHere s fn bar off = regAt fn bar off := by
  simp [regHere, h]

/-- No enabled byte, no write. -/
theorem writeReg_none (s : State) (fn : FnId) (r : Reg) (x : Nat) : writeReg s fn r 0 x = s := by simp [writeReg]

/-- Bytes 0 to 3 of a unit that begins with a 4-byte register are that register's. -/
theorem writeUnit_low {s : State} {fn : FnId} {bar : Bar} {u x : Nat} {r : Reg} (hr : regHere s fn bar u = some r) (hw : r.wide = false) (hx : x < 2 ^ 32) :
    writeUnit s fn bar u 15 x = writeReg s fn r 15 x := by
  have hmod : x % 2 ^ 32 = x := Nat.mod_eq_of_lt hx
  unfold writeUnit
  simp only [hr, hw, hmod, Bool.false_eq_true, if_false]
  split
  · exact writeReg_none ..
  · rfl

/-- A whole write of a 4-byte register at an aligned address, served at once, is the write of that register. -/
theorem write32_full4 {s : State} {w : RegWr} {off : Nat} {r : Reg} (hs : served s w.fn = true) (hf : full4 w = true) (ha : off % 8 = 0)
    (hr : regBar0 off = some r) (hw : r.wide = false) : write32 s off w = writeReg (writeBegun s w.fn) w.fn r 15 (word w) := by
  simp only [served, Bool.and_eq_true] at hs
  obtain ⟨⟨hup, hserve⟩, hidle⟩ := hs
  have hserve' : serving (writeBegun s w.fn) = true := (serving_writeBegun s w.fn).trans hserve
  have hen : (writeBytes w 4).map Option.isSome = [true, true, true, true] := by simp [writeBytes_full4 hf]
  have hhere : regHere (writeBegun s w.fn) w.fn .bar0 off = some r := (regHere_serving hserve' ..).trans hr
  have hlt : word w < 2 ^ 32 := Nat.mod_lt _ (by decide)
  simp only [write32, barWrite, hidle, if_true, writeNow, hup, Bool.not_true, Bool.false_eq_true, if_false, hen, spanOf_four off ha, unitsOf_four off ha,
    unitMask_four, unitData_full4 hf, List.foldl_cons, List.foldl_nil]
  exact writeUnit_low hhere hw hlt

/-! ### The register's own write -/

/-- A whole write of a 4-byte register of a partition's window, by the physical function or the function of that partition, is the register's write
function on the word. -/
theorem writeReg_own {s : State} {fn : FnId} {p : PartId} {r : Reg} {x : Nat} (ho : fn = 0 ∨ fn = p) (hacc : r.acc = .own p) (hw : r.wide = false)
    (ha : r.atomic = false) (hb : 15 &&& r.body ≠ 0) (hold : r.rd s < 2 ^ 32) (hx : x < 2 ^ 32) : writeReg s fn r 15 x = r.wr s fn x x true := by
  have hmask : byteMask 4 15 = 0xFFFFFFFF := by decide
  have hwr : writable s fn (.own p) = true := by
    rcases ho with rfl | rfl <;> simp [writable, seen]
  have keep : ∀ y, y < 2 ^ 32 → y &&& 0xFFFFFFFF = y := fun y hy => (Nat.and_two_pow_sub_one_eq_mod y 32).trans (Nat.mod_eq_of_lt hy)
  have hlive : fusedAway s r.acc = false ∧ dark s r.acc = false := by simp [hacc, fusedAway, dark, squareOf]
  simp [writeReg, regBytes, hw, ha, hlive, hacc ▸ hwr, hb, hmask, keep x hx, keep _ hold]

/-- The window of partition p in BAR0 (R397). -/
theorem regBar0_partWindow (p : PartId) {o : Nat} (h : o < 0x100000) : regBar0 (partWindow p + o) = regWin p o := by
  have hp := p.isLt
  have hix : partOf ((partWindow p + o) / 0x100000 - 16) = p := by
    apply Fin.ext
    simp only [partOf, finOf, partWindow]
    omega
  have hoff : (partWindow p + o) % 0x100000 = o := by simp only [partWindow]; omega
  have hlo : 0x1000000 ≤ partWindow p + o := by simp only [partWindow]; omega
  have hhi : partWindow p + o < 0x2000000 := by simp only [partWindow]; omega
  unfold regBar0
  rw [if_neg (by omega), if_neg (by omega), if_pos ⟨hlo, hhi⟩, hix, hoff]

theorem partWindow_aligned (p : PartId) {o : Nat} (h : o % 8 = 0) : (partWindow p + o) % 8 = 0 := by simp only [partWindow]; omega

/-! ### Logged violations (R408) -/

/-- The event of a violation, raised or held back, leaves the partitions as the count has left them. -/
theorem parts_raise_ite (c : Prop) [Decidable c] (s : State) (x : Events) (src : Nat) (part : Option PartId) (code : Nat) (detail : List Nat) :
    (if c then raise { s with ev := x } src part code detail else s).parts = s.parts := by
  split
  · obtain ⟨e, r, f, o, h⟩ := raise_frame_ev s x src part code detail
    rw [h]
  · rfl

/-- A privileged write is counted in `HST_VIOL` of the function that made it, and no other field of any partition changes. -/
theorem regPriv_parts (s : State) (fn : FnId) :
    (regPriv s fn).parts = s.parts.set fn { s.parts[fn] with violReg := satInc s.parts[fn].violReg } :=
  (parts_raise_ite _ _ _ _ _ _ _).trans rfl

theorem regPriv_squares (s : State) (fn : FnId) : (regPriv s fn).squares = s.squares := by
  obtain ⟨p, e, r, f, o, h⟩ := regPriv_frame s fn
  rw [h]

theorem regPriv_tmg (s : State) (fn : FnId) : (regPriv s fn).tmg = s.tmg := by
  obtain ⟨p, e, r, f, o, h⟩ := regPriv_frame s fn
  rw [h]

theorem regPriv_violReg (s : State) (fn : FnId) : (regPriv s fn).parts[fn].violReg = satInc s.parts[fn].violReg := by
  simp [regPriv_parts]

/-- A logged violation leaves the timing modes of every partition as they are. -/
theorem regPriv_modes (s : State) (fn : FnId) (p : PartId) : (regPriv s fn).parts[p].strict = s.parts[p].strict
    ∧ (regPriv s fn).parts[p].result = s.parts[p].result ∧ (regPriv s fn).parts[p].modeWait = s.parts[p].modeWait := by
  by_cases h : fn = p
  · subst h; simp [regPriv_parts]
  · have h' : ¬ fn.val = p.val := fun e => h (Fin.ext e)
    simp [regPriv_parts, h']

/-! ### `TMG_CTL` (R222) -/

theorem modeLocked_of_busy {s : State} {p : PartId}
    (h : (∃ n ∈ squaresOf s p, s.squares[n].core.st = .running ∨ s.squares[n].core.st = .stalled ∨ s.squares[n].core.st = .halted) ∨ descriptorsOf s p = true) :
    modeLocked s p = true := by
  simp only [modeLocked, Bool.or_eq_true, List.any_eq_true, beq_iff_eq, or_assoc]
  exact h

theorem modeLocked_writeBegun (s : State) (fn : FnId) (p : PartId) : modeLocked (writeBegun s fn) p = modeLocked s p := by
  obtain ⟨v, f, h⟩ := writeBegun_frame s fn
  rw [h]; rfl

/-- The word x asks partition p for another MODE, the one that waits counted, or another RESULT. -/
def ChangesMode (s : State) (p : PartId) (x : Nat) : Prop :=
  x.testBit 0 ≠ s.parts[p].modeWait.getD s.parts[p].strict ∨ field x 1 2 ≠ s.parts[p].result.toNat

/-- A write from a virtual function, or one that would change the modes of a partition at work, is no more than a logged violation. -/
theorem tmgWrite_refused {s : State} {fn : FnId} {p : PartId} {x : Nat} (h : fn ≠ 0 ∨ (ChangesMode s p x ∧ modeLocked s p = true)) :
    tmgWrite s fn p x = regPriv s fn := by
  unfold tmgWrite
  dsimp only
  split
  · rfl
  next hpf =>
    have hfn : fn = 0 := Fin.ext (by simpa using fun e => hpf (.inl e))
    obtain ⟨hchange, hlock⟩ := h.resolve_left fun e => e hfn
    exact if_pos (by simpa [hlock, ChangesMode] using hchange)

/-- A whole write of `TMG_CTL` of partition p by a function that is served there is `tmgWrite` of its word. -/
theorem execTmgCtlWrite_full4 {s : State} {p : PartId} {w : RegWr} (hs : servedOwn s w.fn p = true) (hf : full4 w = true) :
    execTmgCtlWrite p w s = .next (tmgWrite (writeBegun s w.fn) w.fn p (word w)) := by
  simp only [servedOwn, Bool.and_eq_true, Bool.or_eq_true, beq_iff_eq] at hs
  obtain ⟨hserved, hown⟩ := hs
  have hr := regBar0_partWindow p (o := 0x600) (by decide)
  refine congrArg _ ((write32_full4 hserved hf (partWindow_aligned p rfl) hr rfl).trans ?_)
  exact writeReg_own hown rfl rfl rfl (show 15 &&& 1 ≠ 0 by decide) (BitVec.isLt _) (Nat.mod_lt _ (by decide))

/-- Settles O20: the write reaches the register's write function, whose refusal logs a violation of the writer and keeps the modes. -/
theorem timingModeLocked : Obligations.TimingModeLocked := by
  intro s p w hs hf hrefused
  have hwrite : exec (.tmgCtlWrite p w) s = .next (tmgWrite (writeBegun s w.fn) w.fn p (word w)) := execTmgCtlWrite_full4 hs hf
  obtain ⟨v, f, hbegun⟩ := writeBegun_frame s w.fn
  have hparts : (writeBegun s w.fn).parts = s.parts := by rw [hbegun]
  have hpriv : tmgWrite (writeBegun s w.fn) w.fn p (word w) = regPriv (writeBegun s w.fn) w.fn := by
    refine tmgWrite_refused (hrefused.imp_right fun ⟨hchange, hbusy⟩ => ⟨?_, ?_⟩)
    · rw [ChangesMode, hparts]; exact hchange
    · rw [modeLocked_writeBegun]; exact modeLocked_of_busy hbusy
  refine ⟨_, hwrite.trans (congrArg _ hpriv), ?_⟩
  obtain ⟨hstrict, hresult, hwait⟩ := regPriv_modes (writeBegun s w.fn) w.fn p
  rw [hstrict, hresult, hwait, regPriv_violReg, regPriv_tmg, regPriv_squares, hbegun]
  exact ⟨rfl, rfl, rfl, rfl, rfl, rfl⟩

end Sys2Proof.Machine
end

section
/-! The end of a snapshot job (R347): what leaves the chip stays out, what counting, tracing and releasing squares leave as it is, the completion entry that
a ring with room takes at once (R422), the squares that a resume by broadcast starts again (R263), and the job that ends because its squares have not halted. -/

namespace Sys2Proof.Machine

/-! ### One field after an update -/

/-- What an update of one partition keeps of that partition, it keeps of every partition. -/
theorem updPart_keeps {α : Type} (g : Part → α) {s : State} {p : PartId} {f : Part → Part} (h : g (f s.parts[p]) = g s.parts[p]) (q : PartId) :
    g (updPart s p f).parts[q] = g s.parts[q] := by
  by_cases hq : q = p
  · subst hq; rw [updPart_self, h]
  · rw [updPart_other _ _ _ _ hq]

/-- What an update of one square's core keeps of that core, it keeps of every core. -/
theorem updCore_keeps {α : Type} (g : Core → α) {s : State} {n : SqId} {f : Core → Core} (h : g (f s.squares[n].core) = g s.squares[n].core) (m : SqId) :
    g (updCore s n f).squares[m].core = g s.squares[m].core := by
  by_cases hm : m = n
  · subst hm; rw [updCore_self, h]
  · rw [updCore_other _ _ _ _ hm]

theorem updCore_mem (s : State) (n m : SqId) (f : Core → Core) : (updCore s n f).squares[m].mem = s.squares[m].mem := by
  by_cases hm : m = n
  · subst hm; rw [updCore_self]
  · rw [updCore_other _ _ _ _ hm]

/-- An update of the cores of some squares changes no other field of the state. -/
theorem updCores_frame (f : Core → Core) (l : List SqId) (s : State) :
    ∃ q, l.foldl (fun s n => updCore s n f) s = { s with squares := q } := by
  induction l generalizing s with
  | nil => exact ⟨s.squares, rfl⟩
  | cons n l ih =>
    obtain ⟨q, h⟩ := ih (updCore s n f)
    exact ⟨q, h⟩

theorem updCores_keeps {α : Type} (g : Core → α) {f : Core → Core} (h : ∀ c, g (f c) = g c) (l : List SqId) (s : State) (m : SqId) :
    g (l.foldl (fun s n => updCore s n f) s).squares[m].core = g s.squares[m].core := by
  induction l generalizing s with
  | nil => rfl
  | cons n l ih => exact (ih (updCore s n f)).trans (updCore_keeps g (h _) m)

/-! ### What has left the chip stays out -/

theorem fireMsix_out (s : State) (fn : FnId) (v : Fin 8) : s.out <+: (fireMsix s fn v).out := by
  unfold fireMsix; split
  · exact List.prefix_rfl
  · split
    · exact List.prefix_rfl
    · exact List.prefix_append ..

theorem evtRingPut_out (s : State) (p : PartId) (e : Event) : s.out <+: (evtRingPut s p e).out := by
  unfold evtRingPut; dsimp only; split
  · exact List.prefix_rfl
  · split
    · exact (List.prefix_append s.out [_]).trans (fireMsix_out (updEvt (emit s _) p _) p 1)
    · exact List.prefix_append ..

theorem raise_out (s : State) (src : Nat) (part : Option PartId) (code : Nat) (detail : List Nat) : s.out <+: (raise s src part code detail).out := by
  have vector2 : ∀ (c : Bool) (t : State), s.out <+: t.out →
      s.out <+: (if c = true then fireMsix { t with ev := { t.ev with fired2 := true } } 0 2 else t).out := by
    intro c t h; split
    · exact h.trans (fireMsix_out { t with ev := { t.ev with fired2 := true } } 0 2)
    · exact h
  have ring0 : ∀ (x : Events) (e : Event), s.out <+: (evtRingPut { s with ev := x } 0 e).out := fun x e => evtRingPut_out { s with ev := x } 0 e
  unfold raise
  refine vector2 _ _ ?_
  split
  · split
    · exact ring0 _ _
    · exact (ring0 _ _).trans (evtRingPut_out _ _ _)
  · exact ring0 _ _

/-! ### What counting, tracing and releasing leave as it is -/

/-- The snapshot blocks, the rings and waiting SNAPSHOT jobs of every partition and every scratchpad are as they were, and what had left the chip stays out. -/
structure KeepsQueues (s t : State) : Prop where
  snp : t.snp = s.snp
  ring : ∀ p : PartId, t.parts[p].ring = s.parts[p].ring
  snapQ : ∀ p : PartId, t.parts[p].snapQ = s.parts[p].snapQ
  mem : ∀ n : SqId, t.squares[n].mem = s.squares[n].mem
  out : s.out <+: t.out

theorem KeepsQueues.refl (s : State) : KeepsQueues s s := ⟨rfl, fun _ => rfl, fun _ => rfl, fun _ => rfl, List.prefix_rfl⟩

theorem KeepsQueues.trans {s t u : State} (h : KeepsQueues s t) (k : KeepsQueues t u) : KeepsQueues s u where
  snp := k.snp.trans h.snp
  ring p := (k.ring p).trans (h.ring p)
  snapQ p := (k.snapQ p).trans (h.snapQ p)
  mem n := (k.mem n).trans (h.mem n)
  out := h.out.trans k.out

theorem KeepsQueues.ite {s t u : State} {c : Prop} [Decidable c] (ht : KeepsQueues s t) (hu : KeepsQueues s u) : KeepsQueues s (if c then t else u) := by
  split
  · exact ht
  · exact hu

theorem hwMark_keepsQueues (s : State) (f : HwField) (x : Nat) : KeepsQueues s (hwMark s f x) :=
  ⟨rfl, fun _ => rfl, fun _ => rfl, fun _ => rfl, List.prefix_rfl⟩

theorem hwUp_keepsQueues {w : Nat} (s : State) (f : HwField) (old : BitVec w) (n : Nat) : KeepsQueues s (hwUp s f old n) := hwMark_keepsQueues ..

theorem updPart_keepsQueues {s : State} {p : PartId} {f : Part → Part} (hring : ∀ q, (f q).ring = q.ring) (hq : ∀ q, (f q).snapQ = q.snapQ) :
    KeepsQueues s (updPart s p f) :=
  ⟨rfl, updPart_keeps Part.ring (hring _), updPart_keeps Part.snapQ (hq _), fun _ => rfl, List.prefix_rfl⟩

theorem updCore_keepsQueues (s : State) (n : SqId) (f : Core → Core) : KeepsQueues s (updCore s n f) :=
  ⟨rfl, fun _ => rfl, fun _ => rfl, fun m => updCore_mem s n m f, List.prefix_rfl⟩

theorem updCores_keepsQueues (f : Core → Core) (l : List SqId) (s : State) : KeepsQueues s (l.foldl (fun s n => updCore s n f) s) := by
  induction l generalizing s with
  | nil => exact .refl s
  | cons n l ih => exact (updCore_keepsQueues s n f).trans (ih _)

theorem raise_keepsQueues (s : State) (src : Nat) (part : Option PartId) (code : Nat) (detail : List Nat) :
    KeepsQueues s (raise s src part code detail) := by
  have hout := raise_out s src part code detail
  obtain ⟨e, r, f, o, h⟩ := raise_frame s src part code detail
  rw [h] at hout ⊢
  exact ⟨rfl, fun _ => rfl, fun _ => rfl, fun _ => rfl, hout⟩

theorem devPart_keepsQueues (s : State) (p : PartId) (cause src : Nat) (sq : Option SqId) (tag : Nat) : KeepsQueues s (devPart s p cause src sq tag) := by
  have counted : ∀ (x : Nat) (d : Dev) (g : Option Launch → Option Launch), KeepsQueues s
      (updPart (hwMark s (.devCause p) x) p fun q => { q with dev := d, launch := g q.launch }) :=
    fun x d g => (hwMark_keepsQueues s _ x).trans (updPart_keepsQueues (fun _ => rfl) fun _ => rfl)
  have reported : ∀ (b c : Bool) (x : Nat) (d : Dev) (g : Option Launch → Option Launch) (l : List Nat), KeepsQueues s
      (if b = true then s
       else if c = true then raise (updPart (hwMark s (.devCause p) x) p fun q => { q with dev := d, launch := g q.launch }) src (some p) (0x0200 + cause) l
       else updPart (hwMark s (.devCause p) x) p fun q => { q with dev := d, launch := g q.launch }) :=
    fun b c x d g l => .ite (.refl s) (.ite ((counted x d g).trans (raise_keepsQueues ..)) (counted x d g))
  exact reported _ _ _ _ (fun l => l.map _) _

theorem countDev_keepsQueues (s : State) (ps : List PartId) (cause src : Nat) (sq : Option SqId) (tag : Nat) :
    KeepsQueues s (countDev s ps cause src sq tag) := by
  have each : ∀ (l : List PartId) (t : State), KeepsQueues t (l.foldl (fun s p => devPart s p cause src sq tag) t) := by
    intro l
    induction l with
    | nil => exact .refl
    | cons p l ih => exact fun t => (devPart_keepsQueues t p cause src sq tag).trans (ih _)
  have chip : ∀ (x : ChipTmg) (f : HwField) (k : Nat), KeepsQueues s (hwMark { s with tmg := x } f k) :=
    fun _ _ _ => ⟨rfl, fun _ => rfl, fun _ => rfl, fun _ => rfl, List.prefix_rfl⟩
  exact .ite (.refl s) ((chip _ _ _).trans (each ps _))

/-- A trace record is written to HBM, or counted as lost. -/
theorem trace_keepsQueues (s : State) (n : SqId) (type payload : Nat) : KeepsQueues s (trace s n type payload) := by
  have traced : ∀ (t : State) (p : PartId) (g : Part → Trace), KeepsQueues t (updPart t p fun q => { q with trc := g q }) :=
    fun _ _ _ => updPart_keepsQueues (fun _ => rfl) fun _ => rfl
  have lost : ∀ (c : Bool) (p : PartId) (old : Word32) (g : Part → Trace) (l : List Nat), KeepsQueues s
      (if c = true then raise (updPart (hwUp s (.trcLost p) old) p fun q => { q with trc := g q }) (srcSq n) (some p) 0x0B01 l
       else updPart (hwUp s (.trcLost p) old) p fun q => { q with trc := g q }) := by
    intro c p old g l
    have counted := (hwUp_keepsQueues s (.trcLost p) old 1).trans (traced _ p g)
    exact .ite (counted.trans (raise_keepsQueues ..)) counted
  have written : ∀ (m : Hbm) (p : PartId) (g : Part → Trace), KeepsQueues s (updPart { s with hbm := m } p fun q => { q with trc := g q }) :=
    fun m p g => .trans (t := { s with hbm := m }) ⟨rfl, fun _ => rfl, fun _ => rfl, fun _ => rfl, List.prefix_rfl⟩ (traced _ p g)
  unfold trace
  split
  · exact .refl s
  · dsimp only
    refine .ite (.refl s) (.ite (lost _ _ _ _ _) ?_)
    split
    · exact lost _ _ _ _ _
    · exact written _ _ _

theorem trace_squares (s : State) (n : SqId) (type payload : Nat) : (trace s n type payload).squares = s.squares := by
  obtain ⟨q, m, e, r, f, o, h⟩ := trace_frame s n type payload
  rw [h]

theorem countDev_squares (s : State) (ps : List PartId) (cause src : Nat) (sq : Option SqId) (tag : Nat) :
    (countDev s ps cause src sq tag).squares = s.squares := by
  obtain ⟨t, q, e, r, f, o, h⟩ := countDev_frame s ps cause src sq tag
  rw [h]

/-! ### Squares that resume (R246, R263) -/

/-- The core of a halted square as its release leaves it. -/
def releasedCore (c : Core) : Core :=
  { c with st := .running, stall := 0, lastCc := none, held := 0, skipBreak := true, haltReq := false, saved := false, sealTag := none }

/-- One square of a release. -/
def releaseOne (s : State) (n : SqId) : State :=
  if s.squares[n].core.st == .halted then
    let s := updCore s n releasedCore
    trace s n 3 (1 + ((s.squares[n].core.plyCount.toNat % 2 ^ 48) <<< 16))
  else s

theorem releaseSquares_cons (s : State) (n : SqId) (l : List SqId) : releaseSquares s (n :: l) = releaseSquares (releaseOne s n) l := rfl

theorem releaseOne_keepsQueues (s : State) (n : SqId) : KeepsQueues s (releaseOne s n) :=
  .ite ((updCore_keepsQueues s n _).trans (trace_keepsQueues ..)) (.refl s)

/-- A halted square is released; another is left as it is. -/
theorem releaseOne_squares (s : State) (n : SqId) :
    (s.squares[n].core.st = .halted ∧ (releaseOne s n).squares = (updCore s n releasedCore).squares)
      ∨ (s.squares[n].core.st ≠ .halted ∧ releaseOne s n = s) := by
  by_cases h : s.squares[n].core.st = .halted
  · exact .inl ⟨h, (congrArg State.squares (if_pos (beq_iff_eq.2 h))).trans (trace_squares ..)⟩
  · exact .inr ⟨h, if_neg fun k => h (beq_iff_eq.1 k)⟩

theorem releaseOne_idx (s : State) (n m : SqId) : (releaseOne s n).squares[m].core.idx = s.squares[m].core.idx := by
  rcases releaseOne_squares s n with ⟨-, h⟩ | ⟨-, h⟩
  · rw [h]; exact updCore_keeps Core.idx rfl m
  · rw [h]

theorem releaseOne_st (s : State) (n m : SqId) : (releaseOne s n).squares[m].core.st =
    if m = n ∧ s.squares[m].core.st = .halted then .running else s.squares[m].core.st := by
  rcases releaseOne_squares s n with ⟨hst, h⟩ | ⟨hst, h⟩
  · rw [h]
    by_cases hm : m = n
    · subst hm; rw [updCore_self, if_pos ⟨rfl, hst⟩]; rfl
    · rw [updCore_other _ _ _ _ hm, if_neg fun k => hm k.1]
  · rw [h, if_neg]
    rintro ⟨rfl, k⟩
    exact hst k

theorem releaseSquares_keepsQueues (l : List SqId) (s : State) : KeepsQueues s (releaseSquares s l) := by
  induction l generalizing s with
  | nil => exact .refl s
  | cons n l ih => exact (releaseOne_keepsQueues s n).trans (ih _)

/-- A release leaves every square at its ply. -/
theorem releaseSquares_idx (l : List SqId) (s : State) (m : SqId) : (releaseSquares s l).squares[m].core.idx = s.squares[m].core.idx := by
  induction l generalizing s with
  | nil => rfl
  | cons n l ih => rw [releaseSquares_cons, ih, releaseOne_idx]

/-- A release starts the halted squares of the list, and no others. -/
theorem releaseSquares_st (l : List SqId) (s : State) (m : SqId) : (releaseSquares s l).squares[m].core.st =
    if m ∈ l ∧ s.squares[m].core.st = .halted then .running else s.squares[m].core.st := by
  induction l generalizing s with
  | nil => simp [releaseSquares]
  | cons n l ih =>
    rw [releaseSquares_cons, ih, releaseOne_st]
    generalize s.squares[m].core.st = x
    by_cases hx : x = .halted <;> by_cases hm : m = n <;> simp [hx, hm]

theorem resumeBroadcast_keepsQueues (s : State) (p : PartId) (l : List SqId) : KeepsQueues s (resumeBroadcast s p l) :=
  .ite (.refl s) (.ite (updPart_keepsQueues (fun _ => rfl) fun _ => rfl)
    ((KeepsQueues.ite (countDev_keepsQueues ..) (.refl s)).trans (releaseSquares_keepsQueues _ _)))

/-- With the ranks of the partition on their rail, a broadcast starts every halted square of its list where it stands. -/
theorem resumeBroadcast_resumes {s : State} {p : PartId} {l : List SqId} {n : SqId} (hr : railReady s p = true) (hn : n ∈ l)
    (hst : s.squares[n].core.st = .halted) :
    (resumeBroadcast s p l).squares[n].core.st = .running ∧ (resumeBroadcast s p l).squares[n].core.idx = s.squares[n].core.idx := by
  have hmem : n ∈ l.filter fun n => s.squares[n].core.st == .halted := by simpa using ⟨hn, hst⟩
  have hsome : ¬ (l.filter fun n => s.squares[n].core.st == .halted).isEmpty = true := by simpa using ⟨n, hn, hst⟩
  have hcounted : (if s.parts[p].strict then countDev s [p] devRelaunch srcKing none else s).squares = s.squares := by
    split
    · exact countDev_squares ..
    · rfl
  have heq : resumeBroadcast s p l = releaseSquares (if s.parts[p].strict then countDev s [p] devRelaunch srcKing none else s)
      (l.filter fun n => s.squares[n].core.st == .halted) := by
    simp only [resumeBroadcast, if_neg hsome, hr, Bool.not_true, Bool.false_eq_true, if_false]
  rw [heq, releaseSquares_st, releaseSquares_idx, hcounted]
  exact ⟨if_pos ⟨hmem, hst⟩, rfl⟩

/-! ### The end of the snapshot point (R347, R474) -/

/-- Which ranks have still to switch depends on the partitions' squares, result levels and rails alone. -/
theorem railReady_updPart {s : State} {p : PartId} {f : Part → Part} (hst : ∀ q, (f q).st = q.st) (hown : ∀ q, (f q).own = q.own)
    (hres : ∀ q, (f q).result = q.result) (hdue : ∀ q, (f q).railDue = q.railDue) (o : PartId) : railReady (updPart s p f) o = railReady s o := by
  have howner : ∀ n, ownerSq (updPart s p f) n = ownerSq s n := fun n => by
    simp only [ownerSq, updPart_keeps Part.st (hst _), updPart_keeps Part.own (hown _)]
  have howns : ∀ q n, ownsSq (updPart s p f) q n = ownsSq s q n := fun q n => by simp only [ownsSq, howner]
  have hwants : ∀ r, rankWants (updPart s p f) r = rankWants s r := fun r => by
    simp only [rankWants, howner, updPart_keeps Part.result (hres _)]; rfl
  simp only [railReady, howns, hwants, updPart_keeps Part.railDue (hdue _), updPart_lungo]

theorem endPoint_keepsQueues (s : State) (p : PartId) (j : SnpJob) : KeepsQueues s (endPoint s p j) := by
  have hwait : KeepsQueues s (updPart s p fun q => { q with haltWait := false }) := updPart_keepsQueues (fun _ => rfl) fun _ => rfl
  unfold endPoint
  exact .ite (hwait.trans (updCores_keepsQueues _ _ _)) ((hwait.trans (updCores_keepsQueues _ _ _)).trans (resumeBroadcast_keepsQueues _ _ _))

/-- The core of a square of the job as the end of a snapshot point leaves it where no halt request waits for the partition. -/
def pastPoint (c : Core) : Core :=
  { c with sealTag := none, haltLate := false, haltReq := c.haltReq || c.haltLate && (c.st == .running || c.st == .stalled) }

/-- The placed squares of the partition that the job names. -/
def pointSquares (s : State) (p : PartId) (j : SnpJob) : List SqId := (placedOf s p).filter fun n => j.squares.getLsbD n.val

/-- Partition p and the squares of the job past the snapshot point, before any square resumes. -/
def pointPassed (s : State) (p : PartId) (j : SnpJob) : State :=
  (pointSquares s p j).foldl (fun s n => updCore s n pastPoint) (updPart s p fun q => { q with haltWait := false })

theorem endPoint_noHalt {s : State} {p : PartId} (j : SnpJob) (h : s.parts[p].haltWait = false) : endPoint s p j =
    resumeBroadcast (pointPassed s p j) p ((pointSquares s p j).filter fun n => !j.keep.getLsbD n.val && !s.squares[n].core.haltLate) := by
  have hplaced : placedOf (updPart s p fun q => { q with haltWait := false }) p = placedOf s p := by
    unfold placedOf; rw [updPart_keeps Part.loaded rfl]
  unfold endPoint pointPassed pointSquares
  simp only [h, hplaced, updPart_squares, Bool.false_or, Bool.false_eq_true, if_false]
  rfl

theorem railReady_updCores (f : Core → Core) (l : List SqId) (s : State) (p : PartId) :
    railReady (l.foldl (fun s n => updCore s n f) s) p = railReady s p := by
  obtain ⟨q, h⟩ := updCores_frame f l s
  rw [h]; rfl

theorem railReady_pointPassed (s : State) (p : PartId) (j : SnpJob) : railReady (pointPassed s p j) p = railReady s p := by
  rw [pointPassed, railReady_updCores]
  refine railReady_updPart ?_ ?_ ?_ ?_ p <;> exact fun _ => rfl

theorem pointPassed_keeps {α : Type} (g : Core → α) (h : ∀ c, g (pastPoint c) = g c) (s : State) (p : PartId) (j : SnpJob) (n : SqId) :
    g (pointPassed s p j).squares[n].core = g s.squares[n].core := updCores_keeps g h _ _ n

/-- The squares that the seal halted, and for which no halt request waits, run again where they stand, once their ranks are on their rail. -/
theorem endPoint_resumes {s : State} {p : PartId} {j : SnpJob} {n : SqId} (hstop : s.parts[p].haltWait = false) (hr : railReady s p = true)
    (hn : n ∈ placedOf s p) (hjob : j.squares.getLsbD n.val = true) (hkeep : j.keep.getLsbD n.val = false)
    (hlate : s.squares[n].core.haltLate = false) (hst : s.squares[n].core.st = .halted) :
    (endPoint s p j).squares[n].core.st = .running ∧ (endPoint s p j).squares[n].core.idx = s.squares[n].core.idx := by
  have hfree : n ∈ (pointSquares s p j).filter fun n => !j.keep.getLsbD n.val && !s.squares[n].core.haltLate :=
    List.mem_filter.2 ⟨List.mem_filter.2 ⟨hn, hjob⟩, by rw [hkeep, hlate]; rfl⟩
  have hhalted : (pointPassed s p j).squares[n].core.st = .halted := (pointPassed_keeps Core.st (fun _ => rfl) s p j n).trans hst
  rw [endPoint_noHalt j hstop, ← pointPassed_keeps Core.idx (fun _ => rfl) s p j n]
  exact resumeBroadcast_resumes ((railReady_pointPassed s p j).trans hr) hfree hhalted

/-! ### Completions (R415, R422) -/

/-- The 32 bytes of a completion entry as `postEntry` writes them. -/
def entryWord (s : State) (p : PartId) (e : CqEntry) : BitVec 256 :=
  BitVec.ofNat 256 (e.id.toNat + (e.type <<< 32) + (e.status <<< 40) + (bool2nat s.parts[p].ring.phase <<< 48) + ((e.r1 % 2 ^ 64) <<< 64)
    + ((e.r2 % 2 ^ 64) <<< 128) + (nearCount s [1, p.val, s.parts[p].ring.cqTail] <<< 192))

theorem entryWord_fields (s : State) (p : PartId) (e : CqEntry) (ht : e.type < 256) (hs : e.status < 256) :
    bits (entryWord s p e) 31 0 = e.id.toNat ∧ bits (entryWord s p e) 39 32 = e.type ∧ bits (entryWord s p e) 47 40 = e.status := by
  have hid := e.id.isLt
  simp only [bits, entryWord, BitVec.toNat_ofNat, Nat.shiftLeft_eq, Nat.shiftRight_eq_div_pow]
  refine ⟨?_, ?_, ?_⟩ <;> omega

theorem postEntry_out (s : State) (p : PartId) (e : CqEntry) :
    s.out ++ [.completion p s.parts[p].ring.cqTail (entryWord s p e)] <+: (postEntry s p e).out := by
  unfold postEntry; dsimp only; split
  · exact fireMsix_out (updRingOf (emit s _) p _) p 0
  · exact List.prefix_rfl

theorem putEntry_out (s : State) (p : PartId) (e : CqEntry) : s.out <+: (putEntry s p e).out := by
  rcases putEntry_cases s p e with h | h
  · rw [h]; exact (List.prefix_append ..).trans (postEntry_out s p e)
  · rw [h]; exact List.prefix_rfl

theorem fenceDone_out (s : State) (p : PartId) : s.out <+: (fenceDone s p).out := by
  unfold fenceDone; split
  · split
    · exact putEntry_out (updPart s p _) p _
    · exact List.prefix_rfl
  · exact List.prefix_rfl

theorem updRingOf_snapQ (s : State) (p : PartId) (f : Ring → Ring) (q : PartId) : (updRingOf s p f).parts[q].snapQ = s.parts[q].snapQ :=
  updPart_keeps Part.snapQ rfl q

theorem fireMsix_snapQ (s : State) (fn : FnId) (v : Fin 8) (q : PartId) : (fireMsix s fn v).parts[q].snapQ = s.parts[q].snapQ := by
  obtain ⟨f, o, h⟩ := fireMsix_frame s fn v
  rw [h]

theorem postEntry_snapQ (s : State) (p : PartId) (e : CqEntry) (q : PartId) : (postEntry s p e).parts[q].snapQ = s.parts[q].snapQ := by
  unfold postEntry; dsimp only; split
  · exact (fireMsix_snapQ _ p 0 q).trans (updRingOf_snapQ (emit s _) p _ q)
  · exact updRingOf_snapQ (emit s _) p _ q

theorem putEntry_snapQ (s : State) (p : PartId) (e : CqEntry) (q : PartId) : (putEntry s p e).parts[q].snapQ = s.parts[q].snapQ := by
  rcases putEntry_cases s p e with h | h
  · rw [h]; exact postEntry_snapQ s p e q
  · rw [h]; exact updRingOf_snapQ s p _ q

theorem fenceDone_snapQ (s : State) (p q : PartId) : (fenceDone s p).parts[q].snapQ = s.parts[q].snapQ := by
  unfold fenceDone; split
  · split
    · exact (putEntry_snapQ (updPart s p _) p _ q).trans (updPart_keeps Part.snapQ (f := fun q => { q with fence := none }) rfl q)
    · rfl
  · rfl

theorem complete_snapQ (s : State) (p : PartId) (id : Word32) (type status r1 r2 : Nat) (q : PartId) :
    (complete s p id type status r1 r2).parts[q].snapQ = s.parts[q].snapQ :=
  (fenceDone_snapQ _ p q).trans (putEntry_snapQ s p _ q)

theorem emitted_of_prefix {s u t : State} {x : Output} (hu : s.out <+: u.out) (ht : u.out ++ [x] <+: t.out) : Emitted s t x := by
  obtain ⟨a, ha⟩ := hu
  obtain ⟨b, hb⟩ := ht
  simp [Emitted, ← hb, ← ha]

/-- A job that completes while the completion ring has room puts its entry out at once. -/
theorem complete_emits {s u : State} {p : PartId} (hout : s.out <+: u.out) (hroom : ringRoom u p = true) (id : Word32) {type status : Nat} (r1 r2 : Nat)
    (ht : type < 256) (hs : status < 256) :
    ∃ i e, Emitted s (complete u p id type status r1 r2) (.completion p i e) ∧ bits e 31 0 = id.toNat ∧ bits e 39 32 = type ∧ bits e 47 40 = status := by
  have hpost : putEntry u p ⟨.job, id, type, status, r1, r2⟩ = postEntry u p ⟨.job, id, type, status, r1, r2⟩ := if_pos hroom
  refine ⟨u.parts[p].ring.cqTail, _, emitted_of_prefix hout ?_, entryWord_fields u p ⟨.job, id, type, status, r1, r2⟩ ht hs⟩
  rw [complete, hpost]
  exact (postEntry_out ..).trans (fenceDone_out ..)

/-! ### The end of a job (R347, R361) -/

theorem complete_snp (s : State) (p : PartId) (id : Word32) (type status r1 r2 : Nat) : (complete s p id type status r1 r2).snp = s.snp := by
  obtain ⟨q, f, o, h⟩ := complete_frame s p id type status r1 r2
  rw [h]

theorem complete_squares (s : State) (p : PartId) (id : Word32) (type status r1 r2 : Nat) : (complete s p id type status r1 r2).squares = s.squares := by
  obtain ⟨q, f, o, h⟩ := complete_frame s p id type status r1 r2
  rw [h]

/-- A job that ends with no other waiting leaves the snapshot block without one. -/
theorem snpEnd_alone {s : State} {p : PartId} {j : SnpJob} (hj : s.snp[p].job = some j) (hq : s.parts[p].snapQ = []) (code : Nat) :
    ∃ r1 r2, snpEnd s p code =
      updPart (complete (updSnp s p fun x => { x with job := none }) p j.jobId j.type.toNat code r1 r2) p fun q => { q with snapQ := [] } := by
  unfold snpEnd pumpSnap
  rw [hj]
  simp only [snpComplete, complete_snapQ, updSnp_parts, hq]
  exact ⟨_, _, rfl⟩

/-- Such an end takes the job away and touches no square; with room in the ring, the completion goes out at once. -/
theorem snpEnd_alone_effect {s u : State} {p : PartId} {j : SnpJob} {code : Nat} (hj : u.snp[p].job = some j) (hq : u.parts[p].snapQ = [])
    (hroom : ringRoom u p = true) (hout : s.out <+: u.out) (hcode : code < 256) :
    (snpEnd u p code).snp[p] = { u.snp[p] with job := none } ∧ (snpEnd u p code).squares = u.squares
      ∧ ∃ i e, Emitted s (snpEnd u p code) (.completion p i e) ∧ bits e 31 0 = j.jobId.toNat ∧ bits e 39 32 = j.type.toNat ∧ bits e 47 40 = code := by
  obtain ⟨r1, r2, hend⟩ := snpEnd_alone hj hq code
  rw [hend]
  refine ⟨?_, complete_squares .., complete_emits (u := updSnp u p _) hout hroom j.jobId r1 r2 j.type.isLt hcode⟩
  rw [updPart_snp, complete_snp, updSnp_self]

theorem haltTimeout_due {s : State} {p : PartId} {j : SnpJob} (hj : s.snp[p].job = some j) (hphase : j.phase = .halting)
    (hstop : allStopped s p = false) (hdue : j.since + 1000000000 ≤ nowCt s) :
    haltTimeout s p = snpEnd (endPoint (dropGen s p j.gen) p j) p 6 := by
  simp only [haltTimeout, hj]
  exact if_pos (by simp [hphase, hstop, hdue])

theorem dropGen_job (s : State) (p : PartId) (g : Fin 2) : (dropGen s p g).snp[p].job = s.snp[p].job := by
  rw [dropGen, updSnp_self]

theorem dropGen_empty (s : State) (p : PartId) (g : Fin 2) : (dropGen s p g).snp[p].gens[g].st = .empty := by
  rw [dropGen, updSnp_self]
  simp

theorem KeepsQueues.ringRoom {s t : State} (h : KeepsQueues s t) (p : PartId) : ringRoom t p = ringRoom s p := by
  unfold Machine.ringRoom; rw [h.ring p]

/-- Settles O36: the generation is given up, the snapshot point ends, and the job completes with code 6. -/
theorem haltTimeoutEndsSnapshot : Obligations.HaltTimeoutEndsSnapshot := by
  intro s p j hj hq hroom hwait hphase hstop hdue
  have hkeeps : KeepsQueues (dropGen s p j.gen) (endPoint (dropGen s p j.gen) p j) := endPoint_keepsQueues ..
  have hjob : (endPoint (dropGen s p j.gen) p j).snp[p].job = some j := by rw [hkeeps.snp, dropGen_job, hj]
  obtain ⟨hsnp, hsquares, hdone⟩ := snpEnd_alone_effect (s := s) (code := 6) hjob ((hkeeps.snapQ p).trans hq)
    ((hkeeps.ringRoom p).trans hroom) hkeeps.out (by decide)
  have hexec : exec (.haltTimeout p) s = .next (snpEnd (endPoint (dropGen s p j.gen) p j) p 6) :=
    congrArg Host.Outcome.next (haltTimeout_due hj hphase hstop hdue)
  refine ⟨_, hexec, ?_, ?_, hdone, ?_, ?_⟩
  · rw [hsnp]
  · rw [hsnp, hkeeps.snp]
    exact dropGen_empty s p j.gen
  · intro hr n hn hown hkeep hlate hst
    rw [hsquares]
    exact endPoint_resumes hwait hr hn hown hkeep hlate hst
  · intro n
    rw [hsquares]
    exact hkeeps.mem n

end Sys2Proof.Machine
end
